-- ==== Sys2Proof/Word.lean ====
section
/-! DEFINITION. The two word types of the block: the 32-bit register word (rule R5, REG_WIDTH) and the byte
of guest memory (rule R61). -/

namespace Sys2Proof

/-- A register-bank entry, a command opcode or argument, a DSP word, a guest word: 32 bits (rules R5, R22, R90). -/
abbrev Word := BitVec 32

/-- One byte of guest-physical memory (rule R61). -/
abbrev Byte := BitVec 8

end Sys2Proof
end

