-- ==== Sys2Proof/Config.lean ====
section
/-! DEFINITION. What the block is configured with, and the free values. `Config` is the one configuration
record of rule R6: every value the source leaves open is a field of it, and a machine holds one such record
(`State.cfg`), which no step changes (log 7). The defaults stand in Machine/Defaults.lean. The `opaque`
constants are the values that the spec leaves to a draw or to a collaborator (logs 8 to 13): they have no body
that a proof can see. -/

namespace Sys2Proof

/-! ## Names the spec uses -/

/-- The two DSP coprocessors (rule R1). -/
inductive Coproc where
  | gp
  | ep
  deriving DecidableEq, Repr

/-- The three register windows (rule R20). -/
inductive Window where
  | top
  | gp
  | ep
  deriving DecidableEq, Repr

/-- The DSP memory spaces (rule R60). -/
inductive Space where
  | x
  | y
  | p
  deriving DecidableEq, Repr

/-- The direction of a transfer: buffer to guest, or guest to buffer (rules R97, R150). -/
inductive Dir where
  | toGuest
  | fromGuest
  deriving DecidableEq, Repr

/-- The three voice lists (rule R37). -/
inductive ListId where
  | l2d
  | l3d
  | mp
  deriving DecidableEq, Repr

/-- The three registers of a FIFO channel, in the order of rule R38 (BASE, END, CUR). -/
inductive FifoPart where
  | base
  | limit
  | cur
  deriving DecidableEq, Repr

/-- The named registers of the TOP window, one name per row of the table of rule R24. The four descriptor tables
(rule R36) are named by coprocessor; a FIFO register by coprocessor, direction, channel and part (rule R38). -/
inductive TopReg where
  | ists
  | ien
  | fectl
  | fecv
  | feav
  | fedecmeth
  | fedecparam
  | fememaddr
  | fememdata
  | fetforce1
  | sectl
  | xgscnt
  | vpvaddr
  | scratchBase (c : Coproc)
  | fifoTableBase (c : Coproc)
  | scratchMax (c : Coproc)
  | fifoTableMax (c : Coproc)
  | listTop (l : ListId)
  | listCurrent (l : ListId)
  | listNext (l : ListId)
  | fifo (c : Coproc) (dir : Dir) (k : Nat) (part : FifoPart)
  deriving DecidableEq, Repr

/-! ## The configuration record -/

/-- The addresses of the named registers: byte offsets within their window (rules R24, R38, R39). -/
structure AddrMap where
  ists : Nat
  ien : Nat
  fectl : Nat
  fecv : Nat
  feav : Nat
  fedecmeth : Nat
  fedecparam : Nat
  fememaddr : Nat
  fememdata : Nat
  fetforce1 : Nat
  sectl : Nat
  xgscnt : Nat
  vpvaddr : Nat
  gpsaddr : Nat
  gpfaddr : Nat
  epsaddr : Nat
  epfaddr : Nat
  gpsmaxsge : Nat
  gpfmaxsge : Nat
  epsmaxsge : Nat
  epfmaxsge : Nat
  tvl2d : Nat
  cvl2d : Nat
  nvl2d : Nat
  tvl3d : Nat
  cvl3d : Nat
  nvl3d : Nat
  tvlmp : Nat
  cvlmp : Nat
  nvlmp : Nat
  gpofbase0 : Nat
  gpifbase0 : Nat
  epofbase0 : Nat
  epifbase0 : Nat
  gprst : Nat
  eprst : Nat
  deriving DecidableEq, Repr

/-- The field masks and the field values of rule R93, but for the voice record's (`VoiceLayout`). -/
structure FieldMap where
  istsGlobal : Word
  istsFe : Word
  fectlMode : Word
  fectlReason : Word
  feavHandle : Word
  feavList : Word
  fetforce1Idle : Word
  sectlXcntmode : Word
  rstReset : Word
  rstDsprst : Word
  rstNmi : Word
  rstAbort : Word
  argHandle : Word
  argPauseAction : Word
  /-- the value TRAPPED of FEMETHMODE (rule R27) -/
  modeTrapped : Word
  /-- the value REQUESTED of FETRAPREASON (rule R27) -/
  reasonRequested : Word
  /-- the value XCNTMODE_OFF (rule R33) -/
  xcntmodeOff : Word
  /-- the values of FEAV_LIST (rule R29): inherit, 2D, 3D, Multipass -/
  listInherit : Word
  list2d : Word
  list3d : Word
  listMp : Word
  deriving DecidableEq, Repr

/-- The opcodes of the six commands (rule R91). -/
structure OpcodeMap where
  setAntecedentVoice : Word
  voiceOn : Word
  voiceOff : Word
  voicePause : Word
  setCurrentVoice : Word
  idleVoiceNotify : Word
  deriving DecidableEq, Repr

/-- The layout of a voice record (rules R6, R43). -/
structure VoiceLayout where
  stateOff : Nat
  activeMask : Word
  pausedMask : Word
  linkOff : Nat
  linkMask : Word
  deriving DecidableEq, Repr

/-- The DSP word base of a row of P_SUBWINDOWS (rule R48): a number, or, for the MIXBUF row, P_MIXBUF_BASE, so that
the row reaches the words a tick publishes, wherever they are (rule R268). -/
inductive WordBase where
  | word (n : Nat)
  | mixbuf
  deriving DecidableEq, Repr

/-- One row of P_SUBWINDOWS (rule R48): offsets `lo ≤ a < hi` of the window of coprocessor `c` are the DSP words
`wb + (a - lo) / 4` of `space`. -/
structure SubWindow where
  c : Coproc
  lo : Nat
  hi : Nat
  space : Space
  wb : WordBase
  deriving DecidableEq, Repr

/-- P_FIFO_DECODE (rule R176): the identity; masked fields, inserted back under the cursor mask, with or without
shifting the extracted field down; or four functions of which nothing is known (log 13). -/
inductive FifoDecode where
  | identity
  | masked (baseMask endMask curMask : Word) (shiftDown : Bool)
  | external
  deriving DecidableEq, Repr

/-- P_METHOD_PORT (rule R92): where the voice-processor window and the three register windows lie in the device's
MMIO region (log 27). -/
structure MmioLayout where
  vpBase : Nat
  vpSize : Nat
  topBase : Nat
  gpBase : Nat
  epBase : Nat
  deriving DecidableEq, Repr

/-- The configuration record of rule R6: every parameter of the spec but P_MIX, which is a function and stands
below as `Config.mixVoice`. -/
structure Config where
  /-- P_RAM_SIZE -/
  ramSize : Nat
  /-- P_PAGE_SIZE -/
  pageSize : Nat
  /-- P_DESC_STRIDE -/
  descStride : Nat
  /-- P_DESC_ADDR_OFF -/
  descAddrOff : Nat
  /-- P_DMA_BOUND_STRICT -/
  dmaBoundStrict : Bool
  /-- P_FIFO_DECODE -/
  fifoDecode : FifoDecode
  /-- P_FIFO_STRIDE -/
  fifoStride : Nat
  /-- P_IRQ_GLOBAL_GATE -/
  irqGlobalGate : Bool
  /-- P_GP_RUN_CYCLES -/
  gpRunCycles : Nat
  /-- P_MIXBUF_BASE -/
  mixbufBase : Nat
  /-- P_SUBWINDOWS -/
  subwindows : List SubWindow
  /-- P_HOLD_WHEN_TRAPPED -/
  holdWhenTrapped : Bool
  /-- P_COPROC_RESET_CLEARS_FIFO -/
  coprocResetClearsFifo : Bool
  /-- P_METHOD_PORT -/
  mmio : MmioLayout
  /-- the parameters `A_<name>` -/
  addr : AddrMap
  /-- the field masks and values of rule R93 -/
  field : FieldMap
  /-- the parameters `OP_<name>` -/
  opcode : OpcodeMap
  /-- the parameters `P_VS_*` -/
  voice : VoiceLayout
  deriving DecidableEq, Repr

/-! ## The mix buffer -/

/-- The mix buffer of rule R46: 32 mix-bins of 32 samples, each a signed 32-bit accumulator held as its
two's-complement word. -/
abbrev MixBuffer := Vector (Vector Word 32) 32

/-- The buffer every tick starts from: every cell 0 (rule R264). -/
def MixBuffer.zero : MixBuffer := Vector.replicate 32 (Vector.replicate 32 0#32)

/-! ## Free values and external functions -/

/-- P_MIX (rule R267): the external mixer's contribution of one voice, from the voice's handle, the mix buffer and
guest memory, to the mix buffer. Uninterpreted (log 12). -/
opaque Config.mixVoice : Word → MixBuffer → List Host.Cell → MixBuffer

/-- A value of the free-running counter XGSCNT (rule R128), for the draw numbered by the argument (log 8). -/
opaque Config.counterDraw : Nat → Word

/-- What a host read of the method port returns (rule R134), for the draw numbered by the argument (log 9). -/
opaque Config.methodPortDraw : Nat → Word

/-- The DSP core's answer to `readMemory(space, addr)` (rules R11, R129): the core, the space, the DSP word address
and the number of the draw (log 10). -/
opaque Config.dspReadAnswer : Coproc → Space → Nat → Nat → Word

/-- The timer facility's `Now()` in milliseconds (rule R12), for the draw numbered by the argument (log 11). -/
opaque Config.nowMs : Nat → Nat

/-- `baseOf` of an unknown P_FIFO_DECODE (rule R176, log 13). -/
opaque Config.fifoBaseOf : Word → Nat

/-- `endOf` of an unknown P_FIFO_DECODE (rule R176, log 13). -/
opaque Config.fifoEndOf : Word → Nat

/-- `curOf` of an unknown P_FIFO_DECODE (rule R176, log 13). -/
opaque Config.fifoCurOf : Word → Nat

/-- `curStore` of an unknown P_FIFO_DECODE (rule R176, log 13). -/
opaque Config.fifoCurStore : Word → Nat → Word

end Sys2Proof
end

