-- ==== Sys2Proof/Machine/Defaults.lean ====
section
/-! DEFINITION. The defaults of the configuration record: the value each parameter has "unless the model is told
otherwise" (rule R6). Every value marked `[gk]` in the spec is PRESUMED (log 6): it is the xqemu / MCPX APU family's,
and the spec's source does not confirm it. The size of guest memory has no default in the spec: it is the DESIGN
CHOICE of log 5. -/

namespace Sys2Proof

/-- The register addresses of rules R24, R38 and R39 (PRESUMED, log 6). -/
def AddrMap.default : AddrMap where
  ists := 0x1000
  ien := 0x1004
  fectl := 0x1100
  fecv := 0x1110
  feav := 0x1118
  fedecmeth := 0x1300
  fedecparam := 0x1304
  fememaddr := 0x1324
  fememdata := 0x1334
  fetforce1 := 0x1504
  sectl := 0x2000
  xgscnt := 0x200C
  vpvaddr := 0x202C
  gpsaddr := 0x2040
  gpfaddr := 0x2044
  epsaddr := 0x2048
  epfaddr := 0x204C
  gpsmaxsge := 0x20D4
  gpfmaxsge := 0x20D8
  epsmaxsge := 0x20DC
  epfmaxsge := 0x20E0
  tvl2d := 0x2054
  cvl2d := 0x2058
  nvl2d := 0x205C
  tvl3d := 0x2060
  cvl3d := 0x2064
  nvl3d := 0x2068
  tvlmp := 0x206C
  cvlmp := 0x2070
  nvlmp := 0x2074
  gpofbase0 := 0x3024
  gpifbase0 := 0x3064
  epofbase0 := 0x4024
  epifbase0 := 0x4064
  gprst := 0xFFFC
  eprst := 0xFFFC

/-- The masks and values of rule R93 (PRESUMED, log 6). -/
def FieldMap.default : FieldMap where
  istsGlobal := 0x00000001#32
  istsFe := 0x00000010#32
  fectlMode := 0x000000E0#32
  fectlReason := 0x00000F00#32
  feavHandle := 0x0000FFFF#32
  feavList := 0x00030000#32
  fetforce1Idle := 0x00008000#32
  sectlXcntmode := 0x00000018#32
  rstReset := 0x00000001#32
  rstDsprst := 0x00000002#32
  rstNmi := 0x00000004#32
  rstAbort := 0x00000008#32
  argHandle := 0x0000FFFF#32
  argPauseAction := 0x00040000#32
  modeTrapped := 7#32
  reasonRequested := 0xF#32
  xcntmodeOff := 0#32
  listInherit := 0#32
  list2d := 1#32
  list3d := 2#32
  listMp := 3#32

/-- The opcodes of rule R91 (PRESUMED, log 6). -/
def OpcodeMap.default : OpcodeMap where
  setAntecedentVoice := 0x00000120#32
  voiceOn := 0x00000124#32
  voiceOff := 0x00000128#32
  voicePause := 0x00000140#32
  setCurrentVoice := 0x000002F8#32
  idleVoiceNotify := 0x00008000#32

/-- The voice-record layout of rule R6 (PRESUMED, log 6). -/
def VoiceLayout.default : VoiceLayout where
  stateOff := 0x54
  activeMask := 0x00200000#32
  pausedMask := 0x00040000#32
  linkOff := 0x7C
  linkMask := 0x0000FFFF#32

/-- The sub-window table of rule R48 for one coprocessor; EP is given the same table (PRESUMED, log 6). The MIXBUF
row starts at P_MIXBUF_BASE, whatever the configuration makes it. -/
def SubWindow.defaultsFor (c : Coproc) : List SubWindow :=
  [⟨c, 0x0000, 0x4000, .x, .word 0⟩, ⟨c, 0x5000, 0x6000, .x, .mixbuf⟩, ⟨c, 0x6000, 0x8000, .y, .word 0⟩,
    ⟨c, 0xA000, 0xE000, .p, .word 0⟩]

/-- The candidate layout of the device's MMIO region (rule R92, PRESUMED, logs 6 and 27). -/
def MmioLayout.default : MmioLayout where
  vpBase := 0x20000
  vpSize := 0x10000
  topBase := 0
  gpBase := 0x30000
  epBase := 0x50000

/-- The configuration a machine has when it is told nothing else (rule R6). -/
def Config.default : Config where
  ramSize := 0x100000
  pageSize := 4096
  descStride := 8
  descAddrOff := 0
  dmaBoundStrict := false
  fifoDecode := .identity
  fifoStride := 0x10
  irqGlobalGate := false
  gpRunCycles := 1000
  mixbufBase := 0x1400
  subwindows := SubWindow.defaultsFor .gp ++ SubWindow.defaultsFor .ep
  holdWhenTrapped := false
  coprocResetClearsFifo := false
  mmio := .default
  addr := .default
  field := .default
  opcode := .default
  voice := .default

end Sys2Proof
end

