-- ==== Sys2Proof/Syntax.lean ====
section
/-! DEFINITION. The instructions of the block: one constructor of `Instr` per row of spec/opcode_table.json.
The block has no instruction words (30_encoding.md): its "instructions" are the front-end commands, the host's
register accesses, the DSP cores' DMA requests, the frame tick and the device reset (rule R1). -/

namespace Sys2Proof

/-- What a host access does at an offset: read it, or write a 32-bit value (rule R96). -/
inductive Access where
  | read
  | write (v : Word)
  deriving DecidableEq, Repr

/-- What the host does at the method port: submit a command (rule R133) or read the port (rule R134). -/
inductive PortAccess where
  | submit (op arg : Word)
  | read
  deriving DecidableEq, Repr

/-- Who submits a front-end command (rule R230). -/
inductive FeSource where
  | host
  | scheduler
  deriving DecidableEq, Repr

/-- A request a DSP core makes while the block has called into it (rules R97, R273); the core is the called one. -/
inductive DspReq where
  | scratch (dir : Dir) (off : Word) (len : Nat) (data : List Byte)
  | fifo (dir : Dir) (k : Nat) (len : Nat) (data : List Byte)
  deriving DecidableEq, Repr

/-- The instructions, in the order of spec/opcode_table.json. -/
inductive Instr where
  /-- SET_ANTECEDENT_VOICE (rule R232) -/
  | setAntecedentVoice (arg : Word)
  /-- VOICE_ON (rule R233) -/
  | voiceOn (arg : Word)
  /-- VOICE_OFF (rule R234) -/
  | voiceOff (arg : Word)
  /-- VOICE_PAUSE (rule R235) -/
  | voicePause (arg : Word)
  /-- SET_CURRENT_VOICE (rule R236) -/
  | setCurrentVoice (arg : Word)
  /-- IDLE_VOICE_NOTIFY (rules R238, R231) -/
  | idleVoiceNotify (arg : Word)
  /-- UNKNOWN_METHOD: any other opcode (rule R231) -/
  | unknownMethod (op arg : Word)
  /-- W_ISTS (rule R124) -/
  | wIsts (v : Word)
  /-- W_SECTL (rule R126) -/
  | wSectl (v : Word)
  /-- W_FEMEMDATA (rule R127) -/
  | wFememdata (v : Word)
  /-- R_XGSCNT (rule R128) -/
  | rXgscnt
  /-- W_TOP_PLAIN (rule R122) -/
  | wTopPlain (off v : Word)
  /-- R_TOP_PLAIN (rules R120, R123) -/
  | rTopPlain (off : Word)
  /-- TOP_OUT_OF_RANGE (rules R21, R120, R121) -/
  | topOutOfRange (off : Word) (acc : Access)
  /-- W_RST: GPRST or EPRST (rule R131) -/
  | wRst (c : Coproc) (v : Word)
  /-- W_SUBWINDOW (rules R130, R132) -/
  | wSubwindow (c : Coproc) (off v : Word)
  /-- R_SUBWINDOW (rules R129, R132) -/
  | rSubwindow (c : Coproc) (off : Word)
  /-- GPEP_PLAIN: a plain access, a read of the reset register among them (rules R129, R130, R39) -/
  | gpepPlain (c : Coproc) (off : Word) (acc : Access)
  /-- GPEP_OUT_OF_RANGE (rules R21, R129, R130) -/
  | gpepOutOfRange (c : Coproc) (off : Word) (acc : Access)
  /-- METHOD_SUBMIT: the method port (rules R133, R134) -/
  | methodSubmit (acc : PortAccess)
  /-- SCRATCH_REQ (rule R158) -/
  | scratchReq (c : Coproc) (dir : Dir) (off : Word) (len : Nat) (data : List Byte)
  /-- FIFO_REQ (rule R177) -/
  | fifoReq (c : Coproc) (dir : Dir) (k : Nat) (len : Nat) (data : List Byte)
  /-- TICK (rule R263) -/
  | tick
  /-- RESET (rule R330) -/
  | reset
  deriving DecidableEq, Repr

/-- Why an event packet is no instruction (the decoder names the reason). -/
inductive DecodeError where
  /-- a host access that is not 32 bits wide or not at a multiple of 4: `refuse(UnsupportedAccess)` (rule R63) -/
  | unsupportedAccess
  /-- a DSP request whose data is not what its length says (rules R158, R177, R305) -/
  | requestDataLength
  /-- the form word is none of the model's event forms (log 1) -/
  | unknownForm
  /-- the packet has too few or too many words for its form (log 1) -/
  | badLength
  /-- a word that the form does not use is not zero (log 1) -/
  | unusedWordSet
  /-- a data word of a request is not a byte (log 1) -/
  | badDataByte
  /-- a device access at an address of none of the windows (log 27) -/
  | noWindow
  deriving DecidableEq, Repr

end Sys2Proof
end

