-- ==== Sys2Proof/Machine/Operands.lean ====
section
/-! DEFINITION. Operand forms: bit fields (rule R7), the address of each named register (rules R24, R38, R39), the
windows and sub-windows (rules R20 to R22, R48, R132), the fields of a command's argument (rule R94), the FIFO decode
(rule R176), and the addresses of descriptors and voice words (rules R95, R200). All of it is a function of the
configuration record; nothing here touches the machine's state. -/

namespace Sys2Proof

/-! ## Bit fields (rule R7) -/

/-- The first set bit of `m` at or above `i`, looking at most `fuel` bits further; `i + fuel` if there is none. -/
def ctzFrom (m : Word) : Nat → Nat → Nat
  | 0, i => i
  | fuel + 1, i => if m.getLsbD i then i else ctzFrom m fuel (i + 1)

/-- `ctz(m)`: the number of trailing zero bits of a nonzero mask (rule R7). -/
def ctz (m : Word) : Nat := ctzFrom m 32 0

/-- `getf(v, m)` (rule R7). -/
def getf (v m : Word) : Word := (v &&& m) >>> ctz m

/-- `setf(v, m, x)` (rule R7): only the bits of `m` change. -/
def setf (v m x : Word) : Word := (v &&& ~~~m) ||| ((x <<< ctz m) &&& m)

/-! ## Constants the source fixes (rule R5) -/

/-- NO_VOICE (rule R5). -/
def noVoice : Word := 0xFFFF#32

/-- VOICE_RECORD_SIZE in bytes (rule R5). -/
def voiceRecordSize : Nat := 128

/-- TICK_PERIOD_MS (rule R5). -/
def tickPeriodMs : Nat := 10

/-- MIX_PUBLISH_MASK, 24 bits (rule R5). -/
def mixPublishMask : Word := 0x00FFFFFF#32

/-- How many channels a coprocessor has in a direction: OUT_CHANNELS or IN_CHANNELS (rules R5, R179). -/
def channelCount : Dir → Nat
  | .toGuest => 4
  | .fromGuest => 2

/-- `size(W)`: the byte bound of a window's offsets (rules R20, R21). -/
def Window.size : Window → Nat
  | .top => 0x20000
  | .gp => 0x10000
  | .ep => 0x10000

/-- The window of a coprocessor. -/
def Coproc.window : Coproc → Window
  | .gp => .gp
  | .ep => .ep

/-- The alignment a host access needs: an offset that is a multiple of 4 (rules R22, R63). -/
def aligned (off : Word) : Bool := off.toNat % 4 == 0

/-! ## The address of a named register -/

/-- `A_<c><dir>FBASE0`: the BASE register of a coprocessor's channel 0 in a direction (rule R38). -/
def AddrMap.fifoBase0 (m : AddrMap) : Coproc → Dir → Nat
  | .gp, .toGuest => m.gpofbase0
  | .gp, .fromGuest => m.gpifbase0
  | .ep, .toGuest => m.epofbase0
  | .ep, .fromGuest => m.epifbase0

/-- The place of a channel's register within its triple: BASE, END at +4, CUR at +8 (rule R38). -/
def FifoPart.offset : FifoPart → Nat
  | .base => 0
  | .limit => 4
  | .cur => 8

/-- The byte offset of a named register in the TOP window (rules R24, R38). -/
def Config.addrOf (cfg : Config) : TopReg → Nat
  | .ists => cfg.addr.ists
  | .ien => cfg.addr.ien
  | .fectl => cfg.addr.fectl
  | .fecv => cfg.addr.fecv
  | .feav => cfg.addr.feav
  | .fedecmeth => cfg.addr.fedecmeth
  | .fedecparam => cfg.addr.fedecparam
  | .fememaddr => cfg.addr.fememaddr
  | .fememdata => cfg.addr.fememdata
  | .fetforce1 => cfg.addr.fetforce1
  | .sectl => cfg.addr.sectl
  | .xgscnt => cfg.addr.xgscnt
  | .vpvaddr => cfg.addr.vpvaddr
  | .scratchBase .gp => cfg.addr.gpsaddr
  | .scratchBase .ep => cfg.addr.epsaddr
  | .fifoTableBase .gp => cfg.addr.gpfaddr
  | .fifoTableBase .ep => cfg.addr.epfaddr
  | .scratchMax .gp => cfg.addr.gpsmaxsge
  | .scratchMax .ep => cfg.addr.epsmaxsge
  | .fifoTableMax .gp => cfg.addr.gpfmaxsge
  | .fifoTableMax .ep => cfg.addr.epfmaxsge
  | .listTop .l2d => cfg.addr.tvl2d
  | .listTop .l3d => cfg.addr.tvl3d
  | .listTop .mp => cfg.addr.tvlmp
  | .listCurrent .l2d => cfg.addr.cvl2d
  | .listCurrent .l3d => cfg.addr.cvl3d
  | .listCurrent .mp => cfg.addr.cvlmp
  | .listNext .l2d => cfg.addr.nvl2d
  | .listNext .l3d => cfg.addr.nvl3d
  | .listNext .mp => cfg.addr.nvlmp
  | .fifo c dir k part => cfg.addr.fifoBase0 c dir + cfg.fifoStride * k + part.offset

/-- `A_RST(c)`: the reset register's offset in the window of `c` (rule R39). -/
def Config.rstAddr (cfg : Config) : Coproc → Nat
  | .gp => cfg.addr.gprst
  | .ep => cfg.addr.eprst

/-! ## Sub-windows -/

/-- Does this row of P_SUBWINDOWS hold offset `a` of the window of `c`? (rule R48) -/
def SubWindow.holds (w : SubWindow) (c : Coproc) (a : Nat) : Bool :=
  decide (w.c = c) && decide (w.lo ≤ a) && decide (a < w.hi)

/-- The row of P_SUBWINDOWS that holds offset `a` of the window of `c`, if one does (rules R48, R129). -/
def Config.subwindowAt (cfg : Config) (c : Coproc) (a : Nat) : Option SubWindow :=
  cfg.subwindows.find? fun w => w.holds c a

/-- The number of a DSP word base; the MIXBUF row's is P_MIXBUF_BASE (rules R48, R268). -/
def WordBase.toWord (b : WordBase) (cfg : Config) : Nat :=
  match b with
  | .word n => n
  | .mixbuf => cfg.mixbufBase

/-- The DSP word address of offset `a` in a sub-window: `wb + (a - lo) / 4` (rules R48, R132). -/
def SubWindow.dspAddr (w : SubWindow) (cfg : Config) (a : Nat) : Nat := w.wb.toWord cfg + (a - w.lo) / 4

/-! ## Command arguments (rule R94) -/

/-- The voice handle of a VoiceOn or VoicePause argument (rule R94). -/
def Config.argHandle (cfg : Config) (arg : Word) : Word := getf arg cfg.field.argHandle

/-- The action of a VoicePause argument: true is pause (rules R94, R235). -/
def Config.argPause (cfg : Config) (arg : Word) : Bool := getf arg cfg.field.argPauseAction != 0#32

/-- The antecedent handle of a FEAV word (rule R29). -/
def Config.feavHandle (cfg : Config) (feav : Word) : Word := getf feav cfg.field.feavHandle

/-- The list that a FEAV word selects, none for inherit (rules R29, R233). A selector that is none of the four
values counts as Multipass; a well-formed configuration has no such selector (log 30). -/
def Config.feavList (cfg : Config) (feav : Word) : Option ListId :=
  let sel := getf feav cfg.field.feavList
  if sel = cfg.field.listInherit then none
  else if sel = cfg.field.list2d then some .l2d
  else if sel = cfg.field.list3d then some .l3d
  else some .mp

/-! ## FIFO register words (rule R176) -/

/-- The value of a masked field, shifted down or left in place. -/
def maskedField (shiftDown : Bool) (w m : Word) : Nat :=
  if shiftDown then (getf w m).toNat else (w &&& m).toNat

/-- `baseOf` (rule R176). -/
def FifoDecode.baseOf : FifoDecode → Word → Nat
  | .identity, w => w.toNat
  | .masked bm _ _ sh, w => maskedField sh w bm
  | .external, w => Config.fifoBaseOf w

/-- `endOf` (rule R176). -/
def FifoDecode.endOf : FifoDecode → Word → Nat
  | .identity, w => w.toNat
  | .masked _ em _ sh, w => maskedField sh w em
  | .external, w => Config.fifoEndOf w

/-- `curOf` (rule R176). -/
def FifoDecode.curOf : FifoDecode → Word → Nat
  | .identity, w => w.toNat
  | .masked _ _ cm sh, w => maskedField sh w cm
  | .external, w => Config.fifoCurOf w

/-- `curStore(old, cur)`: the word written back for a cursor (rule R176); the identity stores `cur mod 2^32`. -/
def FifoDecode.curStore : FifoDecode → Word → Nat → Word
  | .identity, _, cur => BitVec.ofNat 32 cur
  | .masked _ _ cm true, old, cur => setf old cm (BitVec.ofNat 32 cur)
  | .masked _ _ cm false, old, cur => (old &&& ~~~cm) ||| (BitVec.ofNat 32 cur &&& cm)
  | .external, old, cur => Config.fifoCurStore old cur

/-! ## Guest addresses -/

/-- The address of the base word of descriptor `i` of the table at `T`: an unbounded sum (rules R95, R151, R157). -/
def Config.descAddr (cfg : Config) (T i : Nat) : Nat := T + i * cfg.descStride + cfg.descAddrOff

/-- `rec(h)` with VPVADDR = `vpv`: an unbounded sum (rule R200). -/
def voiceRecord (vpv h : Word) : Nat := vpv.toNat + h.toNat * voiceRecordSize

/-- 2^32: an address sum of the DMA engine at or above it fails its bound check, however large guest memory is (rule
R157, decision D11). -/
def addrLimit : Nat := 0x100000000

/-- A run `[p, p+n)` is in bounds: `p + n ≤ P_RAM_SIZE`, or `<` when P_DMA_BOUND_STRICT (rule R153), and the sum that
each of its bytes maps to lies below 2^32 (rules R71, R157; DEDUCED for the bytes after the first, log 34). -/
def Config.dmaInBounds (cfg : Config) (p n : Nat) : Bool :=
  decide (p + n ≤ addrLimit) &&
    if cfg.dmaBoundStrict then decide (p + n < cfg.ramSize) else decide (p + n ≤ cfg.ramSize)

end Sys2Proof
end

