-- ==== Sys2Proof/WellFormed.lean ====
section
/-! DEFINITION. Well-formedness: of the configuration record (the constraints of rules R6, R24, R48, R91, R93, and
those of logs 26 and 32) and of an instruction (each constructor names
exactly the forms of its row of the opcode table). -/

namespace Sys2Proof

/-- The two coprocessors, the three lists, the parts of a triple. -/
def Coproc.all : List Coproc := [.gp, .ep]

/-- The three lists, in the order a tick walks them (rule R265). -/
def ListId.all : List ListId := [.l2d, .l3d, .mp]

/-- The FIFO registers of one direction of a coprocessor, every channel of rule R179. -/
def TopReg.fifosOf (c : Coproc) (dir : Dir) : List TopReg :=
  (List.range (channelCount dir)).flatMap fun k => [.fifo c dir k .base, .fifo c dir k .limit, .fifo c dir k .cur]

/-- Every named register of the TOP window (rule R24). -/
def TopReg.all : List TopReg :=
  [.ists, .ien, .fectl, .fecv, .feav, .fedecmeth, .fedecparam, .fememaddr, .fememdata, .fetforce1, .sectl, .xgscnt,
    .vpvaddr] ++
  Coproc.all.flatMap (fun c => [.scratchBase c, .fifoTableBase c, .scratchMax c, .fifoTableMax c]) ++
  ListId.all.flatMap (fun l => [.listTop l, .listCurrent l, .listNext l]) ++
  Coproc.all.flatMap (fun c => TopReg.fifosOf c .toGuest ++ TopReg.fifosOf c .fromGuest)

/-- No value occurs twice in the list. -/
def allDistinct : List Nat → Bool
  | [] => true
  | a :: t => t.all (fun b => a != b) && allDistinct t

/-- The register addresses are pairwise distinct multiples of 4 below the window's size (rules R24, R39). -/
def Config.addrsOk (cfg : Config) : Bool :=
  allDistinct (TopReg.all.map cfg.addrOf) &&
  TopReg.all.all (fun r => cfg.addrOf r % 4 == 0 && decide (cfg.addrOf r < Window.top.size)) &&
  Coproc.all.all (fun c => cfg.rstAddr c % 4 == 0 && decide (cfg.rstAddr c < c.window.size))

/-- The two masks share no bit (rule R93). -/
def apart (m₁ m₂ : Word) : Bool := m₁ &&& m₂ == 0#32

/-- Every mask is nonzero, and masks of one word do not overlap (rule R93). -/
def FieldMap.masksOk (f : FieldMap) : Bool :=
  [f.istsGlobal, f.istsFe, f.fectlMode, f.fectlReason, f.feavHandle, f.feavList, f.fetforce1Idle, f.sectlXcntmode,
    f.rstReset, f.rstDsprst, f.rstNmi, f.rstAbort, f.argHandle, f.argPauseAction].all (fun m => m != 0#32) &&
  apart f.istsGlobal f.istsFe && apart f.fectlMode f.fectlReason && apart f.feavHandle f.feavList &&
  apart f.rstReset f.rstDsprst && apart f.rstReset f.rstNmi && apart f.rstReset f.rstAbort &&
  apart f.rstDsprst f.rstNmi && apart f.rstDsprst f.rstAbort && apart f.rstNmi f.rstAbort &&
  apart f.argHandle f.argPauseAction

/-- The value fits the field: writing it and reading it back gives it (log 26). -/
def fieldHolds (m x : Word) : Bool := getf (setf 0#32 m x) m == x

/-- The values of the fields fit them; FEAV_LIST is a field of two neighbouring bits whose four values are the four
list selectors (rules R27, R29, R98; log 26). -/
def FieldMap.valuesOk (f : FieldMap) : Bool :=
  fieldHolds f.fectlMode f.modeTrapped && fieldHolds f.fectlReason f.reasonRequested &&
  fieldHolds f.sectlXcntmode f.xcntmodeOff &&
  f.feavList >>> ctz f.feavList == 3#32 && [f.listInherit, f.list2d, f.list3d, f.listMp].all (fieldHolds f.feavList) &&
  allDistinct [f.listInherit.toNat, f.list2d.toNat, f.list3d.toNat, f.listMp.toNat]

/-- The six opcodes are pairwise distinct (rule R91). -/
def OpcodeMap.ok (o : OpcodeMap) : Bool :=
  allDistinct [o.setAntecedentVoice.toNat, o.voiceOn.toNat, o.voiceOff.toNat, o.voicePause.toNat,
    o.setCurrentVoice.toNat, o.idleVoiceNotify.toNat]

/-- The masks of the voice words are nonzero and apart; both words lie inside the 128-byte record, and they are the
same word with masks apart, or do not overlap (rules R43, R93; log 26). -/
def VoiceLayout.ok (v : VoiceLayout) : Bool :=
  v.activeMask != 0#32 && v.pausedMask != 0#32 && v.linkMask != 0#32 && apart v.activeMask v.pausedMask &&
  decide (v.stateOff + 4 ≤ voiceRecordSize) && decide (v.linkOff + 4 ≤ voiceRecordSize) &&
  (decide (v.stateOff + 4 ≤ v.linkOff) || decide (v.linkOff + 4 ≤ v.stateOff) ||
    (v.stateOff == v.linkOff && apart v.linkMask v.activeMask && apart v.linkMask v.pausedMask))

/-- A row of P_SUBWINDOWS lies below its window's size and does not hold the reset register (rule R48), and starts at a
multiple of 4 (rule R132). That its upper bound `hi` is a multiple of 4 too is the model's own constraint (DESIGN
CHOICE, log 32): the spec asks it of no row. -/
def SubWindow.ok (w : SubWindow) (cfg : Config) : Bool :=
  w.lo % 4 == 0 && w.hi % 4 == 0 && decide (w.hi ≤ w.c.window.size) && !w.holds w.c (cfg.rstAddr w.c)

/-- A MIXBUF row is a range of X memory (rule R48; log 26). -/
def SubWindow.mixbufOk (w : SubWindow) : Bool := w.wb != .mixbuf || w.space == .x

/-- Two rows of one window have disjoint ranges (rule R48). -/
def SubWindow.apart (w₁ w₂ : SubWindow) : Bool :=
  decide (w₁.c ≠ w₂.c) || decide (w₁.hi ≤ w₂.lo) || decide (w₂.hi ≤ w₁.lo)

/-- The ranges of the rows are pairwise disjoint (rule R48). -/
def subwindowsApart : List SubWindow → Bool
  | [] => true
  | w :: t => t.all w.apart && subwindowsApart t

/-- The rows of P_SUBWINDOWS are apart, the MIXBUF rows lie in X memory, and each coprocessor has one ("X" data memory
including a fixed mix-buffer sub-window, rule R48; log 26). -/
def subwindowTableOk (ws : List SubWindow) : Bool :=
  subwindowsApart ws && ws.all SubWindow.mixbufOk &&
  Coproc.all.all (fun c => ws.any fun w => w.c == c && w.wb == .mixbuf)

/-- The windows of the device's MMIO region start at multiples of 4: the model's own constraint (DESIGN CHOICE, log 27);
rule R92 asks it of no base. -/
def MmioLayout.ok (m : MmioLayout) : Bool :=
  m.vpBase % 4 == 0 && m.topBase % 4 == 0 && m.gpBase % 4 == 0 && m.epBase % 4 == 0

/-- A power of two (P_PAGE_SIZE, rule R6). -/
def isPowerOfTwo (n : Nat) : Bool := n != 0 && n &&& (n - 1) == 0

/-- The configuration meets the constraints the spec puts on its parameters (rules R6, R24, R48, R91, R93; logs
26, 27 and 32). -/
def Config.wf (cfg : Config) : Bool :=
  isPowerOfTwo cfg.pageSize && cfg.addrsOk && cfg.field.masksOk && cfg.field.valuesOk && cfg.opcode.ok &&
  cfg.voice.ok && cfg.subwindows.all (fun w => w.ok cfg) && subwindowTableOk cfg.subwindows && cfg.mmio.ok

/-! ## Instructions -/

/-- The six opcodes of rule R91. -/
def OpcodeMap.known (o : OpcodeMap) (op : Word) : Bool :=
  [o.setAntecedentVoice, o.voiceOn, o.voiceOff, o.voicePause, o.setCurrentVoice, o.idleVoiceNotify].contains op

/-- An offset that W_TOP_PLAIN names: in range, aligned, no write side effect (rules R121, R122). -/
def Config.topPlainWrite (cfg : Config) (off : Word) : Bool :=
  aligned off && decide (off.toNat < Window.top.size) && off.toNat != cfg.addrOf .ists &&
  off.toNat != cfg.addrOf .sectl && off.toNat != cfg.addrOf .fememdata

/-- An offset that R_TOP_PLAIN names: in range, aligned, not the counter (rule R120). -/
def Config.topPlainRead (cfg : Config) (off : Word) : Bool :=
  aligned off && decide (off.toNat < Window.top.size) && off.toNat != cfg.addrOf .xgscnt

/-- An offset beyond a window (rule R21). -/
def Window.outOfRange (w : Window) (off : Word) : Bool := aligned off && decide (w.size ≤ off.toNat)

/-- An offset of a sub-window, not the reset register (rules R129, R130). -/
def Config.subwindowOffset (cfg : Config) (c : Coproc) (off : Word) : Bool :=
  aligned off && decide (off.toNat < c.window.size) && off.toNat != cfg.rstAddr c &&
  (cfg.subwindowAt c off.toNat).isSome

/-- An offset whose access is plain: outside the sub-windows, or the reset register when it is read
(rules R39, R40, R129, R130). -/
def Config.coprocPlain (cfg : Config) (c : Coproc) (off : Word) : Access → Bool
  | .read => aligned off && decide (off.toNat < c.window.size) &&
      (off.toNat == cfg.rstAddr c || (cfg.subwindowAt c off.toNat).isNone)
  | .write _ => aligned off && decide (off.toNat < c.window.size) &&
      off.toNat != cfg.rstAddr c && (cfg.subwindowAt c off.toNat).isNone

/-- The data of a request is what its length says: `len` bytes for ToGuest, none for FromGuest (rules R97, R305). -/
def requestDataOk (dir : Dir) (len : Nat) (data : List Byte) : Bool :=
  match dir with
  | .toGuest => data.length == len
  | .fromGuest => data.isEmpty

/-- The instruction is one of the forms of its row of the opcode table. That a request's length and channel index are
below 2^32 is the model's own bound (DESIGN CHOICE, log 33), since an event packet holds each in one word: by rule R97 and
decision D52 they are unbounded naturals, as they are in `exec` and in the requests nested in a DSP call. -/
def Instr.wf (cfg : Config) : Instr → Bool
  | .setAntecedentVoice _ => true
  | .voiceOn _ => true
  | .voiceOff _ => true
  | .voicePause _ => true
  | .setCurrentVoice _ => true
  | .idleVoiceNotify _ => true
  | .unknownMethod op _ => !cfg.opcode.known op
  | .wIsts _ => true
  | .wSectl _ => true
  | .wFememdata _ => true
  | .rXgscnt => true
  | .wTopPlain off _ => cfg.topPlainWrite off
  | .rTopPlain off => cfg.topPlainRead off
  | .topOutOfRange off _ => Window.top.outOfRange off
  | .wRst _ _ => true
  | .wSubwindow c off _ => cfg.subwindowOffset c off
  | .rSubwindow c off => cfg.subwindowOffset c off
  | .gpepPlain c off acc => cfg.coprocPlain c off acc
  | .gpepOutOfRange c off _ => c.window.outOfRange off
  | .methodSubmit _ => true
  | .scratchReq _ dir _ len data => decide (len < 2 ^ 32) && requestDataOk dir len data
  | .fifoReq _ dir k len data => decide (k < 2 ^ 32) && decide (len < 2 ^ 32) && requestDataOk dir len data
  | .tick => true
  | .reset => true

end Sys2Proof
end

