-- ==== Sys2Proof/Decode.lean ====
section
/-! DEFINITION. Event packets, the decoder and the encoder.

The block fetches no instructions (rule R50). An event reaches the model as a packet of 32-bit words: the KEY (the
opcode of a command, the byte offset of a register access, the logical offset or channel of a request), the FORM word,
and then a value, an argument or a length, and the data bytes of a request one to a word. The spec fixes what is
encoded (rules R90 to R97) and not a packet: the packet is the DESIGN CHOICE of log 1. Form 0 is the opcode table's
own numbering: the key is looked up in the table's 32-bit match column. Decoding selects, for a register access, in
the order of rule R96. -/

namespace Sys2Proof

/-! ## The form word -/

/-- What the form word of a packet says; `rd` is a read, `width` the access width in bits (rules R90, R96, R97). -/
inductive Form where
  /-- the key is looked up in the opcode table's match column -/
  | table
  /-- a front-end command of the host: (opcode, argument) (rule R90) -/
  | command
  /-- the method port (rules R92, R133, R134) -/
  | port (rd : Bool)
  /-- a host access to the TOP window (rule R96) -/
  | top (rd : Bool) (width : Nat)
  /-- a host access to the GP or EP window (rule R96) -/
  | coproc (c : Coproc) (rd : Bool) (width : Nat)
  /-- a scratch request (rule R97) -/
  | scratch (c : Coproc) (dir : Dir)
  /-- a FIFO request (rule R97) -/
  | fifo (c : Coproc) (dir : Dir)
  /-- the timer's callback (rule R100, TICK) -/
  | tick
  /-- the device reset (rule R100, RESET) -/
  | reset
  /-- a host access at an address of the device's MMIO region (rule R92, log 27) -/
  | device (rd : Bool) (width : Nat)
  deriving DecidableEq, Repr

/-- The access width that is admitted (rule R63). -/
def admittedWidth : Nat := 32

/-- The fields of a form word: the form in bits 7:0, the coprocessor in bit 8, read or FromGuest in bit 9, the access
width in bits 23:16; the other bits are 0 (log 1). -/
def formNumber (n c rd width : Nat) : Nat := n + 256 * c + 512 * rd + 65536 * width

/-- A coprocessor's bit. -/
def Coproc.bit : Coproc → Nat
  | .gp => 0
  | .ep => 1

/-- A direction's bit. -/
def Dir.bit : Dir → Nat
  | .toGuest => 0
  | .fromGuest => 1

/-- The number of a form. -/
def Form.number : Form → Nat
  | .table => formNumber 0 0 0 0
  | .command => formNumber 1 0 0 0
  | .port rd => formNumber 2 0 rd.toNat 0
  | .top rd width => formNumber 3 0 rd.toNat width
  | .coproc c rd width => formNumber 4 c.bit rd.toNat width
  | .scratch c dir => formNumber 5 c.bit dir.bit 0
  | .fifo c dir => formNumber 6 c.bit dir.bit 0
  | .tick => formNumber 7 0 0 0
  | .reset => formNumber 8 0 0 0
  | .device rd width => formNumber 9 0 rd.toNat width

/-- The form word of a form. -/
def Form.word (f : Form) : Word := BitVec.ofNat 32 f.number

/-- The form that the fields of a number name, before its unused bits are checked. -/
def Form.ofFields (w : Nat) : Option Form :=
  let c := if w / 256 % 2 = 0 then Coproc.gp else .ep
  let rd := decide (w / 512 % 2 = 1)
  let dir := if w / 512 % 2 = 0 then Dir.toGuest else .fromGuest
  let width := w / 65536 % 256
  match w % 256 with
  | 0 => some .table
  | 1 => some .command
  | 2 => some (.port rd)
  | 3 => some (.top rd width)
  | 4 => some (.coproc c rd width)
  | 5 => some (.scratch c dir)
  | 6 => some (.fifo c dir)
  | 7 => some .tick
  | 8 => some .reset
  | 9 => some (.device rd width)
  | _ => none

/-- The form a form word says, if its unused bits are 0. -/
def Form.ofWord (w : Word) : Option Form :=
  match Form.ofFields w.toNat with
  | some f => if f.number = w.toNat then some f else none
  | none => none

/-! ## Decoding -/

/-- The command that an opcode selects for the host (rules R91, R98). -/
def decodeCommand (cfg : Config) (op arg : Word) : Instr :=
  let o := cfg.opcode
  if op = o.setAntecedentVoice then .setAntecedentVoice arg
  else if op = o.voiceOn then .voiceOn arg
  else if op = o.voiceOff then .voiceOff arg
  else if op = o.voicePause then .voicePause arg
  else if op = o.setCurrentVoice then .setCurrentVoice arg
  else if op = o.idleVoiceNotify then .idleVoiceNotify arg
  else .unknownMethod op arg

/-- A 32-bit aligned access of the TOP window (rules R96, R120, R121). -/
def decodeTop (cfg : Config) (off : Word) : Access → Instr
  | .read =>
    if off.toNat = cfg.addrOf .xgscnt then .rXgscnt
    else if off.toNat < Window.top.size then .rTopPlain off
    else .topOutOfRange off .read
  | .write v =>
    if off.toNat = cfg.addrOf .ists then .wIsts v
    else if off.toNat = cfg.addrOf .sectl then .wSectl v
    else if off.toNat = cfg.addrOf .fememdata then .wFememdata v
    else if off.toNat < Window.top.size then .wTopPlain off v
    else .topOutOfRange off (.write v)

/-- A 32-bit aligned access of the GP or EP window (rules R96, R129, R130). -/
def decodeCoproc (cfg : Config) (c : Coproc) (off : Word) : Access → Instr
  | .read =>
    if off.toNat < c.window.size then
      if off.toNat = cfg.rstAddr c then .gpepPlain c off .read
      else if (cfg.subwindowAt c off.toNat).isSome then .rSubwindow c off
      else .gpepPlain c off .read
    else .gpepOutOfRange c off .read
  | .write v =>
    if off.toNat < c.window.size then
      if off.toNat = cfg.rstAddr c then .wRst c v
      else if (cfg.subwindowAt c off.toNat).isSome then .wSubwindow c off v
      else .gpepPlain c off (.write v)
    else .gpepOutOfRange c off (.write v)

/-- The opcode table's match column (log 1): the six opcodes, the three TOP writes, the counter read and the GP reset
register; any other key is a submission at the method port. -/
def decodeTable (cfg : Config) (key v : Word) : Instr :=
  if cfg.opcode.known key then decodeCommand cfg key v
  else if key.toNat = cfg.addrOf .ists then .wIsts v
  else if key.toNat = cfg.addrOf .sectl then .wSectl v
  else if key.toNat = cfg.addrOf .fememdata then .wFememdata v
  else if key.toNat = cfg.addrOf .xgscnt ∧ v = 0#32 then .rXgscnt
  else if key.toNat = cfg.rstAddr .gp then .wRst .gp v
  else .methodSubmit (.submit key v)

/-- Read or write, from the form's bit and the packet's value word; a read's value word must be 0. -/
def decodeAccess (rd : Bool) (v : Word) : Except DecodeError Access :=
  if rd then (if v = 0#32 then .ok .read else .error .unusedWordSet) else .ok (.write v)

/-- The admitted subset of host accesses: 32 bits wide at a multiple of 4 (rules R63, R96). -/
def decodeAdmitted (off : Word) (rd : Bool) (width : Nat) (v : Word) (k : Access → Except DecodeError Instr) :
    Except DecodeError Instr :=
  if width = admittedWidth ∧ aligned off = true then
    match decodeAccess rd v with
    | .ok acc => k acc
    | .error e => .error e
  else .error .unsupportedAccess

/-- The method port: a submission of (opcode, argument), or a read at any offset (rules R133, R134). -/
def decodePort (key : Word) : Access → Instr
  | .read => .methodSubmit .read
  | .write v => .methodSubmit (.submit key v)

/-- A host access at a device address: the window it lies in, and the access there (rule R92, log 27). -/
def decodeDevice (cfg : Config) (a : Word) (acc : Access) : Except DecodeError Instr :=
  let m := cfg.mmio
  let inside (base size : Nat) : Bool := decide (base ≤ a.toNat) && decide (a.toNat < base + size)
  if inside m.vpBase m.vpSize then .ok (decodePort (BitVec.ofNat 32 (a.toNat - m.vpBase)) acc)
  else if inside m.topBase Window.top.size then .ok (decodeTop cfg (BitVec.ofNat 32 (a.toNat - m.topBase)) acc)
  else if inside m.gpBase Window.gp.size then .ok (decodeCoproc cfg .gp (BitVec.ofNat 32 (a.toNat - m.gpBase)) acc)
  else if inside m.epBase Window.ep.size then .ok (decodeCoproc cfg .ep (BitVec.ofNat 32 (a.toNat - m.epBase)) acc)
  else .error .noWindow

/-- The data words of a request, each one byte. -/
def decodeBytes : List Word → Except DecodeError (List Byte)
  | [] => .ok []
  | w :: t =>
    if w.toNat < 256 then
      match decodeBytes t with
      | .ok bs => .ok (w.setWidth 8 :: bs)
      | .error e => .error e
    else .error .badDataByte

/-- A request's length and data (rules R97, R305). -/
def decodeRequest (dir : Dir) (len : Word) (data : List Word) (k : List Byte → Instr) : Except DecodeError Instr :=
  match decodeBytes data with
  | .ok bs => if requestDataOk dir len.toNat bs then .ok (k bs) else .error .requestDataLength
  | .error e => .error e

/-- The instruction of a packet of three words and the data words after them. -/
def decodeForm (cfg : Config) (key v : Word) (data : List Word) : Form → Except DecodeError Instr
  | .table => if data = [] then .ok (decodeTable cfg key v) else .error .badLength
  | .command => if data = [] then .ok (decodeCommand cfg key v) else .error .badLength
  | .port rd =>
    if data = [] then
      match decodeAccess rd v with
      | .ok acc => .ok (decodePort key acc)
      | .error e => .error e
    else .error .badLength
  | .top rd width =>
    if data = [] then decodeAdmitted key rd width v (fun acc => .ok (decodeTop cfg key acc)) else .error .badLength
  | .coproc c rd width =>
    if data = [] then decodeAdmitted key rd width v (fun acc => .ok (decodeCoproc cfg c key acc)) else .error .badLength
  | .scratch c dir => decodeRequest dir v data (fun bs => .scratchReq c dir key v.toNat bs)
  | .fifo c dir => decodeRequest dir v data (fun bs => .fifoReq c dir key.toNat v.toNat bs)
  | .tick => if data = [] then (if key = 0#32 ∧ v = 0#32 then .ok .tick else .error .unusedWordSet) else .error .badLength
  | .reset => if data = [] then (if key = 0#32 ∧ v = 0#32 then .ok .reset else .error .unusedWordSet) else .error .badLength
  | .device rd width =>
    if data = [] then decodeAdmitted key rd width v (fun acc => decodeDevice cfg key acc) else .error .badLength

/-- The decoder: total on any packet, refusing by name. -/
def decode (cfg : Config) : List Word → Except DecodeError Instr
  | key :: fw :: v :: data =>
    match Form.ofWord fw with
    | some f => decodeForm cfg key v data f
    | none => .error .unknownForm
  | _ => .error .badLength

/-! ## Stores of the guest CPU -/

/-- The form word of a packet that is no event of the block but a store of the guest CPU to its own memory (rules R4,
R67, and `MEM <addr> = <word>` of rule R100; log 21). -/
def guestForm : Word := 10#32

/-- The address and the word of a guest CPU's store, if the packet is one. -/
def decodeGuestStore : List Word → Option (Nat × Word)
  | [a, fw, v] => if fw = guestForm then some (a.toNat, v) else none
  | _ => none

/-! ## Encoding -/

/-- A three-word packet. -/
def packet (key : Word) (f : Form) (v : Word) : List Word := [key, f.word, v]

/-- An access's read bit. -/
def Access.isRead : Access → Bool
  | .read => true
  | .write _ => false

/-- An access's value word. -/
def Access.value : Access → Word
  | .read => 0#32
  | .write v => v

/-- A named register's offset as a key. -/
def Config.key (cfg : Config) (r : TopReg) : Word := BitVec.ofNat 32 (cfg.addrOf r)

/-- A host access to TOP as a packet (rule R96). -/
def topPacket (off : Word) (acc : Access) : List Word := packet off (.top acc.isRead admittedWidth) acc.value

/-- A host access to GP or EP as a packet (rule R96). -/
def coprocPacket (c : Coproc) (off : Word) (acc : Access) : List Word :=
  packet off (.coproc c acc.isRead admittedWidth) acc.value

/-- The packet of an instruction (rules R90, R91, R96, R97, R100). -/
def encode (cfg : Config) : Instr → List Word
  | .setAntecedentVoice arg => packet cfg.opcode.setAntecedentVoice .command arg
  | .voiceOn arg => packet cfg.opcode.voiceOn .command arg
  | .voiceOff arg => packet cfg.opcode.voiceOff .command arg
  | .voicePause arg => packet cfg.opcode.voicePause .command arg
  | .setCurrentVoice arg => packet cfg.opcode.setCurrentVoice .command arg
  | .idleVoiceNotify arg => packet cfg.opcode.idleVoiceNotify .command arg
  | .unknownMethod op arg => packet op .command arg
  | .wIsts v => topPacket (cfg.key .ists) (.write v)
  | .wSectl v => topPacket (cfg.key .sectl) (.write v)
  | .wFememdata v => topPacket (cfg.key .fememdata) (.write v)
  | .rXgscnt => topPacket (cfg.key .xgscnt) .read
  | .wTopPlain off v => topPacket off (.write v)
  | .rTopPlain off => topPacket off .read
  | .topOutOfRange off acc => topPacket off acc
  | .wRst c v => coprocPacket c (BitVec.ofNat 32 (cfg.rstAddr c)) (.write v)
  | .wSubwindow c off v => coprocPacket c off (.write v)
  | .rSubwindow c off => coprocPacket c off .read
  | .gpepPlain c off acc => coprocPacket c off acc
  | .gpepOutOfRange c off acc => coprocPacket c off acc
  | .methodSubmit (.submit op arg) => packet op (.port false) arg
  | .methodSubmit .read => packet 0#32 (.port true) 0#32
  | .scratchReq c dir off len data =>
    packet off (.scratch c dir) (BitVec.ofNat 32 len) ++ data.map (BitVec.setWidth 32)
  | .fifoReq c dir k len data =>
    packet (BitVec.ofNat 32 k) (.fifo c dir) (BitVec.ofNat 32 len) ++ data.map (BitVec.setWidth 32)
  | .tick => packet 0#32 .tick 0#32
  | .reset => packet 0#32 .reset 0#32

/-! ## The opcode table's words -/

/-- The packet of an instruction numbered as the opcode table numbers it: bit 0 is the least significant bit of the
first word, and every word after the table's is 0, up to the three words of the longest packet without data. -/
def tablePacket (nbits w : Nat) : List Word :=
  (List.range (max 3 ((nbits + 31) / 32))).map fun i => BitVec.ofNat 32 (w / 2 ^ (32 * i))

/-- The instruction that the decoder reads from an opcode-table word, with the default configuration. -/
def decodeTableWord (nbits w : Nat) : Option Instr :=
  match decode .default (tablePacket nbits w) with
  | .ok i => some i
  | .error _ => none

end Sys2Proof
end

