-- ==== Sys2Proof/Machine/State.lean ====
section
/-! DEFINITION. The state of the block, as plain data, and its value at reset. The device state is the register bank
(rules R20 to R40) and the state outside it (rules R41, R42, R44 to R46); beside it stand guest memory (rule R61), the
configuration (rule R6), the inputs still to come, and what the block has told its collaborators. -/

namespace Sys2Proof.Machine

/-- The scheduler's state (rules R42, R260). -/
inductive Sched where
  | idle
  | scheduled
  | running
  deriving DecidableEq, Repr

/-- The class (a) faults of rule R301, in the order of their codes 1 to 9. The device holds one in `State.fault`. -/
inductive FaultCode where
  | descriptorOverflow
  | dmaOutOfBounds
  | fifoCursorOutOfRange
  | fifoChannelIndex
  | unknownOpcode
  | invalidAntecedent
  | idleNotifyDisabled
  | invalidVoiceHandle
  | guestMemoryOutOfRange
  deriving DecidableEq, Repr

/-- One observable collaborator call (rules R9, R11, R12, R13, R274). -/
inductive Call where
  /-- `readBytes(physAddr, len)` of guest memory -/
  | readBytes (p n : Nat)
  /-- `writeBytes(physAddr, bytes)` of guest memory -/
  | writeBytes (p : Nat) (bytes : List Byte)
  /-- `markDirty(physAddr, len)` -/
  | markDirty (p n : Nat)
  /-- the interrupt line's `assert()` -/
  | irqAssert
  /-- the interrupt line's `deassert()` -/
  | irqDeassert
  /-- the timer's `arm(delayMs, callback)` -/
  | timerArm (delayMs : Nat)
  /-- the timer's `disarm()` -/
  | timerDisarm
  /-- `Dsp[c].readMemory(space, addr)` -/
  | dspReadMemory (c : Coproc) (space : Space) (addr : Nat)
  /-- `Dsp[c].writeMemory(space, addr, value)` -/
  | dspWriteMemory (c : Coproc) (space : Space) (addr : Nat) (v : Word)
  /-- `Dsp[c].reset()` -/
  | dspReset (c : Coproc)
  /-- `Dsp[c].bootstrap()` -/
  | dspBootstrap (c : Coproc)
  /-- `Dsp[c].startFrame()` -/
  | dspStartFrame (c : Coproc)
  /-- `Dsp[c].run(maxCycles)` -/
  | dspRun (c : Coproc) (maxCycles : Nat)
  /-- the bytes a FromGuest request returns to the DSP core (rules R158, R177) -/
  | dspReceive (c : Coproc) (bytes : List Byte)
  /-- the call of P_MIX for a voice (rule R267) -/
  | mixVoice (h : Word)
  deriving DecidableEq, Repr

/-- One register window's entries: (offset, value) pairs, offsets strictly rising, no value 0; an offset that is not
listed holds 0, the reset value of rule R51. -/
abbrev Bank := List (Nat × Word)

/-- Guest-physical memory: (address, byte) pairs, addresses strictly rising, no byte 0; a byte that is not listed
reads 0 (DESIGN CHOICE, log 4). -/
abbrev Memory := List Host.Cell

/-- The machine's state. -/
structure State where
  /-- the configuration record, which no step changes (rule R6; log 7) -/
  cfg : Config
  /-- the entries of the TOP window (rules R20 to R38) -/
  topBank : Bank
  /-- the entries of the GP window (rules R39, R40) -/
  gpBank : Bank
  /-- the entries of the EP window (rules R39, R40) -/
  epBank : Bank
  /-- a frame-tick callback is pending (rule R41) -/
  timerArmed : Bool
  /-- when the pending callback is due, in milliseconds of `Now()` (rule R41) -/
  timerDeadline : Nat
  /-- the scheduler's state (rule R42) -/
  sched : Sched
  /-- the level last driven onto the interrupt line (rule R44) -/
  irqLine : Bool
  /-- the fault that halted the device, if one did (rule R45) -/
  fault : Option FaultCode
  /-- the device is Hung: a walk that never ends (rule R272) -/
  hung : Bool
  /-- the mix buffer, which exists only during a tick (rule R46) -/
  mix : Option MixBuffer
  /-- guest-physical memory (rule R61) -/
  mem : Memory
  /-- the DSP core the block has called into, while the call runs (rule R273; log 15) -/
  inCall : Option Coproc
  /-- input: the requests that the DSP calls to come will make, one list a call (rule R273; log 14) -/
  dspAnswers : List (List DspReq)
  /-- input: the guest CPU's stores that race with the block, one list of bytes for each guest-memory access the block
  makes from now on, made right before that access; none where the list is used up (rules R67, R74; log 21) -/
  races : List (List Host.Cell)
  /-- input: the event packets to come, and the guest CPU's stores between them, the next first (rules R4, R67; logs 2
  and 21) -/
  inbox : List (List Word)
  /-- output: what the last host read returned (rules R120, R129, R134; log 22) -/
  readData : Option Word
  /-- output: the collaborator calls made so far, the last one first (rules R11, R13; log 20) -/
  trace : List Call
  /-- how many free values have been drawn (log 3) -/
  draws : Nat
  deriving DecidableEq, Repr

/-- Why a step stops with a fault: never. The faults of the spec are states of the device, not ends of the model: an
operation that raises one answers a NEXT state with `State.fault` set (rules R45, R302; log 19). No step of this
model ends in a Host fault, so the type has no constructor; that is safe, since it claims nothing. -/
inductive Fault where
  deriving DecidableEq, Repr

/-- Why the model gives an event no meaning (rule R305). A refusal changes no state. -/
inductive Refusal where
  /-- raised by `exec` for an instruction that has no meaning yet; safe: nothing can be proved of it -/
  | notModelled (mnemonic : String)
  /-- raised by `step` for a packet that is no instruction, with the decoder's reason (rules R63, R305; log 1); safe -/
  | undecodable (e : DecodeError)
  /-- raised by a host access whose offset is not a multiple of 4 (rules R63, R305); safe: the spec refuses it -/
  | unsupportedAccess
  /-- raised by a ToGuest request whose data is not `len` bytes (rules R158, R177, R305); safe: the spec refuses it -/
  | requestDataLength
  /-- raised by a DSP request while control is not inside a call to that core (rules R273, R305); safe: the spec
  refuses it -/
  | requestOutsideCall
  /-- raised by every event but device reset while the device is Faulted (rules R302, R305); safe: the spec refuses it -/
  | deviceFaulted
  /-- raised by every event but device reset while the device is Hung (rules R272, R305); safe: the spec refuses it -/
  | deviceHung
  /-- raised by TICK while the timer is not armed: the event is not enabled (rule R261); safe: the spec gives no step -/
  | tickNotEnabled
  /-- raised by a host method submission held in trapped mode, only under P_HOLD_WHEN_TRAPPED (rule R239; log 18);
  safe: the spec gives no step -/
  | methodHeld
  /-- raised by `step` for a guest CPU's store outside guest memory (rules R61, R67; log 21); safe: guest memory has no
  such byte -/
  | guestStoreOutside
  /-- raised by `step` when the inbox is empty: no event has come (rule R333; log 2); safe: nothing happens -/
  | noEvent
  deriving DecidableEq, Repr

/-- What an operation of the block answers: a value and a state, or the end of the whole event in a state (a fault was
raised, or the device hangs: rules R10, R272, R302), or a refusal (rule R305). -/
inductive Res (α : Type) where
  | ok (a : α) (s : State)
  | halted (s : State)
  | refused (r : Refusal)

/-- The machine right after device reset (rules R51, R330, R332): every register entry 0, the timer disarmed, the
scheduler Idle, the line deasserted, no fault, no mix buffer. The deadline, the configuration, the inputs and the
outputs are the values of logs 2 to 7, 14, 20, 21 and 22. -/
def State.reset : State where
  cfg := .default
  topBank := []
  gpBank := []
  epBank := []
  timerArmed := false
  timerDeadline := 0
  sched := .idle
  irqLine := false
  fault := none
  hung := false
  mix := none
  mem := []
  inCall := none
  dspAnswers := []
  races := []
  inbox := []
  readData := none
  trace := []
  draws := 0

end Sys2Proof.Machine
end

