-- ==== Sys2Proof/Machine/Cells.lean ====
section
/-! DEFINITION. Sparse cells in one canonical form, for the register banks and for guest memory alike: (key, value)
pairs with strictly rising keys and no value 0, an unlisted key holding 0 (rule R51 for registers, log 4 for memory).
Writing 0 removes the entry, so equal contents are equal lists. -/

namespace Sys2Proof.Machine

/-- The value at a key; 0 where nothing is listed. -/
def Cells.get {n : Nat} : List (Nat × BitVec n) → Nat → BitVec n
  | [], _ => 0#n
  | (k, v) :: t, a => if a = k then v else Cells.get t a

/-- Take a key out. -/
def Cells.erase {n : Nat} : List (Nat × BitVec n) → Nat → List (Nat × BitVec n)
  | [], _ => []
  | (k, w) :: t, a => if k = a then Cells.erase t a else (k, w) :: Cells.erase t a

/-- Put a pair before the first greater key. -/
def Cells.insert {n : Nat} : List (Nat × BitVec n) → Nat → BitVec n → List (Nat × BitVec n)
  | [], a, v => [(a, v)]
  | (k, w) :: t, a, v => if a < k then (a, v) :: (k, w) :: t else (k, w) :: Cells.insert t a v

/-- Store a value at a key, keeping the canonical form: storing 0 takes the entry out. -/
def Cells.put {n : Nat} (m : List (Nat × BitVec n)) (a : Nat) (v : BitVec n) : List (Nat × BitVec n) :=
  if v = 0#n then Cells.erase m a else Cells.insert (Cells.erase m a) a v

/-- The keys from `lo` on rise strictly and no value is 0. -/
def Cells.wfFrom {n : Nat} (lo : Nat) : List (Nat × BitVec n) → Bool
  | [] => true
  | (k, v) :: t => decide (lo ≤ k) && v != 0#n && Cells.wfFrom (k + 1) t

/-- The canonical form. -/
def Cells.wf {n : Nat} (m : List (Nat × BitVec n)) : Bool := Cells.wfFrom 0 m

/-- Every listed key is one that `p` admits. -/
def Cells.keysIn {n : Nat} (p : Nat → Bool) (m : List (Nat × BitVec n)) : Bool := m.all fun c => p c.1

/-- Guest memory is in canonical form. -/
def Memory.wf (m : Memory) : Bool := Cells.wf m

/-- The bytes at `p .. p+n-1`, in address order (rule R9). -/
def Memory.bytes (m : Memory) (p n : Nat) : List Byte := (List.range n).map fun i => Cells.get m (p + i)

/-- Store bytes from `p` up, in address order (rule R9). -/
def Memory.store (m : Memory) (p : Nat) : List Byte → Memory
  | [] => m
  | b :: bs => Memory.store (Cells.put m p b) (p + 1) bs

/-- Memory after byte stores of the guest CPU; guest memory has no byte at or beyond `size` (rules R61, R67; log 21). -/
def Memory.raced (size : Nat) (m : Memory) : List Host.Cell → Memory
  | [] => m
  | c :: cs => Memory.raced size (if c.1 < size then Cells.put m c.1 c.2 else m) cs

/-- The 32-bit little-endian word at `p` (rules R9, R62). -/
def Memory.word (m : Memory) (p : Nat) : Word :=
  Cells.get m (p + 3) ++ Cells.get m (p + 2) ++ Cells.get m (p + 1) ++ Cells.get m p

/-- The four bytes of a word, the low byte first (rules R9, R62). -/
def wordBytes (v : Word) : List Byte :=
  [v.extractLsb' 0 8, v.extractLsb' 8 8, v.extractLsb' 16 8, v.extractLsb' 24 8]

end Sys2Proof.Machine
end

