-- ==== Sys2Proof/Machine/Flags.lean ====
section
/-! DEFINITION. The flag computations: the interrupt evaluation (rule R125), write-1-to-clear (rule R124), the
running test of a reset register (rules R39, R131), the count mode of SECTL (rules R33, R126), the front-end mode
and the trap's FECTL word (rules R27, R238, R239). -/

namespace Sys2Proof

/-- `pending` of UpdateIrq: an ISTS bit other than G is set and enabled; with P_IRQ_GLOBAL_GATE, IEN.G too
(rule R125). -/
def Config.irqPending (cfg : Config) (ien ists : Word) : Bool :=
  let g := cfg.field.istsGlobal
  ((ien &&& ~~~g) &&& ists) != 0#32 && (!cfg.irqGlobalGate || (ien &&& g) != 0#32)

/-- What UpdateIrq stores into ISTS: G set when pending, cleared when not (rule R125). -/
def Config.istsAfterIrq (cfg : Config) (ien ists : Word) : Word :=
  if cfg.irqPending ien ists then ists ||| cfg.field.istsGlobal else ists &&& ~~~cfg.field.istsGlobal

/-- Write-1-to-clear (rule R124). -/
def writeOneToClear (old v : Word) : Word := old &&& ~~~v

/-- `run(w)`: RST_RESET and RST_DSPRST both 1 (rules R39, R131, R263). -/
def Config.rstRunning (cfg : Config) (w : Word) : Bool :=
  (w &&& cfg.field.rstReset) != 0#32 && (w &&& cfg.field.rstDsprst) != 0#32

/-- XCNTMODE of a SECTL word is off (rules R33, R126). -/
def Config.xcntOff (cfg : Config) (v : Word) : Bool :=
  getf v cfg.field.sectlXcntmode == cfg.field.xcntmodeOff

/-- FEMETHMODE of a FECTL word reads TRAPPED (rules R27, R239). -/
def Config.modeIsTrapped (cfg : Config) (fectl : Word) : Bool :=
  getf fectl cfg.field.fectlMode == cfg.field.modeTrapped

/-- FECTL after the trap: mode TRAPPED, reason REQUESTED, the other bits kept (rule R238). -/
def Config.fectlTrap (cfg : Config) (fectl : Word) : Word :=
  setf (setf fectl cfg.field.fectlMode cfg.field.modeTrapped) cfg.field.fectlReason cfg.field.reasonRequested

/-- FETFORCE1.IDLE is set (rules R32, R238). -/
def Config.idleEnabled (cfg : Config) (fetforce1 : Word) : Bool :=
  getf fetforce1 cfg.field.fetforce1Idle != 0#32

/-- A flag written as a field value: 1 or 0 (rules R206, R207). -/
def flagWord (b : Bool) : Word := if b then 1#32 else 0#32

end Sys2Proof
end

