-- ==== Sys2Proof/Machine/Ops.lean ====
section
/-! DEFINITION. The named operations over the machine's state: sequencing, fault entry (rule R302) and the hang (rule
R272), plain register storage (rule R8), guest memory (rule R9), the trace of collaborator calls (rules R11 to R13),
the timer (rule R41), the interrupt evaluation (rule R125), and the front-end trap's entry and exit (rules R238,
R309). -/

namespace Sys2Proof.Machine

/-! ## Sequencing -/

/-- Go on with `k` if `r` did not end the event (rules R10, R13). -/
def Res.bind {α β : Type} (r : Res α) (k : α → State → Res β) : Res β :=
  match r with
  | .ok a s => k a s
  | .halted s => .halted s
  | .refused e => .refused e

/-- How an event ends: its last state, or the state in which a fault or a hang ended it, or a refusal. -/
def Res.outcome {α : Type} (r : Res α) : Host.Outcome State Fault Refusal :=
  match r with
  | .ok _ s => .next s
  | .halted s => .next s
  | .refused e => .refused e

/-- An event other than device reset: it has a step only while the device is neither Faulted nor Hung (rules R302,
R305). -/
def event {α : Type} (s : State) (r : Res α) : Host.Outcome State Fault Refusal :=
  if s.fault.isSome then .refused .deviceFaulted
  else if s.hung then .refused .deviceHung
  else r.outcome

/-! ## Fault entry, hang (rules R10, R272, R302) -/

/-- The numeric code of a fault (rule R301). -/
def FaultCode.code : FaultCode → Nat
  | .descriptorOverflow => 1
  | .dmaOutOfBounds => 2
  | .fifoCursorOutOfRange => 3
  | .fifoChannelIndex => 4
  | .unknownOpcode => 5
  | .invalidAntecedent => 6
  | .idleNotifyDisabled => 7
  | .invalidVoiceHandle => 8
  | .guestMemoryOutOfRange => 9

/-- The device becomes Faulted with a code (rules R45, R302). -/
def State.setFault (s : State) (code : FaultCode) : State := { s with fault := some code }

/-- The device becomes Hung (rule R272). -/
def State.setHung (s : State) : State := { s with hung := true }

/-- `raise Fault(code)`: the event ends here, the device is Faulted, and everything done before stays (rule R302). -/
def raise {α : Type} (code : FaultCode) (s : State) : Res α := .halted (s.setFault code)

/-- The operation never ends: the device is Hung (rule R272; logs 16 and 29). -/
def hang {α : Type} (s : State) : Res α := .halted s.setHung

/-! ## Register storage without side effects (rule R8) -/

/-- The entries of a window. -/
def State.bank (s : State) : Window → Bank
  | .top => s.topBank
  | .gp => s.gpBank
  | .ep => s.epBank

/-- Replace the entries of a window. -/
def State.setBank (s : State) (w : Window) (b : Bank) : State :=
  match w with
  | .top => { s with topBank := b }
  | .gp => { s with gpBank := b }
  | .ep => { s with epBank := b }

/-- `reg(W, a)` (rule R8). -/
def State.reg (s : State) (w : Window) (a : Nat) : Word := Cells.get (s.bank w) a

/-- `reg(W, a) <- v` (rule R8). -/
def State.setReg (s : State) (w : Window) (a : Nat) (v : Word) : State := s.setBank w (Cells.put (s.bank w) a v)

/-- A named register of TOP (rules R8, R24). -/
def State.topReg (s : State) (r : TopReg) : Word := s.reg .top (s.cfg.addrOf r)

/-- Store a named register of TOP (rules R8, R24). -/
def State.setTopReg (s : State) (r : TopReg) (v : Word) : State := s.setReg .top (s.cfg.addrOf r) v

/-- GPRST or EPRST (rule R39). -/
def State.rst (s : State) (c : Coproc) : Word := s.reg c.window (s.cfg.rstAddr c)

/-- Store GPRST or EPRST (rule R39). -/
def State.setRst (s : State) (c : Coproc) (v : Word) : State := s.setReg c.window (s.cfg.rstAddr c) v

/-! ## The trace, host reads, draws -/

/-- Record one collaborator call. -/
def State.log (s : State) (c : Call) : State := { s with trace := c :: s.trace }

/-- Record several collaborator calls, the first of them first. -/
def State.logAll (s : State) (cs : List Call) : State := { s with trace := cs.reverse ++ s.trace }

/-- The collaborator calls made so far, the first one first (rules R11, R13). -/
def State.calls (s : State) : List Call := s.trace.reverse

/-- A host read returns this value (rules R120, R129, R134). -/
def State.deliver (s : State) (v : Word) : State := { s with readData := some v }

/-- One more free value has been drawn. -/
def State.drawn (s : State) : State := { s with draws := s.draws + 1 }

/-! ## Guest memory (rules R9, R61, R62) -/

/-- The guest CPU's stores that race with the block, up to its next access of guest memory: the block takes no
exclusion against them, so a read after them sees the bytes they left, and a write after them writes over theirs (rules
R67, R74, R350; log 21). -/
def State.race (s : State) : State :=
  { s with mem := s.mem.raced s.cfg.ramSize (s.races.headD []), races := s.races.tail }

/-- `MemRead(p, 4)` outside a DMA run, with its bound (rule R9). -/
def memRead32 (p : Nat) (s : State) : Res Word :=
  if p + 4 ≤ s.cfg.ramSize then .ok (s.race.mem.word p) (s.race.log (.readBytes p 4))
  else raise .guestMemoryOutOfRange s

/-- A word stored to guest memory, low byte first (rules R9, R62). -/
def storeWord (p : Nat) (v : Word) (s : State) : State :=
  { s with mem := s.mem.store p (wordBytes v), trace := .writeBytes p (wordBytes v) :: s.trace }

/-- `MemWrite(p, 4, v)` outside a DMA run, with its bound (rule R9). -/
def memWrite32 (p : Nat) (v : Word) (s : State) : Res Unit :=
  if p + 4 ≤ s.cfg.ramSize then .ok () (storeWord p v s.race) else raise .guestMemoryOutOfRange s

/-- `MemReadBytes(p, n)` of a DMA run; the run's bound has been checked (rules R9, R153). -/
def memReadRun (p n : Nat) (s : State) : List Byte × State := (s.race.mem.bytes p n, s.race.log (.readBytes p n))

/-- Bytes stored to guest memory and marked dirty (rules R9, R69, R154). -/
def storeRun (p : Nat) (bytes : List Byte) (s : State) : State :=
  { s with
    mem := s.mem.store p bytes
    trace := .markDirty p bytes.length :: .writeBytes p bytes :: s.trace }

/-- `MemWriteBytes(p, bytes)` and `MarkDirty(p, n)` of a ToGuest run; its bound has been checked (rules R9, R69,
R154). -/
def memWriteRun (p : Nat) (bytes : List Byte) (s : State) : State := storeRun p bytes s.race

/-- A store of the guest CPU, between two events of the block: four bytes of its memory, low byte first. It does not
go through the block, so it makes no call, and a Faulted or Hung block does not hinder it (rules R4, R67; log 21). The
stores that fall inside an event are `State.race`'s. -/
def guestStore (p : Nat) (v : Word) (s : State) : Host.Outcome State Fault Refusal :=
  if p + 4 ≤ s.cfg.ramSize then .next { s with mem := s.mem.store p (wordBytes v) } else .refused .guestStoreOutside

/-! ## The timer (rules R12, R41) -/

/-- `timerArmed <- true; timerDeadline <- Now() + 10; TimerArm(10)` (rules R126, R263). `Now()` is a draw (log 11). -/
def State.armTimer (s : State) : State :=
  { s with
    timerArmed := true
    timerDeadline := Config.nowMs s.draws + tickPeriodMs
    draws := s.draws + 1
    trace := .timerArm tickPeriodMs :: s.trace }

/-- `timerArmed <- false; TimerDisarm()` (rule R126). -/
def State.disarmTimer (s : State) : State :=
  { s with timerArmed := false, trace := .timerDisarm :: s.trace }

/-- The scheduler's state becomes `q` (rule R260). -/
def State.setSched (s : State) (q : Sched) : State := { s with sched := q }

/-! ## The interrupt line (rules R44, R125) -/

/-- Drive the interrupt line to a level: `irqLine <- l` and `IrqAssert()` or `IrqDeassert()` (rule R125). -/
def State.driveIrq (s : State) (l : Bool) : State :=
  { s with irqLine := l, trace := (if l then .irqAssert else .irqDeassert) :: s.trace }

/-- `UpdateIrq()` (rule R125): recompute ISTS.G and drive the line, even when its level does not change. -/
def updateIrq (s : State) : State :=
  let pending := s.cfg.irqPending (s.topReg .ien) (s.topReg .ists)
  (s.setTopReg .ists (s.cfg.istsAfterIrq (s.topReg .ien) (s.topReg .ists))).driveIrq pending

/-! ## The front-end trap (rules R238, R309) -/

/-- Entry into trapped mode: FECTL records mode TRAPPED and reason REQUESTED, ISTS.FET is raised, and the line is
evaluated (rule R238). Nothing else is saved (rule R309). -/
def enterTrap (s : State) : State :=
  let s := s.setTopReg .fectl (s.cfg.fectlTrap (s.topReg .fectl))
  let s := s.setTopReg .ists (s.topReg .ists ||| s.cfg.field.istsFe)
  updateIrq s

/-- The front end is in trapped mode (rule R239). It is left by a host write of FECTL, which is plain storage, or by
device reset (rule R309). -/
def State.trapped (s : State) : Bool := s.cfg.modeIsTrapped (s.topReg .fectl)

/-! ## Device reset (rules R51, R330) -/

/-- What device reset does, from any state: every register entry 0, the timer disarmed, the scheduler Idle, the line
deasserted, no fault, not Hung, no mix buffer. It touches neither guest memory nor the DSP cores. -/
def deviceReset (s : State) : State :=
  { s with
    topBank := []
    gpBank := []
    epBank := []
    timerArmed := false
    sched := .idle
    irqLine := false
    fault := none
    hung := false
    mix := none
    inCall := none
    trace := .irqDeassert :: .timerDisarm :: s.trace }

/-! ## Fetching an event (log 2) -/

/-- The next event packet and the state without it. -/
def fetchEvent (s : State) : Option (List Word × State) :=
  match s.inbox with
  | [] => none
  | p :: rest => some (p, { s with inbox := rest })

end Sys2Proof.Machine
end

