-- ==== Sys2Proof/Machine/Dma.lean ====
section
/-! DEFINITION. The scatter-gather DMA engine (41_dma.md): the descriptor fetch, the linear transfer, and the scratch
request. -/

namespace Sys2Proof.Machine

/-- `DescRead(T, i)` (rule R151); an address sum at or above 2^32 fails its bound check (rule R157). -/
def descRead (T i : Nat) (s : State) : Res Word :=
  if s.cfg.descAddr T i < addrLimit then memRead32 (s.cfg.descAddr T i) s else raise .guestMemoryOutOfRange s

/-- The loop of SgTransfer (rule R150). `idx` is the descriptor index, `off` the offset in the page, `rem` the bytes
still to move. `buf` holds the bytes still to be written (ToGuest) or the bytes read so far (FromGuest). Every
iteration moves at least one byte when the page size is positive, so `rem` iterations are enough; a loop that does not
end hangs (log 29). -/
def sgLoop (dir : Dir) (T M : Nat) : Nat → Nat → Nat → Nat → List Byte → State → Res (List Byte)
  | _, _, _, 0, buf, s => .ok buf s
  | 0, _, _, _ + 1, _, s => hang s
  | fuel + 1, idx, off, rem + 1, buf, s =>
    if M < idx then raise .descriptorOverflow s
    else
      (descRead T idx s).bind fun base s =>
        let n := min (rem + 1) (s.cfg.pageSize - off)
        let p := base.toNat + off
        if s.cfg.dmaInBounds p n then
          match dir with
          | .toGuest => sgLoop dir T M fuel (idx + 1) 0 (rem + 1 - n) (buf.drop n) (memWriteRun p (buf.take n) s)
          | .fromGuest =>
            sgLoop dir T M fuel (idx + 1) 0 (rem + 1 - n) (buf ++ (memReadRun p n s).1) (memReadRun p n s).2
        else raise .dmaOutOfBounds s

/-- `SgTransfer(T, M, buf, o, len, dir)` (rule R150). ToGuest moves the first `len` bytes of `buf` and answers the
rest; FromGuest answers `buf` with the bytes read after it. -/
def sgTransfer (dir : Dir) (T M : Nat) (buf : List Byte) (o len : Nat) (s : State) : Res (List Byte) :=
  sgLoop dir T M len (o / s.cfg.pageSize) (o % s.cfg.pageSize) len buf s

/-- A request's end: a FromGuest request returns its bytes to the DSP core, a ToGuest request returns nothing (rules
R158, R159). -/
def returnBytes (c : Coproc) (dir : Dir) (bytes : List Byte) (s : State) : State :=
  match dir with
  | .toGuest => s
  | .fromGuest => s.log (.dspReceive c bytes)

/-- The buffer a request starts with: its data (ToGuest), or nothing read yet (FromGuest) (rule R159). -/
def startBuffer (dir : Dir) (data : List Byte) : List Byte :=
  match dir with
  | .toGuest => data
  | .fromGuest => []

/-- A ToGuest request's data is exactly `len` bytes; a FromGuest request has none to check (rules R158, R305). -/
def requestAdmitted (dir : Dir) (len : Nat) (data : List Byte) : Bool :=
  match dir with
  | .toGuest => data.length == len
  | .fromGuest => true

/-- `ScratchReq(c, dir, o, len, data)` (rule R158); data that is not what `len` says is refused (rule R305). -/
def scratchRequest (c : Coproc) (dir : Dir) (o : Word) (len : Nat) (data : List Byte) (s : State) : Res Unit :=
  if requestAdmitted dir len data then
    (sgTransfer dir (s.topReg (.scratchBase c)).toNat (s.topReg (.scratchMax c)).toNat (startBuffer dir data)
      o.toNat len s).bind fun bytes s => .ok () (returnBytes c dir bytes s)
  else .refused .requestDataLength

end Sys2Proof.Machine
end

