-- ==== Sys2Proof/Machine/Fifo.lean ====
section
/-! DEFINITION. The circular FIFO engine (42_fifo.md): the circular transfer and the FIFO request. -/

namespace Sys2Proof.Machine

/-- After a chunk of `n` bytes the cursor advances and wraps to `base` exactly when it reaches `stop` (rule R173). -/
def advanceCursor (base stop cur n : Nat) : Nat := if cur + n = stop then base else cur + n

/-- The loop of CircTransfer (rule R170): `rem` bytes still to move, `buf` as in `sgLoop`. Every chunk moves at least
one byte (rule R171), so `rem` chunks are enough. It answers the buffer and the new cursor. -/
def circLoop (dir : Dir) (T M base stop : Nat) : Nat → Nat → Nat → List Byte → State → Res (List Byte × Nat)
  | _, cur, 0, buf, s => .ok (buf, cur) s
  | 0, _, _ + 1, _, s => hang s
  | fuel + 1, cur, rem + 1, buf, s =>
    if base ≤ cur ∧ cur < stop then
      let n := min (rem + 1) (stop - cur)
      (sgTransfer dir T M buf cur n s).bind fun buf s =>
        circLoop dir T M base stop fuel (advanceCursor base stop cur n) (rem + 1 - n) buf s
    else raise .fifoCursorOutOfRange s

/-- `CircTransfer(T, M, buf, base, end, cur, len, dir)` (rule R170). -/
def circTransfer (dir : Dir) (T M : Nat) (buf : List Byte) (base stop cur len : Nat) (s : State) :
    Res (List Byte × Nat) :=
  circLoop dir T M base stop len cur len buf s

/-- `baseOf(reg(TOP, aB))` of a channel (rules R38, R177). -/
def State.fifoBase (s : State) (c : Coproc) (dir : Dir) (k : Nat) : Nat :=
  s.cfg.fifoDecode.baseOf (s.topReg (.fifo c dir k .base))

/-- `endOf(reg(TOP, aE))` of a channel (rules R38, R177). -/
def State.fifoEnd (s : State) (c : Coproc) (dir : Dir) (k : Nat) : Nat :=
  s.cfg.fifoDecode.endOf (s.topReg (.fifo c dir k .limit))

/-- `curOf(reg(TOP, aC))` of a channel (rules R38, R177). -/
def State.fifoCur (s : State) (c : Coproc) (dir : Dir) (k : Nat) : Nat :=
  s.cfg.fifoDecode.curOf (s.topReg (.fifo c dir k .cur))

/-- The cursor written back: `reg(TOP, aC) <- curStore(reg(TOP, aC), cur)` (rule R178). -/
def State.storeFifoCur (s : State) (c : Coproc) (dir : Dir) (k : Nat) (cur : Nat) : State :=
  s.setTopReg (.fifo c dir k .cur) (s.cfg.fifoDecode.curStore (s.topReg (.fifo c dir k .cur)) cur)

/-- `FifoReq(c, dir, k, len, data)` (rule R177): the channel check, the pre-check on the stored cursor, the clamp up
to `base`, the circular transfer through the FIFO table, and the cursor's write-back. -/
def fifoRequest (c : Coproc) (dir : Dir) (k len : Nat) (data : List Byte) (s : State) : Res Unit :=
  if requestAdmitted dir len data then
    if channelCount dir ≤ k then raise .fifoChannelIndex s
    else if s.fifoCur c dir k < s.fifoEnd c dir k then
      (circTransfer dir (s.topReg (.fifoTableBase c)).toNat (s.topReg (.fifoTableMax c)).toNat (startBuffer dir data)
        (s.fifoBase c dir k) (s.fifoEnd c dir k) (max (s.fifoCur c dir k) (s.fifoBase c dir k)) len s).bind
        fun r s => .ok () (returnBytes c dir r.1 (s.storeFifoCur c dir k r.2))
    else raise .fifoCursorOutOfRange s
  else .refused .requestDataLength

end Sys2Proof.Machine
end

