-- ==== Sys2Proof/Machine/Dsp.lean ====
section
/-! DEFINITION. Calls into a DSP core and the requests nested in them (rules R11, R273), and the meanings of the two
request instructions, SCRATCH_REQ and FIFO_REQ. -/

namespace Sys2Proof.Machine

/-- One request of the core `c` (rules R158, R177). -/
def serveRequest (c : Coproc) (s : State) : DspReq → Res Unit
  | .scratch dir o len data => scratchRequest c dir o len data s
  | .fifo dir k len data => fifoRequest c dir k len data s

/-- The requests of one call, in order; a fault in one ends the whole event (rule R273). -/
def serveRequests (c : Coproc) : List DspReq → State → Res Unit
  | [], s => .ok () s
  | q :: qs, s => (serveRequest c s q).bind fun _ s => serveRequests c qs s

/-- Control enters a call to the core `c`, or leaves it (rule R273; log 15). -/
def State.setInCall (s : State) (c : Option Coproc) : State := { s with inCall := c }

/-- The requests the core makes during the call that begins now: the next list of the input, none if the input is used
up (rule R273; log 14). -/
def State.nextAnswer (s : State) : List DspReq := s.dspAnswers.headD []

/-- The input without the requests of the call that begins now. -/
def State.takeAnswer (s : State) : State := { s with dspAnswers := s.dspAnswers.tail }

/-- When the requests of a call have been served, or one of them ended the event, control is no longer in the call
(log 15). -/
def leaveCall (r : Res Unit) : Res Unit :=
  match r with
  | .ok _ s => .ok () (s.setInCall none)
  | .halted s => .halted (s.setInCall none)
  | .refused e => .refused e

/-- A call into a DSP core: the call is recorded, and the core's requests are served before it returns (rules R11,
R273). -/
def dspCall (c : Coproc) (call : Call) (s : State) : Res Unit :=
  leaveCall (serveRequests c s.nextAnswer (((s.log call).takeAnswer).setInCall (some c)))

/-- A request as an event of its own: it has a step only while control is inside a call to its core (rules R273,
R305). -/
def requestEvent (c : Coproc) (q : DspReq) (s : State) : Host.Outcome State Fault Refusal :=
  event s (if s.inCall = some c then serveRequest c s q else .refused .requestOutsideCall)

/-- SCRATCH_REQ (rule R158). -/
def execScratchReq (c : Coproc) (dir : Dir) (off : Word) (len : Nat) (data : List Byte) (s : State) :
    Host.Outcome State Fault Refusal :=
  requestEvent c (.scratch dir off len data) s

/-- FIFO_REQ (rule R177). -/
def execFifoReq (c : Coproc) (dir : Dir) (k len : Nat) (data : List Byte) (s : State) :
    Host.Outcome State Fault Refusal :=
  requestEvent c (.fifo dir k len data) s

end Sys2Proof.Machine
end

