-- ==== Sys2Proof/Machine/RegisterBank.lean ====
section
/-! DEFINITION. The register bank's host operations (40_register_bank.md) and the meanings of the register-access
instructions: W_ISTS, W_SECTL, W_FEMEMDATA, R_XGSCNT, W_TOP_PLAIN, R_TOP_PLAIN, TOP_OUT_OF_RANGE, W_RST, W_SUBWINDOW,
R_SUBWINDOW, GPEP_PLAIN, GPEP_OUT_OF_RANGE. The last four of TOP and of GP and EP route by the offset, as HostRead
and HostWrite do, whatever the constructor (log 28). -/

namespace Sys2Proof.Machine

/-! ## TOP window -/

/-- `IstsWrite(v)`: write-1-to-clear, then UpdateIrq (rule R124). -/
def istsWrite (v : Word) (s : State) : State :=
  updateIrq (s.setTopReg .ists (writeOneToClear (s.topReg .ists) v))

/-- `SectlWrite(v)`: arm or disarm the frame timer, then store the whole value (rules R126, R260). -/
def sectlWrite (v : Word) (s : State) : State :=
  (if s.cfg.xcntOff v then s.disarmTimer.setSched .idle else s.armTimer.setSched .scheduled).setTopReg .sectl v

/-- `NotifyWrite(v)`: the word at FEMEMADDR, then FEMEMDATA (rule R127). -/
def notifyWrite (v : Word) (s : State) : Res Unit :=
  (memWrite32 (s.topReg .fememaddr).toNat v s).bind fun _ s => .ok () (s.setTopReg .fememdata v)

/-- `CounterRead()`: a draw (rule R128; log 8). -/
def counterRead (s : State) : State := s.drawn.deliver (Config.counterDraw s.draws)

/-- `HostRead(TOP, a)` (rule R120). -/
def hostReadTop (a : Nat) (s : State) : State :=
  if Window.top.size ≤ a then s.deliver 0#32
  else if a = s.cfg.addrOf .xgscnt then counterRead s
  else s.deliver (s.reg .top a)

/-- `HostWrite(TOP, a, v)` (rules R121, R122). -/
def hostWriteTop (a : Nat) (v : Word) (s : State) : Res Unit :=
  if Window.top.size ≤ a then .ok () s
  else if a = s.cfg.addrOf .ists then .ok () (istsWrite v s)
  else if a = s.cfg.addrOf .sectl then .ok () (sectlWrite v s)
  else if a = s.cfg.addrOf .fememdata then notifyWrite v s
  else .ok () (s.setReg .top a v)

/-! ## GP and EP windows -/

/-- The CUR registers of all channels of `c`, set to 0: only under P_COPROC_RESET_CLEARS_FIFO (rules R131, R331). -/
def clearFifoCursors (c : Coproc) (s : State) : State :=
  let s := (List.range (channelCount .toGuest)).foldl (fun s k => s.setTopReg (.fifo c .toGuest k .cur) 0#32) s
  (List.range (channelCount .fromGuest)).foldl (fun s k => s.setTopReg (.fifo c .fromGuest k .cur) 0#32) s

/-- The DSP call that a reset-register write makes, with `old` the register's value before it (rule R131). -/
def rstEdge (c : Coproc) (old v : Word) (s : State) : Res Unit :=
  if s.cfg.rstRunning v then
    if s.cfg.rstRunning old then .ok () s else dspCall c (.dspBootstrap c) s
  else
    (dspCall c (.dspReset c) s).bind fun _ s =>
      .ok () (if s.cfg.coprocResetClearsFifo then clearFifoCursors c s else s)

/-- `RstWrite(c, v)`: the edge, then the store (rule R131). -/
def rstWrite (c : Coproc) (v : Word) (s : State) : Res Unit :=
  (rstEdge c (s.rst c) v s).bind fun _ s => .ok () (s.setRst c v)

/-- `Dsp[c].readMemory(space, addr)` for the host: recorded, answered by the DSP core (rules R129, R132; log 10). -/
def dspRead (c : Coproc) (space : Space) (addr : Nat) (s : State) : State :=
  ((s.log (.dspReadMemory c space addr)).drawn).deliver (Config.dspReadAnswer c space addr s.draws)

/-- `HostRead(c, a)` (rule R129). -/
def hostReadCoproc (c : Coproc) (a : Nat) (s : State) : State :=
  if c.window.size ≤ a then s.deliver 0#32
  else if a = s.cfg.rstAddr c then s.deliver (s.reg c.window a)
  else
    match s.cfg.subwindowAt c a with
    | some w => dspRead c w.space (w.dspAddr s.cfg a) s
    | none => s.deliver (s.reg c.window a)

/-- `HostWrite(c, a, v)` (rule R130). -/
def hostWriteCoproc (c : Coproc) (a : Nat) (v : Word) (s : State) : Res Unit :=
  if c.window.size ≤ a then .ok () s
  else if a = s.cfg.rstAddr c then rstWrite c v s
  else
    match s.cfg.subwindowAt c a with
    | some w => .ok () (s.log (.dspWriteMemory c w.space (w.dspAddr s.cfg a) v))
    | none => .ok () (s.setReg c.window a v)

/-! ## Host events -/

/-- A 32-bit host access to TOP; an offset that is not a multiple of 4 is refused (rule R63). -/
def topAccess (off : Word) (acc : Access) (s : State) : Host.Outcome State Fault Refusal :=
  event s <|
    if aligned off then
      match acc with
      | .read => .ok () (hostReadTop off.toNat s)
      | .write v => hostWriteTop off.toNat v s
    else .refused .unsupportedAccess

/-- A 32-bit host access to GP or EP; an offset that is not a multiple of 4 is refused (rule R63). -/
def coprocAccess (c : Coproc) (off : Word) (acc : Access) (s : State) : Host.Outcome State Fault Refusal :=
  event s <|
    if aligned off then
      match acc with
      | .read => .ok () (hostReadCoproc c off.toNat s)
      | .write v => hostWriteCoproc c off.toNat v s
    else .refused .unsupportedAccess

/-- W_ISTS (rule R124). -/
def execWIsts (v : Word) (s : State) : Host.Outcome State Fault Refusal :=
  event s (Res.ok () (istsWrite v s))

/-- W_SECTL (rule R126). -/
def execWSectl (v : Word) (s : State) : Host.Outcome State Fault Refusal :=
  event s (Res.ok () (sectlWrite v s))

/-- W_FEMEMDATA (rule R127). -/
def execWFememdata (v : Word) (s : State) : Host.Outcome State Fault Refusal :=
  event s (notifyWrite v s)

/-- R_XGSCNT (rule R128). -/
def execRXgscnt (s : State) : Host.Outcome State Fault Refusal :=
  event s (Res.ok () (counterRead s))

/-- W_TOP_PLAIN (rule R122). -/
def execWTopPlain (off v : Word) (s : State) : Host.Outcome State Fault Refusal :=
  topAccess off (.write v) s

/-- R_TOP_PLAIN (rules R120, R123). -/
def execRTopPlain (off : Word) (s : State) : Host.Outcome State Fault Refusal :=
  topAccess off .read s

/-- TOP_OUT_OF_RANGE (rules R21, R120, R121). -/
def execTopOutOfRange (off : Word) (acc : Access) (s : State) : Host.Outcome State Fault Refusal :=
  topAccess off acc s

/-- W_RST (rule R131). -/
def execWRst (c : Coproc) (v : Word) (s : State) : Host.Outcome State Fault Refusal :=
  event s (rstWrite c v s)

/-- W_SUBWINDOW (rules R130, R132). -/
def execWSubwindow (c : Coproc) (off v : Word) (s : State) : Host.Outcome State Fault Refusal :=
  coprocAccess c off (.write v) s

/-- R_SUBWINDOW (rules R129, R132). -/
def execRSubwindow (c : Coproc) (off : Word) (s : State) : Host.Outcome State Fault Refusal :=
  coprocAccess c off .read s

/-- GPEP_PLAIN (rules R40, R129, R130). -/
def execGpepPlain (c : Coproc) (off : Word) (acc : Access) (s : State) : Host.Outcome State Fault Refusal :=
  coprocAccess c off acc s

/-- GPEP_OUT_OF_RANGE (rules R21, R129, R130). -/
def execGpepOutOfRange (c : Coproc) (off : Word) (acc : Access) (s : State) : Host.Outcome State Fault Refusal :=
  coprocAccess c off acc s

end Sys2Proof.Machine
end

