-- ==== Sys2Proof/Machine/VoiceList.lean ====
section
/-! DEFINITION. The voice list manager (43_voice_list.md): record access, insertion, the flags, and the walk's single
visits' link read. The walk itself stands in Scheduler.lean, with the visit it makes. -/

namespace Sys2Proof.Machine

/-! ## Record access -/

/-- `CheckHandle(h)`: a handle word is valid iff it is below 0xFFFF (rule R203). -/
def checkHandle (h : Word) (s : State) : Res Unit :=
  if h.toNat < noVoice.toNat then .ok () s else raise .invalidVoiceHandle s

/-- The guest address of a word of a voice's record, VPVADDR read at this access (rule R200). -/
def State.voiceWord (s : State) (h : Word) (off : Nat) : Nat := voiceRecord (s.topReg .vpvaddr) h + off

/-- `VGet(h, off, mask)` (rule R201). -/
def vget (h : Word) (off : Nat) (mask : Word) (s : State) : Res Word :=
  (checkHandle h s).bind fun _ s =>
    (memRead32 (s.voiceWord h off) s).bind fun w s => .ok (getf w mask) s

/-- `VSet(h, off, mask, x)`: a read and a write of the same word (rule R202). -/
def vset (h : Word) (off : Nat) (mask x : Word) (s : State) : Res Unit :=
  (checkHandle h s).bind fun _ s =>
    (memRead32 (s.voiceWord h off) s).bind fun w s => memWrite32 (s.voiceWord h off) (setf w mask x) s

/-- `link(h)` (rule R201). -/
def getLink (h : Word) (s : State) : Res Word := vget h s.cfg.voice.linkOff s.cfg.voice.linkMask s

/-- `active(h)` (rule R201). -/
def getActive (h : Word) (s : State) : Res Word := vget h s.cfg.voice.stateOff s.cfg.voice.activeMask s

/-- `paused(h)` (rule R201). Nothing in the block reads it (rule R207). -/
def getPaused (h : Word) (s : State) : Res Word := vget h s.cfg.voice.stateOff s.cfg.voice.pausedMask s

/-- `setLink(h, x)` (rule R202). -/
def setLink (h x : Word) (s : State) : Res Unit := vset h s.cfg.voice.linkOff s.cfg.voice.linkMask x s

/-- `SetActive(h, b)` (rule R206). -/
def setActive (h : Word) (b : Bool) (s : State) : Res Unit :=
  vset h s.cfg.voice.stateOff s.cfg.voice.activeMask (flagWord b) s

/-- `SetPaused(h, b)` (rule R207). -/
def setPaused (h : Word) (b : Bool) (s : State) : Res Unit :=
  vset h s.cfg.voice.stateOff s.cfg.voice.pausedMask (flagWord b) s

/-! ## Insertion -/

/-- `InsertAtHead(L, h)` (rule R204). -/
def insertAtHead (l : ListId) (h : Word) (s : State) : Res Unit :=
  (setLink h (s.topReg (.listTop l)) s).bind fun _ s => .ok () (s.setTopReg (.listTop l) h)

/-- `InsertAfter(a, h)` (rule R205). -/
def insertAfter (a h : Word) (s : State) : Res Unit :=
  if a = noVoice then raise .invalidAntecedent s
  else
    (getLink a s).bind fun n s =>
      (setLink h n s).bind fun _ s => setLink a h s

end Sys2Proof.Machine
end

