-- ==== Sys2Proof/Machine/FrontEnd.lean ====
section
/-! DEFINITION. The front-end command processor (44_frontend.md) and the meanings of the commands and of the method
port: SET_ANTECEDENT_VOICE, VOICE_ON, VOICE_OFF, VOICE_PAUSE, SET_CURRENT_VOICE, IDLE_VOICE_NOTIFY, UNKNOWN_METHOD,
METHOD_SUBMIT. -/

namespace Sys2Proof.Machine

/-! ## Commands -/

/-- The latch of every command: FEDECMETH and FEDECPARAM, before anything else (rules R30, R231). -/
def latch (op arg : Word) (s : State) : State := (s.setTopReg .fedecmeth op).setTopReg .fedecparam arg

/-- `SetAntecedentVoice(arg)` (rule R232). -/
def setAntecedentVoice (arg : Word) (s : State) : Res Unit := .ok () (s.setTopReg .feav arg)

/-- `VoiceOn(arg)` (rule R233). -/
def voiceOn (arg : Word) (s : State) : Res Unit :=
  let h := s.cfg.argHandle arg
  let feav := s.topReg .feav
  let insertion :=
    match s.cfg.feavList feav with
    | some l => insertAtHead l h s
    | none => insertAfter (s.cfg.feavHandle feav) h s
  insertion.bind fun _ s => setActive h true s

/-- `VoiceOff(arg)`: the whole argument is the handle (rule R234). -/
def voiceOff (arg : Word) (s : State) : Res Unit := setActive arg false s

/-- `VoicePause(arg)` (rule R235). -/
def voicePause (arg : Word) (s : State) : Res Unit := setPaused (s.cfg.argHandle arg) (s.cfg.argPause arg) s

/-- `SetCurrentVoice(arg)` (rule R236). -/
def setCurrentVoice (arg : Word) (s : State) : Res Unit := .ok () (s.setTopReg .fecv arg)

/-- `IdleVoiceNotify(h)`: the front-end trap, or the fault when notification is disabled (rule R238). The handle is
latched by the dispatcher and not used here. -/
def idleVoiceNotify (s : State) : Res Unit :=
  if s.cfg.idleEnabled (s.topReg .fetforce1) then .ok () (enterTrap s) else raise .idleNotifyDisabled s

/-- `FeDispatch(op, arg, src)` (rule R230). -/
def feDispatch (op arg : Word) (src : FeSource) (s : State) : Res Unit :=
  let o := s.cfg.opcode
  let s := latch op arg s
  if op = o.setAntecedentVoice then setAntecedentVoice arg s
  else if op = o.voiceOn then voiceOn arg s
  else if op = o.voiceOff then voiceOff arg s
  else if op = o.voicePause then voicePause arg s
  else if op = o.setCurrentVoice then setCurrentVoice arg s
  else if op = o.idleVoiceNotify ∧ src = .scheduler then idleVoiceNotify s
  else raise .unknownOpcode s

/-! ## Host submissions -/

/-- A host method submission: under P_HOLD_WHEN_TRAPPED it has no step while the front end is trapped (rules R133,
R239; log 18). -/
def hostMethod (s : State) (r : Res Unit) : Host.Outcome State Fault Refusal :=
  event s (if s.cfg.holdWhenTrapped && s.trapped then .refused .methodHeld else r)

/-- SET_ANTECEDENT_VOICE (rule R232). -/
def execSetAntecedentVoice (arg : Word) (s : State) : Host.Outcome State Fault Refusal :=
  hostMethod s (setAntecedentVoice arg (latch s.cfg.opcode.setAntecedentVoice arg s))

/-- VOICE_ON (rule R233). -/
def execVoiceOn (arg : Word) (s : State) : Host.Outcome State Fault Refusal :=
  hostMethod s (voiceOn arg (latch s.cfg.opcode.voiceOn arg s))

/-- VOICE_OFF (rule R234). -/
def execVoiceOff (arg : Word) (s : State) : Host.Outcome State Fault Refusal :=
  hostMethod s (voiceOff arg (latch s.cfg.opcode.voiceOff arg s))

/-- VOICE_PAUSE (rule R235). -/
def execVoicePause (arg : Word) (s : State) : Host.Outcome State Fault Refusal :=
  hostMethod s (voicePause arg (latch s.cfg.opcode.voicePause arg s))

/-- SET_CURRENT_VOICE (rule R236). -/
def execSetCurrentVoice (arg : Word) (s : State) : Host.Outcome State Fault Refusal :=
  hostMethod s (setCurrentVoice arg (latch s.cfg.opcode.setCurrentVoice arg s))

/-- IDLE_VOICE_NOTIFY (rules R231, R238). Its source is the scheduler exactly while a tick runs, since no host event
can fall inside a tick (rule R260; log 23); it is then never held (rule R239). From the host it is UnknownOpcode, after
the latch (rule R231). -/
def execIdleVoiceNotify (arg : Word) (s : State) : Host.Outcome State Fault Refusal :=
  if s.sched = .running then event s (idleVoiceNotify (latch s.cfg.opcode.idleVoiceNotify arg s))
  else hostMethod s (raise .unknownOpcode (latch s.cfg.opcode.idleVoiceNotify arg s))

/-- UNKNOWN_METHOD (rule R231). -/
def execUnknownMethod (op arg : Word) (s : State) : Host.Outcome State Fault Refusal :=
  hostMethod s (feDispatch op arg .host s)

/-- METHOD_SUBMIT: a submission is `FeDispatch(op, arg, Host)` (rule R133), a read of the port is a draw (rule R134;
log 9). -/
def execMethodSubmit (acc : PortAccess) (s : State) : Host.Outcome State Fault Refusal :=
  match acc with
  | .submit op arg => hostMethod s (feDispatch op arg .host s)
  | .read => event s (Res.ok () (s.drawn.deliver (Config.methodPortDraw s.draws)))

end Sys2Proof.Machine
end

