-- ==== Sys2Proof/Machine/Scheduler.lean ====
section
/-! DEFINITION. The frame scheduler (45_scheduler.md): the visit, the walk of a list (rule R208), the publication, the
kicks, and the meanings of TICK and RESET. -/

namespace Sys2Proof.Machine

/-! ## The mix buffer (rules R46, R264, R267, R268, R271) -/

/-- A fresh mix buffer, every cell 0 (rule R264). -/
def startMix (s : State) : State := { s with mix := some .zero }

/-- The tick's mix buffer is discarded (rule R271). -/
def discardMix (s : State) : State := { s with mix := none }

/-- The mix buffer takes a voice's contribution, and the call is recorded (rule R267; log 12). -/
def contribute (h : Word) (s : State) : State :=
  { s with mix := s.mix.map fun m => Config.mixVoice h m s.mem, trace := .mixVoice h :: s.trace }

/-- `mix := P_MIX(h, mix, guest memory)`: the external mixer reads guest memory, and the guest CPU may race with it as
with any other access (rules R67, R267; logs 12 and 21). -/
def mixVoice (h : Word) (s : State) : State := contribute h s.race

/-- The 1024 writes of a publication, bin by bin and sample by sample, each word masked to 24 bits (rule R268). -/
def publishCalls (cfg : Config) (m : MixBuffer) : List Call :=
  (List.finRange 32).flatMap fun b => (List.finRange 32).map fun i =>
    .dspWriteMemory .gp .x (cfg.mixbufBase + b.val * 32 + i.val) (m[b][i] &&& mixPublishMask)

/-- `Publish(mix)` (rule R268). -/
def publish (s : State) : State := s.logAll (publishCalls s.cfg (s.mix.getD .zero))

/-! ## The walk -/

/-- `VisitVoice(h)` (rule R266). -/
def visitVoice (h : Word) (s : State) : Res Unit :=
  (getActive h s).bind fun a s =>
    if a = 0#32 then feDispatch s.cfg.opcode.idleVoiceNotify h .scheduler s else .ok () (mixVoice h s)

/-- One round of the loop of `Traverse(L, VisitVoice)`: the look-ahead link read, the visit, the advance to the
captured next handle (rules R208, R266, R341). -/
def walkRound (l : ListId) (s : State) : Res Unit :=
  let h := s.topReg (.listCurrent l)
  (getLink h s).bind fun n s =>
    (visitVoice h (s.setTopReg (.listNext l) n)).bind fun _ s =>
      .ok () (s.setTopReg (.listCurrent l) (s.topReg (.listNext l)))

/-- The loop of `Traverse(L, VisitVoice)`: `fuel` is how many visits the walk may still make (rules R208, R272;
log 16). -/
def walk (l : ListId) : Nat → State → Res Unit
  | 0, s => if s.topReg (.listCurrent l) = noVoice then .ok () s else hang s
  | fuel + 1, s =>
    if s.topReg (.listCurrent l) = noVoice then .ok () s
    else
      match walkRound l s with
      | .ok _ s => walk l fuel s
      | .halted s => .halted s
      | .refused e => .refused e

/-- How many visits one list may take while no guest store races with it: a walk that makes more than 0xFFFF has
revisited a handle and never ends (rule R272; log 16). -/
def visitBound : Nat := 0x10000

/-- `Traverse(L, VisitVoice)` (rule R208). A visit uses up at least one list of `races`, so after as many visits as
there are lists no store races any more, and the bound of rule R272 holds from there (log 16). -/
def traverse (l : ListId) (s : State) : Res Unit :=
  walk l (visitBound + s.races.length) (s.setTopReg (.listCurrent l) (s.topReg (.listTop l)))

/-! ## The kicks -/

/-- The GP kick: `startFrame()` and `run(P_GP_RUN_CYCLES)`, if GPRST reads running at this point (rule R269). -/
def kickGp (s : State) : Res Unit :=
  if s.cfg.rstRunning (s.rst .gp) then
    (dspCall .gp (.dspStartFrame .gp) s).bind fun _ s => dspCall .gp (.dspRun .gp s.cfg.gpRunCycles) s
  else .ok () s

/-- The EP kick: `startFrame()` only (rule R270). -/
def kickEp (s : State) : Res Unit :=
  if s.cfg.rstRunning (s.rst .ep) then dspCall .ep (.dspStartFrame .ep) s else .ok () s

/-! ## The tick -/

/-- `Tick()` (rule R263): the re-arm, the three lists in the order 2D, 3D, MP (rule R265), the publication, the kicks,
and the end (rule R271). -/
def frameTick (s : State) : Res Unit :=
  (traverse .l2d (startMix (s.armTimer.setSched .running))).bind fun _ s =>
    (traverse .l3d s).bind fun _ s =>
      (traverse .mp s).bind fun _ s =>
        (kickGp (publish s)).bind fun _ s =>
          (kickEp s).bind fun _ s => .ok () ((discardMix s).setSched .scheduled)

/-- TICK: enabled only while the timer is armed (rules R261, R263; log 17). -/
def execTick (s : State) : Host.Outcome State Fault Refusal :=
  event s (if s.timerArmed then frameTick s else .refused .tickNotEnabled)

/-- RESET: enabled in every state (rule R330). -/
def execReset (s : State) : Host.Outcome State Fault Refusal := .next (deviceReset s)

end Sys2Proof.Machine
end

