-- ==== Sys2Proof/Machine/Dispatch.lean ====
section
/-! DEFINITION. One arm per instruction: its meaning. -/

namespace Sys2Proof.Machine

def exec (i : Instr) (s : State) : Host.Outcome State Fault Refusal :=
  match i with
  | .setAntecedentVoice arg => Sys2Proof.Machine.execSetAntecedentVoice arg s
  | .voiceOn arg => Sys2Proof.Machine.execVoiceOn arg s
  | .voiceOff arg => Sys2Proof.Machine.execVoiceOff arg s
  | .voicePause arg => Sys2Proof.Machine.execVoicePause arg s
  | .setCurrentVoice arg => Sys2Proof.Machine.execSetCurrentVoice arg s
  | .idleVoiceNotify arg => Sys2Proof.Machine.execIdleVoiceNotify arg s
  | .unknownMethod op arg => Sys2Proof.Machine.execUnknownMethod op arg s
  | .wIsts v => Sys2Proof.Machine.execWIsts v s
  | .wSectl v => Sys2Proof.Machine.execWSectl v s
  | .wFememdata v => Sys2Proof.Machine.execWFememdata v s
  | .rXgscnt => Sys2Proof.Machine.execRXgscnt s
  | .wTopPlain off v => Sys2Proof.Machine.execWTopPlain off v s
  | .rTopPlain off => Sys2Proof.Machine.execRTopPlain off s
  | .topOutOfRange off acc => Sys2Proof.Machine.execTopOutOfRange off acc s
  | .wRst c v => Sys2Proof.Machine.execWRst c v s
  | .wSubwindow c off v => Sys2Proof.Machine.execWSubwindow c off v s
  | .rSubwindow c off => Sys2Proof.Machine.execRSubwindow c off s
  | .gpepPlain c off acc => Sys2Proof.Machine.execGpepPlain c off acc s
  | .gpepOutOfRange c off acc => Sys2Proof.Machine.execGpepOutOfRange c off acc s
  | .methodSubmit acc => Sys2Proof.Machine.execMethodSubmit acc s
  | .scratchReq c dir off len data => Sys2Proof.Machine.execScratchReq c dir off len data s
  | .fifoReq c dir k len data => Sys2Proof.Machine.execFifoReq c dir k len data s
  | .tick => Sys2Proof.Machine.execTick s
  | .reset => Sys2Proof.Machine.execReset s

end Sys2Proof.Machine
end

