-- ==== Sys2Proof/Machine/Step.lean ====
section
/-! DEFINITION. One step: the next packet is taken from the inbox; a store of the guest CPU is made to guest memory, and
an event is decoded under the machine's configuration and run to completion (rules R4, R66, R67). An empty inbox has no
step (log 2). -/

namespace Sys2Proof.Machine

/-- One event, or one store of the guest CPU between two events (rules R4, R66, R67). -/
def step (s : State) : Host.Outcome State Fault Refusal :=
  match fetchEvent s with
  | none => .refused .noEvent
  | some (p, s') =>
    match decodeGuestStore p with
    | some (a, v) => guestStore a v s'
    | none =>
      match decode s.cfg p with
      | .ok i => exec i s'
      | .error e => .refused (.undecodable e)

/-- The state with an instruction, numbered as the opcode table numbers it, as its next event (log 2). -/
def State.withFetchWord (s : State) (nbits w : Nat) : State := { s with inbox := tablePacket nbits w :: s.inbox }

end Sys2Proof.Machine
end

