-- ==== Sys2Proof/Safety.lean ====
section
/-! DEFINITION. The terms the claims are stated in: a live device, the links and chains of the voice lists (rules R37,
R211), what a tick visits, the requests nested in a DSP call (rule R273), and the invariant of the machine. -/

namespace Sys2Proof.Machine

/-- The device is neither Faulted nor Hung (rules R302, R272). -/
def State.live (s : State) : Bool := s.fault.isNone && !s.hung

/-- The host may submit a method: it is not held in trapped mode (rule R239). -/
def State.acceptsMethod (s : State) : Bool := !(s.cfg.holdWhenTrapped && s.trapped)

/-- A 32-bit word at `p` lies inside guest memory (rule R9). -/
def State.inRam (s : State) (p : Nat) : Bool := decide (p + 4 ≤ s.cfg.ramSize)

/-- The word of descriptor `i` of the table at `T` can be read: it lies inside guest memory, and its address sum below
2^32 (rules R151, R157). -/
def State.descInRam (s : State) (T i : Nat) : Bool :=
  decide (s.cfg.descAddr T i < addrLimit) && s.inRam (s.cfg.descAddr T i)

/-- A handle word that names a voice (rule R203). -/
def validHandle (h : Word) : Bool := decide (h.toNat < 0xFFFF)

/-- The address of a voice's state word (rules R43, R200). -/
def State.stateAddr (s : State) (h : Word) : Nat := s.voiceWord h s.cfg.voice.stateOff

/-- The address of a voice's link word (rules R43, R200). -/
def State.linkAddr (s : State) (h : Word) : Nat := s.voiceWord h s.cfg.voice.linkOff

/-- What a voice's link field reads (rule R201). -/
def State.linkOf (s : State) (h : Word) : Word := getf (s.mem.word (s.linkAddr h)) s.cfg.voice.linkMask

/-- A voice's active flag (rule R201). -/
def State.isActive (s : State) (h : Word) : Bool :=
  getf (s.mem.word (s.stateAddr h)) s.cfg.voice.activeMask != 0#32

/-- A voice's paused flag (rule R201). -/
def State.isPaused (s : State) (h : Word) : Bool :=
  getf (s.mem.word (s.stateAddr h)) s.cfg.voice.pausedMask != 0#32

/-- A voice whose handle is valid and whose two words lie inside guest memory (rules R203, R211). -/
def State.voiceOk (s : State) (h : Word) : Bool :=
  validHandle h && s.inRam (s.stateAddr h) && s.inRam (s.linkAddr h)

/-- The handles `hs` are the chain that starts at the handle word `h`: each is a voice of the list, the next is its
link, and the last link is 0xFFFF (rule R211). -/
def State.chain (s : State) (h : Word) : List Word → Bool
  | [] => decide (h = noVoice)
  | x :: xs => decide (h = x) && s.voiceOk x && s.chain (s.linkOf x) xs

/-- The handles `hs` are the first of the list that starts at the handle word `h`, each a voice, and the next handle word
after them is `x` (rule R208). -/
def State.path (s : State) (h : Word) : List Word → Word → Bool
  | [], x => decide (h = x)
  | y :: ys, x => decide (h = y) && s.voiceOk y && s.path (s.linkOf y) ys x

/-- A tick that goes on so far has visited the voices `hs`, in order, when it comes to the handle word `x` of list `l`:
the lists before `l` are well formed, and the voices of one list are distinct (rules R208, R211, R265). -/
def State.visited (s : State) : ListId → List Word → Word → Prop
  | .l2d, hs, x => hs.Nodup ∧ s.path (s.topReg (.listTop .l2d)) hs x = true
  | .l3d, hs, x => ∃ h2d h3d, hs = h2d ++ h3d ∧ h2d.Nodup ∧ h3d.Nodup ∧
      s.chain (s.topReg (.listTop .l2d)) h2d = true ∧ s.path (s.topReg (.listTop .l3d)) h3d x = true
  | .mp, hs, x => ∃ h2d h3d hmp, hs = h2d ++ h3d ++ hmp ∧ h2d.Nodup ∧ h3d.Nodup ∧ hmp.Nodup ∧
      s.chain (s.topReg (.listTop .l2d)) h2d = true ∧ s.chain (s.topReg (.listTop .l3d)) h3d = true ∧
      s.path (s.topReg (.listTop .mp)) hmp x = true

/-- The calls of one visit: the link read, the state-word read, then the P_MIX call of an active voice, or the line's
drive of an idle notification, at the level that FET and the sources already raised give (rules R125, R238, R266,
R274). -/
def State.visitCalls (s : State) (h : Word) : List Call :=
  [.readBytes (s.linkAddr h) 4, .readBytes (s.stateAddr h) 4,
    if s.isActive h then .mixVoice h
    else if s.cfg.irqPending (s.topReg .ien) (s.topReg .ists ||| s.cfg.field.istsFe) then .irqAssert
    else .irqDeassert]

/-- The DSP calls of the kicks, as the reset registers say (rules R269, R270, R274). -/
def State.kickCalls (s : State) : List Call :=
  (if s.cfg.rstRunning (s.rst .gp) then [.dspStartFrame .gp, .dspRun .gp s.cfg.gpRunCycles] else []) ++
    if s.cfg.rstRunning (s.rst .ep) then [.dspStartFrame .ep] else []

/-- A tick from `s` stops in `t` at the handle word `x` of list `l`, with a fault: CVL_L holds `x`, the calls made are the
re-arm and then `cs`, guest memory is as it was, the timer is armed, and the scheduler has not left Running (rules R208,
R263, R302; log 25). -/
def State.tickFaults (s t : State) (l : ListId) (x : Word) (code : FaultCode) (cs : List Call) : Prop :=
  exec .tick s = .next t ∧ t.fault = some code ∧ t.topReg (.listCurrent l) = x ∧
    t.calls = s.calls ++ [.timerArm 10] ++ cs ∧ t.mem = s.mem ∧ t.timerArmed = true ∧ t.sched = .running

/-- A byte address inside the 32-bit word at `p`. -/
def inWord (p a : Nat) : Bool := decide (p ≤ a) && decide (a < p + 4)

/-- The guest-physical address of logical offset `o` in the table at `T` (rule R71). -/
def State.translate (s : State) (T o : Nat) : Nat :=
  (s.mem.word (s.cfg.descAddr T (o / s.cfg.pageSize))).toNat + o % s.cfg.pageSize

/-- Every register entry reads the same in both states, but for the named TOP registers listed. -/
def State.sameRegsBut (s t : State) (rs : List TopReg) : Prop :=
  ∀ w a, (∀ r ∈ rs, ¬(w = Window.top ∧ a = s.cfg.addrOf r)) → t.reg w a = s.reg w a

/-- Every byte of guest memory reads the same in both states, but for the bytes `inside`. -/
def State.sameMemBut (s t : State) (inside : Nat → Prop) : Prop :=
  ∀ a, ¬inside a → Cells.get t.mem a = Cells.get s.mem a

/-- Logical offset `o` can be moved through the table at `T` with max index `M`: its index is in the table, its
descriptor word can be read, and the byte it maps to is in bounds (rules R71, R150 to R153, R157). -/
def State.reachable (s : State) (T M o : Nat) : Prop :=
  o / s.cfg.pageSize ≤ M ∧ s.descInRam T (o / s.cfg.pageSize) = true ∧
    s.cfg.dmaInBounds (s.translate T o) 1 = true

/-- Which run of a transfer that starts at offset `o` moves its `i`-th byte: one run a page, the first is run 0 (rule
R150). -/
def runOf (pageSize o i : Nat) : Nat := (o + i) / pageSize - o / pageSize

/-- Where the `i`-th byte of a circular transfer lies that starts at cursor `cur` (rules R170, R173). -/
def circOffset (base stop cur i : Nat) : Nat := base + (cur - base + i) % (stop - base)

/-- The cursor a FIFO request starts from: the stored one clamped up to `base` (rule R177). -/
def State.clampedCur (s : State) (c : Coproc) (dir : Dir) (k : Nat) : Nat :=
  max (s.fifoCur c dir k) (s.fifoBase c dir k)

/-- A command that faults right after its latch: no other register and no other state changes, and no call is made
(rules R231, R302). -/
def State.latchFaults (s : State) (i : Instr) (code : FaultCode) : Prop :=
  ∃ t, exec i s = .next t ∧ t.fault = some code ∧ s.sameRegsBut t [.fedecmeth, .fedecparam] ∧
    t = { s with topBank := t.topBank, fault := t.fault }

/-- A request of the core `c` as the instruction it is (rules R158, R177). -/
def requestInstr (c : Coproc) : DspReq → Instr
  | .scratch dir off len data => .scratchReq c dir off len data
  | .fifo dir k len data => .fifoReq c dir k len data

/-- `t` is the state that the requests `qs` of core `c` leave: each is executed, in order, as the instruction it is, and
the first that ends the device (a fault, a hang) is the last (rules R273, R302). -/
def served (c : Coproc) : List DspReq → State → State → Prop
  | [], s, t => t = s
  | q :: qs, s, t => ∃ u, exec (requestInstr c q) s = .next u ∧ if u.live then served c qs u t else t = u

/-- `t` is the state in which a call into core `c` ends: the call is recorded, the core's answer is taken from the input,
its requests run inside the call, and control is in no call any more (rules R11, R273; logs 14 and 15). -/
def callEnds (c : Coproc) (call : Call) (s t : State) : Prop :=
  ∃ u, served c (s.dspAnswers.headD [])
      { s with trace := call :: s.trace, dspAnswers := s.dspAnswers.tail, inCall := some c } u ∧
    t = { u with inCall := none }

/-- `t` is the state in which the GP kick ends: `startFrame()`, then `run`, if GPRST reads running; a fault in the first
call is the end (rules R269, R273). -/
def gpKickEnds (s t : State) : Prop :=
  if s.cfg.rstRunning (s.rst .gp) then
    ∃ u, callEnds .gp (.dspStartFrame .gp) s u ∧
      if u.live then callEnds .gp (.dspRun .gp u.cfg.gpRunCycles) u t else t = u
  else t = s

/-- `t` is the state in which the EP kick ends: `startFrame()`, if EPRST reads running (rules R270, R273). -/
def epKickEnds (s t : State) : Prop :=
  if s.cfg.rstRunning (s.rst .ep) then callEnds .ep (.dspStartFrame .ep) s t else t = s

/-- The handle of a P_MIX call; none for any other call. -/
def Call.mixed : Call → Option Word
  | .mixVoice h => some h
  | _ => none

/-- No call of the list drives the interrupt line. -/
def drivesNoIrq (cs : List Call) : Prop := Call.irqAssert ∉ cs ∧ Call.irqDeassert ∉ cs

/-- The registers that the block itself never writes (the table of rule R24, rules R26, R31, R32, R35, R36, R178). -/
def neverWritten : TopReg → Bool
  | .ien => true
  | .fememaddr => true
  | .fetforce1 => true
  | .vpvaddr => true
  | .scratchBase _ => true
  | .fifoTableBase _ => true
  | .scratchMax _ => true
  | .fifoTableMax _ => true
  | .fifo _ _ _ .base => true
  | .fifo _ _ _ .limit => true
  | _ => false

/-- A window's entries are in canonical form, at in-range multiples of 4 (rules R20 to R22). -/
def Bank.ok (w : Window) (b : Bank) : Bool :=
  Cells.wf b && Cells.keysIn (fun a => a % 4 == 0 && decide (a < w.size)) b

/-- Guest memory is in canonical form and holds nothing outside its size (rule R61). -/
def Memory.ok (size : Nat) (m : Memory) : Bool := Memory.wf m && Cells.keysIn (fun a => decide (a < size)) m

/-- The scheduler's state outside a tick (rule R42). -/
def schedOutsideTick (armed : Bool) : Sched := if armed then .scheduled else .idle

/-- The invariant that holds between events. -/
structure State.Inv (s : State) : Prop where
  /-- the configuration meets the spec's constraints -/
  cfg : s.cfg.wf = true
  /-- the three register windows are in canonical form -/
  bank : ∀ w : Window, Bank.ok w (s.bank w) = true
  /-- guest memory is in canonical form, inside its size -/
  mem : Memory.ok s.cfg.ramSize s.mem = true
  /-- ISTS.G always shows the level of the interrupt line (rules R125, R306) -/
  line : (s.topReg .ists &&& s.cfg.field.istsGlobal) != 0#32 ↔ s.irqLine = true
  /-- control is in no DSP call (rules R66, R273) -/
  call : s.inCall = none
  /-- outside a tick the scheduler's state is a function of the timer's (rule R42) -/
  sched : s.live = true → s.sched = schedOutsideTick s.timerArmed
  /-- outside a tick there is no mix buffer (rule R46) -/
  mix : s.live = true → s.mix = none

end Sys2Proof.Machine
end

