-- ==== Sys2Proof/Certificates/Slice0/Obligations.lean ====
section
/-! DEFINITION. The statements for the provers. Each docstring names the rules of spec/ it formalises; a clause that
rests on a choice of the model names its log entry. In all of them `s.live` says that the device is neither Faulted
nor Hung, `s.cfg.wf` that the configuration meets the constraints the spec puts on its parameters, and `s.races = []` that
no store of the guest CPU races with the block (the premise of rule R67; log 21); `s.race` is the state after the stores
that fall before the block's next access of guest memory. -/

open Sys2Proof Sys2Proof.Machine

/-! ## The machine as a whole -/

/-- One step takes the next event packet from the inbox, decodes it under the machine's configuration, and is `exec`
of the decoded instruction on the state without that packet (rules R4, R66); a store of the guest CPU, which is no event
of the block, writes its word to guest memory and changes nothing else of the machine (rule R67); a packet that is
neither, and an empty inbox, are refused by name (the inbox and the packets are the model's own, logs 1, 2 and 21). -/
def Obligations.StepRunsTheDecodedEvent : Prop :=
  ∀ s : State,
    (s.inbox = [] → step s = .refused .noEvent) ∧
    (∀ p rest i, s.inbox = p :: rest → decode s.cfg p = .ok i → step s = exec i { s with inbox := rest }) ∧
    (∀ p rest a v, s.inbox = p :: rest → decodeGuestStore p = some (a, v) → a + 4 ≤ s.cfg.ramSize →
      ∃ t, step s = .next t ∧ t.mem.word a = v ∧ s.sameMemBut t (fun b => inWord a b = true) ∧
        t = { s with inbox := rest, mem := t.mem }) ∧
    (∀ p rest e, s.inbox = p :: rest → decodeGuestStore p = none → decode s.cfg p = .error e →
      step s = .refused (.undecodable e))

/-- Device reset, from every state, a Faulted or Hung one among them: every register entry 0, the timer disarmed, the
scheduler Idle, the line deasserted, no fault; the calls it makes are TimerDisarm and IrqDeassert alone, so it calls
neither `reset` nor `bootstrap` of a DSP core and writes neither DSP nor guest memory (rule R330; that it keeps the
deadline, the inputs and the outputs is the model's reading, log 24). -/
def Obligations.DeviceResetClearsTheDevice : Prop :=
  ∀ s : State, ∃ t, exec .reset s = .next t ∧ (∀ w a, t.reg w a = 0#32) ∧ t.timerArmed = false ∧ t.sched = .idle ∧
    t.irqLine = false ∧ t.fault = none ∧ t.hung = false ∧ t.mix = none ∧
    t.calls = s.calls ++ [.timerDisarm, .irqDeassert] ∧
    t = { s with
          topBank := t.topBank, gpBank := t.gpBank, epBank := t.epBank, timerArmed := t.timerArmed, sched := t.sched,
          irqLine := t.irqLine, fault := t.fault, hung := t.hung, mix := t.mix, inCall := none, trace := t.trace }

/-- After device reset every entry of every window holds 0, the timer is not armed, the scheduler is Idle, the line is
deasserted, there is no fault and no mix buffer; so each list's head is handle 0, not empty (rule R51). -/
def Obligations.ResetStateHoldsTheResetValues : Prop :=
  (∀ w a, State.reset.reg w a = 0#32) ∧ State.reset.timerArmed = false ∧ State.reset.sched = .idle ∧
    State.reset.irqLine = false ∧ State.reset.fault = none ∧ State.reset.hung = false ∧ State.reset.mix = none ∧
    (∀ l, State.reset.topReg (.listTop l) = 0#32 ∧ State.reset.topReg (.listTop l) ≠ noVoice)

/-- While the device is Faulted or Hung, no event but device reset has a step (rules R302, R272, R305). -/
def Obligations.DeadDeviceRefusesEveryEvent : Prop :=
  ∀ (i : Instr) (s : State), i ≠ .reset →
    (s.fault ≠ none → exec i s = .refused .deviceFaulted) ∧
    (s.fault = none → s.hung = true → exec i s = .refused .deviceHung)

/-- The invariant holds at reset. -/
def Obligations.InvariantHoldsAtReset : Prop := State.reset.Inv

/-- Every step keeps the invariant: the configuration's constraints, the canonical form of the three windows and of
guest memory inside its size, ISTS.G showing the interrupt line's level, no open DSP call, the scheduler's state a
function of the timer's and no mix buffer between events (rules R20 to R22, R42, R46, R61, R125, R273). -/
def Obligations.EveryStepKeepsTheInvariant : Prop :=
  ∀ s t : State, s.Inv → step s = .next t → t.Inv

/-- No instruction changes the configuration (the parameters of rule R6 are fixed; log 7). -/
def Obligations.NoInstructionChangesTheConfiguration : Prop :=
  ∀ (i : Instr) (s t : State), s.cfg.wf = true → exec i s = .next t → t.cfg = s.cfg

/-- The record of collaborator calls only grows: every instruction adds its calls after the earlier ones (rules R11,
R13). -/
def Obligations.EveryInstructionOnlyAddsCalls : Prop :=
  ∀ (i : Instr) (s t : State), s.cfg.wf = true → exec i s = .next t → ∃ cs, t.calls = s.calls ++ cs

/-- No operation sets an ISTS bit other than G and FET: once the others are clear, every step keeps them clear
(rule R306). -/
def Obligations.OnlyTheFrontEndBitBecomesPending : Prop :=
  ∀ s t : State, s.cfg.wf = true → step s = .next t →
    s.topReg .ists &&& ~~~(s.cfg.field.istsGlobal ||| s.cfg.field.istsFe) = 0#32 →
    t.topReg .ists &&& ~~~(s.cfg.field.istsGlobal ||| s.cfg.field.istsFe) = 0#32

/-- Only a SECTL write, a tick and device reset touch the frame timer, and a tick leaves it armed (rules R126, R262,
R263, R330). -/
def Obligations.OnlySectlTickAndResetTouchTheTimer : Prop :=
  ∀ (i : Instr) (s t : State), s.cfg.wf = true → i.wf s.cfg = true → exec i s = .next t →
    ((∀ v, i ≠ .wSectl v) → i ≠ .tick → i ≠ .reset →
      t.timerArmed = s.timerArmed ∧ t.timerDeadline = s.timerDeadline ∧ t.sched = s.sched) ∧
    (i = .tick → t.timerArmed = true)

/-- The interrupt line is driven only by an ISTS write, an idle notification (alone or in a tick) and device reset: any
other instruction leaves its level and makes no IrqAssert or IrqDeassert call (rules R307, R340). -/
def Obligations.OnlyEvaluationsDriveTheLine : Prop :=
  ∀ (i : Instr) (s t : State), s.cfg.wf = true → i.wf s.cfg = true → exec i s = .next t →
    (∀ v, i ≠ .wIsts v) → (∀ h, i ≠ .idleVoiceNotify h) → i ≠ .tick → i ≠ .reset →
    t.irqLine = s.irqLine ∧ ∃ cs, t.calls = s.calls ++ cs ∧ drivesNoIrq cs

/-- The registers that the table of rule R24 marks "written by the block: never" that have no side effect, and BASE and
END of every FIFO channel, change only by a plain host write of their own offset or by device reset (rules R24, R26,
R31, R32, R35, R36, R178). -/
def Obligations.TheBlockNeverWritesItsInputRegisters : Prop :=
  ∀ (i : Instr) (s t : State) (r : TopReg), s.cfg.wf = true → i.wf s.cfg = true → exec i s = .next t →
    r ∈ TopReg.all → neverWritten r = true → i ≠ .reset →
    (∀ off v, i = .wTopPlain off v → off.toNat ≠ s.cfg.addrOf r) →
    t.topReg r = s.topReg r

/-- Register reads, the writes of ISTS and SECTL, plain, out-of-range and sub-window accesses, the two commands that
only latch their argument, the idle notification and device reset leave every byte of guest memory as it is
(rule R65). -/
def Obligations.TheseInstructionsLeaveGuestMemory : Prop :=
  ∀ (s t : State) (v arg off : Word) (c : Coproc) (acc : Access) (i : Instr), s.cfg.wf = true → i.wf s.cfg = true →
    i ∈ [Instr.setAntecedentVoice arg, .setCurrentVoice arg, .idleVoiceNotify arg, .unknownMethod v arg, .wIsts v,
      .wSectl v, .rXgscnt, .wTopPlain off v, .rTopPlain off, .topOutOfRange off acc, .wSubwindow c off v,
      .rSubwindow c off, .gpepPlain c off acc, .gpepOutOfRange c off acc, .methodSubmit .read, .reset] →
    exec i s = .next t → t.mem = s.mem

/-! ## Encodings -/

/-- Decoding an encoded instruction gives it back, for every well-formed instruction and every configuration that meets
the spec's constraints (rules R90 to R97; the packet is the model's, log 1). -/
def Obligations.DecodeOfEncodeIsTheInstruction : Prop :=
  ∀ (cfg : Config) (i : Instr), cfg.wf = true → i.wf cfg = true → decode cfg (encode cfg i) = .ok i

/-- Whatever packet the decoder accepts, the instruction is one of the forms of its row of the opcode table (rules R96,
R98). -/
def Obligations.DecodedInstructionsAreWellFormed : Prop :=
  ∀ (cfg : Config) (p : List Word) (i : Instr), cfg.wf = true → decode cfg p = .ok i → i.wf cfg = true

/-- A host access to a register window that is not 32 bits wide, or not at a multiple of 4, is refused; a 32-bit one at
a multiple of 4 is decoded (rule R63). -/
def Obligations.OnlyAlignedWordAccessesAreAdmitted : Prop :=
  ∀ (s : State) (off v : Word) (rd : Bool) (c : Coproc) (width : Nat) (f : Form) (rest : List (List Word)),
    width < 256 → f ∈ [Form.top rd width, .coproc c rd width] → s.inbox = packet off f v :: rest →
    (¬(width = 32 ∧ off.toNat % 4 = 0) → step s = .refused (.undecodable .unsupportedAccess)) ∧
    (width = 32 → off.toNat % 4 = 0 → (rd = true → v = 0#32) → ∃ i, decode s.cfg (packet off f v) = .ok i)

/-- Words of the opcode table read as the table says, with the default addresses and opcodes (rules R24, R39, R91;
defaults of log 6). -/
def Obligations.OpcodeTableWordsDecode : Prop :=
  decodeTableWord 32 0x120 = some (.setAntecedentVoice 0#32) ∧ decodeTableWord 32 0x128 = some (.voiceOff 0#32) ∧
  decodeTableWord 32 0x8000 = some (.idleVoiceNotify 0#32) ∧ decodeTableWord 32 0x1000 = some (.wIsts 0#32) ∧
  decodeTableWord 32 0x200C = some .rXgscnt ∧ decodeTableWord 32 0xFFFC = some (.wRst .gp 0#32)

/-! ## Front-end commands -/

/-- SetAntecedentVoice stores its whole argument into FEAV, SetCurrentVoice into FECV; each latches its pair into
FEDECMETH and FEDECPARAM, and nothing else changes (rules R28 to R30, R231, R232, R236). -/
def Obligations.ArgumentCommandsStoreTheWholeArgument : Prop :=
  ∀ (s : State) (arg : Word), s.cfg.wf = true → s.live = true → s.acceptsMethod = true →
    (∃ t, exec (.setAntecedentVoice arg) s = .next t ∧ t.topReg .feav = arg ∧
      t.topReg .fedecmeth = s.cfg.opcode.setAntecedentVoice ∧ t.topReg .fedecparam = arg ∧
      s.sameRegsBut t [.feav, .fedecmeth, .fedecparam] ∧ t = { s with topBank := t.topBank }) ∧
    (∃ t, exec (.setCurrentVoice arg) s = .next t ∧ t.topReg .fecv = arg ∧
      t.topReg .fedecmeth = s.cfg.opcode.setCurrentVoice ∧ t.topReg .fedecparam = arg ∧
      s.sameRegsBut t [.fecv, .fedecmeth, .fedecparam] ∧ t = { s with topBank := t.topBank })

/-- Every front-end command, the idle notification of a tick included, leaves its opcode in FEDECMETH and its argument
in FEDECPARAM, whether it completes or faults at any of its checks; both registers are read and written plainly
(rules R30, R231). -/
def Obligations.EveryCommandLatchesItsPair : Prop :=
  ∀ (s t : State) (i : Instr) (op arg : Word), s.cfg.wf = true → exec i s = .next t →
    (i, op) ∈ [(Instr.setAntecedentVoice arg, s.cfg.opcode.setAntecedentVoice), (.voiceOn arg, s.cfg.opcode.voiceOn),
      (.voiceOff arg, s.cfg.opcode.voiceOff), (.voicePause arg, s.cfg.opcode.voicePause),
      (.setCurrentVoice arg, s.cfg.opcode.setCurrentVoice), (.idleVoiceNotify arg, s.cfg.opcode.idleVoiceNotify),
      (.unknownMethod op arg, op), (.methodSubmit (.submit op arg), op)] →
    t.topReg .fedecmeth = op ∧ t.topReg .fedecparam = arg ∧
      ∀ r ∈ [TopReg.fedecmeth, .fedecparam],
        s.cfg.topPlainRead (s.cfg.key r) = true ∧ s.cfg.topPlainWrite (s.cfg.key r) = true

/-- VoiceOff clears the active flag of the voice that the whole argument names: the field of its state word, no other
bit of the word, no other byte of memory, and no register but the latch (rules R202, R206, R234). It is a read and then
a write, not atomic against the guest CPU: whatever stores race with it, the word written is the word read (after the
stores that fall before the read) without the flag, so a guest store to that word between the two is lost, and every
other byte is as the guest's stores leave it (rules R67, R74; the input of log 21). -/
def Obligations.VoiceOffClearsOnlyTheActiveFlag : Prop :=
  ∀ (s : State) (arg : Word), s.cfg.wf = true → s.live = true → s.acceptsMethod = true → validHandle arg = true →
    s.inRam (s.stateAddr arg) = true →
    ∃ t, exec (.voiceOff arg) s = .next t ∧
      t.mem.word (s.stateAddr arg) = s.race.mem.word (s.stateAddr arg) &&& ~~~s.cfg.voice.activeMask ∧
      s.race.race.sameMemBut t (fun a => inWord (s.stateAddr arg) a = true) ∧
      (s.races = [] → t.mem.word (s.stateAddr arg) = s.mem.word (s.stateAddr arg) &&& ~~~s.cfg.voice.activeMask ∧
        s.sameMemBut t (fun a => inWord (s.stateAddr arg) a = true)) ∧
      t.topReg .fedecmeth = s.cfg.opcode.voiceOff ∧ t.topReg .fedecparam = arg ∧
      s.sameRegsBut t [.fedecmeth, .fedecparam] ∧
      t = { s with topBank := t.topBank, mem := t.mem, trace := t.trace, races := s.races.tail.tail }

/-- VoicePause sets or clears the paused flag of the voice in the argument's handle field, by its action bit: no other
bit of the state word, no other byte of memory, and no register but the latch (rules R202, R207, R235). Under stores of
the guest CPU that race with it, the word written is made of the word read, as VoiceOff's is (rules R67, R74; log 21). -/
def Obligations.VoicePauseWritesOnlyThePausedFlag : Prop :=
  ∀ (s : State) (arg : Word), s.cfg.wf = true → s.live = true → s.acceptsMethod = true →
    validHandle (s.cfg.argHandle arg) = true → s.inRam (s.stateAddr (s.cfg.argHandle arg)) = true →
    ∃ t, exec (.voicePause arg) s = .next t ∧
      t.mem.word (s.stateAddr (s.cfg.argHandle arg)) =
        setf (s.race.mem.word (s.stateAddr (s.cfg.argHandle arg))) s.cfg.voice.pausedMask
          (if getf arg s.cfg.field.argPauseAction = 0#32 then 0#32 else 1#32) ∧
      t.isPaused (s.cfg.argHandle arg) = s.cfg.argPause arg ∧
      s.race.race.sameMemBut t (fun a => inWord (s.stateAddr (s.cfg.argHandle arg)) a = true) ∧
      (s.races = [] →
        t.mem.word (s.stateAddr (s.cfg.argHandle arg)) =
          setf (s.mem.word (s.stateAddr (s.cfg.argHandle arg))) s.cfg.voice.pausedMask
            (if getf arg s.cfg.field.argPauseAction = 0#32 then 0#32 else 1#32) ∧
        t.isActive (s.cfg.argHandle arg) = s.isActive (s.cfg.argHandle arg) ∧
        s.sameMemBut t (fun a => inWord (s.stateAddr (s.cfg.argHandle arg)) a = true)) ∧
      t.topReg .fedecmeth = s.cfg.opcode.voicePause ∧ t.topReg .fedecparam = arg ∧
      s.sameRegsBut t [.fedecmeth, .fedecparam] ∧
      t = { s with topBank := t.topBank, mem := t.mem, trace := t.trace, races := s.races.tail.tail }

/-- InsertAtHead of a handle: an invalid one faults with InvalidVoiceHandle before any write, one whose link word is
outside guest memory with GuestMemoryOutOfRange; else the old head word goes through the link mask into the handle's
link field and the handle becomes the head; only the link field and TVL_L change (rule R204). Where stores of the guest
CPU race with it, the link word written is made of the word read, after the stores that fall before the read; a store to
that word between the read and the write is lost, and every other byte is as the stores leave it (rules R67, R74; the
input of log 21, the model's choice). -/
def Obligations.InsertAtHeadStoresTheOldHeadAndTheHandle : Prop :=
  ∀ (s : State) (l : ListId) (h : Word), s.cfg.wf = true →
    (validHandle h = false → insertAtHead l h s = .halted { s with fault := some .invalidVoiceHandle }) ∧
    (validHandle h = true → s.inRam (s.linkAddr h) = false →
      insertAtHead l h s = .halted { s with fault := some .guestMemoryOutOfRange }) ∧
    (validHandle h = true → s.inRam (s.linkAddr h) = true →
      ∃ t, insertAtHead l h s = .ok () t ∧
        t.mem.word (s.linkAddr h) =
          setf (s.race.mem.word (s.linkAddr h)) s.cfg.voice.linkMask (s.topReg (.listTop l)) ∧
        t.topReg (.listTop l) = h ∧ s.race.race.sameMemBut t (fun a => inWord (s.linkAddr h) a = true) ∧
        (s.races = [] →
          t.mem.word (s.linkAddr h) = setf (s.mem.word (s.linkAddr h)) s.cfg.voice.linkMask (s.topReg (.listTop l)) ∧
          s.sameMemBut t (fun a => inWord (s.linkAddr h) a = true)) ∧
        s.sameRegsBut t [.listTop l] ∧
        t = { s with topBank := t.topBank, mem := t.mem, trace := t.trace, races := s.races.tail.tail })

/-- VoiceOn in head mode (FEAV selects a list): the voice's link reads the old head, the list's head becomes the voice,
its active flag is set and its paused flag kept; only its two words and the latch and TVL_L change (rules R204, R206,
R233). Whatever stores of the guest CPU race with it, it completes with the flag, the head and the latch so; what it says
of the other bytes holds where none does (rule R67; log 21). -/
def Obligations.VoiceOnInsertsAtTheHead : Prop :=
  ∀ (s : State) (arg : Word) (l : ListId), s.cfg.wf = true → s.live = true → s.acceptsMethod = true →
    s.cfg.feavList (s.topReg .feav) = some l → s.voiceOk (s.cfg.argHandle arg) = true →
    ∃ t, exec (.voiceOn arg) s = .next t ∧
      t.topReg (.listTop l) = s.cfg.argHandle arg ∧
      t.isActive (s.cfg.argHandle arg) = true ∧
      (s.races = [] →
        t.linkOf (s.cfg.argHandle arg) =
          getf (setf 0#32 s.cfg.voice.linkMask (s.topReg (.listTop l))) s.cfg.voice.linkMask ∧
        t.isPaused (s.cfg.argHandle arg) = s.isPaused (s.cfg.argHandle arg) ∧
        s.sameMemBut t (fun a => inWord (s.linkAddr (s.cfg.argHandle arg)) a = true ∨
          inWord (s.stateAddr (s.cfg.argHandle arg)) a = true)) ∧
      t.topReg .fedecmeth = s.cfg.opcode.voiceOn ∧ t.topReg .fedecparam = arg ∧
      s.sameRegsBut t [.fedecmeth, .fedecparam, .listTop l] ∧
      t = { s with topBank := t.topBank, mem := t.mem, trace := t.trace, races := t.races }

/-- VoiceOn in inherit mode: the antecedent's link reads the voice, the voice's link reads what the antecedent's read
(when the two differ), the voice's active flag is set; only the two voices' words and the latch change, and no list
register (rules R205, R206, R233). Whatever stores of the guest CPU race with it, it completes with the flag and the
latch so; what it says of the other bytes holds where none does (rule R67; log 21). -/
def Obligations.VoiceOnInsertsAfterTheAntecedent : Prop :=
  ∀ (s : State) (arg a : Word), s.cfg.wf = true → s.live = true → s.acceptsMethod = true →
    s.cfg.feavList (s.topReg .feav) = none → a = s.cfg.feavHandle (s.topReg .feav) →
    validHandle a = true → s.inRam (s.linkAddr a) = true → s.voiceOk (s.cfg.argHandle arg) = true →
    ∃ t, exec (.voiceOn arg) s = .next t ∧
      t.isActive (s.cfg.argHandle arg) = true ∧
      (s.races = [] →
        t.linkOf a = getf (setf 0#32 s.cfg.voice.linkMask (s.cfg.argHandle arg)) s.cfg.voice.linkMask ∧
        (a ≠ s.cfg.argHandle arg → t.linkOf (s.cfg.argHandle arg) = s.linkOf a) ∧
        t.isPaused (s.cfg.argHandle arg) = s.isPaused (s.cfg.argHandle arg) ∧
        s.sameMemBut t (fun b => inWord (s.linkAddr a) b = true ∨ inWord (s.linkAddr (s.cfg.argHandle arg)) b = true ∨
          inWord (s.stateAddr (s.cfg.argHandle arg)) b = true)) ∧
      t.topReg .fedecmeth = s.cfg.opcode.voiceOn ∧ t.topReg .fedecparam = arg ∧
      s.sameRegsBut t [.fedecmeth, .fedecparam] ∧
      t = { s with topBank := t.topBank, mem := t.mem, trace := t.trace, races := t.races }

/-- On a well-formed list, a head-mode VoiceOn of a voice that is not in it puts the voice before the whole old list,
and a list that the voice is in no part of stays as it was (rules R204, R209, R211; no racing stores, rule R67). -/
def Obligations.HeadInsertionPrependsToTheChain : Prop :=
  ∀ (s : State) (arg h : Word) (l : ListId) (hs : List Word), s.cfg.wf = true → s.live = true →
    s.acceptsMethod = true → s.races = [] → s.cfg.voice.linkMask = 0x0000FFFF#32 → s.cfg.feavList (s.topReg .feav) = some l →
    h = s.cfg.argHandle arg → s.voiceOk h = true → h ∉ hs → s.chain (s.topReg (.listTop l)) hs = true →
    ∃ t, exec (.voiceOn arg) s = .next t ∧ t.chain (t.topReg (.listTop l)) (h :: hs) = true ∧
      ∀ l' hs', l' ≠ l → h ∉ hs' → s.chain (s.topReg (.listTop l')) hs' = true →
        t.chain (t.topReg (.listTop l')) hs' = true

/-- On a well-formed list that holds the antecedent, an inherit-mode VoiceOn of a voice that is not in it puts the voice
right after the antecedent and keeps the order of all other nodes (rules R205, R210; no racing stores, rule R67). -/
def Obligations.AntecedentInsertionKeepsTheOrder : Prop :=
  ∀ (s : State) (arg h a : Word) (l : ListId) (front back : List Word), s.cfg.wf = true → s.live = true →
    s.acceptsMethod = true → s.races = [] → s.cfg.voice.linkMask = 0x0000FFFF#32 → s.cfg.feavList (s.topReg .feav) = none →
    a = s.cfg.feavHandle (s.topReg .feav) → h = s.cfg.argHandle arg → s.voiceOk h = true →
    h ∉ front ++ a :: back → (front ++ a :: back).Nodup →
    s.chain (s.topReg (.listTop l)) (front ++ a :: back) = true →
    ∃ t, exec (.voiceOn arg) s = .next t ∧ t.chain (t.topReg (.listTop l)) (front ++ a :: h :: back) = true

/-- A command that names no valid voice faults after its latch and touches neither guest memory nor any other register:
VoiceOff with an argument of 0xFFFF or more, VoicePause and head-mode VoiceOn with handle 0xFFFF or more:
InvalidVoiceHandle; inherit-mode VoiceOn with antecedent 0xFFFF: InvalidAntecedent, with another invalid antecedent:
InvalidVoiceHandle. A valid handle whose word is outside guest memory faults with GuestMemoryOutOfRange: VoiceOff and
VoicePause at the state word, VoiceOn at the link word it reaches first. Inherit-mode VoiceOn of a bad handle has read
the antecedent's link. A VoiceOn whose state word alone is outside keeps the insertion it has made (rules R203, R205,
R233 to R235, R302, R303; the links it leaves are stated where no guest store races, rule R67). -/
def Obligations.InvalidHandlesFaultBeforeAnyStore : Prop :=
  ∀ (s : State) (arg : Word), s.cfg.wf = true → s.live = true → s.acceptsMethod = true →
    (validHandle arg = false →
      ∃ t, exec (.voiceOff arg) s = .next t ∧ t.fault = some .invalidVoiceHandle ∧
        s.sameRegsBut t [.fedecmeth, .fedecparam] ∧ t = { s with topBank := t.topBank, fault := t.fault }) ∧
    (validHandle (s.cfg.argHandle arg) = false →
      ∃ t, exec (.voicePause arg) s = .next t ∧ t.fault = some .invalidVoiceHandle ∧
        s.sameRegsBut t [.fedecmeth, .fedecparam] ∧ t = { s with topBank := t.topBank, fault := t.fault }) ∧
    (validHandle (s.cfg.argHandle arg) = false → s.cfg.feavList (s.topReg .feav) ≠ none →
      ∃ t, exec (.voiceOn arg) s = .next t ∧ t.fault = some .invalidVoiceHandle ∧
        s.sameRegsBut t [.fedecmeth, .fedecparam] ∧ t = { s with topBank := t.topBank, fault := t.fault }) ∧
    (s.cfg.feavHandle (s.topReg .feav) = noVoice → s.cfg.feavList (s.topReg .feav) = none →
      ∃ t, exec (.voiceOn arg) s = .next t ∧ t.fault = some .invalidAntecedent ∧
        s.sameRegsBut t [.fedecmeth, .fedecparam] ∧ t = { s with topBank := t.topBank, fault := t.fault }) ∧
    (validHandle arg = true → s.inRam (s.stateAddr arg) = false →
      s.latchFaults (.voiceOff arg) .guestMemoryOutOfRange) ∧
    (∀ h, h = s.cfg.argHandle arg → validHandle h = true → s.inRam (s.stateAddr h) = false →
      s.latchFaults (.voicePause arg) .guestMemoryOutOfRange) ∧
    (∀ h, h = s.cfg.argHandle arg → s.cfg.feavList (s.topReg .feav) ≠ none → validHandle h = true →
      s.inRam (s.linkAddr h) = false → s.latchFaults (.voiceOn arg) .guestMemoryOutOfRange) ∧
    (∀ a, a = s.cfg.feavHandle (s.topReg .feav) → s.cfg.feavList (s.topReg .feav) = none → a ≠ noVoice →
      (validHandle a = false → s.latchFaults (.voiceOn arg) .invalidVoiceHandle) ∧
      (validHandle a = true → s.inRam (s.linkAddr a) = false →
        s.latchFaults (.voiceOn arg) .guestMemoryOutOfRange)) ∧
    (∀ a h, a = s.cfg.feavHandle (s.topReg .feav) → h = s.cfg.argHandle arg →
      s.cfg.feavList (s.topReg .feav) = none → validHandle a = true → s.inRam (s.linkAddr a) = true →
      validHandle h = false ∨ s.inRam (s.linkAddr h) = false →
      ∃ t, exec (.voiceOn arg) s = .next t ∧
        t.fault = some (if validHandle h then .guestMemoryOutOfRange else .invalidVoiceHandle) ∧
        t.calls = s.calls ++ [.readBytes (s.linkAddr a) 4] ∧ s.sameRegsBut t [.fedecmeth, .fedecparam] ∧
        t = { s.race with topBank := t.topBank, fault := t.fault, trace := t.trace }) ∧
    (∀ l h, s.cfg.feavList (s.topReg .feav) = some l → h = s.cfg.argHandle arg → validHandle h = true →
      s.inRam (s.linkAddr h) = true → s.inRam (s.stateAddr h) = false →
      ∃ t, exec (.voiceOn arg) s = .next t ∧ t.fault = some .guestMemoryOutOfRange ∧ t.topReg (.listTop l) = h ∧
        (s.races = [] →
          t.mem.word (s.linkAddr h) = setf (s.mem.word (s.linkAddr h)) s.cfg.voice.linkMask (s.topReg (.listTop l)) ∧
          s.sameMemBut t (fun b => inWord (s.linkAddr h) b = true)) ∧
        s.sameRegsBut t [.fedecmeth, .fedecparam, .listTop l] ∧
        t = { s with topBank := t.topBank, fault := t.fault, mem := t.mem, trace := t.trace, races := t.races }) ∧
    (∀ a h, a = s.cfg.feavHandle (s.topReg .feav) → h = s.cfg.argHandle arg →
      s.cfg.feavList (s.topReg .feav) = none → validHandle a = true → s.inRam (s.linkAddr a) = true →
      validHandle h = true → s.inRam (s.linkAddr h) = true → s.inRam (s.stateAddr h) = false →
      ∃ t, exec (.voiceOn arg) s = .next t ∧ t.fault = some .guestMemoryOutOfRange ∧
        (s.races = [] →
          t.linkOf a = getf (setf 0#32 s.cfg.voice.linkMask h) s.cfg.voice.linkMask ∧
          (a ≠ h → t.linkOf h = s.linkOf a) ∧
          s.sameMemBut t (fun b => inWord (s.linkAddr a) b = true ∨ inWord (s.linkAddr h) b = true)) ∧
        s.sameRegsBut t [.fedecmeth, .fedecparam] ∧
        t = { s with topBank := t.topBank, fault := t.fault, mem := t.mem, trace := t.trace, races := t.races })

/-- An opcode outside the fixed set, and OP_IDLE_VOICE_NOTIFY from the host, latch their pair and raise UnknownOpcode;
nothing else changes (rules R98, R231). That the source is the host outside a tick is the model's reading (log 23). -/
def Obligations.UnknownOpcodesLatchAndFault : Prop :=
  ∀ (s : State) (op arg : Word), s.cfg.wf = true → s.live = true → s.acceptsMethod = true →
    (s.cfg.opcode.known op = false →
      ∃ t, exec (.unknownMethod op arg) s = .next t ∧ t.fault = some .unknownOpcode ∧ t.topReg .fedecmeth = op ∧
        t.topReg .fedecparam = arg ∧ s.sameRegsBut t [.fedecmeth, .fedecparam] ∧
        t = { s with topBank := t.topBank, fault := t.fault }) ∧
    (s.sched ≠ .running →
      ∃ t, exec (.idleVoiceNotify arg) s = .next t ∧ t.fault = some .unknownOpcode ∧
        t.topReg .fedecmeth = s.cfg.opcode.idleVoiceNotify ∧ t.topReg .fedecparam = arg ∧
        s.sameRegsBut t [.fedecmeth, .fedecparam] ∧ t = { s with topBank := t.topBank, fault := t.fault })

/-- The idle notification of a tick, with the force-idle-enable bit set: FECTL records TRAPPED and REQUESTED and keeps
its other bits, ISTS.FET is set, and the line is evaluated: it is asserted exactly when FET or another raised source is
enabled, G shows its level, and every other ISTS bit is kept; nothing else changes but the latch (rules R125, R238,
R309). With the bit clear it faults with IdleNotifyDisabled after the latch. That the source is the scheduler inside a tick is the model's reading (log 23). -/
def Obligations.IdleNotificationTrapsTheFrontEnd : Prop :=
  ∀ (s : State) (h : Word), s.cfg.wf = true → s.live = true → s.sched = .running →
    (getf (s.topReg .fetforce1) s.cfg.field.fetforce1Idle ≠ 0#32 →
      ∃ t, exec (.idleVoiceNotify h) s = .next t ∧
        getf (t.topReg .fectl) s.cfg.field.fectlMode = s.cfg.field.modeTrapped ∧
        getf (t.topReg .fectl) s.cfg.field.fectlReason = s.cfg.field.reasonRequested ∧
        t.topReg .fectl &&& ~~~(s.cfg.field.fectlMode ||| s.cfg.field.fectlReason) =
          s.topReg .fectl &&& ~~~(s.cfg.field.fectlMode ||| s.cfg.field.fectlReason) ∧
        t.topReg .ists &&& s.cfg.field.istsFe = s.cfg.field.istsFe ∧
        t.topReg .ists =
          (if t.irqLine then (s.topReg .ists ||| s.cfg.field.istsFe) ||| s.cfg.field.istsGlobal
          else (s.topReg .ists ||| s.cfg.field.istsFe) &&& ~~~s.cfg.field.istsGlobal) ∧
        t.irqLine = s.cfg.irqPending (s.topReg .ien) (s.topReg .ists ||| s.cfg.field.istsFe) ∧
        t.calls = s.calls ++ [if t.irqLine then .irqAssert else .irqDeassert] ∧
        t.topReg .fedecmeth = s.cfg.opcode.idleVoiceNotify ∧ t.topReg .fedecparam = h ∧
        s.sameRegsBut t [.fedecmeth, .fedecparam, .fectl, .ists] ∧
        t = { s with topBank := t.topBank, irqLine := t.irqLine, trace := t.trace }) ∧
    (getf (s.topReg .fetforce1) s.cfg.field.fetforce1Idle = 0#32 →
      ∃ t, exec (.idleVoiceNotify h) s = .next t ∧ t.fault = some .idleNotifyDisabled ∧
        t.topReg .fedecmeth = s.cfg.opcode.idleVoiceNotify ∧ t.topReg .fedecparam = h ∧
        s.sameRegsBut t [.fedecmeth, .fedecparam] ∧ t = { s with topBank := t.topBank, fault := t.fault })

/-- A submission at the method port is the command that its opcode selects, whatever the pair (rules R91, R133, R230);
the two argument commands, submitted so, store their argument: SET_CURRENT_VOICE in FECV, SET_ANTECEDENT_VOICE in FEAV.
That the device is outside a tick when the host submits (`sched` not Running) is the model's reading (log 23). -/
def Obligations.MethodSubmissionIsTheCommand : Prop :=
  ∀ (s : State) (op arg : Word), s.cfg.wf = true → s.sched ≠ .running →
    exec (.methodSubmit (.submit op arg)) s = exec (decodeCommand s.cfg op arg) s ∧
    (s.live = true → s.acceptsMethod = true → op = s.cfg.opcode.setCurrentVoice →
      ∃ t, exec (.methodSubmit (.submit op arg)) s = .next t ∧ t.topReg .fecv = arg ∧ t.topReg .fedecmeth = op ∧
        t.topReg .fedecparam = arg ∧ s.sameRegsBut t [.fecv, .fedecmeth, .fedecparam] ∧
        t = { s with topBank := t.topBank }) ∧
    (s.live = true → s.acceptsMethod = true → op = s.cfg.opcode.setAntecedentVoice →
      ∃ t, exec (.methodSubmit (.submit op arg)) s = .next t ∧ t.topReg .feav = arg ∧ t.topReg .fedecmeth = op ∧
        t.topReg .fedecparam = arg ∧ s.sameRegsBut t [.feav, .fedecmeth, .fedecparam] ∧
        t = { s with topBank := t.topBank })

/-- A read of the method port returns a 32-bit draw and writes no state of the block (rule R134; the draw is the free
value of log 9, for whatever value it has). -/
def Obligations.MethodPortReadReturnsADraw : Prop :=
  ∀ s : State, s.live = true →
    ∃ t v, exec (.methodSubmit .read) s = .next t ∧ t.readData = some v ∧
      t = { s with readData := some v, draws := s.draws + 1 }

/-- With P_HOLD_WHEN_TRAPPED a host submission has no step while the front end is trapped; an idle notification inside
a tick is never held (rules R133, R239). That a held submission is the refusal methodHeld is the model's reading
(log 18), and so is that IDLE_VOICE_NOTIFY with `sched` Running is the notification of a tick (log 23). -/
def Obligations.TrappedFrontEndHoldsHostMethods : Prop :=
  ∀ (s : State) (op arg : Word) (i : Instr), s.live = true → s.cfg.holdWhenTrapped = true → s.trapped = true →
    i ∈ [Instr.setAntecedentVoice arg, .voiceOn arg, .voiceOff arg, .voicePause arg, .setCurrentVoice arg,
      .unknownMethod op arg, .methodSubmit (.submit op arg)] →
    exec i s = .refused .methodHeld ∧
    (s.sched = .running → exec (.idleVoiceNotify arg) s ≠ .refused .methodHeld)

/-! ## The register bank -/

/-- The benign accesses of rule R304 never fault: a read at or beyond the window's size returns 0, a write there does
nothing, and an in-range read of an entry that was never written returns 0; none of them changes any status. -/
def Obligations.BenignAccessesNeverFault : Prop :=
  ∀ (s : State) (c : Coproc) (off v : Word), s.live = true →
    (Window.top.outOfRange off = true →
      exec (.topOutOfRange off .read) s = .next { s with readData := some 0#32 } ∧
      exec (.topOutOfRange off (.write v)) s = .next s) ∧
    (c.window.outOfRange off = true →
      exec (.gpepOutOfRange c off .read) s = .next { s with readData := some 0#32 } ∧
      exec (.gpepOutOfRange c off (.write v)) s = .next s) ∧
    (s.cfg.topPlainRead off = true → (∀ u, (off.toNat, u) ∉ s.topBank) →
      exec (.rTopPlain off) s = .next { s with readData := some 0#32 }) ∧
    (s.cfg.coprocPlain c off .read = true → (∀ u, (off.toNat, u) ∉ s.bank c.window) →
      exec (.gpepPlain c off .read) s = .next { s with readData := some 0#32 })

/-- A read of the TOP window at an offset in range but XGSCNT's returns the stored word and changes no state of the
block; the reads of ISTS, SECTL and FEMEMDATA are such plain reads (rule R123). -/
def Obligations.TopReadsReturnTheStoredWord : Prop :=
  ∀ (s : State) (off : Word), s.live = true →
    (s.cfg.topPlainRead off = true →
      exec (.rTopPlain off) s = .next { s with readData := some (s.reg .top off.toNat) }) ∧
    (s.cfg.wf = true → ∀ r ∈ [TopReg.ists, .sectl, .fememdata],
      exec (.rTopPlain (s.cfg.key r)) s = .next { s with readData := some (s.topReg r) })

/-- A read of XGSCNT returns a draw, whatever was written there, and changes no state of the block (rule R128; the draw
is the free value of log 8, for whatever value it has). -/
def Obligations.CounterReadReturnsADraw : Prop :=
  ∀ s : State, s.live = true →
    ∃ t v, exec .rXgscnt s = .next t ∧ t.readData = some v ∧ t = { s with readData := some v, draws := s.draws + 1 }

/-- A plain write of the TOP window stores all 32 bits at its offset and changes no other entry and no other state: no
side effect, and no evaluation of the interrupt line; a value written to XGSCNT is stored, and a read of XGSCNT returns
what it would have returned without the write (rules R122, R128; that last clause rests on the draws of log 8, the
model's choice). -/
def Obligations.TopPlainWritesStoreOneEntry : Prop :=
  ∀ (s : State) (off v : Word), s.live = true → s.cfg.topPlainWrite off = true →
    ∃ t, exec (.wTopPlain off v) s = .next t ∧ t.reg .top off.toNat = v ∧
      (∀ w a, ¬(w = .top ∧ a = off.toNat) → t.reg w a = s.reg w a) ∧ t = { s with topBank := t.topBank } ∧
      (off.toNat = s.cfg.addrOf .xgscnt → ∃ u u', exec .rXgscnt t = .next u ∧ exec .rXgscnt s = .next u' ∧
        u.readData = u'.readData)

/-- A host write of ISTS clears the bits set in the value, then G and the line are set exactly when an enabled source is
still pending, and the line is driven even when its level does not change; nothing else changes (rules R124, R125). -/
def Obligations.IstsWriteClearsAndEvaluates : Prop :=
  ∀ (s : State) (v g p : Word), s.cfg.wf = true → s.live = true → g = s.cfg.field.istsGlobal →
    p = (s.topReg .ien &&& ~~~g) &&& (s.topReg .ists &&& ~~~v) →
    ∃ t, exec (.wIsts v) s = .next t ∧
      (t.irqLine = true ↔ p ≠ 0#32 ∧ (s.cfg.irqGlobalGate = true → s.topReg .ien &&& g ≠ 0#32)) ∧
      t.topReg .ists = (if t.irqLine then (s.topReg .ists &&& ~~~v) ||| g else (s.topReg .ists &&& ~~~v) &&& ~~~g) ∧
      t.calls = s.calls ++ [if t.irqLine then .irqAssert else .irqDeassert] ∧
      s.sameRegsBut t [.ists] ∧ t = { s with topBank := t.topBank, irqLine := t.irqLine, trace := t.trace }

/-- A host write of SECTL stores the whole value; a count mode that is off disarms the timer (scheduler Idle), any
other arms it for `Now() + 10` ms, replacing the deadline (scheduler Scheduled); nothing else changes (rules R126,
R260, R345). `Now()` is the free value of log 11, for whatever value it has. -/
def Obligations.SectlWriteArmsOrDisarmsTheTimer : Prop :=
  ∀ (s : State) (v : Word), s.cfg.wf = true → s.live = true →
    (getf v s.cfg.field.sectlXcntmode = s.cfg.field.xcntmodeOff →
      ∃ t, exec (.wSectl v) s = .next t ∧ t.timerArmed = false ∧ t.sched = .idle ∧ t.topReg .sectl = v ∧
        t.calls = s.calls ++ [.timerDisarm] ∧ s.sameRegsBut t [.sectl] ∧
        t = { s with topBank := t.topBank, timerArmed := false, sched := .idle, trace := t.trace }) ∧
    (getf v s.cfg.field.sectlXcntmode ≠ s.cfg.field.xcntmodeOff →
      ∃ t now, exec (.wSectl v) s = .next t ∧ t.timerArmed = true ∧ t.timerDeadline = now + 10 ∧
        t.sched = .scheduled ∧ t.topReg .sectl = v ∧ t.calls = s.calls ++ [.timerArm 10] ∧
        s.sameRegsBut t [.sectl] ∧
        t = { s with topBank := t.topBank, timerArmed := true, timerDeadline := now + 10, sched := .scheduled,
                     trace := t.trace, draws := s.draws + 1 })

/-- A host write of FEMEMDATA stores the word little-endian at FEMEMADDR and then in FEMEMDATA, if the word lies in
guest memory; else it faults with GuestMemoryOutOfRange before either store. Nothing else changes (rules R9, R62,
R127), but for what a store of the guest CPU that races with it leaves in other bytes (rule R67; log 21). -/
def Obligations.NotifyWriteEchoesToGuestMemory : Prop :=
  ∀ (s : State) (v : Word) (p : Nat), s.cfg.wf = true → s.live = true → p = (s.topReg .fememaddr).toNat →
    (p + 4 ≤ s.cfg.ramSize →
      ∃ t, exec (.wFememdata v) s = .next t ∧ t.topReg .fememdata = v ∧
        (∀ i (_ : i < 4), Cells.get t.mem (p + i) = v.extractLsb' (8 * i) 8) ∧
        s.race.sameMemBut t (fun a => inWord p a = true) ∧
        (s.races = [] → s.sameMemBut t (fun a => inWord p a = true)) ∧
        t.calls = s.calls ++ [.writeBytes p (wordBytes v)] ∧ s.sameRegsBut t [.fememdata] ∧
        t = { s with topBank := t.topBank, mem := t.mem, trace := t.trace, races := s.races.tail }) ∧
    (s.cfg.ramSize < p + 4 → exec (.wFememdata v) s = .next { s with fault := some .guestMemoryOutOfRange })

/-- Reads of the GP and EP windows: at or beyond 0x10000 they return 0; the reset register and every offset outside the
sub-windows return the stored word; an offset of a sub-window returns the DSP core's answer for the word
`wb + (off - lo) / 4`, where the `wb` of the MIXBUF row is P_MIXBUF_BASE, and the call is recorded (rules R21, R39, R40,
R48, R129, R132). The answer is the free value of
log 10, for whatever value it has. -/
def Obligations.CoprocReadsRouteByOffset : Prop :=
  ∀ (s : State) (c : Coproc) (off : Word), s.live = true →
    (c.window.outOfRange off = true →
      ∃ t, exec (.gpepOutOfRange c off .read) s = .next t ∧ t.readData = some 0#32 ∧
        t = { s with readData := t.readData }) ∧
    (s.cfg.coprocPlain c off .read = true →
      ∃ t, exec (.gpepPlain c off .read) s = .next t ∧ t.readData = some (s.reg c.window off.toNat) ∧
        t = { s with readData := t.readData }) ∧
    (∀ w, s.cfg.subwindowOffset c off = true → s.cfg.subwindowAt c off.toNat = some w →
      ∃ t v, exec (.rSubwindow c off) s = .next t ∧ t.readData = some v ∧
        t.calls = s.calls ++ [.dspReadMemory c w.space (w.wb.toWord s.cfg + (off.toNat - w.lo) / 4)] ∧
        t = { s with readData := some v, draws := s.draws + 1, trace := t.trace })

/-- Writes of the GP and EP windows but for the reset register: at or beyond 0x10000 they change nothing; a plain one
stores its word at its offset and nothing else; one in a sub-window writes the DSP word `wb + (off - lo) / 4` through
`writeMemory` and no entry of the bank, so one in the MIXBUF row writes a word from P_MIXBUF_BASE of X memory up, as a
tick's publication does (rules R21, R40, R48, R130, R132). -/
def Obligations.CoprocWritesRouteByOffset : Prop :=
  ∀ (s : State) (c : Coproc) (off v : Word), s.live = true →
    (c.window.outOfRange off = true → exec (.gpepOutOfRange c off (.write v)) s = .next s) ∧
    (s.cfg.coprocPlain c off (.write v) = true →
      ∃ t, exec (.gpepPlain c off (.write v)) s = .next t ∧ t.reg c.window off.toNat = v ∧
        (∀ w a, ¬(w = c.window ∧ a = off.toNat) → t.reg w a = s.reg w a) ∧
        t = { s with gpBank := t.gpBank, epBank := t.epBank }) ∧
    (∀ w, s.cfg.subwindowOffset c off = true → s.cfg.subwindowAt c off.toNat = some w →
      ∃ t, exec (.wSubwindow c off v) s = .next t ∧
        t.calls = s.calls ++ [.dspWriteMemory c w.space (w.wb.toWord s.cfg + (off.toNat - w.lo) / 4) v] ∧
        (s.cfg.wf = true → w.wb = .mixbuf →
          t.calls = s.calls ++ [.dspWriteMemory c .x (s.cfg.mixbufBase + (off.toNat - w.lo) / 4) v]) ∧
        t = { s with trace := t.trace })

/-- A write of a reset register during whose DSP call the core makes no request: `reset()` is called when the value
leaves either bit 0, `bootstrap()` when it sets both and the old value did not, nothing otherwise; the value is stored;
the coprocessor's six CUR registers are cleared by a reset only under P_COPROC_RESET_CLEARS_FIFO; nothing else changes
(rules R131, R331). The DSP core's answer is used up by a call (log 14). What a call with requests does is the next
statement's. -/
def Obligations.ResetRegisterWriteCallsTheCore : Prop :=
  ∀ (s : State) (c : Coproc) (v old : Word), s.cfg.wf = true → s.live = true → s.inCall = none →
    s.dspAnswers.headD [] = [] → old = s.reg c.window (s.cfg.rstAddr c) →
    ∃ t, exec (.wRst c v) s = .next t ∧ t.reg c.window (s.cfg.rstAddr c) = v ∧
      t.calls = s.calls ++
        (if s.cfg.rstRunning v then (if s.cfg.rstRunning old then [] else [.dspBootstrap c]) else [.dspReset c]) ∧
      (∀ w a, ¬(w = c.window ∧ a = s.cfg.rstAddr c) →
        (∀ dir k, k < channelCount dir → ¬(w = .top ∧ a = s.cfg.addrOf (.fifo c dir k .cur))) →
        t.reg w a = s.reg w a) ∧
      (∀ dir k, k < channelCount dir → t.topReg (.fifo c dir k .cur) =
        if s.cfg.coprocResetClearsFifo = true ∧ s.cfg.rstRunning v = false then 0#32
        else s.topReg (.fifo c dir k .cur)) ∧
      t = { s with topBank := t.topBank, gpBank := t.gpBank, epBank := t.epBank, trace := t.trace,
                   dspAnswers := t.dspAnswers }

/-- A write of a reset register, whatever requests the DSP core makes during the call: if it ends without fault or hang,
the register holds the value written, and control has left the call. The requests run inside `bootstrap()` or `reset()`,
each as the instruction it is, with the register's old value still in place. If none of them ends the device, the value
is stored on the state they leave, and a reset clears the six CUR registers if it is configured to. If one faults or
hangs, the write ends there, and the register is not stored (rules R131, R273, R302, R351; logs 14 and 15). -/
def Obligations.ResetRegisterIsStoredAfterTheCall : Prop :=
  ∀ (s : State) (c : Coproc) (v old : Word),
    (∀ t, exec (.wRst c v) s = .next t → t.live = true → s.inCall = none →
      t.reg c.window (s.cfg.rstAddr c) = v ∧ t.inCall = none) ∧
    (∀ u, s.cfg.wf = true → s.live = true → old = s.reg c.window (s.cfg.rstAddr c) →
      (s.cfg.rstRunning v = true ∧ s.cfg.rstRunning old = false ∧ callEnds c (.dspBootstrap c) s u) ∨
        (s.cfg.rstRunning v = false ∧ callEnds c (.dspReset c) s u) →
      u.reg c.window (s.cfg.rstAddr c) = old ∧
      (u.live = true →
        ∃ t, exec (.wRst c v) s = .next t ∧ t.reg c.window (s.cfg.rstAddr c) = v ∧
          (∀ dir k, k < channelCount dir → t.topReg (.fifo c dir k .cur) =
            if s.cfg.coprocResetClearsFifo = true ∧ s.cfg.rstRunning v = false then 0#32
            else u.topReg (.fifo c dir k .cur)) ∧
          (∀ w a, ¬(w = c.window ∧ a = s.cfg.rstAddr c) →
            (∀ dir k, k < channelCount dir → ¬(w = .top ∧ a = s.cfg.addrOf (.fifo c dir k .cur))) →
            t.reg w a = u.reg w a) ∧
          t = { u with topBank := t.topBank, gpBank := t.gpBank, epBank := t.epBank }) ∧
      (u.live = false → exec (.wRst c v) s = .next u))

/-! ## Scatter-gather DMA -/

/-- A ToGuest scratch request inside a call to its core, over offsets whose descriptors and target bytes are all in
bounds, none of whose target bytes is a byte of a descriptor word it uses, and no two of whose bytes share a target:
byte `i` of the data lies at the translation of offset `o + i`, and no other byte of memory and no register changes
(rules R71, R150, R154, R158; no racing stores, rule R67). -/
def Obligations.ScratchWritesLandAtTheTranslation : Prop :=
  ∀ (s : State) (c : Coproc) (off : Word) (data : List Byte) (T M : Nat), s.cfg.wf = true → s.live = true →
    s.races = [] → s.inCall = some c → T = (s.topReg (.scratchBase c)).toNat → M = (s.topReg (.scratchMax c)).toNat →
    (∀ i < data.length, s.reachable T M (off.toNat + i)) →
    (∀ i < data.length, ∀ j < data.length,
      inWord (s.cfg.descAddr T ((off.toNat + i) / s.cfg.pageSize)) (s.translate T (off.toNat + j)) = false) →
    (∀ i < data.length, ∀ j < data.length, s.translate T (off.toNat + i) = s.translate T (off.toNat + j) → i = j) →
    ∃ t, exec (.scratchReq c .toGuest off data.length data) s = .next t ∧
      (∀ i (h : i < data.length), Cells.get t.mem (s.translate T (off.toNat + i)) = data[i]) ∧
      s.sameMemBut t (fun a => ∃ i < data.length, a = s.translate T (off.toNat + i)) ∧
      t = { s with mem := t.mem, trace := t.trace }

/-- A FromGuest scratch request inside a call to its core, over offsets that are all in bounds: it returns to the core,
last of all, `len` bytes, byte `i` being the guest byte at the translation of offset `o + i`; memory and registers do
not change (rules R71, R150, R154, R158, R159; no racing stores). Whatever stores of the guest CPU race with it, run after
run: the descriptor of a run is the one its read finds after the stores before it, byte `i` is what the guest left in the
byte it maps to when its run is read, and memory is as the stores leave it; the offsets are in bounds by the descriptors
so read (rules R67, R350; the input of log 21, the model's choice). -/
def Obligations.ScratchReadsReturnTheTranslatedBytes : Prop :=
  ∀ (s : State) (c : Coproc) (off : Word) (len T M : Nat), s.cfg.wf = true → s.live = true → s.inCall = some c →
    T = (s.topReg (.scratchBase c)).toNat → M = (s.topReg (.scratchMax c)).toNat →
    (s.races = [] → (∀ i < len, s.reachable T M (off.toNat + i)) →
      ∃ t cs bytes, exec (.scratchReq c .fromGuest off len []) s = .next t ∧
        t.calls = s.calls ++ cs ++ [.dspReceive c bytes] ∧ bytes.length = len ∧
        (∀ i (h : i < bytes.length), bytes[i] = Cells.get s.mem (s.translate T (off.toNat + i))) ∧
        t = { s with trace := t.trace }) ∧
    (∀ run : Nat → Nat, (∀ i, run i = runOf s.cfg.pageSize off.toNat i) →
      (∀ i < len, (State.race^[2 * run i + 1] s).reachable T M (off.toNat + i)) →
      ∃ t cs bytes, exec (.scratchReq c .fromGuest off len []) s = .next t ∧
        t.calls = s.calls ++ cs ++ [.dspReceive c bytes] ∧ bytes.length = len ∧
        (∀ i (h : i < bytes.length), bytes[i] = Cells.get (State.race^[2 * run i + 2] s).mem
          ((State.race^[2 * run i + 1] s).translate T (off.toNat + i))) ∧
        t = { State.race^[if len = 0 then 0 else 2 * run (len - 1) + 2] s with trace := t.trace })

/-- Chunking transparency of reads: when a guest-to-buffer transfer of `k` bytes at `o` and then one of `m` bytes at
`o + k` both succeed, one transfer of `k + m` bytes at `o` succeeds with the same buffer and the same memory
(rule R155; no racing stores, rule R67). -/
def Obligations.SplitReadEqualsOneRead : Prop :=
  ∀ (T M o k m : Nat) (buf b₁ b₂ : List Byte) (s s₁ s₂ : State), s.cfg.wf = true → s.races = [] →
    sgTransfer .fromGuest T M buf o k s = .ok b₁ s₁ → sgTransfer .fromGuest T M b₁ (o + k) m s₁ = .ok b₂ s₂ →
    ∃ t, sgTransfer .fromGuest T M buf o (k + m) s = .ok b₂ t ∧ t.mem = s₂.mem ∧ t = { s₂ with trace := t.trace }

/-- The first failing check of a transfer's first run decides the fault, before any byte moves: the descriptor index
above the maximum, the descriptor word outside guest memory, the run outside guest memory, in that order (rules R150 to
R153, R303). An address sum at or above 2^32, of a descriptor or of a run, is not wrapped and fails its check, however
large guest memory is (rule R157); that a run which starts below 2^32 and ends beyond it fails too is the model's reading
of rules R71 and R155 (DEDUCED, log 34). A scratch request is checked at its offset, a FIFO request at its clamped cursor, each in either
direction. -/
def Obligations.TransfersFaultBeforeTheRunMoves : Prop :=
  ∀ (s : State) (c : Coproc) (dir : Dir) (off : Word) (data : List Byte) (len T M idx n k o : Nat) (i : Instr),
    s.cfg.wf = true → s.live = true → s.inCall = some c → 0 < len → (dir = .toGuest → data.length = len) →
    (i = .scratchReq c dir off len data ∧ T = (s.topReg (.scratchBase c)).toNat ∧
        M = (s.topReg (.scratchMax c)).toNat ∧ o = off.toNat ∧ n = min len (s.cfg.pageSize - o % s.cfg.pageSize)) ∨
      (i = .fifoReq c dir k len data ∧ T = (s.topReg (.fifoTableBase c)).toNat ∧
        M = (s.topReg (.fifoTableMax c)).toNat ∧ o = s.clampedCur c dir k ∧ k < channelCount dir ∧
        s.fifoCur c dir k < s.fifoEnd c dir k ∧ s.fifoBase c dir k < s.fifoEnd c dir k ∧
        n = min (min len (s.fifoEnd c dir k - o)) (s.cfg.pageSize - o % s.cfg.pageSize)) →
    idx = o / s.cfg.pageSize →
    (M < idx → exec i s = .next { s with fault := some .descriptorOverflow }) ∧
    (idx ≤ M → s.descInRam T idx = false ∨ 2 ^ 32 ≤ T + idx * s.cfg.descStride + s.cfg.descAddrOff →
      exec i s = .next { s with fault := some .guestMemoryOutOfRange }) ∧
    (s.races = [] → idx ≤ M → s.descInRam T idx = true →
      s.cfg.dmaInBounds (s.translate T o) n = false ∨ 2 ^ 32 ≤ s.translate T o →
      ∃ t, exec i s = .next t ∧ t.fault = some .dmaOutOfBounds ∧ t = { s with fault := t.fault, trace := t.trace })

/-- A scratch request of length 0 moves and marks nothing and raises no fault, whatever the offset and the tables; a
ToGuest one changes no state at all (rule R156). -/
def Obligations.EmptyScratchRequestDoesNothing : Prop :=
  ∀ (s : State) (c : Coproc) (off : Word), s.live = true → s.inCall = some c →
    exec (.scratchReq c .toGuest off 0 []) s = .next s ∧
    ∃ t, exec (.scratchReq c .fromGuest off 0 []) s = .next t ∧ t.calls = s.calls ++ [.dspReceive c []] ∧
      t = { s with trace := t.trace }

/-- A DSP request while control is not inside a call to its core, and a ToGuest request whose data is not `len` bytes,
are refused (rules R158, R177, R273, R305). -/
def Obligations.RequestsOutsideACallAreRefused : Prop :=
  ∀ (s : State) (c : Coproc) (dir : Dir) (off : Word) (k len : Nat) (data : List Byte), s.live = true →
    (s.inCall ≠ some c →
      exec (.scratchReq c dir off len data) s = .refused .requestOutsideCall ∧
      exec (.fifoReq c dir k len data) s = .refused .requestOutsideCall) ∧
    (s.inCall = some c → data.length ≠ len →
      exec (.scratchReq c .toGuest off len data) s = .refused .requestDataLength ∧
      exec (.fifoReq c .toGuest k len data) s = .refused .requestDataLength)

/-! ## Circular FIFO -/

/-- A FIFO request that ends without fault or hang, in either direction: the cursor written back has advanced by `len`
around `[base, end)` from the clamped one, so a nonempty request leaves it in `[base, end)`, never at `end`, and one of
exactly `end - base` bytes leaves it where it started; an empty one writes the clamped cursor back. BASE and END do not
change, nor does any other register (rules R170 to R175, R177, R178). -/
def Obligations.FifoCursorAdvancesAroundTheRange : Prop :=
  ∀ (s t : State) (c : Coproc) (dir : Dir) (k len : Nat) (data : List Byte), s.cfg.wf = true →
    exec (.fifoReq c dir k len data) s = .next t → t.live = true →
    ∃ cur, t.topReg (.fifo c dir k .cur) = s.cfg.fifoDecode.curStore (s.topReg (.fifo c dir k .cur)) cur ∧
      (len = 0 → cur = s.clampedCur c dir k) ∧
      (0 < len → s.fifoBase c dir k ≤ cur ∧ cur < s.fifoEnd c dir k ∧
        cur = circOffset (s.fifoBase c dir k) (s.fifoEnd c dir k) (s.clampedCur c dir k) len) ∧
      (len = s.fifoEnd c dir k - s.fifoBase c dir k → 0 < len → cur = s.clampedCur c dir k) ∧
      s.sameRegsBut t [.fifo c dir k .cur]

/-- Cursor persistence: a FIFO request that completes leaves `curStore(old, newCur)` in CUR, where `newCur` is what the
circular transfer from the clamped stored cursor returned; a request that faults leaves CUR as it was; BASE and END are
never written (rule R178). -/
def Obligations.OnlyACompletedFifoRequestStoresTheCursor : Prop :=
  ∀ (s t : State) (c : Coproc) (dir : Dir) (k len : Nat) (data : List Byte), s.cfg.wf = true →
    k < channelCount dir → exec (.fifoReq c dir k len data) s = .next t →
    t.topReg (.fifo c dir k .base) = s.topReg (.fifo c dir k .base) ∧
    t.topReg (.fifo c dir k .limit) = s.topReg (.fifo c dir k .limit) ∧
    (t.live = false → t.topReg (.fifo c dir k .cur) = s.topReg (.fifo c dir k .cur)) ∧
    (t.live = true → ∃ buf newCur u,
      circTransfer dir (s.topReg (.fifoTableBase c)).toNat (s.topReg (.fifoTableMax c)).toNat (startBuffer dir data)
        (s.fifoBase c dir k) (s.fifoEnd c dir k) (s.clampedCur c dir k) len s = .ok (buf, newCur) u ∧
      t.topReg (.fifo c dir k .cur) = s.cfg.fifoDecode.curStore (s.topReg (.fifo c dir k .cur)) newCur)

/-- A FromGuest FIFO request of an input channel inside a call to its core, over a range all of whose offsets are in
bounds: it returns to the core, last of all, `len` bytes, byte `i` being the guest byte at the translation of the
`i`-th circular offset from the clamped cursor; memory does not change (rules R170, R177, R179; no racing stores,
rule R67). -/
def Obligations.FifoReadsReturnTheCircularBytes : Prop :=
  ∀ (s : State) (c : Coproc) (k len T M : Nat), s.cfg.wf = true → s.live = true → s.races = [] →
    s.inCall = some c → k < 2 →
    s.fifoCur c .fromGuest k < s.fifoEnd c .fromGuest k → s.fifoBase c .fromGuest k < s.fifoEnd c .fromGuest k →
    T = (s.topReg (.fifoTableBase c)).toNat → M = (s.topReg (.fifoTableMax c)).toNat →
    (∀ o, s.fifoBase c .fromGuest k ≤ o → o < s.fifoEnd c .fromGuest k → s.reachable T M o) →
    ∃ t cs bytes, exec (.fifoReq c .fromGuest k len []) s = .next t ∧
      t.calls = s.calls ++ cs ++ [.dspReceive c bytes] ∧ bytes.length = len ∧
      (∀ i (h : i < bytes.length), bytes[i] = Cells.get s.mem (s.translate T
        (circOffset (s.fifoBase c .fromGuest k) (s.fifoEnd c .fromGuest k) (s.clampedCur c .fromGuest k) i))) ∧
      s.sameRegsBut t [.fifo c .fromGuest k .cur] ∧ t = { s with topBank := t.topBank, trace := t.trace }

/-- A ToGuest FIFO request of an output channel inside a call to its core that fits before END and in one page of an
in-bounds table: its data lies at the translation of the clamped cursor, the run is marked dirty after it is written,
and no other byte and no register but CUR changes. One that wraps at END, or crosses pages, or is longer than the whole
range, over a table that reaches every offset of [BASE, END), maps them apart from one another and from the descriptor
words: byte `i` of the data lies at the translation of the `i`-th circular offset from the clamped cursor, unless a later
byte has come round to the same offset, and no other byte and no register but CUR changes (rules R154, R170, R173, R177,
R179; vectors FI1 and FI8; no racing stores, rule R67). -/
def Obligations.FifoWritesLandAtTheCursor : Prop :=
  ∀ (s : State) (c : Coproc) (k cur base stop p T M : Nat) (data : List Byte), s.cfg.wf = true → s.live = true →
    s.races = [] → s.inCall = some c → k < 4 → 0 < data.length → cur = s.clampedCur c .toGuest k →
    base = s.fifoBase c .toGuest k → stop = s.fifoEnd c .toGuest k → s.fifoCur c .toGuest k < stop →
    T = (s.topReg (.fifoTableBase c)).toNat → M = (s.topReg (.fifoTableMax c)).toNat →
    (cur + data.length ≤ stop → cur % s.cfg.pageSize + data.length ≤ s.cfg.pageSize → cur / s.cfg.pageSize ≤ M →
      s.descInRam T (cur / s.cfg.pageSize) = true → p = s.translate T cur →
      s.cfg.dmaInBounds p data.length = true →
      ∃ t, exec (.fifoReq c .toGuest k data.length data) s = .next t ∧
        (∀ i (h : i < data.length), Cells.get t.mem (p + i) = data[i]) ∧
        s.sameMemBut t (fun a => p ≤ a ∧ a < p + data.length) ∧
        t.calls = s.calls ++ [.readBytes (s.cfg.descAddr T (cur / s.cfg.pageSize)) 4, .writeBytes p data,
          .markDirty p data.length] ∧
        s.sameRegsBut t [.fifo c .toGuest k .cur] ∧
        t = { s with topBank := t.topBank, mem := t.mem, trace := t.trace }) ∧
    (base < stop → (∀ o, base ≤ o → o < stop → s.reachable T M o) →
      (∀ o o', base ≤ o → o < stop → base ≤ o' → o' < stop →
        inWord (s.cfg.descAddr T (o / s.cfg.pageSize)) (s.translate T o') = false ∧
        (s.translate T o = s.translate T o' → o = o')) →
      ∃ t, exec (.fifoReq c .toGuest k data.length data) s = .next t ∧
        (∀ i (h : i < data.length), data.length ≤ i + (stop - base) →
          Cells.get t.mem (s.translate T (circOffset base stop cur i)) = data[i]) ∧
        s.sameMemBut t (fun a => ∃ i < data.length, a = s.translate T (circOffset base stop cur i)) ∧
        s.sameRegsBut t [.fifo c .toGuest k .cur] ∧
        t = { s with topBank := t.topBank, mem := t.mem, trace := t.trace })

/-- The checks of a FIFO request before its transfer: a channel index beyond 3 (output) or 1 (input) raises
FifoChannelIndex; else a stored cursor at or above END raises FifoCursorOutOfRange, even for an empty request; else an
empty range (END at or below BASE) raises it for a nonempty request. Nothing else changes (rules R172, R177, R179,
R303, R342). -/
def Obligations.FifoChecksComeBeforeTheTransfer : Prop :=
  ∀ (s : State) (c : Coproc) (dir : Dir) (k len : Nat) (data : List Byte), s.live = true → s.inCall = some c →
    (dir = .toGuest → data.length = len) →
    (channelCount dir ≤ k →
      exec (.fifoReq c dir k len data) s = .next { s with fault := some .fifoChannelIndex }) ∧
    (k < channelCount dir → s.fifoEnd c dir k ≤ s.fifoCur c dir k →
      exec (.fifoReq c dir k len data) s = .next { s with fault := some .fifoCursorOutOfRange }) ∧
    (k < channelCount dir → s.fifoCur c dir k < s.fifoEnd c dir k → s.fifoEnd c dir k ≤ s.fifoBase c dir k →
      0 < len → exec (.fifoReq c dir k len data) s = .next { s with fault := some .fifoCursorOutOfRange })

/-! ## The frame tick -/

/-- A tick whose timer is not armed has no step (rule R261). -/
def Obligations.DisarmedTickHasNoStep : Prop :=
  ∀ s : State, s.live = true → s.timerArmed = false → exec .tick s = .refused .tickNotEnabled

/-- The mix buffer a tick starts from is fresh, every cell 0, and nothing of an earlier buffer survives: what a tick
does is the same whatever buffer stood there before it (rule R264). -/
def Obligations.TickStartsFromAFreshMixBuffer : Prop :=
  ∀ (s : State) (m : Option MixBuffer),
    (∃ b, (startMix s).mix = some b ∧ ∀ i j : Fin 32, b[i][j] = 0#32) ∧ exec .tick { s with mix := m } = exec .tick s

/-- A tick whose three lists are empty and whose DSP calls bring no requests: it re-arms the timer first, publishes 1024
zero words to GP X memory in order, starts and runs GP and starts EP as their reset registers say, and ends Scheduled
with CVL_L = 0xFFFF and every other register, NVL_L among them, as it was. Where the cores make requests, each runs inside
its call on the state after the publication, as the instruction it is: a fault or hang in one ends the tick in the state
it leaves, with no later call; else the tick ends Scheduled on the state they leave (rules R208, R263, R268 to R271, R273,
R274, R302; the requests are the input of log 14, and `Now()` is the free value of log 11). -/
def Obligations.EmptyTickPublishesAndKicks : Prop :=
  ∀ s : State, s.cfg.wf = true → s.live = true → s.timerArmed = true → s.inCall = none →
    (∀ l, s.topReg (.listTop l) = noVoice) →
    (s.dspAnswers = [] →
      ∃ t now, exec .tick s = .next t ∧
        t.calls = s.calls ++ [.timerArm 10] ++
          (List.range 1024).map (fun i => .dspWriteMemory .gp .x (s.cfg.mixbufBase + i) 0#32) ++
          (if s.cfg.rstRunning (s.rst .gp) then [.dspStartFrame .gp, .dspRun .gp s.cfg.gpRunCycles] else []) ++
          (if s.cfg.rstRunning (s.rst .ep) then [.dspStartFrame .ep] else []) ∧
        (∀ l, t.topReg (.listCurrent l) = noVoice) ∧
        s.sameRegsBut t [.listCurrent .l2d, .listCurrent .l3d, .listCurrent .mp] ∧
        t = { s with topBank := t.topBank, trace := t.trace, sched := .scheduled, timerDeadline := now + 10,
                     mix := none, draws := s.draws + 1 }) ∧
    ∃ u now,
      u.calls = s.calls ++ [.timerArm 10] ++
        (List.range 1024).map (fun i => .dspWriteMemory .gp .x (s.cfg.mixbufBase + i) 0#32) ∧
      (∀ l, u.topReg (.listCurrent l) = noVoice) ∧
      s.sameRegsBut u [.listCurrent .l2d, .listCurrent .l3d, .listCurrent .mp] ∧
      u = { s with topBank := u.topBank, trace := u.trace, sched := .running, timerDeadline := now + 10,
                   mix := some MixBuffer.zero, draws := s.draws + 1 } ∧
      ∀ g, gpKickEnds u g →
        (g.live = false → exec .tick s = .next g) ∧
        (g.live = true → ∀ e, epKickEnds g e →
          (e.live = false → exec .tick s = .next e) ∧
          (e.live = true → exec .tick s = .next { e with mix := none, sched := .scheduled }))

/-- A tick on three well-formed lists, with either every voice active or idle notification enabled, visits every voice of
2D, then 3D, then Multipass once and in order: its calls are the re-arm, then for each voice its link read, its state read
and either its P_MIX call (exactly the active ones) or the line's drive of its idle notification, then the publication of
the buffer the contributions make. So far it leaves guest memory as it is and each CVL_L at 0xFFFF, traps the front end
and raises FET exactly when some voice is inactive, and writes no register but the latch, FECTL, ISTS, CVL_L and NVL_L.
Then it kicks GP and EP as their reset registers say. Where the cores make no request (or none runs), it ends Scheduled,
without fault or hang, and the kicks' calls are its last. Where they make requests, each runs inside its call, as the
instruction it is, on the state after the publication; a fault or hang in one ends the tick in the state it leaves, with
no later call, else the tick ends Scheduled on the state they leave (rules R125, R208, R211, R238, R263 to R271, R273,
R274, R302; no racing stores before the kicks, rule R67; the requests are the input of log 14, and `Now()` is the free
value of log 11). -/
def Obligations.TickVisitsEveryVoiceOnce : Prop :=
  ∀ (s : State) (h2d h3d hmp hs : List Word), s.cfg.wf = true → s.live = true → s.timerArmed = true →
    s.chain (s.topReg (.listTop .l2d)) h2d = true → s.chain (s.topReg (.listTop .l3d)) h3d = true →
    s.chain (s.topReg (.listTop .mp)) hmp = true → h2d.Nodup → h3d.Nodup → hmp.Nodup →
    hs = h2d ++ h3d ++ hmp → s.races = [] →
    (s.cfg.idleEnabled (s.topReg .fetforce1) = true ∨ ∀ h ∈ hs, s.isActive h = true) →
    ∃ u now cs mix, u.calls = s.calls ++ cs ∧ cs.filterMap Call.mixed = hs.filter s.isActive ∧
      cs = [.timerArm 10] ++ hs.flatMap s.visitCalls ++ publishCalls s.cfg mix ∧
      mix = (hs.filter s.isActive).foldl (fun m h => Config.mixVoice h m s.mem) MixBuffer.zero ∧
      (∀ l, u.topReg (.listCurrent l) = noVoice) ∧
      u.topReg .fectl = (if hs.all s.isActive then s.topReg .fectl else s.cfg.fectlTrap (s.topReg .fectl)) ∧
      u.topReg .ists =
        (if hs.all s.isActive then s.topReg .ists
        else s.cfg.istsAfterIrq (s.topReg .ien) (s.topReg .ists ||| s.cfg.field.istsFe)) ∧
      u.irqLine =
        (if hs.all s.isActive then s.irqLine
        else s.cfg.irqPending (s.topReg .ien) (s.topReg .ists ||| s.cfg.field.istsFe)) ∧
      s.sameRegsBut u [.fedecmeth, .fedecparam, .fectl, .ists, .listCurrent .l2d, .listCurrent .l3d, .listCurrent .mp,
        .listNext .l2d, .listNext .l3d, .listNext .mp] ∧
      u = { s with topBank := u.topBank, trace := u.trace, sched := .running, timerDeadline := now + 10,
                   irqLine := u.irqLine, mix := some mix, draws := s.draws + 1 } ∧
      (s.dspAnswers = [] ∨ s.kickCalls = [] →
        ∃ t, exec .tick s = .next t ∧ t.live = true ∧ t.sched = .scheduled ∧ t.timerArmed = true ∧ t.mem = s.mem ∧
          t.calls = s.calls ++ cs ++ s.kickCalls ∧ (∀ w a, t.reg w a = u.reg w a) ∧
          t = { u with trace := t.trace, inCall := t.inCall, mix := none, sched := .scheduled }) ∧
      ∀ g, gpKickEnds u g →
        (g.live = false → exec .tick s = .next g) ∧
        (g.live = true → ∀ e, epKickEnds g e →
          (e.live = false → exec .tick s = .next e) ∧
          (e.live = true → exec .tick s = .next { e with mix := none, sched := .scheduled }))

/-- A tick that comes to a list (2D, 3D or Multipass, the lists before it well formed) that never reaches 0xFFFF (each
link, however far, names a voice whose words are in guest memory) never ends: the device is Hung, with no fault code, and
stays Running (rules R208, R211, R265, R272; the bound is that of log 16; no racing stores, rule R67). -/
def Obligations.CyclicListHangsTheTick : Prop :=
  ∀ (s : State) (l : ListId) (hs : List Word), s.cfg.wf = true → s.live = true → s.timerArmed = true → s.races = [] →
    s.visited l hs (s.topReg (.listTop l)) →
    (∀ n ≤ 0x10000, s.voiceOk (s.linkOf^[n] (s.topReg (.listTop l))) = true) →
    (s.cfg.idleEnabled (s.topReg .fetforce1) = true ∨
      (∀ h ∈ hs, s.isActive h = true) ∧ ∀ n ≤ 0x10000, s.isActive (s.linkOf^[n] (s.topReg (.listTop l))) = true) →
    ∃ t, exec .tick s = .next t ∧ t.hung = true ∧ t.fault = none ∧ t.sched = .running ∧ t.mem = s.mem

/-- A tick that reaches an inactive voice at the head of the 2D list while idle notification is disabled faults with
IdleNotifyDisabled; the latch holds the notification, CVL and NVL of the list their values at that point, FECTL and
ISTS are unchanged, and the scheduler does not return to Scheduled. So it does at any place of any of the three lists,
after visiting the voices before it; and there a handle word that names no voice and is not 0xFFFF faults with
InvalidVoiceHandle, a link word outside guest memory with GuestMemoryOutOfRange, both before anything of that voice is
read, and a state word outside it with GuestMemoryOutOfRange once the link is captured in NVL_L (rules R203, R208, R238,
R263, R266, R302, R303, R344; vector VL11; no racing stores, rule R67). What `sched` holds after the fault is the model's
reading (log 25). -/
def Obligations.IdleVoiceFaultsTheTickWhenDisabled : Prop :=
  ∀ (s : State), s.cfg.wf = true → s.live = true → s.timerArmed = true → s.races = [] →
    (∀ h, h = s.topReg (.listTop .l2d) →
      s.voiceOk h = true → s.isActive h = false → s.cfg.idleEnabled (s.topReg .fetforce1) = false →
      ∃ t, exec .tick s = .next t ∧ t.fault = some .idleNotifyDisabled ∧
        t.topReg .fedecmeth = s.cfg.opcode.idleVoiceNotify ∧ t.topReg .fedecparam = h ∧
        t.topReg (.listCurrent .l2d) = h ∧ t.topReg (.listNext .l2d) = s.linkOf h ∧
        s.sameRegsBut t [.fedecmeth, .fedecparam, .listCurrent .l2d, .listNext .l2d] ∧ t.mem = s.mem ∧
        t.sched = .running ∧ t.timerArmed = true ∧ t.irqLine = s.irqLine) ∧
    (∀ l hs x cvls, s.visited l hs x → (s.cfg.idleEnabled (s.topReg .fetforce1) = true ∨ ∀ h ∈ hs, s.isActive h = true) →
      cvls = [TopReg.listCurrent .l2d, .listCurrent .l3d, .listCurrent .mp, .listNext .l2d, .listNext .l3d,
        .listNext .mp] →
      (x ≠ noVoice → validHandle x = false →
        ∃ t, s.tickFaults t l x .invalidVoiceHandle (hs.flatMap s.visitCalls) ∧
          ((∀ h ∈ hs, s.isActive h = true) → s.sameRegsBut t cvls ∧ t.irqLine = s.irqLine)) ∧
      (validHandle x = true → s.inRam (s.linkAddr x) = false →
        ∃ t, s.tickFaults t l x .guestMemoryOutOfRange (hs.flatMap s.visitCalls) ∧
          ((∀ h ∈ hs, s.isActive h = true) → s.sameRegsBut t cvls ∧ t.irqLine = s.irqLine)) ∧
      (validHandle x = true → s.inRam (s.linkAddr x) = true → s.inRam (s.stateAddr x) = false →
        ∃ t, s.tickFaults t l x .guestMemoryOutOfRange (hs.flatMap s.visitCalls ++ [.readBytes (s.linkAddr x) 4]) ∧
          t.topReg (.listNext l) = s.linkOf x ∧
          ((∀ h ∈ hs, s.isActive h = true) → s.sameRegsBut t cvls ∧ t.irqLine = s.irqLine)) ∧
      (s.voiceOk x = true → s.isActive x = false → s.cfg.idleEnabled (s.topReg .fetforce1) = false →
        ∃ t, s.tickFaults t l x .idleNotifyDisabled
            (hs.flatMap s.visitCalls ++ [.readBytes (s.linkAddr x) 4, .readBytes (s.stateAddr x) 4]) ∧
          t.topReg .fedecmeth = s.cfg.opcode.idleVoiceNotify ∧ t.topReg .fedecparam = x ∧
          t.topReg (.listNext l) = s.linkOf x ∧
          s.sameRegsBut t (.fedecmeth :: .fedecparam :: cvls) ∧ t.irqLine = s.irqLine))
end

