-- ==== Sys2Proof/Laws/Cells.lean ====
section
/-! SUPPORT. The laws of sparse cells: reading after writing, and that writing keeps the canonical form; and the same
for bytes and words of guest memory. -/

namespace Sys2Proof.Machine

variable {n : Nat}

/-! ## One cell -/

theorem Cells.get_erase (m : List (Nat × BitVec n)) (a b : Nat) :
    Cells.get (Cells.erase m a) b = if b = a then 0#n else Cells.get m b := by
  induction m with
  | nil => simp [Cells.erase, Cells.get]
  | cons c t ih =>
    obtain ⟨k, w⟩ := c
    by_cases hk : k = a
    · subst hk
      rw [show Cells.erase ((k, w) :: t) k = Cells.erase t k by simp [Cells.erase], ih]
      by_cases hb : b = k <;> simp [Cells.get, hb]
    · by_cases hb : b = k
      · subst hb
        simp [Cells.erase, Cells.get, hk]
      · simp [Cells.erase, Cells.get, hk, hb, ih]

theorem Cells.get_insert (m : List (Nat × BitVec n)) (a b : Nat) (v : BitVec n) (h : Cells.get m a = 0#n)
    (ha : ∀ c ∈ m, c.1 ≠ a) : Cells.get (Cells.insert m a v) b = if b = a then v else Cells.get m b := by
  induction m with
  | nil => simp [Cells.insert, Cells.get]
  | cons c t ih =>
    obtain ⟨k, w⟩ := c
    have hk : k ≠ a := ha (k, w) (by simp)
    have ht : ∀ c ∈ t, c.1 ≠ a := fun c hc => ha c (by simp [hc])
    have h0 : Cells.get t a = 0#n := by simpa [Cells.get, Ne.symm hk] using h
    unfold Cells.insert
    split
    · by_cases hb : b = a <;> simp [Cells.get, hb]
    · by_cases hb : b = k
      · subst hb
        simp [Cells.get, hk]
      · simp [Cells.get, hb, ih h0 ht]

theorem Cells.key_ne_of_mem_erase (m : List (Nat × BitVec n)) (a : Nat) : ∀ c ∈ Cells.erase m a, c.1 ≠ a := by
  induction m with
  | nil => simp [Cells.erase]
  | cons c t ih =>
    obtain ⟨k, w⟩ := c
    unfold Cells.erase
    split
    · exact ih
    · intro d hd
      rcases List.mem_cons.1 hd with rfl | hd
      · assumption
      · exact ih d hd

/-- Reading after writing: the value written at its key, the old value at every other. -/
theorem Cells.get_put (m : List (Nat × BitVec n)) (a b : Nat) (v : BitVec n) :
    Cells.get (Cells.put m a v) b = if b = a then v else Cells.get m b := by
  unfold Cells.put
  split
  · next h => rw [Cells.get_erase, h]
  · rw [Cells.get_insert _ _ _ _ (by simp [Cells.get_erase]) (Cells.key_ne_of_mem_erase m a), Cells.get_erase]
    split <;> rfl

@[simp] theorem Cells.get_put_self (m : List (Nat × BitVec n)) (a : Nat) (v : BitVec n) :
    Cells.get (Cells.put m a v) a = v := by
  simp [Cells.get_put]

theorem Cells.get_put_of_ne (m : List (Nat × BitVec n)) {a b : Nat} (v : BitVec n) (h : b ≠ a) :
    Cells.get (Cells.put m a v) b = Cells.get m b := by
  simp [Cells.get_put, h]

/-! ## The canonical form -/

theorem Cells.wfFrom_mono {m : List (Nat × BitVec n)} {lo lo' : Nat} (h : lo' ≤ lo) (hm : Cells.wfFrom lo m = true) :
    Cells.wfFrom lo' m = true := by
  cases m with
  | nil => rfl
  | cons c t =>
    simp only [Cells.wfFrom, Bool.and_eq_true, decide_eq_true_eq] at hm ⊢
    exact ⟨⟨by omega, hm.1.2⟩, hm.2⟩

theorem Cells.wfFrom_erase {m : List (Nat × BitVec n)} {lo : Nat} (a : Nat) (hm : Cells.wfFrom lo m = true) :
    Cells.wfFrom lo (Cells.erase m a) = true := by
  induction m generalizing lo with
  | nil => rfl
  | cons c t ih =>
    simp only [Cells.wfFrom, Bool.and_eq_true, decide_eq_true_eq] at hm
    unfold Cells.erase
    split
    · exact Cells.wfFrom_mono (by omega) (ih hm.2)
    · simp only [Cells.wfFrom, Bool.and_eq_true, decide_eq_true_eq]
      exact ⟨hm.1, ih hm.2⟩

theorem Cells.wfFrom_insert {m : List (Nat × BitVec n)} {lo a : Nat} {v : BitVec n} (hv : v ≠ 0#n) (ha : lo ≤ a)
    (hk : ∀ c ∈ m, c.1 ≠ a) (hm : Cells.wfFrom lo m = true) : Cells.wfFrom lo (Cells.insert m a v) = true := by
  induction m generalizing lo with
  | nil => simp [Cells.insert, Cells.wfFrom, hv, ha]
  | cons c t ih =>
    have hne := hk c (by simp)
    simp only [Cells.wfFrom, Bool.and_eq_true, decide_eq_true_eq] at hm
    unfold Cells.insert
    split
    · simp [Cells.wfFrom, hv, ha]
      refine ⟨⟨by omega, by simpa using hm.1.2⟩, hm.2⟩
    · simp only [Cells.wfFrom, Bool.and_eq_true, decide_eq_true_eq]
      exact ⟨hm.1, ih (by omega) (fun d hd => hk d (by simp [hd])) hm.2⟩

/-- A write keeps the canonical form. -/
theorem Cells.wf_put {m : List (Nat × BitVec n)} (a : Nat) (v : BitVec n) (hm : Cells.wf m = true) :
    Cells.wf (Cells.put m a v) = true := by
  unfold Cells.put Cells.wf
  split
  · exact Cells.wfFrom_erase a hm
  · next hv =>
    exact Cells.wfFrom_insert hv (Nat.zero_le a) (Cells.key_ne_of_mem_erase m a) (Cells.wfFrom_erase a hm)

theorem Cells.keysIn_erase {p : Nat → Bool} {m : List (Nat × BitVec n)} (a : Nat) (hm : Cells.keysIn p m = true) :
    Cells.keysIn p (Cells.erase m a) = true := by
  induction m with
  | nil => rfl
  | cons c t ih =>
    simp only [Cells.keysIn, List.all_cons, Bool.and_eq_true] at hm ih ⊢
    unfold Cells.erase
    split
    · exact ih hm.2
    · simp only [List.all_cons, Bool.and_eq_true]
      exact ⟨hm.1, ih hm.2⟩

theorem Cells.keysIn_insert {p : Nat → Bool} {m : List (Nat × BitVec n)} {a : Nat} {v : BitVec n} (ha : p a = true)
    (hm : Cells.keysIn p m = true) : Cells.keysIn p (Cells.insert m a v) = true := by
  induction m with
  | nil => simp [Cells.insert, Cells.keysIn, ha]
  | cons c t ih =>
    simp only [Cells.keysIn, List.all_cons, Bool.and_eq_true] at hm ih ⊢
    unfold Cells.insert
    split
    · simp [ha, hm.1]
      simpa using hm.2
    · simp only [List.all_cons, Bool.and_eq_true]
      exact ⟨hm.1, ih hm.2⟩

/-- A write at an admitted key keeps every key admitted. -/
theorem Cells.keysIn_put {p : Nat → Bool} {m : List (Nat × BitVec n)} {a : Nat} (v : BitVec n) (ha : p a = true)
    (hm : Cells.keysIn p m = true) : Cells.keysIn p (Cells.put m a v) = true := by
  unfold Cells.put
  split
  · exact Cells.keysIn_erase a hm
  · exact Cells.keysIn_insert ha (Cells.keysIn_erase a hm)

theorem Cells.get_eq_zero_of_wfFrom {m : List (Nat × BitVec n)} {lo a : Nat} (hm : Cells.wfFrom lo m = true)
    (ha : a < lo) : Cells.get m a = 0#n := by
  induction m generalizing lo with
  | nil => rfl
  | cons c t ih =>
    simp only [Cells.wfFrom, Bool.and_eq_true, decide_eq_true_eq] at hm
    have hne : a ≠ c.1 := by omega
    simp only [Cells.get, hne, if_false]
    exact ih hm.2 (by omega)

/-- In canonical form, lists that read the same everywhere are equal. -/
theorem Cells.ext_of_wf {m m' : List (Nat × BitVec n)} {lo : Nat} (hm : Cells.wfFrom lo m = true)
    (hm' : Cells.wfFrom lo m' = true) (h : ∀ a, Cells.get m a = Cells.get m' a) : m = m' := by
  induction m generalizing lo m' with
  | nil =>
    cases m' with
    | nil => rfl
    | cons c t =>
      simp only [Cells.wfFrom, Bool.and_eq_true, bne_iff_ne] at hm'
      have := h c.1
      simp only [Cells.get, if_true] at this
      exact absurd this.symm hm'.1.2
  | cons c t ih =>
    obtain ⟨k, w⟩ := c
    simp only [Cells.wfFrom, Bool.and_eq_true, decide_eq_true_eq, bne_iff_ne] at hm
    cases m' with
    | nil =>
      have := h k
      simp only [Cells.get, if_true] at this
      exact absurd this hm.1.2
    | cons c' t' =>
      obtain ⟨k', w'⟩ := c'
      simp only [Cells.wfFrom, Bool.and_eq_true, decide_eq_true_eq, bne_iff_ne] at hm'
      have hk : k = k' := by
        by_contra hne
        rcases Nat.lt_or_gt_of_ne hne with hlt | hgt
        · have := h k
          simp only [Cells.get, if_true, hne, if_false] at this
          exact hm.1.2 (this.trans (Cells.get_eq_zero_of_wfFrom hm'.2 (by omega)))
        · have := h k'
          simp only [Cells.get, if_true, Ne.symm hne, if_false] at this
          exact hm'.1.2 (this.symm.trans (Cells.get_eq_zero_of_wfFrom hm.2 (by omega)))
      subst hk
      have hw : w = w' := by simpa [Cells.get] using h k
      subst hw
      have ht : t = t' := by
        refine ih hm.2 hm'.2 fun a => ?_
        by_cases ha : a = k
        · subst ha
          rw [Cells.get_eq_zero_of_wfFrom hm.2 (by omega), Cells.get_eq_zero_of_wfFrom hm'.2 (by omega)]
        · simpa [Cells.get, ha] using h a
      rw [ht]

/-! ## Bytes and words of guest memory -/

/-- A byte after a store of bytes: the stored byte inside the run, the old byte outside. -/
theorem Memory.get_store (m : Memory) (p a : Nat) (bs : List Byte) :
    Cells.get (m.store p bs) a = if h : p ≤ a ∧ a - p < bs.length then bs[a - p]'h.2 else Cells.get m a := by
  induction bs generalizing m p with
  | nil => simp [Memory.store]
  | cons b t ih =>
    rw [Memory.store, ih]
    by_cases ha : a = p
    · subst ha
      simp
    · by_cases hlt : p + 1 ≤ a ∧ a - (p + 1) < t.length
      · have h2 : p ≤ a ∧ a - p < (b :: t).length := by
          simp only [List.length_cons]
          omega
        rw [dif_pos hlt, dif_pos h2]
        have : a - p = a - (p + 1) + 1 := by omega
        simp [this]
      · have h2 : ¬(p ≤ a ∧ a - p < (b :: t).length) := by
          simp only [List.length_cons]
          omega
        rw [dif_neg hlt, dif_neg h2, Cells.get_put_of_ne _ _ ha]

theorem Memory.get_store_outside (m : Memory) {p a : Nat} {bs : List Byte} (h : a < p ∨ p + bs.length ≤ a) :
    Cells.get (m.store p bs) a = Cells.get m a := by
  rw [Memory.get_store, dif_neg (by omega)]

@[simp] theorem Memory.raced_nil (size : Nat) (m : Memory) : m.raced size [] = m := rfl

/-- A byte that no racing store names reads as before. -/
theorem Memory.get_raced_of_notMem {size a : Nat} {cs : List Host.Cell} (h : ∀ c ∈ cs, c.1 ≠ a) (m : Memory) :
    Cells.get (m.raced size cs) a = Cells.get m a := by
  induction cs generalizing m with
  | nil => rfl
  | cons c cs ih =>
    rw [Memory.raced, ih (fun d hd => h d (List.mem_cons_of_mem _ hd))]
    split
    · exact Cells.get_put_of_ne _ _ (h c (List.mem_cons_self ..)).symm
    · rfl

/-- One racing store inside guest memory gives its byte the stored value: any value may be read there (rule R67). -/
@[simp] theorem Memory.get_raced_self {size a : Nat} (h : a < size) (m : Memory) (v : Byte) :
    Cells.get (m.raced size [(a, v)]) a = v := by
  simp [Memory.raced, h]

/-- A store keeps the canonical form. -/
theorem Memory.wf_store {m : Memory} (p : Nat) (bs : List Byte) (hm : Memory.wf m = true) :
    Memory.wf (m.store p bs) = true := by
  induction bs generalizing m p with
  | nil => exact hm
  | cons b t ih => exact ih (p + 1) (Cells.wf_put p b hm)

theorem Memory.keysIn_store {q : Nat → Bool} {m : Memory} {p : Nat} {bs : List Byte}
    (hq : ∀ i < bs.length, q (p + i) = true) (hm : Cells.keysIn q m = true) :
    Cells.keysIn q (m.store p bs) = true := by
  induction bs generalizing m p with
  | nil => exact hm
  | cons b t ih =>
    refine ih (fun i hi => ?_) (Cells.keysIn_put b (by simpa using hq 0 (by simp)) hm)
    have := hq (i + 1) (by simpa using hi)
    rwa [show p + 1 + i = p + (i + 1) by omega]

@[simp] theorem wordBytes_length (v : Word) : (wordBytes v).length = 4 := rfl

/-- The word that was stored is read back. -/
@[simp] theorem Memory.word_store (m : Memory) (p : Nat) (v : Word) : (m.store p (wordBytes v)).word p = v := by
  have hb : ∀ i (hi : i < 4), Cells.get (m.store p (wordBytes v)) (p + i) = (wordBytes v)[i]'hi := by
    intro i hi
    rw [Memory.get_store, dif_pos ⟨by omega, by rw [wordBytes_length]; omega⟩]
    congr 1
    omega
  have h0 := hb 0 (by omega)
  have h1 := hb 1 (by omega)
  have h2 := hb 2 (by omega)
  have h3 := hb 3 (by omega)
  simp only [wordBytes, Nat.add_zero, List.getElem_cons_zero, List.getElem_cons_succ] at h0 h1 h2 h3
  unfold Memory.word
  simp only [wordBytes]
  rw [h0, h1, h2, h3]
  ext i hi
  simp only [BitVec.getElem_append, BitVec.getElem_extractLsb']
  split
  · simp [BitVec.getLsbD_eq_getElem hi]
  · split
    · rw [BitVec.getLsbD_eq_getElem (by omega)]
      congr 1
      omega
    · split <;> (rw [BitVec.getLsbD_eq_getElem (by omega)]; congr 1; omega)

/-- A word apart from the stored run reads as before. -/
theorem Memory.word_store_apart (m : Memory) {p q : Nat} {bs : List Byte} (h : q + 4 ≤ p ∨ p + bs.length ≤ q) :
    (m.store p bs).word q = m.word q := by
  unfold Memory.word
  rw [Memory.get_store_outside _ (by omega), Memory.get_store_outside _ (by omega),
    Memory.get_store_outside _ (by omega), Memory.get_store_outside _ (by omega)]

/-- Two memories that agree on the four bytes of a word agree on the word. -/
theorem Memory.word_congr {m m' : Memory} {p : Nat} (h : ∀ i < 4, Cells.get m (p + i) = Cells.get m' (p + i)) :
    m.word p = m'.word p := by
  unfold Memory.word
  rw [h 3 (by omega), h 2 (by omega), h 1 (by omega), show Cells.get m p = Cells.get m' p from h 0 (by omega)]

@[simp] theorem Memory.bytes_length (m : Memory) (p n : Nat) : (m.bytes p n).length = n := by
  simp [Memory.bytes]

theorem Memory.getElem_bytes (m : Memory) (p n i : Nat) (h : i < (m.bytes p n).length) :
    (m.bytes p n)[i] = Cells.get m (p + i) := by
  simp [Memory.bytes]

end Sys2Proof.Machine
end

