-- ==== Sys2Proof/Laws/Config.lean ====
section
/-! SUPPORT. What a well-formed configuration gives: distinct, aligned, in-range register addresses, and masks that are
nonzero and apart (rules R24, R39, R43, R91, R93). -/

namespace Sys2Proof

/-! ## Register addresses -/

/-- Every named register is one of the list, a FIFO register if its channel exists (rule R179). -/
theorem TopReg.mem_all (r : TopReg) (h : ∀ c dir k part, r = .fifo c dir k part → k < channelCount dir) :
    r ∈ TopReg.all := by
  cases r with
  | scratchBase c => cases c <;> decide
  | fifoTableBase c => cases c <;> decide
  | scratchMax c => cases c <;> decide
  | fifoTableMax c => cases c <;> decide
  | listTop l => cases l <;> decide
  | listCurrent l => cases l <;> decide
  | listNext l => cases l <;> decide
  | fifo c dir k part =>
    have hk := h c dir k part rfl
    cases dir with
    | toGuest =>
      have : k = 0 ∨ k = 1 ∨ k = 2 ∨ k = 3 := by simp [channelCount] at hk; omega
      rcases this with rfl | rfl | rfl | rfl <;> cases c <;> cases part <;> decide
    | fromGuest =>
      have : k = 0 ∨ k = 1 := by simp [channelCount] at hk; omega
      rcases this with rfl | rfl <;> cases c <;> cases part <;> decide
  | _ => decide

theorem nodup_of_allDistinct {l : List Nat} (h : allDistinct l = true) : l.Nodup := by
  induction l with
  | nil => exact List.nodup_nil
  | cons a t ih =>
    simp only [allDistinct, Bool.and_eq_true, List.all_eq_true, bne_iff_ne] at h
    exact List.nodup_cons.mpr ⟨fun hm => h.1 a hm rfl, ih h.2⟩

/-- Two named registers with one address are the same register (rule R24). -/
theorem Config.addrOf_inj {cfg : Config} (h : cfg.wf = true) {r r' : TopReg} (hr : r ∈ TopReg.all)
    (hr' : r' ∈ TopReg.all) (he : cfg.addrOf r = cfg.addrOf r') : r = r' := by
  simp only [Config.wf, Config.addrsOk, Bool.and_eq_true] at h
  exact List.inj_on_of_nodup_map (nodup_of_allDistinct h.1.1.1.1.1.1.1.2.1.1) hr hr' he

/-- Distinct named registers have distinct addresses (rule R24). -/
theorem Config.addrOf_ne {cfg : Config} (h : cfg.wf = true) {r r' : TopReg} (hn : r ≠ r')
    (hr : r ∈ TopReg.all := by decide) (hr' : r' ∈ TopReg.all := by decide) : cfg.addrOf r ≠ cfg.addrOf r' :=
  fun he => hn (cfg.addrOf_inj h hr hr' he)

/-- A named register's address is a multiple of 4 inside the TOP window (rules R20, R22). -/
theorem Config.addrOf_ok {cfg : Config} (h : cfg.wf = true) {r : TopReg} (hr : r ∈ TopReg.all) :
    cfg.addrOf r % 4 = 0 ∧ cfg.addrOf r < Window.top.size := by
  simp only [Config.wf, Config.addrsOk, Bool.and_eq_true, List.all_eq_true, beq_iff_eq, decide_eq_true_eq] at h
  exact h.1.1.1.1.1.1.1.2.1.2 r hr

/-- A reset register's address is a multiple of 4 inside its window (rules R20, R22, R39). -/
theorem Config.rstAddr_ok {cfg : Config} (h : cfg.wf = true) (c : Coproc) :
    cfg.rstAddr c % 4 = 0 ∧ cfg.rstAddr c < c.window.size := by
  simp only [Config.wf, Config.addrsOk, Bool.and_eq_true, List.all_eq_true, beq_iff_eq, decide_eq_true_eq] at h
  exact h.1.1.1.1.1.1.1.2.2 c (by cases c <;> decide)

/-- The page size is positive (P_PAGE_SIZE, rule R6). -/
theorem Config.pageSize_pos {cfg : Config} (h : cfg.wf = true) : 0 < cfg.pageSize := by
  simp only [Config.wf, isPowerOfTwo, Bool.and_eq_true, bne_iff_ne] at h
  exact Nat.pos_of_ne_zero h.1.1.1.1.1.1.1.1.1

/-! ## Masks and values -/

/-- The masks of a well-formed configuration (rule R93). -/
structure FieldMap.Masks (f : FieldMap) : Prop where
  global_ne : f.istsGlobal ≠ 0#32
  fe_ne : f.istsFe ≠ 0#32
  global_fe : f.istsGlobal &&& f.istsFe = 0#32
  mode_reason : f.fectlMode &&& f.fectlReason = 0#32
  mode_holds : getf (setf 0#32 f.fectlMode f.modeTrapped) f.fectlMode = f.modeTrapped
  reason_holds : getf (setf 0#32 f.fectlReason f.reasonRequested) f.fectlReason = f.reasonRequested

theorem Config.masks {cfg : Config} (h : cfg.wf = true) : cfg.field.Masks := by
  simp only [Config.wf, FieldMap.masksOk, FieldMap.valuesOk, apart, fieldHolds, Bool.and_eq_true, List.all_eq_true,
    beq_iff_eq, bne_iff_ne, List.mem_cons] at h
  obtain ⟨⟨⟨⟨⟨⟨⟨-, hm⟩, hv⟩, -⟩, -⟩, -⟩, -⟩, -⟩ := h
  exact ⟨hm.1.1.1.1.1.1.1.1.1.1 _ (.inl rfl), hm.1.1.1.1.1.1.1.1.1.1 _ (.inr (.inl rfl)), hm.1.1.1.1.1.1.1.1.1.2,
    hm.1.1.1.1.1.1.1.1.2, hv.1.1.1.1.1, hv.1.1.1.1.2⟩

/-- The voice words of a well-formed configuration (rules R43, R93; log 26). -/
structure VoiceLayout.Ok (v : VoiceLayout) : Prop where
  active_ne : v.activeMask ≠ 0#32
  paused_ne : v.pausedMask ≠ 0#32
  active_paused : v.activeMask &&& v.pausedMask = 0#32
  state_in : v.stateOff + 4 ≤ voiceRecordSize
  link_in : v.linkOff + 4 ≤ voiceRecordSize
  words : v.stateOff + 4 ≤ v.linkOff ∨ v.linkOff + 4 ≤ v.stateOff ∨
    (v.stateOff = v.linkOff ∧ v.linkMask &&& v.activeMask = 0#32 ∧ v.linkMask &&& v.pausedMask = 0#32)

theorem Config.voice_ok {cfg : Config} (h : cfg.wf = true) : cfg.voice.Ok := by
  simp only [Config.wf, VoiceLayout.ok, apart, Bool.and_eq_true, Bool.or_eq_true, beq_iff_eq, bne_iff_ne,
    decide_eq_true_eq] at h
  obtain ⟨⟨⟨⟨-, hv⟩, -⟩, -⟩, -⟩ := h
  obtain ⟨⟨⟨⟨⟨⟨h1, h2⟩, -⟩, h4⟩, h5⟩, h6⟩, h7⟩ := hv
  exact ⟨h1, h2, h4, h5, h6, by tauto⟩

/-- The six opcodes are distinct (rule R91). -/
theorem Config.opcodes_nodup {cfg : Config} (h : cfg.wf = true) :
    [cfg.opcode.setAntecedentVoice, cfg.opcode.voiceOn, cfg.opcode.voiceOff, cfg.opcode.voicePause,
      cfg.opcode.setCurrentVoice, cfg.opcode.idleVoiceNotify].Nodup := by
  simp only [Config.wf, OpcodeMap.ok, Bool.and_eq_true] at h
  obtain ⟨⟨⟨⟨⟨-, ho⟩, -⟩, -⟩, -⟩, -⟩ := h
  exact List.Nodup.of_map BitVec.toNat (nodup_of_allDistinct ho)

end Sys2Proof
end

