-- ==== Sys2Proof/Laws/Decode.lean ====
section
/-! SUPPORT. The form word: every form whose access width is a byte is read back from its own word; and the data words
of a request are read back as its bytes. -/

namespace Sys2Proof

/-- The access width of a form, 0 where it has none. -/
def Form.width : Form → Nat
  | .top _ w => w
  | .coproc _ _ w => w
  | .device _ w => w
  | _ => 0

theorem Form.number_lt (f : Form) (h : f.width < 256) : f.number < 2 ^ 32 := by
  cases f with
  | port rd => cases rd <;> decide
  | top rd w => cases rd <;> simp only [Form.number, formNumber, Form.width, Bool.toNat] at * <;> simp only [cond] <;> omega
  | coproc c rd w =>
    cases c <;> cases rd <;> simp only [Form.number, formNumber, Form.width, Bool.toNat, Coproc.bit] at * <;>
      simp only [cond] <;> omega
  | device rd w =>
    cases rd <;> simp only [Form.number, formNumber, Form.width, Bool.toNat] at * <;> simp only [cond] <;> omega
  | scratch c dir => cases c <;> cases dir <;> decide
  | fifo c dir => cases c <;> cases dir <;> decide
  | _ => decide

/-- The fields of a form's number name the form. -/
theorem Form.ofFields_number (f : Form) (h : f.width < 256) : Form.ofFields f.number = some f := by
  have key (n c rd w : Nat) (hn : n < 256) (hc : c < 2) (hr : rd < 2) (hw : w < 256) :
      formNumber n c rd w % 256 = n ∧ formNumber n c rd w / 256 % 2 = c ∧ formNumber n c rd w / 512 % 2 = rd ∧
        formNumber n c rd w / 65536 % 256 = w := by
    unfold formNumber
    omega
  cases f with
  | port rd => cases rd <;> decide
  | top rd w =>
    obtain ⟨h1, -, h3, h4⟩ := key 3 0 rd.toNat w (by decide) (by decide) (by cases rd <;> decide) h
    simp only [Form.ofFields, Form.number, h1, h3, h4]
    cases rd <;> rfl
  | coproc c rd w =>
    obtain ⟨h1, h2, h3, h4⟩ := key 4 c.bit rd.toNat w (by decide) (by cases c <;> decide) (by cases rd <;> decide) h
    simp only [Form.ofFields, Form.number, h1, h2, h3, h4]
    cases c <;> cases rd <;> rfl
  | device rd w =>
    obtain ⟨h1, -, h3, h4⟩ := key 9 0 rd.toNat w (by decide) (by decide) (by cases rd <;> decide) h
    simp only [Form.ofFields, Form.number, h1, h3, h4]
    cases rd <;> rfl
  | scratch c dir => cases c <;> cases dir <;> decide
  | fifo c dir => cases c <;> cases dir <;> decide
  | _ => decide

/-- Every form is read back from its own word. -/
theorem Form.ofWord_word (f : Form) (h : f.width < 256) : Form.ofWord f.word = some f := by
  have hn : f.word.toNat = f.number := by
    simp only [Form.word, BitVec.toNat_ofNat, Nat.mod_eq_of_lt (f.number_lt h)]
  simp only [Form.ofWord, hn, f.ofFields_number h, if_true]

/-- The data words of a request are its bytes. -/
theorem decodeBytes_map (bs : List Byte) : decodeBytes (bs.map (BitVec.setWidth 32)) = .ok bs := by
  induction bs with
  | nil => rfl
  | cons b bs ih =>
    have hb : (b.setWidth 32).toNat = b.toNat := by
      simp only [BitVec.toNat_setWidth]
      have := b.isLt
      omega
    have hs : (b.setWidth 32).setWidth 8 = b := by
      apply BitVec.eq_of_toNat_eq
      simp only [BitVec.toNat_setWidth]
      have := b.isLt
      omega
    simp only [List.map_cons, decodeBytes, ih, hs]
    rw [if_pos (by rw [hb]; exact b.isLt)]

end Sys2Proof
end

