-- ==== Sys2Proof/Laws/State.lean ====
section
/-! SUPPORT. One lemma per field per update of the state, so that no later proof unfolds a record update; and reading a
register after storing one. -/

namespace Sys2Proof.Machine

/-! ### setBank -/

@[simp] theorem State.setBank_cfg (s : State) (w : Window) (b : Bank) : (s.setBank w b).cfg = s.cfg := by cases w <;> rfl
@[simp] theorem State.setBank_timerArmed (s : State) (w : Window) (b : Bank) : (s.setBank w b).timerArmed = s.timerArmed := by cases w <;> rfl
@[simp] theorem State.setBank_timerDeadline (s : State) (w : Window) (b : Bank) : (s.setBank w b).timerDeadline = s.timerDeadline := by cases w <;> rfl
@[simp] theorem State.setBank_sched (s : State) (w : Window) (b : Bank) : (s.setBank w b).sched = s.sched := by cases w <;> rfl
@[simp] theorem State.setBank_irqLine (s : State) (w : Window) (b : Bank) : (s.setBank w b).irqLine = s.irqLine := by cases w <;> rfl
@[simp] theorem State.setBank_fault (s : State) (w : Window) (b : Bank) : (s.setBank w b).fault = s.fault := by cases w <;> rfl
@[simp] theorem State.setBank_hung (s : State) (w : Window) (b : Bank) : (s.setBank w b).hung = s.hung := by cases w <;> rfl
@[simp] theorem State.setBank_mix (s : State) (w : Window) (b : Bank) : (s.setBank w b).mix = s.mix := by cases w <;> rfl
@[simp] theorem State.setBank_mem (s : State) (w : Window) (b : Bank) : (s.setBank w b).mem = s.mem := by cases w <;> rfl
@[simp] theorem State.setBank_inCall (s : State) (w : Window) (b : Bank) : (s.setBank w b).inCall = s.inCall := by cases w <;> rfl
@[simp] theorem State.setBank_dspAnswers (s : State) (w : Window) (b : Bank) : (s.setBank w b).dspAnswers = s.dspAnswers := by cases w <;> rfl
@[simp] theorem State.setBank_races (s : State) (w : Window) (b : Bank) : (s.setBank w b).races = s.races := by cases w <;> rfl
@[simp] theorem State.setBank_inbox (s : State) (w : Window) (b : Bank) : (s.setBank w b).inbox = s.inbox := by cases w <;> rfl
@[simp] theorem State.setBank_readData (s : State) (w : Window) (b : Bank) : (s.setBank w b).readData = s.readData := by cases w <;> rfl
@[simp] theorem State.setBank_trace (s : State) (w : Window) (b : Bank) : (s.setBank w b).trace = s.trace := by cases w <;> rfl
@[simp] theorem State.setBank_draws (s : State) (w : Window) (b : Bank) : (s.setBank w b).draws = s.draws := by cases w <;> rfl
@[simp] theorem State.setBank_calls (s : State) (w : Window) (b : Bank) : (s.setBank w b).calls = s.calls := by simp [State.calls]

/-! ### setReg -/

@[simp] theorem State.setReg_cfg (s : State) (w : Window) (a : Nat) (v : Word) : (s.setReg w a v).cfg = s.cfg := by cases w <;> rfl
@[simp] theorem State.setReg_timerArmed (s : State) (w : Window) (a : Nat) (v : Word) : (s.setReg w a v).timerArmed = s.timerArmed := by cases w <;> rfl
@[simp] theorem State.setReg_timerDeadline (s : State) (w : Window) (a : Nat) (v : Word) : (s.setReg w a v).timerDeadline = s.timerDeadline := by cases w <;> rfl
@[simp] theorem State.setReg_sched (s : State) (w : Window) (a : Nat) (v : Word) : (s.setReg w a v).sched = s.sched := by cases w <;> rfl
@[simp] theorem State.setReg_irqLine (s : State) (w : Window) (a : Nat) (v : Word) : (s.setReg w a v).irqLine = s.irqLine := by cases w <;> rfl
@[simp] theorem State.setReg_fault (s : State) (w : Window) (a : Nat) (v : Word) : (s.setReg w a v).fault = s.fault := by cases w <;> rfl
@[simp] theorem State.setReg_hung (s : State) (w : Window) (a : Nat) (v : Word) : (s.setReg w a v).hung = s.hung := by cases w <;> rfl
@[simp] theorem State.setReg_mix (s : State) (w : Window) (a : Nat) (v : Word) : (s.setReg w a v).mix = s.mix := by cases w <;> rfl
@[simp] theorem State.setReg_mem (s : State) (w : Window) (a : Nat) (v : Word) : (s.setReg w a v).mem = s.mem := by cases w <;> rfl
@[simp] theorem State.setReg_inCall (s : State) (w : Window) (a : Nat) (v : Word) : (s.setReg w a v).inCall = s.inCall := by cases w <;> rfl
@[simp] theorem State.setReg_dspAnswers (s : State) (w : Window) (a : Nat) (v : Word) : (s.setReg w a v).dspAnswers = s.dspAnswers := by cases w <;> rfl
@[simp] theorem State.setReg_races (s : State) (w : Window) (a : Nat) (v : Word) : (s.setReg w a v).races = s.races := by cases w <;> rfl
@[simp] theorem State.setReg_inbox (s : State) (w : Window) (a : Nat) (v : Word) : (s.setReg w a v).inbox = s.inbox := by cases w <;> rfl
@[simp] theorem State.setReg_readData (s : State) (w : Window) (a : Nat) (v : Word) : (s.setReg w a v).readData = s.readData := by cases w <;> rfl
@[simp] theorem State.setReg_trace (s : State) (w : Window) (a : Nat) (v : Word) : (s.setReg w a v).trace = s.trace := by cases w <;> rfl
@[simp] theorem State.setReg_draws (s : State) (w : Window) (a : Nat) (v : Word) : (s.setReg w a v).draws = s.draws := by cases w <;> rfl
@[simp] theorem State.setReg_calls (s : State) (w : Window) (a : Nat) (v : Word) : (s.setReg w a v).calls = s.calls := by simp [State.calls]

/-! ### setTopReg -/

@[simp] theorem State.setTopReg_cfg (s : State) (r : TopReg) (v : Word) : (s.setTopReg r v).cfg = s.cfg := rfl
@[simp] theorem State.setTopReg_topBank (s : State) (r : TopReg) (v : Word) : (s.setTopReg r v).topBank = Cells.put s.topBank (s.cfg.addrOf r) v := rfl
@[simp] theorem State.setTopReg_gpBank (s : State) (r : TopReg) (v : Word) : (s.setTopReg r v).gpBank = s.gpBank := rfl
@[simp] theorem State.setTopReg_epBank (s : State) (r : TopReg) (v : Word) : (s.setTopReg r v).epBank = s.epBank := rfl
@[simp] theorem State.setTopReg_timerArmed (s : State) (r : TopReg) (v : Word) : (s.setTopReg r v).timerArmed = s.timerArmed := rfl
@[simp] theorem State.setTopReg_timerDeadline (s : State) (r : TopReg) (v : Word) : (s.setTopReg r v).timerDeadline = s.timerDeadline := rfl
@[simp] theorem State.setTopReg_sched (s : State) (r : TopReg) (v : Word) : (s.setTopReg r v).sched = s.sched := rfl
@[simp] theorem State.setTopReg_irqLine (s : State) (r : TopReg) (v : Word) : (s.setTopReg r v).irqLine = s.irqLine := rfl
@[simp] theorem State.setTopReg_fault (s : State) (r : TopReg) (v : Word) : (s.setTopReg r v).fault = s.fault := rfl
@[simp] theorem State.setTopReg_hung (s : State) (r : TopReg) (v : Word) : (s.setTopReg r v).hung = s.hung := rfl
@[simp] theorem State.setTopReg_mix (s : State) (r : TopReg) (v : Word) : (s.setTopReg r v).mix = s.mix := rfl
@[simp] theorem State.setTopReg_mem (s : State) (r : TopReg) (v : Word) : (s.setTopReg r v).mem = s.mem := rfl
@[simp] theorem State.setTopReg_inCall (s : State) (r : TopReg) (v : Word) : (s.setTopReg r v).inCall = s.inCall := rfl
@[simp] theorem State.setTopReg_dspAnswers (s : State) (r : TopReg) (v : Word) : (s.setTopReg r v).dspAnswers = s.dspAnswers := rfl
@[simp] theorem State.setTopReg_races (s : State) (r : TopReg) (v : Word) : (s.setTopReg r v).races = s.races := rfl
@[simp] theorem State.setTopReg_inbox (s : State) (r : TopReg) (v : Word) : (s.setTopReg r v).inbox = s.inbox := rfl
@[simp] theorem State.setTopReg_readData (s : State) (r : TopReg) (v : Word) : (s.setTopReg r v).readData = s.readData := rfl
@[simp] theorem State.setTopReg_trace (s : State) (r : TopReg) (v : Word) : (s.setTopReg r v).trace = s.trace := rfl
@[simp] theorem State.setTopReg_draws (s : State) (r : TopReg) (v : Word) : (s.setTopReg r v).draws = s.draws := rfl
@[simp] theorem State.setTopReg_calls (s : State) (r : TopReg) (v : Word) : (s.setTopReg r v).calls = s.calls := by simp [State.calls]

/-! ### setRst -/

@[simp] theorem State.setRst_cfg (s : State) (c : Coproc) (v : Word) : (s.setRst c v).cfg = s.cfg := by cases c <;> rfl
@[simp] theorem State.setRst_topBank (s : State) (c : Coproc) (v : Word) : (s.setRst c v).topBank = s.topBank := by cases c <;> rfl
@[simp] theorem State.setRst_timerArmed (s : State) (c : Coproc) (v : Word) : (s.setRst c v).timerArmed = s.timerArmed := by cases c <;> rfl
@[simp] theorem State.setRst_timerDeadline (s : State) (c : Coproc) (v : Word) : (s.setRst c v).timerDeadline = s.timerDeadline := by cases c <;> rfl
@[simp] theorem State.setRst_sched (s : State) (c : Coproc) (v : Word) : (s.setRst c v).sched = s.sched := by cases c <;> rfl
@[simp] theorem State.setRst_irqLine (s : State) (c : Coproc) (v : Word) : (s.setRst c v).irqLine = s.irqLine := by cases c <;> rfl
@[simp] theorem State.setRst_fault (s : State) (c : Coproc) (v : Word) : (s.setRst c v).fault = s.fault := by cases c <;> rfl
@[simp] theorem State.setRst_hung (s : State) (c : Coproc) (v : Word) : (s.setRst c v).hung = s.hung := by cases c <;> rfl
@[simp] theorem State.setRst_mix (s : State) (c : Coproc) (v : Word) : (s.setRst c v).mix = s.mix := by cases c <;> rfl
@[simp] theorem State.setRst_mem (s : State) (c : Coproc) (v : Word) : (s.setRst c v).mem = s.mem := by cases c <;> rfl
@[simp] theorem State.setRst_inCall (s : State) (c : Coproc) (v : Word) : (s.setRst c v).inCall = s.inCall := by cases c <;> rfl
@[simp] theorem State.setRst_dspAnswers (s : State) (c : Coproc) (v : Word) : (s.setRst c v).dspAnswers = s.dspAnswers := by cases c <;> rfl
@[simp] theorem State.setRst_races (s : State) (c : Coproc) (v : Word) : (s.setRst c v).races = s.races := by cases c <;> rfl
@[simp] theorem State.setRst_inbox (s : State) (c : Coproc) (v : Word) : (s.setRst c v).inbox = s.inbox := by cases c <;> rfl
@[simp] theorem State.setRst_readData (s : State) (c : Coproc) (v : Word) : (s.setRst c v).readData = s.readData := by cases c <;> rfl
@[simp] theorem State.setRst_trace (s : State) (c : Coproc) (v : Word) : (s.setRst c v).trace = s.trace := by cases c <;> rfl
@[simp] theorem State.setRst_draws (s : State) (c : Coproc) (v : Word) : (s.setRst c v).draws = s.draws := by cases c <;> rfl
@[simp] theorem State.setRst_calls (s : State) (c : Coproc) (v : Word) : (s.setRst c v).calls = s.calls := by simp [State.calls]

/-! ### log -/

@[simp] theorem State.log_cfg (s : State) (c : Call) : (s.log c).cfg = s.cfg := rfl
@[simp] theorem State.log_topBank (s : State) (c : Call) : (s.log c).topBank = s.topBank := rfl
@[simp] theorem State.log_gpBank (s : State) (c : Call) : (s.log c).gpBank = s.gpBank := rfl
@[simp] theorem State.log_epBank (s : State) (c : Call) : (s.log c).epBank = s.epBank := rfl
@[simp] theorem State.log_timerArmed (s : State) (c : Call) : (s.log c).timerArmed = s.timerArmed := rfl
@[simp] theorem State.log_timerDeadline (s : State) (c : Call) : (s.log c).timerDeadline = s.timerDeadline := rfl
@[simp] theorem State.log_sched (s : State) (c : Call) : (s.log c).sched = s.sched := rfl
@[simp] theorem State.log_irqLine (s : State) (c : Call) : (s.log c).irqLine = s.irqLine := rfl
@[simp] theorem State.log_fault (s : State) (c : Call) : (s.log c).fault = s.fault := rfl
@[simp] theorem State.log_hung (s : State) (c : Call) : (s.log c).hung = s.hung := rfl
@[simp] theorem State.log_mix (s : State) (c : Call) : (s.log c).mix = s.mix := rfl
@[simp] theorem State.log_mem (s : State) (c : Call) : (s.log c).mem = s.mem := rfl
@[simp] theorem State.log_inCall (s : State) (c : Call) : (s.log c).inCall = s.inCall := rfl
@[simp] theorem State.log_dspAnswers (s : State) (c : Call) : (s.log c).dspAnswers = s.dspAnswers := rfl
@[simp] theorem State.log_races (s : State) (c : Call) : (s.log c).races = s.races := rfl
@[simp] theorem State.log_inbox (s : State) (c : Call) : (s.log c).inbox = s.inbox := rfl
@[simp] theorem State.log_readData (s : State) (c : Call) : (s.log c).readData = s.readData := rfl
@[simp] theorem State.log_trace (s : State) (c : Call) : (s.log c).trace = (c) :: s.trace := rfl
@[simp] theorem State.log_draws (s : State) (c : Call) : (s.log c).draws = s.draws := rfl
@[simp] theorem State.log_calls (s : State) (c : Call) : (s.log c).calls = s.calls ++ [c] := by simp [State.calls]
@[simp] theorem State.log_bank (s : State) (c : Call) (w' : Window) : (s.log c).bank w' = s.bank w' := by cases w' <;> rfl
@[simp] theorem State.log_reg (s : State) (c : Call) (w' : Window) (a' : Nat) : (s.log c).reg w' a' = s.reg w' a' := by cases w' <;> rfl
@[simp] theorem State.log_topReg (s : State) (c : Call) (r' : TopReg) : (s.log c).topReg r' = s.topReg r' := rfl
@[simp] theorem State.log_rst (s : State) (c : Call) (c' : Coproc) : (s.log c).rst c' = s.rst c' := by cases c' <;> rfl

/-! ### logAll -/

@[simp] theorem State.logAll_cfg (s : State) (cs : List Call) : (s.logAll cs).cfg = s.cfg := rfl
@[simp] theorem State.logAll_topBank (s : State) (cs : List Call) : (s.logAll cs).topBank = s.topBank := rfl
@[simp] theorem State.logAll_gpBank (s : State) (cs : List Call) : (s.logAll cs).gpBank = s.gpBank := rfl
@[simp] theorem State.logAll_epBank (s : State) (cs : List Call) : (s.logAll cs).epBank = s.epBank := rfl
@[simp] theorem State.logAll_timerArmed (s : State) (cs : List Call) : (s.logAll cs).timerArmed = s.timerArmed := rfl
@[simp] theorem State.logAll_timerDeadline (s : State) (cs : List Call) : (s.logAll cs).timerDeadline = s.timerDeadline := rfl
@[simp] theorem State.logAll_sched (s : State) (cs : List Call) : (s.logAll cs).sched = s.sched := rfl
@[simp] theorem State.logAll_irqLine (s : State) (cs : List Call) : (s.logAll cs).irqLine = s.irqLine := rfl
@[simp] theorem State.logAll_fault (s : State) (cs : List Call) : (s.logAll cs).fault = s.fault := rfl
@[simp] theorem State.logAll_hung (s : State) (cs : List Call) : (s.logAll cs).hung = s.hung := rfl
@[simp] theorem State.logAll_mix (s : State) (cs : List Call) : (s.logAll cs).mix = s.mix := rfl
@[simp] theorem State.logAll_mem (s : State) (cs : List Call) : (s.logAll cs).mem = s.mem := rfl
@[simp] theorem State.logAll_inCall (s : State) (cs : List Call) : (s.logAll cs).inCall = s.inCall := rfl
@[simp] theorem State.logAll_dspAnswers (s : State) (cs : List Call) : (s.logAll cs).dspAnswers = s.dspAnswers := rfl
@[simp] theorem State.logAll_races (s : State) (cs : List Call) : (s.logAll cs).races = s.races := rfl
@[simp] theorem State.logAll_inbox (s : State) (cs : List Call) : (s.logAll cs).inbox = s.inbox := rfl
@[simp] theorem State.logAll_readData (s : State) (cs : List Call) : (s.logAll cs).readData = s.readData := rfl
@[simp] theorem State.logAll_trace (s : State) (cs : List Call) : (s.logAll cs).trace = cs.reverse ++ s.trace := rfl
@[simp] theorem State.logAll_draws (s : State) (cs : List Call) : (s.logAll cs).draws = s.draws := rfl
@[simp] theorem State.logAll_calls (s : State) (cs : List Call) : (s.logAll cs).calls = s.calls ++ cs := by simp [State.calls]
@[simp] theorem State.logAll_bank (s : State) (cs : List Call) (w' : Window) : (s.logAll cs).bank w' = s.bank w' := by cases w' <;> rfl
@[simp] theorem State.logAll_reg (s : State) (cs : List Call) (w' : Window) (a' : Nat) : (s.logAll cs).reg w' a' = s.reg w' a' := by cases w' <;> rfl
@[simp] theorem State.logAll_topReg (s : State) (cs : List Call) (r' : TopReg) : (s.logAll cs).topReg r' = s.topReg r' := rfl
@[simp] theorem State.logAll_rst (s : State) (cs : List Call) (c' : Coproc) : (s.logAll cs).rst c' = s.rst c' := by cases c' <;> rfl

/-! ### deliver -/

@[simp] theorem State.deliver_cfg (s : State) (v : Word) : (s.deliver v).cfg = s.cfg := rfl
@[simp] theorem State.deliver_topBank (s : State) (v : Word) : (s.deliver v).topBank = s.topBank := rfl
@[simp] theorem State.deliver_gpBank (s : State) (v : Word) : (s.deliver v).gpBank = s.gpBank := rfl
@[simp] theorem State.deliver_epBank (s : State) (v : Word) : (s.deliver v).epBank = s.epBank := rfl
@[simp] theorem State.deliver_timerArmed (s : State) (v : Word) : (s.deliver v).timerArmed = s.timerArmed := rfl
@[simp] theorem State.deliver_timerDeadline (s : State) (v : Word) : (s.deliver v).timerDeadline = s.timerDeadline := rfl
@[simp] theorem State.deliver_sched (s : State) (v : Word) : (s.deliver v).sched = s.sched := rfl
@[simp] theorem State.deliver_irqLine (s : State) (v : Word) : (s.deliver v).irqLine = s.irqLine := rfl
@[simp] theorem State.deliver_fault (s : State) (v : Word) : (s.deliver v).fault = s.fault := rfl
@[simp] theorem State.deliver_hung (s : State) (v : Word) : (s.deliver v).hung = s.hung := rfl
@[simp] theorem State.deliver_mix (s : State) (v : Word) : (s.deliver v).mix = s.mix := rfl
@[simp] theorem State.deliver_mem (s : State) (v : Word) : (s.deliver v).mem = s.mem := rfl
@[simp] theorem State.deliver_inCall (s : State) (v : Word) : (s.deliver v).inCall = s.inCall := rfl
@[simp] theorem State.deliver_dspAnswers (s : State) (v : Word) : (s.deliver v).dspAnswers = s.dspAnswers := rfl
@[simp] theorem State.deliver_races (s : State) (v : Word) : (s.deliver v).races = s.races := rfl
@[simp] theorem State.deliver_inbox (s : State) (v : Word) : (s.deliver v).inbox = s.inbox := rfl
@[simp] theorem State.deliver_readData (s : State) (v : Word) : (s.deliver v).readData = some v := rfl
@[simp] theorem State.deliver_trace (s : State) (v : Word) : (s.deliver v).trace = s.trace := rfl
@[simp] theorem State.deliver_draws (s : State) (v : Word) : (s.deliver v).draws = s.draws := rfl
@[simp] theorem State.deliver_calls (s : State) (v : Word) : (s.deliver v).calls = s.calls := by simp [State.calls]
@[simp] theorem State.deliver_bank (s : State) (v : Word) (w' : Window) : (s.deliver v).bank w' = s.bank w' := by cases w' <;> rfl
@[simp] theorem State.deliver_reg (s : State) (v : Word) (w' : Window) (a' : Nat) : (s.deliver v).reg w' a' = s.reg w' a' := by cases w' <;> rfl
@[simp] theorem State.deliver_topReg (s : State) (v : Word) (r' : TopReg) : (s.deliver v).topReg r' = s.topReg r' := rfl
@[simp] theorem State.deliver_rst (s : State) (v : Word) (c' : Coproc) : (s.deliver v).rst c' = s.rst c' := by cases c' <;> rfl

/-! ### drawn -/

@[simp] theorem State.drawn_cfg (s : State) : (s.drawn).cfg = s.cfg := rfl
@[simp] theorem State.drawn_topBank (s : State) : (s.drawn).topBank = s.topBank := rfl
@[simp] theorem State.drawn_gpBank (s : State) : (s.drawn).gpBank = s.gpBank := rfl
@[simp] theorem State.drawn_epBank (s : State) : (s.drawn).epBank = s.epBank := rfl
@[simp] theorem State.drawn_timerArmed (s : State) : (s.drawn).timerArmed = s.timerArmed := rfl
@[simp] theorem State.drawn_timerDeadline (s : State) : (s.drawn).timerDeadline = s.timerDeadline := rfl
@[simp] theorem State.drawn_sched (s : State) : (s.drawn).sched = s.sched := rfl
@[simp] theorem State.drawn_irqLine (s : State) : (s.drawn).irqLine = s.irqLine := rfl
@[simp] theorem State.drawn_fault (s : State) : (s.drawn).fault = s.fault := rfl
@[simp] theorem State.drawn_hung (s : State) : (s.drawn).hung = s.hung := rfl
@[simp] theorem State.drawn_mix (s : State) : (s.drawn).mix = s.mix := rfl
@[simp] theorem State.drawn_mem (s : State) : (s.drawn).mem = s.mem := rfl
@[simp] theorem State.drawn_inCall (s : State) : (s.drawn).inCall = s.inCall := rfl
@[simp] theorem State.drawn_dspAnswers (s : State) : (s.drawn).dspAnswers = s.dspAnswers := rfl
@[simp] theorem State.drawn_races (s : State) : (s.drawn).races = s.races := rfl
@[simp] theorem State.drawn_inbox (s : State) : (s.drawn).inbox = s.inbox := rfl
@[simp] theorem State.drawn_readData (s : State) : (s.drawn).readData = s.readData := rfl
@[simp] theorem State.drawn_trace (s : State) : (s.drawn).trace = s.trace := rfl
@[simp] theorem State.drawn_draws (s : State) : (s.drawn).draws = s.draws + 1 := rfl
@[simp] theorem State.drawn_calls (s : State) : (s.drawn).calls = s.calls := by simp [State.calls]
@[simp] theorem State.drawn_bank (s : State) (w' : Window) : (s.drawn).bank w' = s.bank w' := by cases w' <;> rfl
@[simp] theorem State.drawn_reg (s : State) (w' : Window) (a' : Nat) : (s.drawn).reg w' a' = s.reg w' a' := by cases w' <;> rfl
@[simp] theorem State.drawn_topReg (s : State) (r' : TopReg) : (s.drawn).topReg r' = s.topReg r' := rfl
@[simp] theorem State.drawn_rst (s : State) (c' : Coproc) : (s.drawn).rst c' = s.rst c' := by cases c' <;> rfl

/-! ### armTimer -/

@[simp] theorem State.armTimer_cfg (s : State) : (s.armTimer).cfg = s.cfg := rfl
@[simp] theorem State.armTimer_topBank (s : State) : (s.armTimer).topBank = s.topBank := rfl
@[simp] theorem State.armTimer_gpBank (s : State) : (s.armTimer).gpBank = s.gpBank := rfl
@[simp] theorem State.armTimer_epBank (s : State) : (s.armTimer).epBank = s.epBank := rfl
@[simp] theorem State.armTimer_timerArmed (s : State) : (s.armTimer).timerArmed = true := rfl
@[simp] theorem State.armTimer_timerDeadline (s : State) : (s.armTimer).timerDeadline = Config.nowMs s.draws + tickPeriodMs := rfl
@[simp] theorem State.armTimer_sched (s : State) : (s.armTimer).sched = s.sched := rfl
@[simp] theorem State.armTimer_irqLine (s : State) : (s.armTimer).irqLine = s.irqLine := rfl
@[simp] theorem State.armTimer_fault (s : State) : (s.armTimer).fault = s.fault := rfl
@[simp] theorem State.armTimer_hung (s : State) : (s.armTimer).hung = s.hung := rfl
@[simp] theorem State.armTimer_mix (s : State) : (s.armTimer).mix = s.mix := rfl
@[simp] theorem State.armTimer_mem (s : State) : (s.armTimer).mem = s.mem := rfl
@[simp] theorem State.armTimer_inCall (s : State) : (s.armTimer).inCall = s.inCall := rfl
@[simp] theorem State.armTimer_dspAnswers (s : State) : (s.armTimer).dspAnswers = s.dspAnswers := rfl
@[simp] theorem State.armTimer_races (s : State) : (s.armTimer).races = s.races := rfl
@[simp] theorem State.armTimer_inbox (s : State) : (s.armTimer).inbox = s.inbox := rfl
@[simp] theorem State.armTimer_readData (s : State) : (s.armTimer).readData = s.readData := rfl
@[simp] theorem State.armTimer_trace (s : State) : (s.armTimer).trace = (.timerArm tickPeriodMs) :: s.trace := rfl
@[simp] theorem State.armTimer_draws (s : State) : (s.armTimer).draws = s.draws + 1 := rfl
@[simp] theorem State.armTimer_calls (s : State) : (s.armTimer).calls = s.calls ++ [.timerArm tickPeriodMs] := by simp [State.calls]
@[simp] theorem State.armTimer_bank (s : State) (w' : Window) : (s.armTimer).bank w' = s.bank w' := by cases w' <;> rfl
@[simp] theorem State.armTimer_reg (s : State) (w' : Window) (a' : Nat) : (s.armTimer).reg w' a' = s.reg w' a' := by cases w' <;> rfl
@[simp] theorem State.armTimer_topReg (s : State) (r' : TopReg) : (s.armTimer).topReg r' = s.topReg r' := rfl
@[simp] theorem State.armTimer_rst (s : State) (c' : Coproc) : (s.armTimer).rst c' = s.rst c' := by cases c' <;> rfl

/-! ### disarmTimer -/

@[simp] theorem State.disarmTimer_cfg (s : State) : (s.disarmTimer).cfg = s.cfg := rfl
@[simp] theorem State.disarmTimer_topBank (s : State) : (s.disarmTimer).topBank = s.topBank := rfl
@[simp] theorem State.disarmTimer_gpBank (s : State) : (s.disarmTimer).gpBank = s.gpBank := rfl
@[simp] theorem State.disarmTimer_epBank (s : State) : (s.disarmTimer).epBank = s.epBank := rfl
@[simp] theorem State.disarmTimer_timerArmed (s : State) : (s.disarmTimer).timerArmed = false := rfl
@[simp] theorem State.disarmTimer_timerDeadline (s : State) : (s.disarmTimer).timerDeadline = s.timerDeadline := rfl
@[simp] theorem State.disarmTimer_sched (s : State) : (s.disarmTimer).sched = s.sched := rfl
@[simp] theorem State.disarmTimer_irqLine (s : State) : (s.disarmTimer).irqLine = s.irqLine := rfl
@[simp] theorem State.disarmTimer_fault (s : State) : (s.disarmTimer).fault = s.fault := rfl
@[simp] theorem State.disarmTimer_hung (s : State) : (s.disarmTimer).hung = s.hung := rfl
@[simp] theorem State.disarmTimer_mix (s : State) : (s.disarmTimer).mix = s.mix := rfl
@[simp] theorem State.disarmTimer_mem (s : State) : (s.disarmTimer).mem = s.mem := rfl
@[simp] theorem State.disarmTimer_inCall (s : State) : (s.disarmTimer).inCall = s.inCall := rfl
@[simp] theorem State.disarmTimer_dspAnswers (s : State) : (s.disarmTimer).dspAnswers = s.dspAnswers := rfl
@[simp] theorem State.disarmTimer_races (s : State) : (s.disarmTimer).races = s.races := rfl
@[simp] theorem State.disarmTimer_inbox (s : State) : (s.disarmTimer).inbox = s.inbox := rfl
@[simp] theorem State.disarmTimer_readData (s : State) : (s.disarmTimer).readData = s.readData := rfl
@[simp] theorem State.disarmTimer_trace (s : State) : (s.disarmTimer).trace = (.timerDisarm) :: s.trace := rfl
@[simp] theorem State.disarmTimer_draws (s : State) : (s.disarmTimer).draws = s.draws := rfl
@[simp] theorem State.disarmTimer_calls (s : State) : (s.disarmTimer).calls = s.calls ++ [.timerDisarm] := by simp [State.calls]
@[simp] theorem State.disarmTimer_bank (s : State) (w' : Window) : (s.disarmTimer).bank w' = s.bank w' := by cases w' <;> rfl
@[simp] theorem State.disarmTimer_reg (s : State) (w' : Window) (a' : Nat) : (s.disarmTimer).reg w' a' = s.reg w' a' := by cases w' <;> rfl
@[simp] theorem State.disarmTimer_topReg (s : State) (r' : TopReg) : (s.disarmTimer).topReg r' = s.topReg r' := rfl
@[simp] theorem State.disarmTimer_rst (s : State) (c' : Coproc) : (s.disarmTimer).rst c' = s.rst c' := by cases c' <;> rfl

/-! ### setSched -/

@[simp] theorem State.setSched_cfg (s : State) (q : Sched) : (s.setSched q).cfg = s.cfg := rfl
@[simp] theorem State.setSched_topBank (s : State) (q : Sched) : (s.setSched q).topBank = s.topBank := rfl
@[simp] theorem State.setSched_gpBank (s : State) (q : Sched) : (s.setSched q).gpBank = s.gpBank := rfl
@[simp] theorem State.setSched_epBank (s : State) (q : Sched) : (s.setSched q).epBank = s.epBank := rfl
@[simp] theorem State.setSched_timerArmed (s : State) (q : Sched) : (s.setSched q).timerArmed = s.timerArmed := rfl
@[simp] theorem State.setSched_timerDeadline (s : State) (q : Sched) : (s.setSched q).timerDeadline = s.timerDeadline := rfl
@[simp] theorem State.setSched_sched (s : State) (q : Sched) : (s.setSched q).sched = q := rfl
@[simp] theorem State.setSched_irqLine (s : State) (q : Sched) : (s.setSched q).irqLine = s.irqLine := rfl
@[simp] theorem State.setSched_fault (s : State) (q : Sched) : (s.setSched q).fault = s.fault := rfl
@[simp] theorem State.setSched_hung (s : State) (q : Sched) : (s.setSched q).hung = s.hung := rfl
@[simp] theorem State.setSched_mix (s : State) (q : Sched) : (s.setSched q).mix = s.mix := rfl
@[simp] theorem State.setSched_mem (s : State) (q : Sched) : (s.setSched q).mem = s.mem := rfl
@[simp] theorem State.setSched_inCall (s : State) (q : Sched) : (s.setSched q).inCall = s.inCall := rfl
@[simp] theorem State.setSched_dspAnswers (s : State) (q : Sched) : (s.setSched q).dspAnswers = s.dspAnswers := rfl
@[simp] theorem State.setSched_races (s : State) (q : Sched) : (s.setSched q).races = s.races := rfl
@[simp] theorem State.setSched_inbox (s : State) (q : Sched) : (s.setSched q).inbox = s.inbox := rfl
@[simp] theorem State.setSched_readData (s : State) (q : Sched) : (s.setSched q).readData = s.readData := rfl
@[simp] theorem State.setSched_trace (s : State) (q : Sched) : (s.setSched q).trace = s.trace := rfl
@[simp] theorem State.setSched_draws (s : State) (q : Sched) : (s.setSched q).draws = s.draws := rfl
@[simp] theorem State.setSched_calls (s : State) (q : Sched) : (s.setSched q).calls = s.calls := by simp [State.calls]
@[simp] theorem State.setSched_bank (s : State) (q : Sched) (w' : Window) : (s.setSched q).bank w' = s.bank w' := by cases w' <;> rfl
@[simp] theorem State.setSched_reg (s : State) (q : Sched) (w' : Window) (a' : Nat) : (s.setSched q).reg w' a' = s.reg w' a' := by cases w' <;> rfl
@[simp] theorem State.setSched_topReg (s : State) (q : Sched) (r' : TopReg) : (s.setSched q).topReg r' = s.topReg r' := rfl
@[simp] theorem State.setSched_rst (s : State) (q : Sched) (c' : Coproc) : (s.setSched q).rst c' = s.rst c' := by cases c' <;> rfl

/-! ### driveIrq -/

@[simp] theorem State.driveIrq_cfg (s : State) (l : Bool) : (s.driveIrq l).cfg = s.cfg := rfl
@[simp] theorem State.driveIrq_topBank (s : State) (l : Bool) : (s.driveIrq l).topBank = s.topBank := rfl
@[simp] theorem State.driveIrq_gpBank (s : State) (l : Bool) : (s.driveIrq l).gpBank = s.gpBank := rfl
@[simp] theorem State.driveIrq_epBank (s : State) (l : Bool) : (s.driveIrq l).epBank = s.epBank := rfl
@[simp] theorem State.driveIrq_timerArmed (s : State) (l : Bool) : (s.driveIrq l).timerArmed = s.timerArmed := rfl
@[simp] theorem State.driveIrq_timerDeadline (s : State) (l : Bool) : (s.driveIrq l).timerDeadline = s.timerDeadline := rfl
@[simp] theorem State.driveIrq_sched (s : State) (l : Bool) : (s.driveIrq l).sched = s.sched := rfl
@[simp] theorem State.driveIrq_irqLine (s : State) (l : Bool) : (s.driveIrq l).irqLine = l := rfl
@[simp] theorem State.driveIrq_fault (s : State) (l : Bool) : (s.driveIrq l).fault = s.fault := rfl
@[simp] theorem State.driveIrq_hung (s : State) (l : Bool) : (s.driveIrq l).hung = s.hung := rfl
@[simp] theorem State.driveIrq_mix (s : State) (l : Bool) : (s.driveIrq l).mix = s.mix := rfl
@[simp] theorem State.driveIrq_mem (s : State) (l : Bool) : (s.driveIrq l).mem = s.mem := rfl
@[simp] theorem State.driveIrq_inCall (s : State) (l : Bool) : (s.driveIrq l).inCall = s.inCall := rfl
@[simp] theorem State.driveIrq_dspAnswers (s : State) (l : Bool) : (s.driveIrq l).dspAnswers = s.dspAnswers := rfl
@[simp] theorem State.driveIrq_races (s : State) (l : Bool) : (s.driveIrq l).races = s.races := rfl
@[simp] theorem State.driveIrq_inbox (s : State) (l : Bool) : (s.driveIrq l).inbox = s.inbox := rfl
@[simp] theorem State.driveIrq_readData (s : State) (l : Bool) : (s.driveIrq l).readData = s.readData := rfl
@[simp] theorem State.driveIrq_trace (s : State) (l : Bool) : (s.driveIrq l).trace = (if l then .irqAssert else .irqDeassert) :: s.trace := rfl
@[simp] theorem State.driveIrq_draws (s : State) (l : Bool) : (s.driveIrq l).draws = s.draws := rfl
@[simp] theorem State.driveIrq_calls (s : State) (l : Bool) : (s.driveIrq l).calls = s.calls ++ [if l then .irqAssert else .irqDeassert] := by simp [State.calls]
@[simp] theorem State.driveIrq_bank (s : State) (l : Bool) (w' : Window) : (s.driveIrq l).bank w' = s.bank w' := by cases w' <;> rfl
@[simp] theorem State.driveIrq_reg (s : State) (l : Bool) (w' : Window) (a' : Nat) : (s.driveIrq l).reg w' a' = s.reg w' a' := by cases w' <;> rfl
@[simp] theorem State.driveIrq_topReg (s : State) (l : Bool) (r' : TopReg) : (s.driveIrq l).topReg r' = s.topReg r' := rfl
@[simp] theorem State.driveIrq_rst (s : State) (l : Bool) (c' : Coproc) : (s.driveIrq l).rst c' = s.rst c' := by cases c' <;> rfl

/-! ### setInCall -/

@[simp] theorem State.setInCall_cfg (s : State) (c : Option Coproc) : (s.setInCall c).cfg = s.cfg := rfl
@[simp] theorem State.setInCall_topBank (s : State) (c : Option Coproc) : (s.setInCall c).topBank = s.topBank := rfl
@[simp] theorem State.setInCall_gpBank (s : State) (c : Option Coproc) : (s.setInCall c).gpBank = s.gpBank := rfl
@[simp] theorem State.setInCall_epBank (s : State) (c : Option Coproc) : (s.setInCall c).epBank = s.epBank := rfl
@[simp] theorem State.setInCall_timerArmed (s : State) (c : Option Coproc) : (s.setInCall c).timerArmed = s.timerArmed := rfl
@[simp] theorem State.setInCall_timerDeadline (s : State) (c : Option Coproc) : (s.setInCall c).timerDeadline = s.timerDeadline := rfl
@[simp] theorem State.setInCall_sched (s : State) (c : Option Coproc) : (s.setInCall c).sched = s.sched := rfl
@[simp] theorem State.setInCall_irqLine (s : State) (c : Option Coproc) : (s.setInCall c).irqLine = s.irqLine := rfl
@[simp] theorem State.setInCall_fault (s : State) (c : Option Coproc) : (s.setInCall c).fault = s.fault := rfl
@[simp] theorem State.setInCall_hung (s : State) (c : Option Coproc) : (s.setInCall c).hung = s.hung := rfl
@[simp] theorem State.setInCall_mix (s : State) (c : Option Coproc) : (s.setInCall c).mix = s.mix := rfl
@[simp] theorem State.setInCall_mem (s : State) (c : Option Coproc) : (s.setInCall c).mem = s.mem := rfl
@[simp] theorem State.setInCall_inCall (s : State) (c : Option Coproc) : (s.setInCall c).inCall = c := rfl
@[simp] theorem State.setInCall_dspAnswers (s : State) (c : Option Coproc) : (s.setInCall c).dspAnswers = s.dspAnswers := rfl
@[simp] theorem State.setInCall_races (s : State) (c : Option Coproc) : (s.setInCall c).races = s.races := rfl
@[simp] theorem State.setInCall_inbox (s : State) (c : Option Coproc) : (s.setInCall c).inbox = s.inbox := rfl
@[simp] theorem State.setInCall_readData (s : State) (c : Option Coproc) : (s.setInCall c).readData = s.readData := rfl
@[simp] theorem State.setInCall_trace (s : State) (c : Option Coproc) : (s.setInCall c).trace = s.trace := rfl
@[simp] theorem State.setInCall_draws (s : State) (c : Option Coproc) : (s.setInCall c).draws = s.draws := rfl
@[simp] theorem State.setInCall_calls (s : State) (c : Option Coproc) : (s.setInCall c).calls = s.calls := by simp [State.calls]
@[simp] theorem State.setInCall_bank (s : State) (c : Option Coproc) (w' : Window) : (s.setInCall c).bank w' = s.bank w' := by cases w' <;> rfl
@[simp] theorem State.setInCall_reg (s : State) (c : Option Coproc) (w' : Window) (a' : Nat) : (s.setInCall c).reg w' a' = s.reg w' a' := by cases w' <;> rfl
@[simp] theorem State.setInCall_topReg (s : State) (c : Option Coproc) (r' : TopReg) : (s.setInCall c).topReg r' = s.topReg r' := rfl
@[simp] theorem State.setInCall_rst (s : State) (c : Option Coproc) (c' : Coproc) : (s.setInCall c).rst c' = s.rst c' := by cases c' <;> rfl

/-! ### takeAnswer -/

@[simp] theorem State.takeAnswer_cfg (s : State) : (s.takeAnswer).cfg = s.cfg := rfl
@[simp] theorem State.takeAnswer_topBank (s : State) : (s.takeAnswer).topBank = s.topBank := rfl
@[simp] theorem State.takeAnswer_gpBank (s : State) : (s.takeAnswer).gpBank = s.gpBank := rfl
@[simp] theorem State.takeAnswer_epBank (s : State) : (s.takeAnswer).epBank = s.epBank := rfl
@[simp] theorem State.takeAnswer_timerArmed (s : State) : (s.takeAnswer).timerArmed = s.timerArmed := rfl
@[simp] theorem State.takeAnswer_timerDeadline (s : State) : (s.takeAnswer).timerDeadline = s.timerDeadline := rfl
@[simp] theorem State.takeAnswer_sched (s : State) : (s.takeAnswer).sched = s.sched := rfl
@[simp] theorem State.takeAnswer_irqLine (s : State) : (s.takeAnswer).irqLine = s.irqLine := rfl
@[simp] theorem State.takeAnswer_fault (s : State) : (s.takeAnswer).fault = s.fault := rfl
@[simp] theorem State.takeAnswer_hung (s : State) : (s.takeAnswer).hung = s.hung := rfl
@[simp] theorem State.takeAnswer_mix (s : State) : (s.takeAnswer).mix = s.mix := rfl
@[simp] theorem State.takeAnswer_mem (s : State) : (s.takeAnswer).mem = s.mem := rfl
@[simp] theorem State.takeAnswer_inCall (s : State) : (s.takeAnswer).inCall = s.inCall := rfl
@[simp] theorem State.takeAnswer_dspAnswers (s : State) : (s.takeAnswer).dspAnswers = s.dspAnswers.tail := rfl
@[simp] theorem State.takeAnswer_races (s : State) : (s.takeAnswer).races = s.races := rfl
@[simp] theorem State.takeAnswer_inbox (s : State) : (s.takeAnswer).inbox = s.inbox := rfl
@[simp] theorem State.takeAnswer_readData (s : State) : (s.takeAnswer).readData = s.readData := rfl
@[simp] theorem State.takeAnswer_trace (s : State) : (s.takeAnswer).trace = s.trace := rfl
@[simp] theorem State.takeAnswer_draws (s : State) : (s.takeAnswer).draws = s.draws := rfl
@[simp] theorem State.takeAnswer_calls (s : State) : (s.takeAnswer).calls = s.calls := by simp [State.calls]
@[simp] theorem State.takeAnswer_bank (s : State) (w' : Window) : (s.takeAnswer).bank w' = s.bank w' := by cases w' <;> rfl
@[simp] theorem State.takeAnswer_reg (s : State) (w' : Window) (a' : Nat) : (s.takeAnswer).reg w' a' = s.reg w' a' := by cases w' <;> rfl
@[simp] theorem State.takeAnswer_topReg (s : State) (r' : TopReg) : (s.takeAnswer).topReg r' = s.topReg r' := rfl
@[simp] theorem State.takeAnswer_rst (s : State) (c' : Coproc) : (s.takeAnswer).rst c' = s.rst c' := by cases c' <;> rfl

/-! ### startMix -/

@[simp] theorem State.startMix_cfg (s : State) : (startMix s).cfg = s.cfg := rfl
@[simp] theorem State.startMix_topBank (s : State) : (startMix s).topBank = s.topBank := rfl
@[simp] theorem State.startMix_gpBank (s : State) : (startMix s).gpBank = s.gpBank := rfl
@[simp] theorem State.startMix_epBank (s : State) : (startMix s).epBank = s.epBank := rfl
@[simp] theorem State.startMix_timerArmed (s : State) : (startMix s).timerArmed = s.timerArmed := rfl
@[simp] theorem State.startMix_timerDeadline (s : State) : (startMix s).timerDeadline = s.timerDeadline := rfl
@[simp] theorem State.startMix_sched (s : State) : (startMix s).sched = s.sched := rfl
@[simp] theorem State.startMix_irqLine (s : State) : (startMix s).irqLine = s.irqLine := rfl
@[simp] theorem State.startMix_fault (s : State) : (startMix s).fault = s.fault := rfl
@[simp] theorem State.startMix_hung (s : State) : (startMix s).hung = s.hung := rfl
@[simp] theorem State.startMix_mix (s : State) : (startMix s).mix = some .zero := rfl
@[simp] theorem State.startMix_mem (s : State) : (startMix s).mem = s.mem := rfl
@[simp] theorem State.startMix_inCall (s : State) : (startMix s).inCall = s.inCall := rfl
@[simp] theorem State.startMix_dspAnswers (s : State) : (startMix s).dspAnswers = s.dspAnswers := rfl
@[simp] theorem State.startMix_races (s : State) : (startMix s).races = s.races := rfl
@[simp] theorem State.startMix_inbox (s : State) : (startMix s).inbox = s.inbox := rfl
@[simp] theorem State.startMix_readData (s : State) : (startMix s).readData = s.readData := rfl
@[simp] theorem State.startMix_trace (s : State) : (startMix s).trace = s.trace := rfl
@[simp] theorem State.startMix_draws (s : State) : (startMix s).draws = s.draws := rfl
@[simp] theorem State.startMix_calls (s : State) : (startMix s).calls = s.calls := by simp [State.calls]
@[simp] theorem State.startMix_bank (s : State) (w' : Window) : (startMix s).bank w' = s.bank w' := by cases w' <;> rfl
@[simp] theorem State.startMix_reg (s : State) (w' : Window) (a' : Nat) : (startMix s).reg w' a' = s.reg w' a' := by cases w' <;> rfl
@[simp] theorem State.startMix_topReg (s : State) (r' : TopReg) : (startMix s).topReg r' = s.topReg r' := rfl
@[simp] theorem State.startMix_rst (s : State) (c' : Coproc) : (startMix s).rst c' = s.rst c' := by cases c' <;> rfl

/-! ### discardMix -/

@[simp] theorem State.discardMix_cfg (s : State) : (discardMix s).cfg = s.cfg := rfl
@[simp] theorem State.discardMix_topBank (s : State) : (discardMix s).topBank = s.topBank := rfl
@[simp] theorem State.discardMix_gpBank (s : State) : (discardMix s).gpBank = s.gpBank := rfl
@[simp] theorem State.discardMix_epBank (s : State) : (discardMix s).epBank = s.epBank := rfl
@[simp] theorem State.discardMix_timerArmed (s : State) : (discardMix s).timerArmed = s.timerArmed := rfl
@[simp] theorem State.discardMix_timerDeadline (s : State) : (discardMix s).timerDeadline = s.timerDeadline := rfl
@[simp] theorem State.discardMix_sched (s : State) : (discardMix s).sched = s.sched := rfl
@[simp] theorem State.discardMix_irqLine (s : State) : (discardMix s).irqLine = s.irqLine := rfl
@[simp] theorem State.discardMix_fault (s : State) : (discardMix s).fault = s.fault := rfl
@[simp] theorem State.discardMix_hung (s : State) : (discardMix s).hung = s.hung := rfl
@[simp] theorem State.discardMix_mix (s : State) : (discardMix s).mix = none := rfl
@[simp] theorem State.discardMix_mem (s : State) : (discardMix s).mem = s.mem := rfl
@[simp] theorem State.discardMix_inCall (s : State) : (discardMix s).inCall = s.inCall := rfl
@[simp] theorem State.discardMix_dspAnswers (s : State) : (discardMix s).dspAnswers = s.dspAnswers := rfl
@[simp] theorem State.discardMix_races (s : State) : (discardMix s).races = s.races := rfl
@[simp] theorem State.discardMix_inbox (s : State) : (discardMix s).inbox = s.inbox := rfl
@[simp] theorem State.discardMix_readData (s : State) : (discardMix s).readData = s.readData := rfl
@[simp] theorem State.discardMix_trace (s : State) : (discardMix s).trace = s.trace := rfl
@[simp] theorem State.discardMix_draws (s : State) : (discardMix s).draws = s.draws := rfl
@[simp] theorem State.discardMix_calls (s : State) : (discardMix s).calls = s.calls := by simp [State.calls]
@[simp] theorem State.discardMix_bank (s : State) (w' : Window) : (discardMix s).bank w' = s.bank w' := by cases w' <;> rfl
@[simp] theorem State.discardMix_reg (s : State) (w' : Window) (a' : Nat) : (discardMix s).reg w' a' = s.reg w' a' := by cases w' <;> rfl
@[simp] theorem State.discardMix_topReg (s : State) (r' : TopReg) : (discardMix s).topReg r' = s.topReg r' := rfl
@[simp] theorem State.discardMix_rst (s : State) (c' : Coproc) : (discardMix s).rst c' = s.rst c' := by cases c' <;> rfl

/-! ### contribute -/

@[simp] theorem State.contribute_cfg (h : Word) (s : State) : (contribute h s).cfg = s.cfg := rfl
@[simp] theorem State.contribute_topBank (h : Word) (s : State) : (contribute h s).topBank = s.topBank := rfl
@[simp] theorem State.contribute_gpBank (h : Word) (s : State) : (contribute h s).gpBank = s.gpBank := rfl
@[simp] theorem State.contribute_epBank (h : Word) (s : State) : (contribute h s).epBank = s.epBank := rfl
@[simp] theorem State.contribute_timerArmed (h : Word) (s : State) : (contribute h s).timerArmed = s.timerArmed := rfl
@[simp] theorem State.contribute_timerDeadline (h : Word) (s : State) : (contribute h s).timerDeadline = s.timerDeadline := rfl
@[simp] theorem State.contribute_sched (h : Word) (s : State) : (contribute h s).sched = s.sched := rfl
@[simp] theorem State.contribute_irqLine (h : Word) (s : State) : (contribute h s).irqLine = s.irqLine := rfl
@[simp] theorem State.contribute_fault (h : Word) (s : State) : (contribute h s).fault = s.fault := rfl
@[simp] theorem State.contribute_hung (h : Word) (s : State) : (contribute h s).hung = s.hung := rfl
@[simp] theorem State.contribute_mix (h : Word) (s : State) : (contribute h s).mix = s.mix.map fun m => Config.mixVoice h m s.mem := rfl
@[simp] theorem State.contribute_mem (h : Word) (s : State) : (contribute h s).mem = s.mem := rfl
@[simp] theorem State.contribute_inCall (h : Word) (s : State) : (contribute h s).inCall = s.inCall := rfl
@[simp] theorem State.contribute_dspAnswers (h : Word) (s : State) : (contribute h s).dspAnswers = s.dspAnswers := rfl
@[simp] theorem State.contribute_races (h : Word) (s : State) : (contribute h s).races = s.races := rfl
@[simp] theorem State.contribute_inbox (h : Word) (s : State) : (contribute h s).inbox = s.inbox := rfl
@[simp] theorem State.contribute_readData (h : Word) (s : State) : (contribute h s).readData = s.readData := rfl
@[simp] theorem State.contribute_trace (h : Word) (s : State) : (contribute h s).trace = (.mixVoice h) :: s.trace := rfl
@[simp] theorem State.contribute_draws (h : Word) (s : State) : (contribute h s).draws = s.draws := rfl
@[simp] theorem State.contribute_calls (h : Word) (s : State) : (contribute h s).calls = s.calls ++ [.mixVoice h] := by simp [State.calls]
@[simp] theorem State.contribute_bank (h : Word) (s : State) (w' : Window) : (contribute h s).bank w' = s.bank w' := by cases w' <;> rfl
@[simp] theorem State.contribute_reg (h : Word) (s : State) (w' : Window) (a' : Nat) : (contribute h s).reg w' a' = s.reg w' a' := by cases w' <;> rfl
@[simp] theorem State.contribute_topReg (h : Word) (s : State) (r' : TopReg) : (contribute h s).topReg r' = s.topReg r' := rfl
@[simp] theorem State.contribute_rst (h : Word) (s : State) (c' : Coproc) : (contribute h s).rst c' = s.rst c' := by cases c' <;> rfl

/-! ### race -/

@[simp] theorem State.race_cfg (s : State) : (s.race).cfg = s.cfg := rfl
@[simp] theorem State.race_topBank (s : State) : (s.race).topBank = s.topBank := rfl
@[simp] theorem State.race_gpBank (s : State) : (s.race).gpBank = s.gpBank := rfl
@[simp] theorem State.race_epBank (s : State) : (s.race).epBank = s.epBank := rfl
@[simp] theorem State.race_timerArmed (s : State) : (s.race).timerArmed = s.timerArmed := rfl
@[simp] theorem State.race_timerDeadline (s : State) : (s.race).timerDeadline = s.timerDeadline := rfl
@[simp] theorem State.race_sched (s : State) : (s.race).sched = s.sched := rfl
@[simp] theorem State.race_irqLine (s : State) : (s.race).irqLine = s.irqLine := rfl
@[simp] theorem State.race_fault (s : State) : (s.race).fault = s.fault := rfl
@[simp] theorem State.race_hung (s : State) : (s.race).hung = s.hung := rfl
@[simp] theorem State.race_mix (s : State) : (s.race).mix = s.mix := rfl
@[simp] theorem State.race_mem (s : State) : (s.race).mem = s.mem.raced s.cfg.ramSize (s.races.headD []) := rfl
@[simp] theorem State.race_inCall (s : State) : (s.race).inCall = s.inCall := rfl
@[simp] theorem State.race_dspAnswers (s : State) : (s.race).dspAnswers = s.dspAnswers := rfl
@[simp] theorem State.race_races (s : State) : (s.race).races = s.races.tail := rfl
@[simp] theorem State.race_inbox (s : State) : (s.race).inbox = s.inbox := rfl
@[simp] theorem State.race_readData (s : State) : (s.race).readData = s.readData := rfl
@[simp] theorem State.race_trace (s : State) : (s.race).trace = s.trace := rfl
@[simp] theorem State.race_draws (s : State) : (s.race).draws = s.draws := rfl
@[simp] theorem State.race_calls (s : State) : (s.race).calls = s.calls := by simp [State.calls]
@[simp] theorem State.race_bank (s : State) (w' : Window) : (s.race).bank w' = s.bank w' := by cases w' <;> rfl
@[simp] theorem State.race_reg (s : State) (w' : Window) (a' : Nat) : (s.race).reg w' a' = s.reg w' a' := by cases w' <;> rfl
@[simp] theorem State.race_topReg (s : State) (r' : TopReg) : (s.race).topReg r' = s.topReg r' := rfl
@[simp] theorem State.race_rst (s : State) (c' : Coproc) : (s.race).rst c' = s.rst c' := by cases c' <;> rfl

/-! ### storeRun -/

@[simp] theorem State.storeRun_cfg (p : Nat) (bs : List Byte) (s : State) : (storeRun p bs s).cfg = s.cfg := rfl
@[simp] theorem State.storeRun_topBank (p : Nat) (bs : List Byte) (s : State) : (storeRun p bs s).topBank = s.topBank := rfl
@[simp] theorem State.storeRun_gpBank (p : Nat) (bs : List Byte) (s : State) : (storeRun p bs s).gpBank = s.gpBank := rfl
@[simp] theorem State.storeRun_epBank (p : Nat) (bs : List Byte) (s : State) : (storeRun p bs s).epBank = s.epBank := rfl
@[simp] theorem State.storeRun_timerArmed (p : Nat) (bs : List Byte) (s : State) : (storeRun p bs s).timerArmed = s.timerArmed := rfl
@[simp] theorem State.storeRun_timerDeadline (p : Nat) (bs : List Byte) (s : State) : (storeRun p bs s).timerDeadline = s.timerDeadline := rfl
@[simp] theorem State.storeRun_sched (p : Nat) (bs : List Byte) (s : State) : (storeRun p bs s).sched = s.sched := rfl
@[simp] theorem State.storeRun_irqLine (p : Nat) (bs : List Byte) (s : State) : (storeRun p bs s).irqLine = s.irqLine := rfl
@[simp] theorem State.storeRun_fault (p : Nat) (bs : List Byte) (s : State) : (storeRun p bs s).fault = s.fault := rfl
@[simp] theorem State.storeRun_hung (p : Nat) (bs : List Byte) (s : State) : (storeRun p bs s).hung = s.hung := rfl
@[simp] theorem State.storeRun_mix (p : Nat) (bs : List Byte) (s : State) : (storeRun p bs s).mix = s.mix := rfl
@[simp] theorem State.storeRun_mem (p : Nat) (bs : List Byte) (s : State) : (storeRun p bs s).mem = s.mem.store p bs := rfl
@[simp] theorem State.storeRun_inCall (p : Nat) (bs : List Byte) (s : State) : (storeRun p bs s).inCall = s.inCall := rfl
@[simp] theorem State.storeRun_dspAnswers (p : Nat) (bs : List Byte) (s : State) : (storeRun p bs s).dspAnswers = s.dspAnswers := rfl
@[simp] theorem State.storeRun_races (p : Nat) (bs : List Byte) (s : State) : (storeRun p bs s).races = s.races := rfl
@[simp] theorem State.storeRun_inbox (p : Nat) (bs : List Byte) (s : State) : (storeRun p bs s).inbox = s.inbox := rfl
@[simp] theorem State.storeRun_readData (p : Nat) (bs : List Byte) (s : State) : (storeRun p bs s).readData = s.readData := rfl
@[simp] theorem State.storeRun_trace (p : Nat) (bs : List Byte) (s : State) : (storeRun p bs s).trace = (.markDirty p bs.length) :: (.writeBytes p bs) :: s.trace := rfl
@[simp] theorem State.storeRun_draws (p : Nat) (bs : List Byte) (s : State) : (storeRun p bs s).draws = s.draws := rfl
@[simp] theorem State.storeRun_calls (p : Nat) (bs : List Byte) (s : State) : (storeRun p bs s).calls = s.calls ++ [.writeBytes p bs, .markDirty p bs.length] := by simp [State.calls]
@[simp] theorem State.storeRun_bank (p : Nat) (bs : List Byte) (s : State) (w' : Window) : (storeRun p bs s).bank w' = s.bank w' := by cases w' <;> rfl
@[simp] theorem State.storeRun_reg (p : Nat) (bs : List Byte) (s : State) (w' : Window) (a' : Nat) : (storeRun p bs s).reg w' a' = s.reg w' a' := by cases w' <;> rfl
@[simp] theorem State.storeRun_topReg (p : Nat) (bs : List Byte) (s : State) (r' : TopReg) : (storeRun p bs s).topReg r' = s.topReg r' := rfl
@[simp] theorem State.storeRun_rst (p : Nat) (bs : List Byte) (s : State) (c' : Coproc) : (storeRun p bs s).rst c' = s.rst c' := by cases c' <;> rfl

/-! ### storeWord -/

@[simp] theorem State.storeWord_cfg (p : Nat) (v : Word) (s : State) : (storeWord p v s).cfg = s.cfg := rfl
@[simp] theorem State.storeWord_topBank (p : Nat) (v : Word) (s : State) : (storeWord p v s).topBank = s.topBank := rfl
@[simp] theorem State.storeWord_gpBank (p : Nat) (v : Word) (s : State) : (storeWord p v s).gpBank = s.gpBank := rfl
@[simp] theorem State.storeWord_epBank (p : Nat) (v : Word) (s : State) : (storeWord p v s).epBank = s.epBank := rfl
@[simp] theorem State.storeWord_timerArmed (p : Nat) (v : Word) (s : State) : (storeWord p v s).timerArmed = s.timerArmed := rfl
@[simp] theorem State.storeWord_timerDeadline (p : Nat) (v : Word) (s : State) : (storeWord p v s).timerDeadline = s.timerDeadline := rfl
@[simp] theorem State.storeWord_sched (p : Nat) (v : Word) (s : State) : (storeWord p v s).sched = s.sched := rfl
@[simp] theorem State.storeWord_irqLine (p : Nat) (v : Word) (s : State) : (storeWord p v s).irqLine = s.irqLine := rfl
@[simp] theorem State.storeWord_fault (p : Nat) (v : Word) (s : State) : (storeWord p v s).fault = s.fault := rfl
@[simp] theorem State.storeWord_hung (p : Nat) (v : Word) (s : State) : (storeWord p v s).hung = s.hung := rfl
@[simp] theorem State.storeWord_mix (p : Nat) (v : Word) (s : State) : (storeWord p v s).mix = s.mix := rfl
@[simp] theorem State.storeWord_mem (p : Nat) (v : Word) (s : State) : (storeWord p v s).mem = s.mem.store p (wordBytes v) := rfl
@[simp] theorem State.storeWord_inCall (p : Nat) (v : Word) (s : State) : (storeWord p v s).inCall = s.inCall := rfl
@[simp] theorem State.storeWord_dspAnswers (p : Nat) (v : Word) (s : State) : (storeWord p v s).dspAnswers = s.dspAnswers := rfl
@[simp] theorem State.storeWord_races (p : Nat) (v : Word) (s : State) : (storeWord p v s).races = s.races := rfl
@[simp] theorem State.storeWord_inbox (p : Nat) (v : Word) (s : State) : (storeWord p v s).inbox = s.inbox := rfl
@[simp] theorem State.storeWord_readData (p : Nat) (v : Word) (s : State) : (storeWord p v s).readData = s.readData := rfl
@[simp] theorem State.storeWord_trace (p : Nat) (v : Word) (s : State) : (storeWord p v s).trace = (.writeBytes p (wordBytes v)) :: s.trace := rfl
@[simp] theorem State.storeWord_draws (p : Nat) (v : Word) (s : State) : (storeWord p v s).draws = s.draws := rfl
@[simp] theorem State.storeWord_calls (p : Nat) (v : Word) (s : State) : (storeWord p v s).calls = s.calls ++ [.writeBytes p (wordBytes v)] := by simp [State.calls]
@[simp] theorem State.storeWord_bank (p : Nat) (v : Word) (s : State) (w' : Window) : (storeWord p v s).bank w' = s.bank w' := by cases w' <;> rfl
@[simp] theorem State.storeWord_reg (p : Nat) (v : Word) (s : State) (w' : Window) (a' : Nat) : (storeWord p v s).reg w' a' = s.reg w' a' := by cases w' <;> rfl
@[simp] theorem State.storeWord_topReg (p : Nat) (v : Word) (s : State) (r' : TopReg) : (storeWord p v s).topReg r' = s.topReg r' := rfl
@[simp] theorem State.storeWord_rst (p : Nat) (v : Word) (s : State) (c' : Coproc) : (storeWord p v s).rst c' = s.rst c' := by cases c' <;> rfl

/-! ### setFault -/

@[simp] theorem State.setFault_cfg (s : State) (code : FaultCode) : (s.setFault code).cfg = s.cfg := rfl
@[simp] theorem State.setFault_topBank (s : State) (code : FaultCode) : (s.setFault code).topBank = s.topBank := rfl
@[simp] theorem State.setFault_gpBank (s : State) (code : FaultCode) : (s.setFault code).gpBank = s.gpBank := rfl
@[simp] theorem State.setFault_epBank (s : State) (code : FaultCode) : (s.setFault code).epBank = s.epBank := rfl
@[simp] theorem State.setFault_timerArmed (s : State) (code : FaultCode) : (s.setFault code).timerArmed = s.timerArmed := rfl
@[simp] theorem State.setFault_timerDeadline (s : State) (code : FaultCode) : (s.setFault code).timerDeadline = s.timerDeadline := rfl
@[simp] theorem State.setFault_sched (s : State) (code : FaultCode) : (s.setFault code).sched = s.sched := rfl
@[simp] theorem State.setFault_irqLine (s : State) (code : FaultCode) : (s.setFault code).irqLine = s.irqLine := rfl
@[simp] theorem State.setFault_fault (s : State) (code : FaultCode) : (s.setFault code).fault = some code := rfl
@[simp] theorem State.setFault_hung (s : State) (code : FaultCode) : (s.setFault code).hung = s.hung := rfl
@[simp] theorem State.setFault_mix (s : State) (code : FaultCode) : (s.setFault code).mix = s.mix := rfl
@[simp] theorem State.setFault_mem (s : State) (code : FaultCode) : (s.setFault code).mem = s.mem := rfl
@[simp] theorem State.setFault_inCall (s : State) (code : FaultCode) : (s.setFault code).inCall = s.inCall := rfl
@[simp] theorem State.setFault_dspAnswers (s : State) (code : FaultCode) : (s.setFault code).dspAnswers = s.dspAnswers := rfl
@[simp] theorem State.setFault_races (s : State) (code : FaultCode) : (s.setFault code).races = s.races := rfl
@[simp] theorem State.setFault_inbox (s : State) (code : FaultCode) : (s.setFault code).inbox = s.inbox := rfl
@[simp] theorem State.setFault_readData (s : State) (code : FaultCode) : (s.setFault code).readData = s.readData := rfl
@[simp] theorem State.setFault_trace (s : State) (code : FaultCode) : (s.setFault code).trace = s.trace := rfl
@[simp] theorem State.setFault_draws (s : State) (code : FaultCode) : (s.setFault code).draws = s.draws := rfl
@[simp] theorem State.setFault_calls (s : State) (code : FaultCode) : (s.setFault code).calls = s.calls := by simp [State.calls]
@[simp] theorem State.setFault_bank (s : State) (code : FaultCode) (w' : Window) : (s.setFault code).bank w' = s.bank w' := by cases w' <;> rfl
@[simp] theorem State.setFault_reg (s : State) (code : FaultCode) (w' : Window) (a' : Nat) : (s.setFault code).reg w' a' = s.reg w' a' := by cases w' <;> rfl
@[simp] theorem State.setFault_topReg (s : State) (code : FaultCode) (r' : TopReg) : (s.setFault code).topReg r' = s.topReg r' := rfl
@[simp] theorem State.setFault_rst (s : State) (code : FaultCode) (c' : Coproc) : (s.setFault code).rst c' = s.rst c' := by cases c' <;> rfl

/-! ### setHung -/

@[simp] theorem State.setHung_cfg (s : State) : (s.setHung).cfg = s.cfg := rfl
@[simp] theorem State.setHung_topBank (s : State) : (s.setHung).topBank = s.topBank := rfl
@[simp] theorem State.setHung_gpBank (s : State) : (s.setHung).gpBank = s.gpBank := rfl
@[simp] theorem State.setHung_epBank (s : State) : (s.setHung).epBank = s.epBank := rfl
@[simp] theorem State.setHung_timerArmed (s : State) : (s.setHung).timerArmed = s.timerArmed := rfl
@[simp] theorem State.setHung_timerDeadline (s : State) : (s.setHung).timerDeadline = s.timerDeadline := rfl
@[simp] theorem State.setHung_sched (s : State) : (s.setHung).sched = s.sched := rfl
@[simp] theorem State.setHung_irqLine (s : State) : (s.setHung).irqLine = s.irqLine := rfl
@[simp] theorem State.setHung_fault (s : State) : (s.setHung).fault = s.fault := rfl
@[simp] theorem State.setHung_hung (s : State) : (s.setHung).hung = true := rfl
@[simp] theorem State.setHung_mix (s : State) : (s.setHung).mix = s.mix := rfl
@[simp] theorem State.setHung_mem (s : State) : (s.setHung).mem = s.mem := rfl
@[simp] theorem State.setHung_inCall (s : State) : (s.setHung).inCall = s.inCall := rfl
@[simp] theorem State.setHung_dspAnswers (s : State) : (s.setHung).dspAnswers = s.dspAnswers := rfl
@[simp] theorem State.setHung_races (s : State) : (s.setHung).races = s.races := rfl
@[simp] theorem State.setHung_inbox (s : State) : (s.setHung).inbox = s.inbox := rfl
@[simp] theorem State.setHung_readData (s : State) : (s.setHung).readData = s.readData := rfl
@[simp] theorem State.setHung_trace (s : State) : (s.setHung).trace = s.trace := rfl
@[simp] theorem State.setHung_draws (s : State) : (s.setHung).draws = s.draws := rfl
@[simp] theorem State.setHung_calls (s : State) : (s.setHung).calls = s.calls := by simp [State.calls]
@[simp] theorem State.setHung_bank (s : State) (w' : Window) : (s.setHung).bank w' = s.bank w' := by cases w' <;> rfl
@[simp] theorem State.setHung_reg (s : State) (w' : Window) (a' : Nat) : (s.setHung).reg w' a' = s.reg w' a' := by cases w' <;> rfl
@[simp] theorem State.setHung_topReg (s : State) (r' : TopReg) : (s.setHung).topReg r' = s.topReg r' := rfl
@[simp] theorem State.setHung_rst (s : State) (c' : Coproc) : (s.setHung).rst c' = s.rst c' := by cases c' <;> rfl

/-! ### deviceReset -/

@[simp] theorem State.deviceReset_cfg (s : State) : (deviceReset s).cfg = s.cfg := rfl
@[simp] theorem State.deviceReset_topBank (s : State) : (deviceReset s).topBank = [] := rfl
@[simp] theorem State.deviceReset_gpBank (s : State) : (deviceReset s).gpBank = [] := rfl
@[simp] theorem State.deviceReset_epBank (s : State) : (deviceReset s).epBank = [] := rfl
@[simp] theorem State.deviceReset_timerArmed (s : State) : (deviceReset s).timerArmed = false := rfl
@[simp] theorem State.deviceReset_timerDeadline (s : State) : (deviceReset s).timerDeadline = s.timerDeadline := rfl
@[simp] theorem State.deviceReset_sched (s : State) : (deviceReset s).sched = .idle := rfl
@[simp] theorem State.deviceReset_irqLine (s : State) : (deviceReset s).irqLine = false := rfl
@[simp] theorem State.deviceReset_fault (s : State) : (deviceReset s).fault = none := rfl
@[simp] theorem State.deviceReset_hung (s : State) : (deviceReset s).hung = false := rfl
@[simp] theorem State.deviceReset_mix (s : State) : (deviceReset s).mix = none := rfl
@[simp] theorem State.deviceReset_mem (s : State) : (deviceReset s).mem = s.mem := rfl
@[simp] theorem State.deviceReset_inCall (s : State) : (deviceReset s).inCall = none := rfl
@[simp] theorem State.deviceReset_dspAnswers (s : State) : (deviceReset s).dspAnswers = s.dspAnswers := rfl
@[simp] theorem State.deviceReset_races (s : State) : (deviceReset s).races = s.races := rfl
@[simp] theorem State.deviceReset_inbox (s : State) : (deviceReset s).inbox = s.inbox := rfl
@[simp] theorem State.deviceReset_readData (s : State) : (deviceReset s).readData = s.readData := rfl
@[simp] theorem State.deviceReset_trace (s : State) : (deviceReset s).trace = (.irqDeassert) :: (.timerDisarm) :: s.trace := rfl
@[simp] theorem State.deviceReset_draws (s : State) : (deviceReset s).draws = s.draws := rfl
@[simp] theorem State.deviceReset_calls (s : State) : (deviceReset s).calls = s.calls ++ [.timerDisarm, .irqDeassert] := by simp [State.calls]

/-! ### Reading a register after storing one -/

theorem State.bank_setBank (s : State) (w w' : Window) (b : Bank) :
    (s.setBank w b).bank w' = if w' = w then b else s.bank w' := by
  cases w <;> cases w' <;> rfl

theorem State.reg_setReg (s : State) (w w' : Window) (a a' : Nat) (v : Word) :
    (s.setReg w a v).reg w' a' = if w' = w ∧ a' = a then v else s.reg w' a' := by
  unfold State.setReg State.reg
  rw [State.bank_setBank]
  by_cases hw : w' = w
  · subst hw
    simp only [if_true, true_and, Cells.get_put]
  · simp [hw]

@[simp] theorem State.reg_setTopReg (s : State) (r : TopReg) (v : Word) (w' : Window) (a' : Nat) :
    (s.setTopReg r v).reg w' a' = if w' = .top ∧ a' = s.cfg.addrOf r then v else s.reg w' a' :=
  State.reg_setReg ..

theorem State.topReg_setTopReg (s : State) (r r' : TopReg) (v : Word) :
    (s.setTopReg r v).topReg r' = if s.cfg.addrOf r' = s.cfg.addrOf r then v else s.topReg r' := by
  simp only [State.topReg, State.setTopReg_cfg, State.reg_setTopReg, true_and]

@[simp] theorem State.topReg_setTopReg_self (s : State) (r : TopReg) (v : Word) : (s.setTopReg r v).topReg r = v := by
  simp [State.topReg_setTopReg]

theorem State.topReg_setTopReg_of_ne {s : State} {r r' : TopReg} (h : s.cfg.addrOf r' ≠ s.cfg.addrOf r) (v : Word) :
    (s.setTopReg r v).topReg r' = s.topReg r' := by
  simp [State.topReg_setTopReg, h]

@[simp] theorem State.rst_setTopReg (s : State) (r : TopReg) (v : Word) (c : Coproc) :
    (s.setTopReg r v).rst c = s.rst c := by
  cases c <;> rfl

@[simp] theorem State.reg_setRst (s : State) (c : Coproc) (v : Word) (w' : Window) (a' : Nat) :
    (s.setRst c v).reg w' a' = if w' = c.window ∧ a' = s.cfg.rstAddr c then v else s.reg w' a' :=
  State.reg_setReg ..

@[simp] theorem State.rst_setRst_self (s : State) (c : Coproc) (v : Word) : (s.setRst c v).rst c = v := by
  simp [State.rst]

@[simp] theorem State.topReg_setRst (s : State) (c : Coproc) (v : Word) (r : TopReg) :
    (s.setRst c v).topReg r = s.topReg r := by
  cases c <;> rfl

end Sys2Proof.Machine
end

