-- ==== Sys2Proof/Laws/Effects.lean ====
section
/-! SUPPORT. What an operation may do, said once: the primitive effects, the sequences of effects that each shared
operation is, and, in `exec_effects`, those that each instruction is. An invariant or a frame of every instruction
follows by induction on the sequence (`Steps.rec_inv`). -/

namespace Sys2Proof.Machine

/-! ## Effects -/

/-- A call of a collaborator other than the timer and the interrupt line. -/
def Call.plain : Call → Bool
  | .irqAssert => false
  | .irqDeassert => false
  | .timerArm _ => false
  | .timerDisarm => false
  | _ => true

/-- One primitive effect on the state. -/
inductive Effect where
  | log (c : Call)
  | fault (e : FaultCode)
  | hang
  | top (r : TopReg) (v : Word)
  | entry (w : Window) (a : Nat) (v : Word)
  | race
  | store (p : Nat) (v : Word)
  | run (p : Nat) (bytes : List Byte)
  | inCall (c : Option Coproc)
  | takeAnswer
  | arm
  | disarm
  | sched (q : Sched)
  | startMix
  | discardMix
  | mix (h : Word)
  | ists (v : Word)
  | trap
  | deliver (v : Word)
  | draw
  | reset

/-- What an effect does to the state. -/
def Effect.apply (s : State) : Effect → State
  | .log c => s.log c
  | .fault e => s.setFault e
  | .hang => s.setHung
  | .top r v => s.setTopReg r v
  | .entry w a v => s.setReg w a v
  | .race => s.race
  | .store p v => storeWord p v s
  | .run p bytes => storeRun p bytes s
  | .inCall c => s.setInCall c
  | .takeAnswer => s.takeAnswer
  | .arm => s.armTimer
  | .disarm => s.disarmTimer
  | .sched q => s.setSched q
  | .startMix => Sys2Proof.Machine.startMix s
  | .discardMix => Sys2Proof.Machine.discardMix s
  | .mix h => contribute h s
  | .ists v => istsWrite v s
  | .trap => enterTrap s
  | .deliver v => s.deliver v
  | .draw => s.drawn
  | .reset => deviceReset s

/-- When an effect may happen: stores are inside guest memory, register stores at an address of the window, and the
calls recorded are neither the timer's nor the interrupt line's. -/
def Effect.admitted (s : State) : Effect → Prop
  | .log c => c.plain = true
  | .top r _ => r ∈ TopReg.all
  | .entry w a _ => a % 4 = 0 ∧ a < w.size
  | .store p _ => p + 4 ≤ s.cfg.ramSize
  | .run p bytes => p + bytes.length ≤ s.cfg.ramSize
  | _ => True

@[simp] theorem Effect.apply_cfg (s : State) (e : Effect) : (e.apply s).cfg = s.cfg := by
  cases e <;> simp [Effect.apply, istsWrite, enterTrap, updateIrq]

/-- `t` is reached from `s` by admitted effects of the kind `K`. -/
inductive Steps (K : Effect → Prop) (s : State) : State → Prop where
  | refl : Steps K s s
  | step {t : State} {e : Effect} (h : Steps K s t) (hk : K e) (ha : e.admitted t) : Steps K s (e.apply t)

theorem Steps.trans {K : Effect → Prop} {s t u : State} (h : Steps K s t) (h' : Steps K t u) : Steps K s u := by
  induction h' with
  | refl => exact h
  | step _ hk ha ih => exact ih.step hk ha

theorem Steps.one {K : Effect → Prop} {s : State} (e : Effect) (hk : K e) (ha : e.admitted s) : Steps K s (e.apply s) :=
  Steps.refl.step hk ha

theorem Steps.mono {K K' : Effect → Prop} {s t : State} (h : Steps K s t) (hK : ∀ e, K e → K' e) : Steps K' s t := by
  induction h with
  | refl => exact .refl
  | step _ hk ha ih => exact ih.step (hK _ hk) ha

/-- What every admitted effect of the kind keeps, the sequence keeps. -/
theorem Steps.rec_inv {K : Effect → Prop} {P : State → Prop} {s t : State} (h : Steps K s t)
    (hP : ∀ e t, K e → e.admitted t → P t → P (e.apply t)) (hs : P s) : P t := by
  induction h with
  | refl => exact hs
  | step _ hk ha ih => exact hP _ _ hk ha ih

theorem Steps.cfg {K : Effect → Prop} {s t : State} (h : Steps K s t) : t.cfg = s.cfg :=
  h.rec_inv (P := fun t => t.cfg = s.cfg) (fun e t _ _ ht => (e.apply_cfg t).trans ht) rfl

/-! ## Results -/

/-- Every state in which the operation goes on or ends the event meets `P`. -/
def Res.All {α : Type} (P : State → Prop) : Res α → Prop
  | .ok _ s => P s
  | .halted s => P s
  | .refused _ => True

theorem Res.All.bind {α β : Type} {P Q : State → Prop} {r : Res α} {k : α → State → Res β} (hr : r.All P)
    (hk : ∀ a s, P s → (k a s).All Q) (hh : ∀ s, P s → Q s) : (r.bind k).All Q := by
  cases r with
  | ok a s => exact hk a s hr
  | halted s => exact hh s hr
  | refused e => trivial

theorem Res.All.mono {α : Type} {P Q : State → Prop} {r : Res α} (hr : r.All P) (h : ∀ s, P s → Q s) : r.All Q := by
  cases r with
  | ok a s => exact h s hr
  | halted s => exact h s hr
  | refused e => trivial

/-- The operation, run from `s`, is a sequence of effects of the kind `K`. -/
def Res.Does {α : Type} (K : Effect → Prop) (s : State) (r : Res α) : Prop := r.All (Steps K s)

theorem Res.Does.bind {α β : Type} {K : Effect → Prop} {s : State} {r : Res α} {k : α → State → Res β}
    (hr : r.Does K s) (hk : ∀ a t, (k a t).Does K t) : (r.bind k).Does K s :=
  Res.All.bind hr (fun a t ht => (hk a t).mono fun _ hu => ht.trans hu) fun _ h => h

/-- As `Res.Does.bind`, with what the first operation did at hand. -/
theorem Res.Does.bind' {α β : Type} {K : Effect → Prop} {s : State} {r : Res α} {k : α → State → Res β}
    (hr : r.Does K s) (hk : ∀ a t, Steps K s t → (k a t).Does K s) : (r.bind k).Does K s :=
  Res.All.bind hr hk fun _ h => h

theorem Res.Does.mono {α : Type} {K K' : Effect → Prop} {s : State} {r : Res α} (hr : r.Does K s)
    (hK : ∀ e, K e → K' e) : r.Does K' s :=
  Res.All.mono hr fun _ h => h.mono hK

theorem Res.Does.after {α : Type} {K : Effect → Prop} {s t : State} {r : Res α} (h : Steps K s t) (hr : r.Does K t) :
    r.Does K s :=
  Res.All.mono hr fun _ hu => h.trans hu

theorem Res.Does.raise {α : Type} {K : Effect → Prop} {s : State} (e : FaultCode) (hk : K (.fault e)) :
    (Machine.raise e s : Res α).Does K s :=
  Steps.one (.fault e) hk trivial

theorem Res.Does.hang {α : Type} {K : Effect → Prop} {s : State} (hk : K .hang) : (Machine.hang s : Res α).Does K s :=
  Steps.one .hang hk trivial

theorem Res.Does.ok {α : Type} {K : Effect → Prop} {s t : State} {a : α} (h : Steps K s t) : (Res.ok a t).Does K s := h

/-- An event that answers a next state was live, and its operation went on to that state or ended in it. -/
theorem event_next {α : Type} {s t : State} {r : Res α} (h : event s r = .next t) :
    s.fault = none ∧ s.hung = false ∧ ((∃ a, r = .ok a t) ∨ r = .halted t) := by
  unfold event at h
  split at h
  · cases h
  split at h
  · cases h
  refine ⟨by simp_all, by simp_all, ?_⟩
  cases r with
  | ok a s' => cases h; exact .inl ⟨a, rfl⟩
  | halted s' => cases h; exact .inr rfl
  | refused e => cases h

theorem event_all {α : Type} {s t : State} {P : State → Prop} {r : Res α} (h : event s r = .next t) (hr : r.All P) :
    P t := by
  rcases (event_next h).2.2 with ⟨a, rfl⟩ | rfl <;> exact hr

/-- A live device's event is its operation. -/
theorem event_live {α : Type} {s : State} (h : s.live = true) (r : Res α) : event s r = r.outcome := by
  simp only [State.live, Bool.and_eq_true, Option.isNone_iff_eq_none, Bool.not_eq_true'] at h
  simp [event, h.1, h.2]

/-! ## The shared operations -/

/-- Reads of guest memory with the guest CPU's racing stores before them, and faults. -/
def Effect.reads : Effect → Prop
  | .log (.readBytes _ _) => True
  | .race => True
  | .fault _ => True
  | _ => False

theorem memRead32_does (p : Nat) (s : State) : (memRead32 p s).Does Effect.reads s := by
  unfold memRead32
  split
  · exact (Steps.one .race trivial trivial).step (e := .log (.readBytes p 4)) trivial rfl
  · exact Res.Does.raise _ trivial

theorem descRead_does (T i : Nat) (s : State) : (descRead T i s).Does Effect.reads s := by
  unfold descRead
  split
  · exact memRead32_does ..
  · exact Res.Does.raise _ trivial

/-- What the voice list's operations do: reads, word stores inside guest memory, list heads, faults. -/
def Effect.voices : Effect → Prop
  | .log (.readBytes _ _) => True
  | .race => True
  | .fault _ => True
  | .store _ _ => True
  | .top (.listTop _) _ => True
  | _ => False

theorem Effect.voices_of_reads (e : Effect) (h : e.reads) : e.voices := by
  cases e with
  | race => exact trivial
  | log c => cases c <;> first | exact h.elim | exact trivial
  | fault e => exact trivial
  | _ => exact h.elim

theorem checkHandle_does {K : Effect → Prop} (hK : ∀ e, K (.fault e)) (h : Word) (s : State) :
    (checkHandle h s).Does K s := by
  unfold checkHandle
  split
  · exact .refl
  · exact Res.Does.raise _ (hK _)

theorem vget_does (h : Word) (off : Nat) (mask : Word) (s : State) : (vget h off mask s).Does Effect.reads s :=
  (checkHandle_does (fun _ => trivial) h s).bind fun _ t =>
    (memRead32_does _ t).bind fun _ _ => Steps.refl

theorem memWrite32_does {K : Effect → Prop} {p : Nat} {v : Word} (hr : K .race) (hs : K (.store p v))
    (hf : ∀ e, K (.fault e)) (s : State) : (memWrite32 p v s).Does K s := by
  unfold memWrite32
  split
  · rename_i h
    exact (Steps.one .race hr trivial).step (e := .store p v) hs h
  · exact Res.Does.raise _ (hf _)

theorem vset_does (h : Word) (off : Nat) (mask x : Word) (s : State) :
    (vset h off mask x s).Does Effect.voices s :=
  (checkHandle_does (fun _ => trivial) h s).bind fun _ t =>
    ((memRead32_does _ t).mono Effect.voices_of_reads).bind fun _ u =>
      memWrite32_does trivial trivial (fun _ => trivial) u

theorem insertAtHead_does (l : ListId) (h : Word) (s : State) : (insertAtHead l h s).Does Effect.voices s :=
  (vset_does ..).bind fun _ _ => Steps.one (.top (.listTop l) h) trivial (TopReg.mem_all _ nofun)

theorem insertAfter_does (a h : Word) (s : State) : (insertAfter a h s).Does Effect.voices s := by
  unfold insertAfter
  split
  · exact Res.Does.raise _ trivial
  · exact ((vget_does ..).mono Effect.voices_of_reads).bind fun _ _ => (vset_does ..).bind fun _ _ => vset_does ..

/-- The latch. -/
def Effect.latches : Effect → Prop
  | .top .fedecmeth _ => True
  | .top .fedecparam _ => True
  | _ => False

theorem latch_steps {K : Effect → Prop} (hK : ∀ e, Effect.latches e → K e) (op arg : Word) (s : State) :
    Steps K s (latch op arg s) :=
  ((Steps.one (.top .fedecmeth op) (hK _ trivial) (TopReg.mem_all _ nofun)).step (e := .top .fedecparam arg) (hK _ trivial) (TopReg.mem_all _ nofun))

/-- What VOICE_ON, VOICE_OFF and VOICE_PAUSE do. -/
def Effect.voiceCommand (e : Effect) : Prop := e.voices ∨ e.latches

theorem voiceOn_does (arg : Word) (s : State) : (voiceOn arg s).Does Effect.voices s := by
  unfold voiceOn
  refine Res.Does.bind ?_ fun _ _ => vset_does ..
  split
  · exact insertAtHead_does ..
  · exact insertAfter_does ..

/-- What a front-end command of the host does. -/
def Effect.command : Effect → Prop
  | .top .feav _ => True
  | .top .fecv _ => True
  | .top .fedecmeth _ => True
  | .top .fedecparam _ => True
  | .top (.listTop _) _ => True
  | .log (.readBytes _ _) => True
  | .race => True
  | .fault _ => True
  | .store _ _ => True
  | _ => False

/-- What the idle notification of a tick does. -/
def Effect.notification : Effect → Prop
  | .top .fedecmeth _ => True
  | .top .fedecparam _ => True
  | .fault _ => True
  | .trap => True
  | _ => False

theorem Effect.command_of_voices (e : Effect) (h : e.voices) : e.command := by
  cases e with
  | race => exact trivial
  | log c => cases c <;> first | exact h.elim | exact trivial
  | top r v => cases r <;> first | exact h.elim | exact trivial
  | fault e => exact trivial
  | store p v => exact trivial
  | _ => exact h.elim

theorem Effect.command_of_latches (e : Effect) (h : e.latches) : e.command := by
  cases e with
  | top r v => cases r <;> first | exact h.elim | exact trivial
  | _ => exact h.elim

theorem Effect.notification_of_latches (e : Effect) (h : e.latches) : e.notification := by
  cases e with
  | top r v => cases r <;> first | exact h.elim | exact trivial
  | _ => exact h.elim

theorem feDispatch_host_does (op arg : Word) (s : State) : (feDispatch op arg .host s).Does Effect.command s := by
  have hl := latch_steps Effect.command_of_latches op arg s
  have hv {r : Res Unit} (h : r.Does Effect.voices (latch op arg s)) : r.Does Effect.command s :=
    (h.mono Effect.command_of_voices).after hl
  unfold feDispatch
  dsimp only
  split
  · exact hl.step (e := .top .feav arg) trivial (TopReg.mem_all _ nofun)
  split
  · exact hv (voiceOn_does ..)
  split
  · exact hv (vset_does ..)
  split
  · exact hv (vset_does ..)
  split
  · exact hl.step (e := .top .fecv arg) trivial (TopReg.mem_all _ nofun)
  split
  · rename_i h; exact absurd h.2 (by decide)
  · exact (Res.Does.raise _ trivial).after hl

theorem idleVoiceNotify_does (s : State) : (idleVoiceNotify s).Does Effect.notification s := by
  unfold idleVoiceNotify
  split
  · exact Steps.one .trap trivial trivial
  · exact Res.Does.raise _ trivial

/-- What a DSP request does: reads and in-bounds runs of guest memory, the cursor of an existing channel, the bytes
returned, faults. -/
def Effect.request : Effect → Prop
  | .log (.readBytes _ _) => True
  | .log (.dspReceive _ _) => True
  | .race => True
  | .fault _ => True
  | .hang => True
  | .run _ _ => True
  | .top (.fifo _ _ _ .cur) _ => True
  | _ => False

theorem Effect.request_of_reads (e : Effect) (h : e.reads) : e.request := by
  cases e with
  | race => exact trivial
  | log c => cases c <;> first | exact h.elim | exact trivial
  | fault e => exact trivial
  | _ => exact h.elim

theorem Config.add_le_of_dmaInBounds {cfg : Config} {p n : Nat} (h : cfg.dmaInBounds p n = true) :
    p + n ≤ cfg.ramSize := by
  rw [Config.dmaInBounds, Bool.and_eq_true] at h
  replace h := h.2
  split at h <;> simp at h <;> omega

theorem sgLoop_does (dir : Dir) (T M : Nat) : ∀ fuel idx off rem buf s,
    (sgLoop dir T M fuel idx off rem buf s).Does Effect.request s := by
  intro fuel
  induction fuel with
  | zero =>
    intro idx off rem buf s
    cases rem with
    | zero => exact .refl
    | succ rem => exact Res.Does.hang trivial
  | succ fuel ih =>
    intro idx off rem buf s
    cases rem with
    | zero => exact .refl
    | succ rem =>
      unfold sgLoop
      split
      · exact Res.Does.raise _ trivial
      · refine ((descRead_does ..).mono Effect.request_of_reads).bind fun base t => ?_
        dsimp only
        split
        · rename_i hb
          cases dir with
          | toGuest =>
            refine (ih ..).after ((Steps.one .race trivial trivial).step (e := .run _ _) trivial ?_)
            refine Nat.le_trans (Nat.add_le_add_left (List.length_take_le _ _) _) (Config.add_le_of_dmaInBounds hb)
          | fromGuest =>
            exact (ih ..).after ((Steps.one .race trivial trivial).step (e := .log (.readBytes _ _)) trivial rfl)
        · exact Res.Does.raise _ trivial

theorem returnBytes_steps (c : Coproc) (dir : Dir) (bytes : List Byte) (s : State) :
    Steps Effect.request s (returnBytes c dir bytes s) := by
  cases dir with
  | toGuest => exact .refl
  | fromGuest => exact Steps.one (.log (.dspReceive c bytes)) trivial rfl

theorem scratchRequest_does (c : Coproc) (dir : Dir) (o : Word) (len : Nat) (data : List Byte) (s : State) :
    (scratchRequest c dir o len data s).Does Effect.request s := by
  unfold scratchRequest
  split
  · exact (sgLoop_does ..).bind fun _ _ => returnBytes_steps ..
  · trivial

theorem circLoop_does (dir : Dir) (T M base stop : Nat) : ∀ fuel cur rem buf s,
    (circLoop dir T M base stop fuel cur rem buf s).Does Effect.request s := by
  intro fuel
  induction fuel with
  | zero =>
    intro cur rem buf s
    cases rem with
    | zero => exact .refl
    | succ rem => exact Res.Does.hang trivial
  | succ fuel ih =>
    intro cur rem buf s
    cases rem with
    | zero => exact .refl
    | succ rem =>
      unfold circLoop
      split
      · exact (sgLoop_does ..).bind fun _ _ => ih ..
      · exact Res.Does.raise _ trivial

theorem fifoRequest_does (c : Coproc) (dir : Dir) (k len : Nat) (data : List Byte) (s : State) :
    (fifoRequest c dir k len data s).Does Effect.request s := by
  unfold fifoRequest
  split
  · split
    · exact Res.Does.raise _ trivial
    · rename_i hk
      split
      · refine (circLoop_does ..).bind fun r t => ?_
        exact (Steps.one (.top (.fifo c dir k .cur) _) trivial
          (TopReg.mem_all _ fun _ _ _ _ h => by cases h; omega)).trans (returnBytes_steps ..)
      · exact Res.Does.raise _ trivial
  · trivial

theorem serveRequest_does (c : Coproc) (s : State) (q : DspReq) : (serveRequest c s q).Does Effect.request s := by
  cases q with
  | scratch => exact scratchRequest_does ..
  | fifo => exact fifoRequest_does ..

/-- What a call into a DSP core does: the call, the core's requests, the call's bookkeeping. -/
def Effect.call : Effect → Prop
  | .log (.readBytes _ _) => True
  | .log (.dspReceive _ _) => True
  | .log (.dspReset _) => True
  | .log (.dspBootstrap _) => True
  | .log (.dspStartFrame _) => True
  | .log (.dspRun _ _) => True
  | .race => True
  | .fault _ => True
  | .hang => True
  | .run _ _ => True
  | .top (.fifo _ _ _ .cur) _ => True
  | .inCall _ => True
  | .takeAnswer => True
  | _ => False

theorem Effect.call_of_request (e : Effect) (h : e.request) : e.call := by
  cases e with
  | log c => cases c <;> first | exact h.elim | exact trivial
  | top r v =>
    cases r with
    | fifo c dir k part => cases part <;> first | exact h.elim | exact trivial
    | _ => exact h.elim
  | fault e => exact trivial
  | race => exact trivial
  | hang => exact trivial
  | run p b => exact trivial
  | _ => exact h.elim

theorem serveRequests_does (c : Coproc) : ∀ qs s, (serveRequests c qs s).Does Effect.request s := by
  intro qs
  induction qs with
  | nil => intro s; exact .refl
  | cons q qs ih => intro s; exact (serveRequest_does c s q).bind fun _ t => ih t

theorem leaveCall_does {s : State} {r : Res Unit} (h : r.Does Effect.call s) : (leaveCall r).Does Effect.call s := by
  cases r with
  | ok a t => exact Steps.step h (e := .inCall none) trivial trivial
  | halted t => exact Steps.step h (e := .inCall none) trivial trivial
  | refused e => trivial

theorem dspCall_does (c : Coproc) (call : Call) (hk : Effect.call (.log call)) (hp : call.plain = true) (s : State) :
    (dspCall c call s).Does Effect.call s := by
  refine leaveCall_does (Res.Does.after ?_ ((serveRequests_does c _ _).mono Effect.call_of_request))
  exact ((Steps.one (.log call) hk hp).step (e := .takeAnswer) trivial trivial).step (e := .inCall (some c)) trivial trivial

/-- After a call, and after a fault or a hang in it, control is in no call (rule R273). -/
theorem dspCall_inCall (c : Coproc) (call : Call) (s : State) : (dspCall c call s).All fun t => t.inCall = none := by
  unfold dspCall leaveCall
  split
  · exact State.setInCall_inCall ..
  · exact State.setInCall_inCall ..
  · trivial

/-- What a write of a reset register does. -/
def Effect.rstWrite (cfg : Config) (c : Coproc) (v : Word) (e : Effect) : Prop :=
  e.call ∨ e = .entry c.window (cfg.rstAddr c) v

theorem clearFifoCursors_steps (c : Coproc) (s : State) : Steps Effect.call s (clearFifoCursors c s) := by
  have one (dir : Dir) (k : Nat) (hk : k < channelCount dir) (t : State) :
      Steps Effect.call t (t.setTopReg (.fifo c dir k .cur) 0#32) :=
    Steps.one (.top (.fifo c dir k .cur) 0#32) trivial (TopReg.mem_all _ fun _ _ _ _ h => by cases h; exact hk)
  have all (dir : Dir) (ks : List Nat) (hks : ∀ k ∈ ks, k < channelCount dir) : ∀ t : State,
      Steps Effect.call t (ks.foldl (fun t k => t.setTopReg (.fifo c dir k .cur) 0#32) t) := by
    induction ks with
    | nil => intro t; exact .refl
    | cons k ks ih =>
      intro t
      exact (one dir k (hks k (by simp)) t).trans (ih (fun j hj => hks j (by simp [hj])) _)
  exact (all .toGuest _ (fun k hk => List.mem_range.mp hk) s).trans
    (all .fromGuest _ (fun k hk => List.mem_range.mp hk) _)

theorem rstEdge_does (c : Coproc) (old v : Word) (s : State) : (rstEdge c old v s).Does Effect.call s := by
  unfold rstEdge
  split
  · split
    · exact .refl
    · exact dspCall_does c _ (by exact trivial) rfl s
  · refine (dspCall_does c _ (by exact trivial) rfl s).bind fun _ t => ?_
    show Steps _ _ _
    split
    · exact clearFifoCursors_steps c t
    · exact .refl

theorem rstWrite_does (c : Coproc) (v : Word) (s : State) (h : s.cfg.wf = true) :
    (rstWrite c v s).Does (Effect.rstWrite s.cfg c v) s := by
  refine Res.Does.bind' ((rstEdge_does c _ v s).mono fun _ => .inl) fun _ t ht => ?_
  have hc := ht.cfg
  exact ht.step (e := .entry c.window (s.cfg.rstAddr c) v) (.inr rfl) (Config.rstAddr_ok h c) |>.trans <| by
    rw [show t.setRst c v = t.setReg c.window (s.cfg.rstAddr c) v by rw [State.setRst, hc]]
    exact .refl

/-- What the walk of a voice list does. -/
def Effect.walk (l : ListId) : Effect → Prop
  | .log (.readBytes _ _) => True
  | .fault _ => True
  | .hang => True
  | .top .fedecmeth _ => True
  | .top .fedecparam _ => True
  | .top (.listCurrent l') _ => l' = l
  | .top (.listNext l') _ => l' = l
  | .race => True
  | .trap => True
  | .mix _ => True
  | _ => False

theorem Effect.walk_of_reads (l : ListId) (e : Effect) (h : e.reads) : e.walk l := by
  cases e with
  | race => exact trivial
  | log c => cases c <;> first | exact h.elim | exact trivial
  | fault e => exact trivial
  | _ => exact h.elim

theorem Effect.walk_of_notification (l : ListId) (e : Effect) (h : e.notification) : e.walk l := by
  cases e with
  | top r v => cases r <;> first | exact h.elim | exact trivial
  | fault e => exact trivial
  | trap => exact trivial
  | _ => exact h.elim

/-- The scheduler's dispatch of an idle notification is the notification (rules R91, R230). -/
theorem feDispatch_idle (h : Word) (s : State) (hw : s.cfg.wf = true) :
    feDispatch s.cfg.opcode.idleVoiceNotify h .scheduler s =
      idleVoiceNotify (latch s.cfg.opcode.idleVoiceNotify h s) := by
  have hn := Config.opcodes_nodup hw
  simp only [List.nodup_cons, List.mem_cons, List.not_mem_nil, or_false, not_or] at hn
  obtain ⟨⟨-, -, -, -, h1⟩, ⟨-, -, -, h2⟩, ⟨-, -, h3⟩, ⟨-, h4⟩, h5, -⟩ := hn
  simp [feDispatch, Ne.symm h1, Ne.symm h2, Ne.symm h3, Ne.symm h4, Ne.symm h5]

theorem visitVoice_does (l : ListId) (h : Word) (s : State) (hw : s.cfg.wf = true) :
    (visitVoice h s).Does (Effect.walk l) s := by
  refine Res.Does.bind' ((vget_does ..).mono (Effect.walk_of_reads l)) fun a t ht => ?_
  split
  · refine Res.Does.after ht ?_
    rw [feDispatch_idle h t (by rw [ht.cfg]; exact hw)]
    exact ((idleVoiceNotify_does _).mono (Effect.walk_of_notification l)).after
      (latch_steps (fun e he => Effect.walk_of_notification l e (Effect.notification_of_latches e he)) ..)
  · exact (ht.step (e := .race) trivial trivial).step (e := .mix h) trivial trivial

theorem walkRound_does (l : ListId) (s : State) (hw : s.cfg.wf = true) : (walkRound l s).Does (Effect.walk l) s := by
  refine Res.Does.bind' ((vget_does ..).mono (Effect.walk_of_reads l)) fun n t ht => ?_
  have ht' := ht.step (e := .top (.listNext l) n) rfl (TopReg.mem_all _ nofun)
  refine Res.Does.bind' ((visitVoice_does l _ _ ?_).after ht') fun _ u hu => ?_
  · simpa [ht.cfg] using hw
  · exact hu.step (e := .top (.listCurrent l) _) rfl (TopReg.mem_all _ nofun)

theorem walk_does (l : ListId) : ∀ fuel s, s.cfg.wf = true → (walk l fuel s).Does (Effect.walk l) s := by
  intro fuel
  induction fuel with
  | zero =>
    intro s _
    unfold walk
    split
    · exact .refl
    · exact Res.Does.hang trivial
  | succ fuel ih =>
    intro s hw
    unfold walk
    split
    · exact .refl
    · have hr := walkRound_does l s hw
      split
      · rename_i t he
        rw [he] at hr
        have ht : Steps _ s t := hr
        exact (ih t (by rw [ht.cfg]; exact hw)).after ht
      · rename_i t he
        rw [he] at hr
        exact hr
      · trivial

theorem traverse_does (l : ListId) (s : State) (hw : s.cfg.wf = true) : (traverse l s).Does (Effect.walk l) s :=
  (walk_does l _ _ (by simpa using hw)).after
    (Steps.one (.top (.listCurrent l) _) rfl (TopReg.mem_all _ nofun))

/-- What a tick does. -/
def Effect.tick (e : Effect) : Prop :=
  (∃ l, e.walk l) ∨ e.call ∨
    match e with
    | .arm => True
    | .sched _ => True
    | .startMix => True
    | .discardMix => True
    | .log (.dspWriteMemory _ _ _ _) => True
    | _ => False

theorem publish_steps (s : State) : Steps Effect.tick s (publish s) := by
  have all (cs : List Call) (hcs : ∀ c ∈ cs, ∃ co sp a v, c = .dspWriteMemory co sp a v) : ∀ t : State,
      Steps Effect.tick t (t.logAll cs) := by
    induction cs with
    | nil => intro t; exact .refl
    | cons c cs ih =>
      intro t
      obtain ⟨co, sp, a, v, rfl⟩ := hcs c (by simp)
      have : t.logAll (.dspWriteMemory co sp a v :: cs) = (t.log (.dspWriteMemory co sp a v)).logAll cs := by
        simp [State.logAll, State.log]
      rw [this]
      exact (Steps.one (.log (.dspWriteMemory co sp a v)) (.inr (.inr trivial)) rfl).trans
        (ih (fun c hc => hcs c (by simp [hc])) _)
  refine all _ (fun c hc => ?_) s
  simp only [publishCalls, List.mem_flatMap, List.mem_map] at hc
  obtain ⟨b, -, i, -, rfl⟩ := hc
  exact ⟨_, _, _, _, rfl⟩

theorem kickGp_does (s : State) : (kickGp s).Does Effect.call s := by
  unfold kickGp
  split
  · exact (dspCall_does .gp _ (by exact trivial) rfl s).bind fun _ t => dspCall_does .gp _ (by exact trivial) rfl t
  · exact .refl

theorem kickEp_does (s : State) : (kickEp s).Does Effect.call s := by
  unfold kickEp
  split
  · exact dspCall_does .ep _ (by exact trivial) rfl s
  · exact .refl

theorem frameTick_does (s : State) (hw : s.cfg.wf = true) : (frameTick s).Does Effect.tick s := by
  have hwf {t : State} (h : Steps Effect.tick s t) : t.cfg.wf = true := by rw [h.cfg]; exact hw
  have trav {t : State} (l : ListId) (h : Steps Effect.tick s t) : (traverse l t).Does Effect.tick s :=
    ((traverse_does l t (hwf h)).mono fun _ he => .inl ⟨l, he⟩).after h
  have hcall (e : Effect) (h : e.call) : e.tick := .inr (.inl h)
  refine Res.Does.bind' (trav .l2d ?_) fun _ t ht => ?_
  · exact ((Steps.one .arm (.inr (.inr trivial)) trivial).step (e := .sched .running) (.inr (.inr trivial))
      trivial).step (e := .startMix) (.inr (.inr trivial)) trivial
  refine Res.Does.bind' (trav .l3d ht) fun _ t ht => ?_
  refine Res.Does.bind' (trav .mp ht) fun _ t ht => ?_
  refine Res.Does.bind' (((kickGp_does _).mono hcall).after (ht.trans (publish_steps t))) fun _ t ht => ?_
  refine Res.Does.bind' (((kickEp_does _).mono hcall).after ht) fun _ t ht => ?_
  exact (ht.step (e := .discardMix) (.inr (.inr trivial)) trivial).step (e := .sched .scheduled) (.inr (.inr trivial))
    trivial

/-! ## The instructions -/

/-- What a SECTL write does. -/
def Effect.sectl (v : Word) : Effect → Prop
  | .arm => True
  | .disarm => True
  | .sched _ => True
  | .top .sectl w => w = v
  | _ => False

/-- What a FEMEMDATA write does. -/
def Effect.notify (v : Word) : Effect → Prop
  | .store _ w => w = v
  | .race => True
  | .fault _ => True
  | .top .fememdata w => w = v
  | _ => False

/-- What a read of a register window or of the method port does. -/
def Effect.hostRead : Effect → Prop
  | .deliver _ => True
  | .draw => True
  | .log (.dspReadMemory _ _ _) => True
  | _ => False

/-- What a write of the TOP window does at an offset. -/
def Effect.topWrite (cfg : Config) (a : Nat) (v : Word) (e : Effect) : Prop :=
  if a = cfg.addrOf .ists then e = .ists v
  else if a = cfg.addrOf .sectl then e.sectl v
  else if a = cfg.addrOf .fememdata then e.notify v
  else e = .entry .top a v

/-- What a write of the GP or EP window does at an offset. -/
def Effect.coprocWrite (cfg : Config) (c : Coproc) (a : Nat) (v : Word) (e : Effect) : Prop :=
  if a = cfg.rstAddr c then e.rstWrite cfg c v
  else e = .entry c.window a v ∨ ∃ sp d, e = .log (.dspWriteMemory c sp d v)

/-- What an access of the TOP window does. -/
def Effect.topAccess (cfg : Config) (off : Word) (acc : Access) (e : Effect) : Prop :=
  match acc with
  | .read => e.hostRead
  | .write v => e.topWrite cfg off.toNat v

/-- What an access of the GP or EP window does. -/
def Effect.coprocAccess (cfg : Config) (c : Coproc) (off : Word) (acc : Access) (e : Effect) : Prop :=
  match acc with
  | .read => e.hostRead
  | .write v => e.coprocWrite cfg c off.toNat v

/-- What each instruction may do. -/
def Effect.mayDo (cfg : Config) (i : Instr) (e : Effect) : Prop :=
  match i with
  | .setAntecedentVoice _ => e.latches ∨ ∃ v, e = .top .feav v
  | .voiceOn _ => e.voiceCommand
  | .voiceOff _ => e.voiceCommand
  | .voicePause _ => e.voiceCommand
  | .setCurrentVoice _ => e.latches ∨ ∃ v, e = .top .fecv v
  | .idleVoiceNotify _ => e.notification
  | .unknownMethod _ _ => e.command
  | .wIsts v => e = .ists v
  | .wSectl v => e.sectl v
  | .wFememdata v => e.notify v
  | .rXgscnt => e.hostRead
  | .wTopPlain off v => e.topAccess cfg off (.write v)
  | .rTopPlain _ => e.hostRead
  | .topOutOfRange off acc => e.topAccess cfg off acc
  | .wRst c v => e.rstWrite cfg c v
  | .wSubwindow c off v => e.coprocAccess cfg c off (.write v)
  | .rSubwindow _ _ => e.hostRead
  | .gpepPlain c off acc => e.coprocAccess cfg c off acc
  | .gpepOutOfRange c off acc => e.coprocAccess cfg c off acc
  | .methodSubmit .read => e.hostRead
  | .methodSubmit (.submit _ _) => e.command
  | .scratchReq _ _ _ _ _ => e.request
  | .fifoReq _ _ _ _ _ => e.request
  | .tick => e.tick
  | .reset => e = .reset

theorem counterRead_steps (s : State) : Steps Effect.hostRead s (counterRead s) :=
  (Steps.one .draw trivial trivial).step (e := .deliver _) trivial trivial

theorem hostReadTop_steps (a : Nat) (s : State) : Steps Effect.hostRead s (hostReadTop a s) := by
  unfold hostReadTop
  split
  · exact Steps.one (.deliver _) trivial trivial
  split
  · exact counterRead_steps s
  · exact Steps.one (.deliver _) trivial trivial

theorem hostReadCoproc_steps (c : Coproc) (a : Nat) (s : State) : Steps Effect.hostRead s (hostReadCoproc c a s) := by
  unfold hostReadCoproc
  split
  · exact Steps.one (.deliver _) trivial trivial
  split
  · exact Steps.one (.deliver _) trivial trivial
  split
  · exact ((Steps.one (.log (.dspReadMemory ..)) trivial rfl).step (e := .draw) trivial trivial).step
      (e := .deliver _) trivial trivial
  · exact Steps.one (.deliver _) trivial trivial

theorem sectlWrite_steps (v : Word) (s : State) : Steps (Effect.sectl v) s (sectlWrite v s) := by
  unfold sectlWrite
  split
  · exact ((Steps.one .disarm trivial trivial).step (e := .sched .idle) trivial trivial).step (e := .top .sectl v) rfl (TopReg.mem_all _ nofun)
  · exact ((Steps.one .arm trivial trivial).step (e := .sched .scheduled) trivial trivial).step (e := .top .sectl v) rfl (TopReg.mem_all _ nofun)

theorem notifyWrite_does (v : Word) (s : State) : (notifyWrite v s).Does (Effect.notify v) s :=
  Res.Does.bind (memWrite32_does (K := Effect.notify v) trivial rfl (fun _ => trivial) s) fun _ _ =>
    Steps.one (.top .fememdata v) rfl (TopReg.mem_all _ nofun)

theorem hostWriteTop_does (a : Nat) (v : Word) (s : State) (ha : a % 4 = 0) :
    (hostWriteTop a v s).Does (fun e => e.topWrite s.cfg a v) s := by
  unfold hostWriteTop Effect.topWrite
  by_cases hlt : Window.top.size ≤ a
  · rw [if_pos hlt]
    exact Steps.refl
  rw [if_neg hlt]
  by_cases h1 : a = s.cfg.addrOf .ists
  · simp only [if_pos h1]
    exact Steps.one (.ists v) rfl trivial
  simp only [if_neg h1]
  by_cases h2 : a = s.cfg.addrOf .sectl
  · simp only [if_pos h2]
    exact sectlWrite_steps v s
  simp only [if_neg h2]
  by_cases h3 : a = s.cfg.addrOf .fememdata
  · simp only [if_pos h3]
    exact notifyWrite_does v s
  simp only [if_neg h3]
  exact Steps.one (.entry .top a v) rfl ⟨ha, by omega⟩

theorem hostWriteCoproc_does (c : Coproc) (a : Nat) (v : Word) (s : State) (ha : a % 4 = 0) (hw : s.cfg.wf = true) :
    (hostWriteCoproc c a v s).Does (fun e => e.coprocWrite s.cfg c a v) s := by
  unfold hostWriteCoproc Effect.coprocWrite
  by_cases hlt : c.window.size ≤ a
  · rw [if_pos hlt]
    exact Steps.refl
  rw [if_neg hlt]
  by_cases h1 : a = s.cfg.rstAddr c
  · simp only [if_pos h1]
    exact rstWrite_does c v s hw
  simp only [if_neg h1]
  split
  · exact Steps.one (.log (.dspWriteMemory ..)) (.inr ⟨_, _, rfl⟩) rfl
  · exact Steps.one (.entry c.window a v) (.inl rfl) ⟨ha, by omega⟩

theorem topAccess_steps {off : Word} {acc : Access} {s t : State} (h : topAccess off acc s = .next t) :
    Steps (fun e => e.topAccess s.cfg off acc) s t := by
  refine event_all h ?_
  by_cases ha : aligned off = true
  · simp only [ha, if_true]
    cases acc with
    | read => exact hostReadTop_steps ..
    | write v => exact hostWriteTop_does _ _ _ (by simpa [aligned] using ha)
  · simp [ha, Res.All]

theorem coprocAccess_steps {c : Coproc} {off : Word} {acc : Access} {s t : State} (hw : s.cfg.wf = true)
    (h : coprocAccess c off acc s = .next t) : Steps (fun e => e.coprocAccess s.cfg c off acc) s t := by
  refine event_all h ?_
  by_cases ha : aligned off = true
  · simp only [ha, if_true]
    cases acc with
    | read => exact hostReadCoproc_steps ..
    | write v => exact hostWriteCoproc_does _ _ _ _ (by simpa [aligned] using ha) hw
  · simp [ha, Res.All]

/-- A host method submission that has a next state is its operation. -/
theorem hostMethod_all {s t : State} {P : State → Prop} {r : Res Unit} (h : hostMethod s r = .next t) (hr : r.All P) :
    P t := by
  refine event_all h ?_
  split
  · trivial
  · exact hr

/-- What every instruction does: a sequence of the effects that `Effect.mayDo` lists for it. -/
theorem exec_effects {i : Instr} {s t : State} (hw : s.cfg.wf = true) (h : exec i s = .next t) :
    Steps (Effect.mayDo s.cfg i) s t := by
  have voice {op arg : Word} {r : Res Unit} (hr : r.Does Effect.voices (latch op arg s)) :
      r.Does Effect.voiceCommand s :=
    (hr.mono fun _ => Or.inl).after (latch_steps (fun _ => Or.inr) op arg s)
  cases i with
  | setAntecedentVoice arg =>
    exact hostMethod_all h ((latch_steps (K := Effect.mayDo s.cfg (.setAntecedentVoice arg)) (fun _ => Or.inl) ..).step
      (e := .top .feav arg) (.inr ⟨_, rfl⟩) (TopReg.mem_all _ nofun))
  | voiceOn arg => exact hostMethod_all h (voice (voiceOn_does ..))
  | voiceOff arg => exact hostMethod_all h (voice (vset_does ..))
  | voicePause arg => exact hostMethod_all h (voice (vset_does ..))
  | setCurrentVoice arg =>
    exact hostMethod_all h ((latch_steps (K := Effect.mayDo s.cfg (.setCurrentVoice arg)) (fun _ => Or.inl) ..).step
      (e := .top .fecv arg) (.inr ⟨_, rfl⟩) (TopReg.mem_all _ nofun))
  | idleVoiceNotify arg =>
    have hl := latch_steps Effect.notification_of_latches s.cfg.opcode.idleVoiceNotify arg s
    simp only [exec, execIdleVoiceNotify] at h
    split at h
    · exact event_all h ((idleVoiceNotify_does _).after hl)
    · exact hostMethod_all h ((Res.Does.raise (K := Effect.notification) _ trivial).after hl)
  | unknownMethod op arg => exact hostMethod_all h (feDispatch_host_does ..)
  | wIsts v => exact event_all h (Steps.one (.ists v) (K := Effect.mayDo s.cfg (.wIsts v)) rfl trivial)
  | wSectl v => exact event_all h (sectlWrite_steps v s)
  | wFememdata v => exact event_all h (notifyWrite_does v s)
  | rXgscnt => exact event_all h (counterRead_steps s)
  | wTopPlain off v => exact topAccess_steps (off := off) (acc := .write v) h
  | rTopPlain off => exact topAccess_steps (off := off) (acc := .read) h
  | topOutOfRange off acc => exact topAccess_steps h
  | wRst c v => exact event_all h (rstWrite_does c v s hw)
  | wSubwindow c off v => exact coprocAccess_steps (c := c) (off := off) (acc := .write v) hw h
  | rSubwindow c off => exact coprocAccess_steps (c := c) (off := off) (acc := .read) hw h
  | gpepPlain c off acc => exact coprocAccess_steps hw h
  | gpepOutOfRange c off acc => exact coprocAccess_steps hw h
  | methodSubmit acc =>
    cases acc with
    | submit op arg => exact hostMethod_all h (feDispatch_host_does ..)
    | read =>
      exact event_all h ((Steps.one (K := Effect.hostRead) .draw trivial trivial).step (e := .deliver _) trivial trivial)
  | scratchReq c dir off len data =>
    refine event_all h ?_
    split
    · exact scratchRequest_does ..
    · trivial
  | fifoReq c dir k len data =>
    refine event_all h ?_
    split
    · exact fifoRequest_does ..
    · trivial
  | tick =>
    refine event_all h ?_
    split
    · exact frameTick_does s hw
    · trivial
  | reset =>
    cases h
    exact Steps.one .reset rfl trivial

/-! ## Which entries an instruction stores -/

theorem topWrite_entry {cfg : Config} {x a : Nat} {u v : Word} (h : Effect.topWrite cfg x u (.entry .top a v)) :
    x = a ∧ u = v ∧ a ≠ cfg.addrOf .ists ∧ a ≠ cfg.addrOf .sectl ∧ a ≠ cfg.addrOf .fememdata := by
  unfold Effect.topWrite at h
  split at h; · cases h
  split at h; · exact h.elim
  split at h; · exact h.elim
  cases h
  exact ⟨rfl, rfl, by assumption, by assumption, by assumption⟩

theorem tick_entry {w : Window} {a : Nat} {v : Word} : ¬Effect.tick (.entry w a v) := by
  rintro (⟨l, h⟩ | h | h) <;> exact h.elim

theorem coprocWrite_entry {cfg : Config} {c : Coproc} {x a : Nat} {u v : Word} :
    ¬Effect.coprocWrite cfg c x u (.entry .top a v) := by
  unfold Effect.coprocWrite Effect.rstWrite
  cases c <;> simp [Effect.call, Coproc.window]

/-- An entry of the TOP window is stored by a plain write of its offset alone. -/
theorem mayDo_entry {cfg : Config} {i : Instr} {a : Nat} {v : Word} (h : Effect.mayDo cfg i (.entry .top a v)) :
    a ≠ cfg.addrOf .ists ∧ a ≠ cfg.addrOf .sectl ∧ a ≠ cfg.addrOf .fememdata ∧
      ∃ off : Word, off.toNat = a ∧ (i = .wTopPlain off v ∨ i = .topOutOfRange off (.write v)) := by
  cases i with
  | setAntecedentVoice => rcases h with h | ⟨_, h⟩ <;> first | exact h.elim | cases h
  | setCurrentVoice => rcases h with h | ⟨_, h⟩ <;> first | exact h.elim | cases h
  | voiceOn => rcases h with h | h <;> exact h.elim
  | voiceOff => rcases h with h | h <;> exact h.elim
  | voicePause => rcases h with h | h <;> exact h.elim
  | wIsts => cases h
  | wTopPlain off u =>
    obtain ⟨h1, rfl, h2, h3, h4⟩ := topWrite_entry h
    exact ⟨h2, h3, h4, off, h1, .inl rfl⟩
  | topOutOfRange off acc =>
    cases acc with
    | read => exact h.elim
    | write u =>
      obtain ⟨h1, rfl, h2, h3, h4⟩ := topWrite_entry h
      exact ⟨h2, h3, h4, off, h1, .inr rfl⟩
  | wRst c => rcases h with h | h <;> first | exact h.elim | (cases c <;> cases h)
  | wSubwindow => exact (coprocWrite_entry h).elim
  | gpepPlain c off acc => cases acc <;> first | exact h.elim | exact (coprocWrite_entry h).elim
  | gpepOutOfRange c off acc => cases acc <;> first | exact h.elim | exact (coprocWrite_entry h).elim
  | methodSubmit acc => cases acc <;> exact h.elim
  | tick => exact (tick_entry h).elim
  | reset => cases h
  | _ => exact h.elim

theorem sectl_top {u v : Word} {r : TopReg} (h : Effect.sectl u (.top r v)) : r = .sectl := by
  cases r <;> first | exact h.elim | rfl
theorem notify_top {u v : Word} {r : TopReg} (h : Effect.notify u (.top r v)) : r = .fememdata := by
  cases r <;> first | exact h.elim | rfl
theorem call_top {v : Word} {r : TopReg} (h : Effect.call (.top r v)) : ∃ c dir k, r = .fifo c dir k .cur := by
  cases r with
  | fifo c dir k p => cases p <;> first | exact h.elim | exact ⟨_, _, _, rfl⟩
  | _ => exact h.elim
theorem topWrite_top {cfg : Config} {x : Nat} {u v : Word} {r : TopReg} (h : Effect.topWrite cfg x u (.top r v)) :
    r = .sectl ∨ r = .fememdata := by
  unfold Effect.topWrite at h
  split at h; · cases h
  split at h; · exact .inl (sectl_top h)
  split at h; · exact .inr (notify_top h)
  cases h
theorem coprocWrite_top {cfg : Config} {c : Coproc} {x : Nat} {u v : Word} {r : TopReg}
    (h : Effect.coprocWrite cfg c x u (.top r v)) : ∃ c dir k, r = .fifo c dir k .cur := by
  unfold Effect.coprocWrite Effect.rstWrite at h
  split at h
  · rcases h with h | h
    · exact call_top h
    · cases h
  · simp at h

/-- The named registers that an effect of an instruction stores. -/
theorem mayDo_top {cfg : Config} {i : Instr} {r : TopReg} {v : Word} (h : Effect.mayDo cfg i (.top r v)) :
    r ≠ .ists ∧ neverWritten r = false := by
  cases i with
  | setAntecedentVoice => rcases h with h | ⟨_, h⟩ <;> first | (cases h; exact ⟨nofun, rfl⟩) | (cases r <;> first | exact h.elim | exact ⟨nofun, rfl⟩)
  | setCurrentVoice => rcases h with h | ⟨_, h⟩ <;> first | (cases h; exact ⟨nofun, rfl⟩) | (cases r <;> first | exact h.elim | exact ⟨nofun, rfl⟩)
  | voiceOn => rcases h with h | h <;> cases r <;> first | exact h.elim | exact ⟨nofun, rfl⟩
  | voiceOff => rcases h with h | h <;> cases r <;> first | exact h.elim | exact ⟨nofun, rfl⟩
  | voicePause => rcases h with h | h <;> cases r <;> first | exact h.elim | exact ⟨nofun, rfl⟩
  | wIsts => cases h
  | wTopPlain off u => rcases topWrite_top h with rfl | rfl <;> exact ⟨nofun, rfl⟩
  | topOutOfRange off acc =>
    cases acc with
    | read => exact h.elim
    | write u => rcases topWrite_top h with rfl | rfl <;> exact ⟨nofun, rfl⟩
  | wRst c =>
    rcases h with h | h
    · obtain ⟨_, _, _, rfl⟩ := call_top h; exact ⟨nofun, rfl⟩
    · cases h
  | wSubwindow => obtain ⟨_, _, _, rfl⟩ := coprocWrite_top h; exact ⟨nofun, rfl⟩
  | gpepPlain c off acc => 
    cases acc with
    | read => exact h.elim
    | write u => obtain ⟨_, _, _, rfl⟩ := coprocWrite_top h; exact ⟨nofun, rfl⟩
  | gpepOutOfRange c off acc => 
    cases acc with
    | read => exact h.elim
    | write u => obtain ⟨_, _, _, rfl⟩ := coprocWrite_top h; exact ⟨nofun, rfl⟩
  | methodSubmit acc => cases acc <;> cases r <;> first | exact h.elim | exact ⟨nofun, rfl⟩
  | tick => 
    rcases h with ⟨l, h⟩ | h | h
    · cases r <;> first | exact h.elim | exact ⟨nofun, rfl⟩
    · obtain ⟨_, _, _, rfl⟩ := call_top h; exact ⟨nofun, rfl⟩
    · exact h.elim
  | reset => cases h
  | scratchReq | fifoReq => cases r <;> first | exact h.elim | (rename_i p; cases p <;> first | exact h.elim | exact ⟨nofun, rfl⟩)
  | _ => cases r <;> first | exact h.elim | exact ⟨nofun, rfl⟩

end Sys2Proof.Machine
end

