-- ==== Sys2Proof/Laws/Fields.lean ====
section
/-! SUPPORT. Bit fields (rule R7): what a field reads after it, or a field apart from it, has been written. -/

namespace Sys2Proof

theorem ctzFrom_spec (m : Word) : ∀ fuel i, (∀ j < i, m.getLsbD j = false) →
    (∀ j < ctzFrom m fuel i, m.getLsbD j = false) ∧
      (ctzFrom m fuel i < i + fuel → m.getLsbD (ctzFrom m fuel i) = true) := by
  intro fuel
  induction fuel with
  | zero => intro i h; exact ⟨h, fun hlt => absurd hlt (by simp [ctzFrom])⟩
  | succ fuel ih =>
    intro i h
    by_cases hi : m.getLsbD i = true
    · simp only [ctzFrom, hi, if_true]
      exact ⟨h, fun _ => trivial⟩
    · have h' : ∀ j < i + 1, m.getLsbD j = false := by
        intro j hj
        rcases Nat.lt_succ_iff_lt_or_eq.mp hj with hj | rfl
        · exact h j hj
        · simpa using hi
      simp only [ctzFrom, hi]
      have := ih (i + 1) h'
      refine ⟨this.1, fun hlt => this.2 ?_⟩
      have h2 : (if false = true then i else ctzFrom m fuel (i + 1)) = ctzFrom m fuel (i + 1) := rfl
      rw [h2] at hlt
      omega

/-- Below the number of trailing zeros no bit is set. -/
theorem getLsbD_of_lt_ctz {m : Word} {j : Nat} (h : j < ctz m) : m.getLsbD j = false :=
  (ctzFrom_spec m 32 0 (by simp)).1 j h

/-- The bit at the number of trailing zeros of a nonzero mask is set. -/
theorem getLsbD_ctz {m : Word} (h : m ≠ 0#32) : m.getLsbD (ctz m) = true := by
  have hs := ctzFrom_spec m 32 0 (by simp)
  by_cases hlt : ctz m < 32
  · exact hs.2 (by rw [Nat.zero_add]; exact hlt)
  · refine absurd (BitVec.eq_of_getLsbD_eq fun i hi => ?_) h
    rw [getLsbD_of_lt_ctz (by omega)]
    simp

theorem ctz_lt {m : Word} (h : m ≠ 0#32) : ctz m < 32 := by
  by_contra hc
  have := getLsbD_ctz h
  rw [BitVec.getLsbD_of_ge _ _ (by omega)] at this
  exact absurd this (by decide)

/-- A field reads 0 exactly when none of its bits is set. -/
theorem getf_eq_zero_iff (w m : Word) : getf w m = 0#32 ↔ w &&& m = 0#32 := by
  constructor
  · intro h
    refine BitVec.eq_of_getLsbD_eq fun i hi => ?_
    by_cases hm : ctz m ≤ i
    · have := congrArg (fun x => x.getLsbD (i - ctz m)) h
      simp only [getf, BitVec.getLsbD_ushiftRight, BitVec.getLsbD_zero] at this
      rw [show ctz m + (i - ctz m) = i by omega] at this
      simp [this]
    · rw [BitVec.getLsbD_and, getLsbD_of_lt_ctz (by omega : i < ctz m)]
      simp
  · intro h
    simp [getf, h]

/-- Writing a field replaces what it held. -/
theorem setf_and_mask (v m x : Word) : setf v m x &&& m = (x <<< ctz m) &&& m := by
  refine BitVec.eq_of_getLsbD_eq fun i hi => ?_
  simp only [setf, BitVec.getLsbD_and, BitVec.getLsbD_or, BitVec.getLsbD_not, hi, decide_true, Bool.true_and]
  cases v.getLsbD i <;> cases m.getLsbD i <;> simp

/-- Writing a field changes no bit outside its mask. -/
theorem setf_and_not_mask (v m x : Word) : setf v m x &&& ~~~m = v &&& ~~~m := by
  refine BitVec.eq_of_getLsbD_eq fun i hi => ?_
  simp only [setf, BitVec.getLsbD_and, BitVec.getLsbD_or, BitVec.getLsbD_not, hi, decide_true, Bool.true_and]
  cases v.getLsbD i <;> cases m.getLsbD i <;> simp

/-- What a field reads after it was written does not depend on what the word held. -/
theorem getf_setf (v m x : Word) : getf (setf v m x) m = getf (setf 0#32 m x) m := by
  simp only [getf, setf_and_mask]

/-- A field's own value, written, is read back. -/
theorem getf_setf_getf (v m x : Word) : getf (setf v m (getf x m)) m = getf x m := by
  simp only [getf, setf_and_mask]
  refine BitVec.eq_of_getLsbD_eq fun i hi => ?_
  simp only [BitVec.getLsbD_ushiftRight, BitVec.getLsbD_and, BitVec.getLsbD_shiftLeft]
  by_cases hb : ctz m + i < 32
  · simp only [hb, decide_true, Bool.true_and, show ¬ctz m + i < ctz m by omega, decide_false, Bool.not_false]
    rw [show ctz m + (ctz m + i - ctz m) = ctz m + i by omega]
    cases m.getLsbD (ctz m + i) <;> simp
  · have h1 : m.getLsbD (ctz m + i) = false := BitVec.getLsbD_of_ge m _ (by omega)
    simp [h1]

/-- Bits outside the mask of a written field are as before: a mask apart reads the same. -/
theorem setf_and_apart {m m' : Word} (h : m &&& m' = 0#32) (v x : Word) : setf v m x &&& m' = v &&& m' := by
  refine BitVec.eq_of_getLsbD_eq fun i hi => ?_
  have := congrArg (fun y => y.getLsbD i) h
  simp only [BitVec.getLsbD_and, BitVec.getLsbD_zero] at this
  simp only [setf, BitVec.getLsbD_and, BitVec.getLsbD_or, BitVec.getLsbD_not, hi, decide_true, Bool.true_and]
  revert this
  cases v.getLsbD i <;> cases m.getLsbD i <;> cases m'.getLsbD i <;> simp

/-- A field apart from a written one reads the same. -/
theorem getf_setf_apart {m m' : Word} (h : m &&& m' = 0#32) (v x : Word) : getf (setf v m x) m' = getf v m' := by
  simp only [getf, setf_and_apart h]

/-- Writing 0 clears the mask. -/
@[simp] theorem setf_zero (v m : Word) : setf v m 0#32 = v &&& ~~~m := by
  simp [setf]

/-- A flag that was written reads as it was written. -/
theorem getf_setf_flagWord {m : Word} (h : m ≠ 0#32) (v : Word) (b : Bool) :
    (getf (setf v m (flagWord b)) m != 0#32) = b := by
  cases b with
  | false => simp [flagWord, getf, BitVec.and_assoc]
  | true =>
    have hne : ¬(setf v m (flagWord true) &&& m = 0#32) := by
      intro hz
      rw [setf_and_mask] at hz
      have := congrArg (fun y => y.getLsbD (ctz m)) hz
      rw [BitVec.getLsbD_and, getLsbD_ctz h] at this
      simp [flagWord, ctz_lt h] at this
    simpa [getf_eq_zero_iff] using hne

/-- A field written twice holds the second value. -/
theorem setf_setf (v m x y : Word) : setf (setf v m x) m y = setf v m y := by
  refine BitVec.eq_of_getLsbD_eq fun i hi => ?_
  simp only [setf, BitVec.getLsbD_and, BitVec.getLsbD_or, BitVec.getLsbD_not, hi, decide_true, Bool.true_and]
  cases v.getLsbD i <;> cases m.getLsbD i <;> simp

/-- Two fields that are apart may be written in either order. -/
theorem setf_comm {m m' : Word} (h : m &&& m' = 0#32) (v x y : Word) :
    setf (setf v m x) m' y = setf (setf v m' y) m x := by
  refine BitVec.eq_of_getLsbD_eq fun i hi => ?_
  have := congrArg (fun z => z.getLsbD i) h
  simp only [BitVec.getLsbD_and, BitVec.getLsbD_zero] at this
  simp only [setf, BitVec.getLsbD_and, BitVec.getLsbD_or, BitVec.getLsbD_not, hi, decide_true, Bool.true_and]
  revert this
  cases m.getLsbD i <;> cases m'.getLsbD i <;> simp

/-- A handle of 16 bits, written through the 16-bit mask, is read back. -/
theorem getf_setf_handle {x : Word} (h : x.toNat ≤ 0xFFFF) (v : Word) :
    getf (setf v 0x0000FFFF#32 x) 0x0000FFFF#32 = x := by
  have hc : ctz 0x0000FFFF#32 = 0 := by decide
  simp only [getf, setf_and_mask, hc, BitVec.shiftLeft_zero, BitVec.ushiftRight_zero]
  apply BitVec.eq_of_toNat_eq
  rw [BitVec.toNat_and]
  exact (Nat.and_two_pow_sub_one_eq_mod x.toNat 16).trans (Nat.mod_eq_of_lt (by omega))

end Sys2Proof
end

