-- ==== Sys2Proof/Laws/Ops.lean ====
section
/-! SUPPORT. What the shared operations answer: guest-memory words, voice-record words, the interrupt evaluation, the
canonical form of memory, and the registers of a well-formed configuration. -/

namespace Sys2Proof.Machine

/-! ## Memory -/

/-- A store of a word keeps guest memory in canonical form. -/
theorem storeWord_wf {s : State} (h : Memory.wf s.mem = true) (p : Nat) (v : Word) :
    Memory.wf (storeWord p v s).mem = true :=
  Memory.wf_store p _ h

/-- A DMA run keeps guest memory in canonical form. -/
theorem storeRun_wf {s : State} (h : Memory.wf s.mem = true) (p : Nat) (bytes : List Byte) :
    Memory.wf (storeRun p bytes s).mem = true :=
  Memory.wf_store p _ h

/-- Racing stores of the guest CPU keep guest memory in canonical form and inside its size (rules R61, R67). -/
theorem Memory.ok_raced {n : Nat} {m : Memory} (cs : List Host.Cell) (h : Memory.ok n m = true) :
    Memory.ok n (m.raced n cs) = true := by
  induction cs generalizing m with
  | nil => exact h
  | cons c cs ih =>
    refine ih ?_
    split
    · rename_i hc
      simp only [Memory.ok, Bool.and_eq_true] at *
      exact ⟨Cells.wf_put _ _ h.1, Cells.keysIn_put _ (by simpa using hc) h.2⟩
    · exact h

theorem State.race_ok {s : State} (h : Memory.ok s.cfg.ramSize s.mem = true) :
    Memory.ok s.race.cfg.ramSize s.race.mem = true :=
  Memory.ok_raced _ h

/-- Racing stores touch guest memory alone, so they may be taken before or after a register store or a call's record. -/
theorem State.race_setTopReg (s : State) (r : TopReg) (v : Word) : (s.setTopReg r v).race = s.race.setTopReg r v := rfl

theorem State.race_log (s : State) (c : Call) : (s.log c).race = s.race.log c := rfl

/-- Without racing stores an access leaves the state as it is: the premise of rule R67. -/
theorem State.race_of_nil {s : State} (h : s.races = []) : s.race = s := by
  obtain ⟨⟩ := s
  subst h
  rfl

/-- Guest memory is in canonical form at reset. -/
theorem reset_mem_wf : Memory.wf State.reset.mem = true := rfl

/-- A store inside guest memory keeps it in canonical form and inside its size (rule R61). -/
theorem Memory.ok_store {n p : Nat} {m : Memory} {bs : List Byte} (h : Memory.ok n m = true) (hp : p + bs.length ≤ n) :
    Memory.ok n (m.store p bs) = true := by
  simp only [Memory.ok, Bool.and_eq_true] at *
  exact ⟨Memory.wf_store p bs h.1, Memory.keysIn_store (fun i hi => by simp; omega) h.2⟩

theorem memRead32_ok {p : Nat} {s : State} (h : p + 4 ≤ s.cfg.ramSize) :
    memRead32 p s = .ok (s.race.mem.word p) (s.race.log (.readBytes p 4)) :=
  if_pos h

theorem memWrite32_ok {p : Nat} {s : State} (h : p + 4 ≤ s.cfg.ramSize) (v : Word) :
    memWrite32 p v s = .ok () (storeWord p v s.race) :=
  if_pos h

/-- DescRead of a descriptor that can be read (rule R151). -/
theorem descRead_ok {T i : Nat} {s : State} (h : s.descInRam T i = true) :
    descRead T i s = .ok (s.race.mem.word (s.cfg.descAddr T i)) (s.race.log (.readBytes (s.cfg.descAddr T i) 4)) := by
  simp only [State.descInRam, State.inRam, Bool.and_eq_true, decide_eq_true_eq] at h
  rw [descRead, if_pos h.1, memRead32_ok h.2]

/-- DescRead of any other descriptor raises the fault, and no byte is read (rules R151, R157). -/
theorem descRead_out {T i : Nat} {s : State} (h : s.descInRam T i = false) :
    descRead T i s = raise .guestMemoryOutOfRange s := by
  simp only [State.descInRam, State.inRam, Bool.and_eq_false_iff, decide_eq_false_iff_not] at h
  rw [descRead, memRead32]
  split
  · exact if_neg (h.resolve_left (· ‹_›))
  · rfl

/-- An address sum at or above 2^32 is no readable descriptor (rule R157). -/
theorem State.descInRam_of_le {T i : Nat} {s : State} (h : addrLimit ≤ s.cfg.descAddr T i) :
    s.descInRam T i = false := by
  simp only [State.descInRam, Bool.and_eq_false_iff, decide_eq_false_iff_not]
  exact .inl (Nat.not_lt.mpr h)

/-- A run of one byte or more at an address sum at or above 2^32 is out of bounds (rule R157). -/
theorem Config.dmaInBounds_of_le {cfg : Config} {p n : Nat} (hn : 0 < n) (h : addrLimit ≤ p) :
    cfg.dmaInBounds p n = false := by
  simp only [Config.dmaInBounds, Bool.and_eq_false_iff, decide_eq_false_iff_not]
  exact .inl (by omega)

/-! ## Registers -/

/-- Storing one named register leaves every other as it was (rule R24). -/
theorem State.topReg_setTopReg_ne {s : State} (hw : s.cfg.wf = true) {r r' : TopReg} (v : Word) (h : r' ≠ r)
    (hr : r ∈ TopReg.all := by decide) (hr' : r' ∈ TopReg.all := by decide) :
    (s.setTopReg r v).topReg r' = s.topReg r' :=
  State.topReg_setTopReg_of_ne (fun he => h (Config.addrOf_inj hw hr' hr he)) v

/-- A store of an entry at an in-range multiple of 4 keeps the banks in canonical form (rules R20 to R22). -/
theorem Bank.ok_setReg {s : State} (h : ∀ w, Bank.ok w (s.bank w) = true) {w : Window} {a : Nat} (v : Word)
    (ha : a % 4 = 0 ∧ a < w.size) : ∀ w', Bank.ok w' ((s.setReg w a v).bank w') = true := by
  intro w'
  rw [State.setReg, State.bank_setBank]
  split
  · subst_vars
    have := h w'
    simp only [Bank.ok, Bool.and_eq_true] at *
    exact ⟨Cells.wf_put a v this.1, Cells.keysIn_put v (by simp [ha]) this.2⟩
  · exact h w'

/-- After the interrupt evaluation ISTS.G shows the line's level, whatever it showed before (rules R125, R306). -/
theorem updateIrq_line {s : State} (hw : s.cfg.wf = true) :
    ((updateIrq s).topReg .ists &&& (updateIrq s).cfg.field.istsGlobal) != 0#32 ↔ (updateIrq s).irqLine = true := by
  have hm := (Config.masks hw).global_ne
  simp only [updateIrq, State.driveIrq_topReg, State.topReg_setTopReg_self, Config.istsAfterIrq, State.driveIrq_cfg,
    State.setTopReg_cfg, State.driveIrq_irqLine]
  generalize s.cfg.irqPending _ _ = b
  generalize s.cfg.field.istsGlobal = g at *
  cases b
  · simp only [Bool.false_eq_true, if_false]
    rw [BitVec.and_assoc]
    simp
  · simp only [if_true]
    have : (s.topReg .ists ||| g) &&& g = g := by
      refine BitVec.eq_of_getLsbD_eq fun i hi => ?_
      simp only [BitVec.getLsbD_and, BitVec.getLsbD_or]
      cases (s.topReg .ists).getLsbD i <;> cases g.getLsbD i <;> rfl
    rw [this]
    simpa using hm

/-! ## Voice records -/

theorem checkHandle_ok {h : Word} {s : State} (hv : validHandle h = true) : checkHandle h s = .ok () s :=
  if_pos (of_decide_eq_true hv)

theorem checkHandle_invalid {h : Word} {s : State} (hv : validHandle h = false) :
    checkHandle h s = raise .invalidVoiceHandle s :=
  if_neg (of_decide_eq_false hv)

/-- VGet of a valid voice whose word is in guest memory (rule R201). -/
theorem vget_ok {h mask : Word} {off : Nat} {s : State} (hv : validHandle h = true)
    (hr : s.inRam (s.voiceWord h off) = true) :
    vget h off mask s =
      .ok (getf (s.race.mem.word (s.voiceWord h off)) mask) (s.race.log (.readBytes (s.voiceWord h off) 4)) := by
  simp only [vget, checkHandle_ok hv, Res.bind, memRead32_ok (of_decide_eq_true hr)]

/-- VSet of a valid voice whose word is in guest memory: a read and a write of that word, and the guest CPU may store
before either, so a store to the same word between the two is lost (rules R67, R74, R202). -/
theorem vset_ok {h mask : Word} {off : Nat} {s : State} (hv : validHandle h = true)
    (hr : s.inRam (s.voiceWord h off) = true) (x : Word) :
    vset h off mask x s = .ok () (storeWord (s.voiceWord h off) (setf (s.race.mem.word (s.voiceWord h off)) mask x)
      (s.race.log (.readBytes (s.voiceWord h off) 4)).race) := by
  have hr' : s.voiceWord h off + 4 ≤ s.cfg.ramSize := of_decide_eq_true hr
  simp only [vset, checkHandle_ok hv, Res.bind, memRead32_ok hr']
  exact memWrite32_ok (s := s.race.log _) hr' _

theorem vget_invalid {h mask : Word} {off : Nat} {s : State} (hv : validHandle h = false) :
    vget h off mask s = raise .invalidVoiceHandle s := by
  simp only [vget, checkHandle_invalid hv, raise, Res.bind]

theorem vset_invalid {h mask : Word} {off : Nat} {s : State} (hv : validHandle h = false) (x : Word) :
    vset h off mask x s = raise .invalidVoiceHandle s := by
  simp only [vset, checkHandle_invalid hv, raise, Res.bind]

/-- Two voices' records do not overlap: a word in the record of one is apart from a word in the record of the other
(rule R200). -/
theorem State.voiceWord_apart (s : State) {a b : Word} {i j : Nat} (h : a ≠ b) (hi : i + 4 ≤ voiceRecordSize)
    (hj : j + 4 ≤ voiceRecordSize) :
    s.voiceWord a i + 4 ≤ s.voiceWord b j ∨ s.voiceWord b j + 4 ≤ s.voiceWord a i := by
  have hne : a.toNat ≠ b.toNat := fun he => h (BitVec.eq_of_toNat_eq he)
  simp only [State.voiceWord, voiceRecord, voiceRecordSize] at *
  omega

end Sys2Proof.Machine
end

