-- ==== Sys2Proof/Laws/PerInstr.lean ====
section
/-! SUPPORT. What holds of every instruction's packet, one lemma per constructor: a key, a form word that the decoder
reads as a form, a value word, and one word per data byte (log 1). -/

namespace Sys2Proof.Laws

/-- The data bytes that an instruction's packet carries (rule R97). -/
def EncodeShape.data : Instr → List Byte
  | .scratchReq _ _ _ _ data => data
  | .fifoReq _ _ _ _ data => data
  | _ => []

/-- The packet is a key, the word of a form that the decoder reads back, a value word, and the data bytes. -/
def EncodeShape.Statement (i : Instr) : Prop :=
  ∀ cfg, ∃ key f v, encode cfg i = [key, Form.word f, v] ++ (EncodeShape.data i).map (BitVec.setWidth 32) ∧
    Form.ofWord f.word = some f

theorem EncodeShape.setAntecedentVoice (arg : Word) : EncodeShape.Statement (.setAntecedentVoice arg) := fun _ =>
  ⟨_, _, _, rfl, Form.ofWord_word _ (Nat.le_of_ble_eq_true rfl)⟩

theorem EncodeShape.voiceOn (arg : Word) : EncodeShape.Statement (.voiceOn arg) := fun _ =>
  ⟨_, _, _, rfl, Form.ofWord_word _ (Nat.le_of_ble_eq_true rfl)⟩

theorem EncodeShape.voiceOff (arg : Word) : EncodeShape.Statement (.voiceOff arg) := fun _ =>
  ⟨_, _, _, rfl, Form.ofWord_word _ (Nat.le_of_ble_eq_true rfl)⟩

theorem EncodeShape.voicePause (arg : Word) : EncodeShape.Statement (.voicePause arg) := fun _ =>
  ⟨_, _, _, rfl, Form.ofWord_word _ (Nat.le_of_ble_eq_true rfl)⟩

theorem EncodeShape.setCurrentVoice (arg : Word) : EncodeShape.Statement (.setCurrentVoice arg) := fun _ =>
  ⟨_, _, _, rfl, Form.ofWord_word _ (Nat.le_of_ble_eq_true rfl)⟩

theorem EncodeShape.idleVoiceNotify (arg : Word) : EncodeShape.Statement (.idleVoiceNotify arg) := fun _ =>
  ⟨_, _, _, rfl, Form.ofWord_word _ (Nat.le_of_ble_eq_true rfl)⟩

theorem EncodeShape.unknownMethod (op : Word) (arg : Word) : EncodeShape.Statement (.unknownMethod op arg) := fun _ =>
  ⟨_, _, _, rfl, Form.ofWord_word _ (Nat.le_of_ble_eq_true rfl)⟩

theorem EncodeShape.wIsts (v : Word) : EncodeShape.Statement (.wIsts v) := fun _ =>
  ⟨_, _, _, rfl, Form.ofWord_word _ (Nat.le_of_ble_eq_true rfl)⟩

theorem EncodeShape.wSectl (v : Word) : EncodeShape.Statement (.wSectl v) := fun _ =>
  ⟨_, _, _, rfl, Form.ofWord_word _ (Nat.le_of_ble_eq_true rfl)⟩

theorem EncodeShape.wFememdata (v : Word) : EncodeShape.Statement (.wFememdata v) := fun _ =>
  ⟨_, _, _, rfl, Form.ofWord_word _ (Nat.le_of_ble_eq_true rfl)⟩

theorem EncodeShape.rXgscnt : EncodeShape.Statement (.rXgscnt) := fun _ =>
  ⟨_, _, _, rfl, Form.ofWord_word _ (Nat.le_of_ble_eq_true rfl)⟩

theorem EncodeShape.wTopPlain (off : Word) (v : Word) : EncodeShape.Statement (.wTopPlain off v) := fun _ =>
  ⟨_, _, _, rfl, Form.ofWord_word _ (Nat.le_of_ble_eq_true rfl)⟩

theorem EncodeShape.rTopPlain (off : Word) : EncodeShape.Statement (.rTopPlain off) := fun _ =>
  ⟨_, _, _, rfl, Form.ofWord_word _ (Nat.le_of_ble_eq_true rfl)⟩

theorem EncodeShape.topOutOfRange (off : Word) (acc : Access) : EncodeShape.Statement (.topOutOfRange off acc) := fun _ =>
  ⟨_, _, _, rfl, Form.ofWord_word _ (Nat.le_of_ble_eq_true rfl)⟩

theorem EncodeShape.wRst (c : Coproc) (v : Word) : EncodeShape.Statement (.wRst c v) := fun _ =>
  ⟨_, _, _, rfl, Form.ofWord_word _ (Nat.le_of_ble_eq_true rfl)⟩

theorem EncodeShape.wSubwindow (c : Coproc) (off : Word) (v : Word) : EncodeShape.Statement (.wSubwindow c off v) := fun _ =>
  ⟨_, _, _, rfl, Form.ofWord_word _ (Nat.le_of_ble_eq_true rfl)⟩

theorem EncodeShape.rSubwindow (c : Coproc) (off : Word) : EncodeShape.Statement (.rSubwindow c off) := fun _ =>
  ⟨_, _, _, rfl, Form.ofWord_word _ (Nat.le_of_ble_eq_true rfl)⟩

theorem EncodeShape.gpepPlain (c : Coproc) (off : Word) (acc : Access) : EncodeShape.Statement (.gpepPlain c off acc) := fun _ =>
  ⟨_, _, _, rfl, Form.ofWord_word _ (Nat.le_of_ble_eq_true rfl)⟩

theorem EncodeShape.gpepOutOfRange (c : Coproc) (off : Word) (acc : Access) : EncodeShape.Statement (.gpepOutOfRange c off acc) := fun _ =>
  ⟨_, _, _, rfl, Form.ofWord_word _ (Nat.le_of_ble_eq_true rfl)⟩

theorem EncodeShape.methodSubmit (acc : PortAccess) : EncodeShape.Statement (.methodSubmit acc) := by
  intro cfg
  cases acc <;> exact ⟨_, _, _, rfl, Form.ofWord_word _ (Nat.le_of_ble_eq_true rfl)⟩

theorem EncodeShape.scratchReq (c : Coproc) (dir : Dir) (off : Word) (len : Nat) (data : List Byte) : EncodeShape.Statement (.scratchReq c dir off len data) := fun _ =>
  ⟨_, _, _, rfl, Form.ofWord_word _ (Nat.le_of_ble_eq_true rfl)⟩

theorem EncodeShape.fifoReq (c : Coproc) (dir : Dir) (k : Nat) (len : Nat) (data : List Byte) : EncodeShape.Statement (.fifoReq c dir k len data) := fun _ =>
  ⟨_, _, _, rfl, Form.ofWord_word _ (Nat.le_of_ble_eq_true rfl)⟩

theorem EncodeShape.tick : EncodeShape.Statement (.tick) := fun _ =>
  ⟨_, _, _, rfl, Form.ofWord_word _ (Nat.le_of_ble_eq_true rfl)⟩

theorem EncodeShape.reset : EncodeShape.Statement (.reset) := fun _ =>
  ⟨_, _, _, rfl, Form.ofWord_word _ (Nat.le_of_ble_eq_true rfl)⟩

end Sys2Proof.Laws
end

