-- ==== Sys2Proof/Laws/Requests.lean ====
section
/-! SUPPORT. DSP requests: a request that completes leaves the device as live as it was and inside the same call, one that
does not ends it; so a call into a DSP core runs its requests exactly as the relations `served` and `callEnds` say
(rules R273, R302). -/

namespace Sys2Proof.Machine

/-- The operation goes on with the fault, the hang and the call in progress as they were, or ends the device. -/
def Res.Ends {α : Type} (s : State) : Res α → Prop
  | .ok _ t => t.fault = s.fault ∧ t.hung = s.hung ∧ t.inCall = s.inCall
  | .halted t => t.live = false
  | .refused _ => True

theorem Res.Ends.bind {α β : Type} {s : State} {r : Res α} {k : α → State → Res β} (hr : r.Ends s)
    (hk : ∀ a t, (k a t).Ends t) : (r.bind k).Ends s := by
  cases r with
  | ok a t =>
    obtain ⟨h1, h2, h3⟩ := hr
    have h := hk a t
    cases hkt : k a t with
    | ok b u =>
      rw [hkt] at h
      simp only [Res.bind, hkt]
      exact ⟨h.1.trans h1, h.2.1.trans h2, h.2.2.trans h3⟩
    | halted u =>
      rw [hkt] at h
      simp only [Res.bind, hkt]
      exact h
    | refused e => simp only [Res.bind, hkt]; trivial
  | halted t => exact hr
  | refused e => trivial

theorem Res.Ends.of_same {α : Type} {s t : State} {r : Res α} (h : r.Ends t) (h1 : t.fault = s.fault)
    (h2 : t.hung = s.hung) (h3 : t.inCall = s.inCall) : r.Ends s := by
  cases r with
  | ok a u => exact ⟨h.1.trans h1, h.2.1.trans h2, h.2.2.trans h3⟩
  | halted u => exact h
  | refused e => trivial

theorem raise_ends {α : Type} (e : FaultCode) (s : State) : (raise e s : Res α).Ends s := by
  simp [raise, Res.Ends, State.live]

theorem hang_ends {α : Type} (s : State) : (hang s : Res α).Ends s := by
  simp [hang, Res.Ends, State.live]

theorem memRead32_ends (p : Nat) (s : State) : (memRead32 p s).Ends s := by
  unfold memRead32
  split
  · exact ⟨rfl, rfl, rfl⟩
  · exact raise_ends ..

theorem descRead_ends (T i : Nat) (s : State) : (descRead T i s).Ends s := by
  unfold descRead
  split
  · exact memRead32_ends ..
  · exact raise_ends ..

theorem sgLoop_ends (dir : Dir) (T M : Nat) : ∀ fuel idx off rem buf s,
    (sgLoop dir T M fuel idx off rem buf s).Ends s := by
  intro fuel
  induction fuel with
  | zero =>
    intro idx off rem buf s
    cases rem with
    | zero => exact ⟨rfl, rfl, rfl⟩
    | succ rem => exact hang_ends s
  | succ fuel ih =>
    intro idx off rem buf s
    cases rem with
    | zero => exact ⟨rfl, rfl, rfl⟩
    | succ rem =>
      unfold sgLoop
      split
      · exact raise_ends ..
      · refine (descRead_ends ..).bind fun base t => ?_
        dsimp only
        split
        · cases dir with
          | toGuest => exact (ih ..).of_same rfl rfl rfl
          | fromGuest => exact (ih ..).of_same rfl rfl rfl
        · exact raise_ends ..

theorem circLoop_ends (dir : Dir) (T M base stop : Nat) : ∀ fuel cur rem buf s,
    (circLoop dir T M base stop fuel cur rem buf s).Ends s := by
  intro fuel
  induction fuel with
  | zero =>
    intro cur rem buf s
    cases rem with
    | zero => exact ⟨rfl, rfl, rfl⟩
    | succ rem => exact hang_ends s
  | succ fuel ih =>
    intro cur rem buf s
    cases rem with
    | zero => exact ⟨rfl, rfl, rfl⟩
    | succ rem =>
      unfold circLoop
      split
      · exact (sgLoop_ends ..).bind fun _ _ => ih ..
      · exact raise_ends ..

/-- A request completes on a device as live as it was, or ends the device (rules R273, R302). -/
theorem serveRequest_ends (c : Coproc) (s : State) (q : DspReq) : (serveRequest c s q).Ends s := by
  have back (dir : Dir) (bytes : List Byte) (t u : State) (h1 : u.fault = t.fault) (h2 : u.hung = t.hung)
      (h3 : u.inCall = t.inCall) : (Res.ok () (returnBytes c dir bytes u)).Ends t := by
    cases dir <;> exact ⟨h1, h2, h3⟩
  cases q with
  | scratch dir o len data =>
    show (scratchRequest c dir o len data s).Ends s
    unfold scratchRequest
    split
    · exact (sgLoop_ends ..).bind fun _ t => back _ _ t t rfl rfl rfl
    · trivial
  | fifo dir k len data =>
    show (fifoRequest c dir k len data s).Ends s
    unfold fifoRequest
    split
    · split
      · exact raise_ends ..
      split
      · exact (circLoop_ends ..).bind fun r t => back _ _ t _ rfl rfl rfl
      · exact raise_ends ..
    · trivial

/-- Inside a call, a request as an instruction is the request. -/
theorem exec_requestInstr {c : Coproc} {s : State} (q : DspReq) (h : s.live = true) (hc : s.inCall = some c) :
    exec (requestInstr c q) s = (serveRequest c s q).outcome := by
  cases q <;> simp [requestInstr, exec, execScratchReq, execFifoReq, requestEvent, event_live h, hc]

/-- The requests of a call do what `served` says. -/
theorem serveRequests_of_served {c : Coproc} : ∀ {qs : List DspReq} {s t : State}, s.live = true →
    s.inCall = some c → served c qs s t → serveRequests c qs s = if t.live then .ok () t else .halted t := by
  intro qs
  induction qs with
  | nil =>
    intro s t hl _ h
    cases h
    simp [serveRequests, hl]
  | cons q qs ih =>
    rintro s t hl hc ⟨u, hu, hr⟩
    rw [exec_requestInstr q hl hc] at hu
    have he := serveRequest_ends c s q
    cases hq : serveRequest c s q with
    | ok a v =>
      rw [hq] at hu he
      cases hu
      have hv : u.live = true := by simpa [State.live, he.1, he.2.1] using hl
      simp only [serveRequests, hq, Res.bind]
      exact ih hv (he.2.2.trans hc) (by simpa [hv] using hr)
    | halted v =>
      rw [hq] at hu he
      cases hu
      have hd : u.live = false := he
      obtain rfl : t = u := by simpa [hd] using hr
      simp [serveRequests, hq, Res.bind, hd]
    | refused e =>
      rw [hq] at hu
      cases hu

/-- A call into a DSP core does what `callEnds` says: it goes on in that state, or ends the calling event in it. -/
theorem dspCall_of_callEnds {c : Coproc} {call : Call} {s t : State} (hl : s.live = true) (h : callEnds c call s t) :
    dspCall c call s = if t.live then .ok () t else .halted t := by
  obtain ⟨u, hu, rfl⟩ := h
  have hs : serveRequests c s.nextAnswer (((s.log call).takeAnswer).setInCall (some c)) =
      if u.live then .ok () u else .halted u :=
    serveRequests_of_served hl rfl hu
  have hlv : ({ u with inCall := none } : State).live = u.live := rfl
  unfold dspCall
  rw [hs, hlv]
  cases u.live <;> rfl

end Sys2Proof.Machine
end

