-- ==== Sys2Proof/Tests/Slice0.lean ====
section
/-! SUPPORT. Small tests: ill-formed terms, words written out from the spec's encodings, single events from the vectors
of 95_test_vectors.md (named in each docstring), and a witness for the hypotheses of every statement. -/

namespace Sys2Proof.Tests

open Sys2Proof.Machine

/-! ## Ill-formed instructions and configurations -/

theorem test_wf_default : Config.default.wf = true := by decide +kernel

/-- One ill-formed term for each check of `Instr.wf`. -/
theorem test_wf_unknownMethod : (Instr.unknownMethod 0x120#32 0#32).wf .default = false := by decide
theorem test_wf_wTopPlain :
    [0x1000#32, 0x2000#32, 0x1334#32, 0x1002#32, 0x20000#32].all (fun off => !(Instr.wTopPlain off 0#32).wf .default) =
      true := by decide
theorem test_wf_rTopPlain :
    [0x200C#32, 0x1001#32, 0x20000#32].all (fun off => !(Instr.rTopPlain off).wf .default) = true := by decide
theorem test_wf_topOutOfRange :
    [0x1FFFC#32, 0x20002#32].all (fun off => !(Instr.topOutOfRange off .read).wf .default) = true := by decide
theorem test_wf_wSubwindow :
    [0xFFFC#32, 0x4000#32, 0x5002#32, 0x10000#32].all (fun off => !(Instr.wSubwindow .gp off 0#32).wf .default) =
      true := by decide
theorem test_wf_rSubwindow :
    [0xFFFC#32, 0x4000#32, 0x5002#32, 0x10000#32].all (fun off => !(Instr.rSubwindow .ep off).wf .default) = true := by
  decide
theorem test_wf_gpepPlain :
    [0x5000#32, 0xFFFC#32, 0x4002#32, 0x10000#32].all (fun off => !(Instr.gpepPlain .gp off (.write 0#32)).wf .default) &&
      [0x5000#32, 0x4002#32, 0x10000#32].all (fun off => !(Instr.gpepPlain .gp off .read).wf .default) = true := by
  decide
theorem test_wf_gpepOutOfRange :
    [0xFFFC#32, 0x10001#32].all (fun off => !(Instr.gpepOutOfRange .ep off .read).wf .default) = true := by decide
theorem test_wf_scratchReq :
    (Instr.scratchReq .gp .toGuest 0#32 2 [0#8]).wf .default = false ∧
      (Instr.scratchReq .gp .fromGuest 0#32 1 [0#8]).wf .default = false ∧
      (Instr.scratchReq .gp .fromGuest 0#32 0x100000000 []).wf .default = false := by decide
theorem test_wf_fifoReq :
    (Instr.fifoReq .ep .toGuest 0 2 [0#8]).wf .default = false ∧
      (Instr.fifoReq .ep .fromGuest 0 1 [0#8]).wf .default = false ∧
      (Instr.fifoReq .ep .fromGuest 0x100000000 0 []).wf .default = false ∧
      (Instr.fifoReq .ep .fromGuest 0 0x100000000 []).wf .default = false := by decide

/-- One ill-formed configuration for each check of `Config.wf`. -/
theorem test_wf_pageSize : ({ Config.default with pageSize := 3 }).wf = false := by decide +kernel
theorem test_wf_addresses :
    [({ AddrMap.default with ien := 0x1000 } : AddrMap), { AddrMap.default with ien := 0x1002 },
      { AddrMap.default with ien := 0x20000 }, { AddrMap.default with gprst := 0x10000 },
      { AddrMap.default with eprst := 2 }].all (fun m => !({ Config.default with addr := m }).wf) = true := by
  decide +kernel
theorem test_wf_masks :
    [({ FieldMap.default with istsFe := 0#32 } : FieldMap), { FieldMap.default with istsFe := 1#32 },
      { FieldMap.default with fectlReason := 0xE0#32 }, { FieldMap.default with feavList := 0x18000#32 },
      { FieldMap.default with rstDsprst := 1#32 }, { FieldMap.default with rstNmi := 1#32 },
      { FieldMap.default with rstAbort := 1#32 }, { FieldMap.default with rstNmi := 2#32 },
      { FieldMap.default with rstAbort := 2#32 }, { FieldMap.default with rstAbort := 4#32 },
      { FieldMap.default with argPauseAction := 1#32 }].all
      (fun f => !f.masksOk) = true := by decide +kernel
theorem test_wf_values :
    [({ FieldMap.default with modeTrapped := 8#32 } : FieldMap), { FieldMap.default with reasonRequested := 16#32 },
      { FieldMap.default with xcntmodeOff := 4#32 }, { FieldMap.default with feavList := 0x70000#32 },
      { FieldMap.default with listMp := 4#32 }, { FieldMap.default with listMp := 2#32 }].all
      (fun f => !f.valuesOk) = true := by decide +kernel
theorem test_wf_opcodes : ({ OpcodeMap.default with voiceOff := 0x124#32 }).ok = false := by decide
theorem test_wf_voiceLayout :
    [({ VoiceLayout.default with activeMask := 0#32 } : VoiceLayout), { VoiceLayout.default with pausedMask := 0#32 },
      { VoiceLayout.default with linkMask := 0#32 }, { VoiceLayout.default with pausedMask := 0x00200000#32 },
      { VoiceLayout.default with stateOff := 0x7D }, { VoiceLayout.default with linkOff := 0x7D },
      { VoiceLayout.default with stateOff := 0x7A },
      { VoiceLayout.default with stateOff := 0x7C, linkMask := 0x00200000#32 },
      { VoiceLayout.default with stateOff := 0x7C, linkMask := 0x00040000#32 }].all (fun v => !v.ok) = true := by decide
theorem test_wf_subwindows :
    [(⟨.gp, 0, 0xFFFE, .x, .word 0⟩ : SubWindow), ⟨.gp, 2, 8, .x, .word 0⟩, ⟨.gp, 0, 0x10004, .x, .word 0⟩,
      ⟨.gp, 0xFFF8, 0x10000, .x, .word 0⟩].all (fun w => !w.ok .default) = true ∧
    subwindowsApart [⟨.gp, 0, 8, .x, .word 0⟩, ⟨.gp, 4, 12, .y, .word 0⟩] = false ∧
    SubWindow.mixbufOk ⟨.gp, 0x5000, 0x6000, .y, .mixbuf⟩ = false ∧
    subwindowTableOk (SubWindow.defaultsFor .gp) = false := by decide
theorem test_wf_mmio :
    [({ MmioLayout.default with vpBase := 1 } : MmioLayout), { MmioLayout.default with topBase := 2 },
      { MmioLayout.default with gpBase := 3 }, { MmioLayout.default with epBase := 5 }].all (fun m => !m.ok) = true := by
  decide

/-! ## Decoding: words written out from 30_encoding.md and the opcode table -/

/-- What the decoder reads from a packet, with the default configuration. -/
def reads (p : List Word) : Option Instr := (decode .default p).toOption

/-- Why the decoder refuses a packet. -/
def refuses (p : List Word) : Option DecodeError :=
  match decode .default p with
  | .error e => some e
  | .ok _ => none

/-- Rule R91: the opcodes 0x120, 0x124, 0x128, 0x140, 0x2F8 and 0x8000; rule R90: (opcode, argument). -/
theorem test_decode_setAntecedentVoice :
    reads [0b100100000#32, 1#32, 0x00012345#32] = some (.setAntecedentVoice 0x00012345#32) := by decide
theorem test_decode_voiceOn : reads [0b100100100#32, 1#32, 0x00050001#32] = some (.voiceOn 0x00050001#32) := by decide
theorem test_decode_voiceOff : reads [0b100101000#32, 1#32, 3#32] = some (.voiceOff 3#32) := by decide
theorem test_decode_voicePause :
    reads [0b101000000#32, 1#32, 0x00040002#32] = some (.voicePause 0x00040002#32) := by decide
theorem test_decode_setCurrentVoice : reads [0b1011111000#32, 1#32, 7#32] = some (.setCurrentVoice 7#32) := by decide
theorem test_decode_idleVoiceNotify :
    reads [0b1000000000000000#32, 1#32, 9#32] = some (.idleVoiceNotify 9#32) := by decide
theorem test_decode_unknownMethod :
    reads [0b100110011001#32, 1#32, 0x42#32] = some (.unknownMethod 0x999#32 0x42#32) := by decide
/-- Rule R24: ISTS at 0x1000, SECTL at 0x2000, FEMEMDATA at 0x1334, XGSCNT at 0x200C; rule R96: window and width. -/
theorem test_decode_wIsts : reads [0b1000000000000#32, 0x00200003#32, 0x10#32] = some (.wIsts 0x10#32) := by decide
theorem test_decode_wSectl : reads [0b10000000000000#32, 0x00200003#32, 8#32] = some (.wSectl 8#32) := by decide
theorem test_decode_wFememdata :
    reads [0b1001100110100#32, 0x00200003#32, 0xCAFEF00D#32] = some (.wFememdata 0xCAFEF00D#32) := by decide
theorem test_decode_rXgscnt : reads [0b10000000001100#32, 0x00200203#32, 0#32] = some .rXgscnt := by decide
theorem test_decode_wTopPlain :
    reads [0b1000000000100#32, 0x00200003#32, 0x10#32] = some (.wTopPlain 0x1004#32 0x10#32) ∧
      reads [0x200C#32, 0x00200003#32, 5#32] = some (.wTopPlain 0x200C#32 5#32) ∧
      reads [0x1FFFC#32, 0x00200003#32, 5#32] = some (.wTopPlain 0x1FFFC#32 5#32) := by decide
theorem test_decode_rTopPlain :
    reads [0b1000000000000#32, 0x00200203#32, 0#32] = some (.rTopPlain 0x1000#32) ∧
      reads [0x1FFFC#32, 0x00200203#32, 0#32] = some (.rTopPlain 0x1FFFC#32) := by decide
theorem test_decode_topOutOfRange :
    reads [0x20000#32, 0x00200003#32, 5#32] = some (.topOutOfRange 0x20000#32 (.write 5#32)) ∧
      reads [0x20000#32, 0x00200203#32, 0#32] = some (.topOutOfRange 0x20000#32 .read) := by decide
/-- Rule R39: the reset registers at 0xFFFC; rule R48: the sub-windows; EP is bit 8 of the form word. -/
theorem test_decode_wRst :
    reads [0b1111111111111100#32, 0x00200004#32, 3#32] = some (.wRst .gp 3#32) ∧
      reads [0b1111111111111100#32, 0x00200104#32, 1#32] = some (.wRst .ep 1#32) := by decide
theorem test_decode_wSubwindow :
    reads [0b1010000000000000#32, 0x00200004#32, 0x0C0040#32] = some (.wSubwindow .gp 0xA000#32 0x0C0040#32) ∧
      reads [0x3FFC#32, 0x00200104#32, 9#32] = some (.wSubwindow .ep 0x3FFC#32 9#32) := by decide
theorem test_decode_rSubwindow :
    reads [0b101000000000100#32, 0x00200204#32, 0#32] = some (.rSubwindow .gp 0x5004#32) := by decide
theorem test_decode_gpepPlain :
    reads [0b100000000000000#32, 0x00200004#32, 7#32] = some (.gpepPlain .gp 0x4000#32 (.write 7#32)) ∧
      reads [0xFFFC#32, 0x00200304#32, 0#32] = some (.gpepPlain .ep 0xFFFC#32 .read) := by decide
theorem test_decode_gpepOutOfRange :
    reads [0x10000#32, 0x00200204#32, 0#32] = some (.gpepOutOfRange .gp 0x10000#32 .read) ∧
      reads [0x10000#32, 0x00200104#32, 1#32] = some (.gpepOutOfRange .ep 0x10000#32 (.write 1#32)) := by decide
/-- Rules R92, R133, R134: the method port, by its form and at an address of the device's MMIO region. -/
theorem test_decode_methodSubmit :
    reads [0x124#32, 2#32, 1#32] = some (.methodSubmit (.submit 0x124#32 1#32)) ∧
      reads [0#32, 0x202#32, 0#32] = some (.methodSubmit .read) ∧
      reads [0x20124#32, 0x00200009#32, 1#32] = some (.methodSubmit (.submit 0x124#32 1#32)) ∧
      reads [0x20010#32, 0x00200209#32, 0#32] = some (.methodSubmit .read) := by decide
/-- Rule R97: (coprocessor, direction, offset or channel, length, data). -/
theorem test_decode_scratchReq :
    reads [0x1800#32, 0x205#32, 4#32] = some (.scratchReq .gp .fromGuest 0x1800#32 4 []) ∧
      reads [0xFF0#32, 0x105#32, 2#32, 0xAB#32, 0xFF#32] =
        some (.scratchReq .ep .toGuest 0xFF0#32 2 [0xAB#8, 0xFF#8]) := by decide
theorem test_decode_fifoReq :
    reads [1#32, 0x206#32, 8#32] = some (.fifoReq .gp .fromGuest 1 8 []) ∧
      reads [3#32, 0x106#32, 1#32, 0xAA#32] = some (.fifoReq .ep .toGuest 3 1 [0xAA#8]) := by decide
theorem test_decode_events : reads [0#32, 7#32, 0#32] = some .tick ∧ reads [0#32, 8#32, 0#32] = some .reset := by decide
/-- Rules R63, R305 (vector RB27), and the packets that log 1 refuses. -/
theorem test_decode_refusals :
    refuses [0x1000#32, 0x00100003#32, 0#32] = some .unsupportedAccess ∧
      refuses [0x1002#32, 0x00200003#32, 0#32] = some .unsupportedAccess ∧
      refuses [0#32, 0x5#32, 2#32, 1#32] = some .requestDataLength ∧
      refuses [0#32, 0xB#32, 0#32] = some .unknownForm ∧ refuses [0#32, 0x107#32, 0#32] = some .unknownForm ∧
      refuses [0#32, 7#32] = some .badLength ∧ refuses [0#32, 7#32, 0#32, 0#32] = some .badLength ∧
      refuses [1#32, 7#32, 0#32] = some .unusedWordSet ∧
      refuses [0#32, 0x5#32, 1#32, 0x100#32] = some .badDataByte ∧
      refuses [0x1000000#32, 0x00200009#32, 0#32] = some .noWindow := by decide

/-- The rows of the opcode table with a match word (the host asks about these). -/
theorem test_table_words :
    decodeTableWord 32 0x124 = some (.voiceOn 0#32) ∧ decodeTableWord 32 0x140 = some (.voicePause 0#32) ∧
      decodeTableWord 32 0x2F8 = some (.setCurrentVoice 0#32) ∧ decodeTableWord 32 0x2000 = some (.wSectl 0#32) ∧
      decodeTableWord 32 0x1334 = some (.wFememdata 0#32) := by decide

/-! ## Single events -/

/-- The state after an instruction, if it has one. -/
def after (i : Instr) (s : State) : Option State :=
  match exec i s with
  | .next t => some t
  | _ => none

/-- The refusal of an instruction, if it has one. -/
def refusal (i : Instr) (s : State) : Option Refusal :=
  match exec i s with
  | .refused r => some r
  | _ => none

/-- What `f` reads of the state after an instruction is `v`. -/
def shows {α : Type} [DecidableEq α] (i : Instr) (s : State) (f : State → α) (v : α) : Bool :=
  match exec i s with
  | .next t => decide (f t = v)
  | _ => false

/-- The state right after reset with TOP entries and guest memory words set. -/
def demo (regs : List (Nat × Word)) (words : List (Nat × Word)) : State :=
  { State.reset with
    topBank := regs.foldl (fun b r => Cells.put b r.1 r.2) []
    mem := words.foldl (fun m w => Memory.store m w.1 (wordBytes w.2)) [] }

/-- The state right after reset with one packet to come. -/
def demoInbox (p : List Word) : State := { State.reset with inbox := [p] }

/-- The set-up of the voice vectors: VPVADDR = 0x10000, FEAV, and TVL2D (section 2.4 of 95_test_vectors.md). -/
def voices (feav tvl : Word) (words : List (Nat × Word)) : State :=
  demo [(0x1118, feav), (0x202C, 0x10000#32), (0x2054, tvl), (0x2060, 0xFFFF#32), (0x206C, 0xFFFF#32)] words

/-- Inside a call to GP, with the descriptor table of the DMA vectors as scratch and FIFO table and GPOF channel 0 over
[0xF00, 0x1100) (sections 2.2 and 2.3 of 95_test_vectors.md). -/
def inGp (cur : Word) : State :=
  { demo [(0x2040, 0x20000#32), (0x2044, 0x20000#32), (0x20D4, 1#32), (0x20D8, 1#32), (0x3024, 0xF00#32),
      (0x3028, 0x1100#32), (0x302C, cur), (0x3074, 0#32), (0x3078, 0x100#32), (0x307C, 0xFC#32)]
      [(0x20000, 0x50000#32), (0x20008, 0x73000#32)] with inCall := some .gp }

/-- FE3. -/
theorem test_setAntecedentVoice :
    shows (.setAntecedentVoice 0x00012345#32) State.reset (·.topReg .feav) 0x00012345#32 = true := by decide
/-- FE5: handle 1 of 0x00050001, link 0xFFFF, active. -/
theorem test_voiceOn_head :
    shows (.voiceOn 0x00050001#32) (voices 0x00010000#32 0xFFFF#32 [])
      (fun t => (t.topReg (.listTop .l2d), t.mem.word 0x100FC, t.mem.word 0x100D4)) (1#32, 0xFFFF#32, 0x00200000#32) =
      true := by decide
/-- FE8: list 2 → 1 becomes 2 → 5 → 1. -/
theorem test_voiceOn_inherit :
    shows (.voiceOn 5#32) (voices 2#32 2#32 [(0x1017C, 1#32), (0x100FC, 0xFFFF#32)])
      (fun t => (t.topReg (.listTop .l2d), t.mem.word 0x1017C, t.mem.word 0x102FC, t.mem.word 0x102D4))
      (2#32, 5#32, 1#32, 0x00200000#32) = true := by decide
/-- FE9. -/
theorem test_voiceOff :
    shows (.voiceOff 3#32) (voices 0#32 0xFFFF#32 [(0x101D4, 0x00200000#32)]) (·.mem.word 0x101D4) 0#32 = true := by
  decide
/-- FE10: the whole word is the handle. -/
theorem test_voiceOff_invalid :
    shows (.voiceOff 0x00010003#32) (voices 0#32 0xFFFF#32 []) (·.fault) (some .invalidVoiceHandle) = true := by decide
/-- FE11, first half. -/
theorem test_voicePause :
    shows (.voicePause 0x00040002#32) (voices 0#32 0xFFFF#32 [(0x10154, 0x00200000#32)]) (·.mem.word 0x10154)
      0x00240000#32 = true := by decide
/-- FE11, second half. -/
theorem test_voicePause_resume :
    shows (.voicePause 0x00000002#32) (voices 0#32 0xFFFF#32 [(0x10154, 0x00240000#32)]) (·.mem.word 0x10154)
      0x00200000#32 = true := by decide
/-- FE4. -/
theorem test_setCurrentVoice : shows (.setCurrentVoice 7#32) State.reset (·.topReg .fecv) 7#32 = true := by decide
/-- FE12: the notification of a tick. -/
theorem test_idleVoiceNotify_tick :
    shows (.idleVoiceNotify 9#32)
      { demo [(0x1100, 0x1001F#32), (0x1504, 0x8000#32)] [] with sched := .running }
      (fun t => (t.topReg .fectl, t.topReg .ists, t.irqLine, t.topReg .fedecmeth, t.topReg .fedecparam))
      (0x10FFF#32, 0x10#32, false, 0x8000#32, 9#32) = true := by decide
/-- FE2: the host's notification. -/
theorem test_idleVoiceNotify_host :
    shows (.idleVoiceNotify 3#32) State.reset (fun t => (t.fault, t.topReg .fedecmeth, t.topReg .fedecparam))
      (some .unknownOpcode, 0x8000#32, 3#32) = true := by decide
/-- FE1. -/
theorem test_unknownMethod :
    shows (.unknownMethod 0x999#32 0x42#32) State.reset (fun t => (t.fault, t.topReg .fedecmeth, t.topReg .fedecparam))
      (some .unknownOpcode, 0x999#32, 0x42#32) = true := by decide
/-- RB4. -/
theorem test_wIsts_clear :
    shows (.wIsts 0x10#32) { demo [(0x1000, 0x11#32), (0x1004, 0x10#32)] [] with irqLine := true }
      (fun t => (t.topReg .ists, t.irqLine, t.trace)) (0#32, false, [.irqDeassert]) = true := by decide
/-- RB7: G is set again by the evaluation. -/
theorem test_wIsts_global :
    shows (.wIsts 1#32) { demo [(0x1000, 0x11#32), (0x1004, 0x10#32)] [] with irqLine := true }
      (fun t => (t.topReg .ists, t.irqLine)) (0x11#32, true) = true := by decide
/-- RB9. -/
theorem test_wSectl_arm :
    shows (.wSectl 8#32) State.reset (fun t => (t.timerArmed, t.topReg .sectl, t.sched, t.trace))
      (true, 8#32, .scheduled, [.timerArm 10]) = true := by decide
/-- RB12. -/
theorem test_wSectl_off :
    shows (.wSectl 7#32) { State.reset with timerArmed := true, sched := .scheduled }
      (fun t => (t.timerArmed, t.topReg .sectl, t.sched, t.trace)) (false, 7#32, .idle, [.timerDisarm]) = true := by
  decide
/-- RB11. -/
theorem test_wFememdata :
    shows (.wFememdata 0xCAFEF00D#32) (demo [(0x1324, 0x8000#32)] [])
      (fun t => (t.mem.bytes 0x8000 4, t.topReg .fememdata)) ([0x0D#8, 0xF0#8, 0xFE#8, 0xCA#8], 0xCAFEF00D#32) = true := by
  decide
/-- RB14. -/
theorem test_wFememdata_outside :
    shows (.wFememdata 1#32) (demo [(0x1324, 0xFFFFD#32)] []) (fun t => (t.fault, t.mem, t.topReg .fememdata))
      (some .guestMemoryOutOfRange, [], 0#32) = true := by decide
/-- RB15: a draw is delivered, whatever it is. -/
theorem test_rXgscnt : shows .rXgscnt (demo [(0x200C, 5#32)] []) (fun t => (t.readData.isSome, t.draws)) (true, 1) = true := by
  decide
/-- RB3: the line is not evaluated. -/
theorem test_wTopPlain :
    shows (.wTopPlain 0x1004#32 0x10#32) (demo [(0x1000, 0x10#32)] [])
      (fun t => (t.topReg .ien, t.topReg .ists, t.irqLine, t.trace)) (0x10#32, 0x10#32, false, []) = true := by decide
/-- RB3, the read. -/
theorem test_rTopPlain :
    shows (.rTopPlain 0x1004#32) (demo [(0x1004, 0x10#32)] []) (·.readData) (some 0x10#32) = true := by decide
/-- RB1. -/
theorem test_topOutOfRange_read :
    shows (.topOutOfRange 0x20000#32 .read) State.reset (·.readData) (some 0#32) = true := by decide
/-- RB2. -/
theorem test_topOutOfRange_write :
    shows (.topOutOfRange 0x20000#32 (.write 5#32)) State.reset id State.reset = true := by decide
/-- RB16. -/
theorem test_wRst_bootstrap :
    shows (.wRst .gp 3#32) State.reset (fun t => (t.rst .gp, t.rst .ep, t.trace)) (3#32, 0#32, [.dspBootstrap .gp]) =
      true := by decide
/-- RB19. -/
theorem test_wRst_reset :
    shows (.wRst .gp 1#32) { State.reset with gpBank := [(0xFFFC, 3#32)] } (fun t => (t.rst .gp, t.trace))
      (1#32, [.dspReset .gp]) = true := by decide
/-- RB24, first half. -/
theorem test_wSubwindow :
    shows (.wSubwindow .gp 0x6008#32 1#32) State.reset (fun t => (t.trace, t.gpBank))
      ([.dspWriteMemory .gp .y 2 1#32], []) = true := by decide
/-- RB22. -/
theorem test_rSubwindow :
    shows (.rSubwindow .gp 0x5004#32) State.reset (·.trace) [.dspReadMemory .gp .x 0x1401] = true := by decide
/-- Rules R48, R268: the MIXBUF row follows P_MIXBUF_BASE. -/
theorem test_rSubwindow_mixbuf :
    shows (.rSubwindow .gp 0x5004#32) { State.reset with cfg := { Config.default with mixbufBase := 0x1000 } } (·.trace)
      [.dspReadMemory .gp .x 0x1001] = true := by decide
/-- RB25, the write. -/
theorem test_gpepPlain_write :
    shows (.gpepPlain .gp 0x4000#32 (.write 7#32)) State.reset (fun t => (t.reg .gp 0x4000, t.reg .ep 0x4000, t.trace))
      (7#32, 0#32, []) = true := by decide
/-- RB25, the read. -/
theorem test_gpepPlain_read :
    shows (.gpepPlain .gp 0x4000#32 .read) { State.reset with gpBank := [(0x4000, 7#32)] } (·.readData)
      (some 7#32) = true := by decide
/-- RB26. -/
theorem test_gpepOutOfRange :
    shows (.gpepOutOfRange .gp 0x10000#32 .read) State.reset (·.readData) (some 0#32) &&
      shows (.gpepOutOfRange .ep 0x10000#32 (.write 1#32)) State.reset id State.reset = true := by decide
/-- FE3, through the method port. -/
theorem test_methodSubmit :
    shows (.methodSubmit (.submit 0x120#32 0x00012345#32)) State.reset (·.topReg .feav) 0x00012345#32 = true := by decide
/-- Rule R134: the read writes no state of the block. -/
theorem test_methodSubmit_read :
    shows (.methodSubmit .read) State.reset (fun t => (t.readData.isSome, t.topBank)) (true, []) = true := by decide
/-- DM1, cut to 4 bytes across the page boundary (0xFFE): 2 bytes at 0x50FFE, 2 at 0x73000. -/
theorem test_scratchReq_write :
    shows (.scratchReq .gp .toGuest 0xFFE#32 4 [1#8, 2#8, 3#8, 4#8]) (inGp 0xF00#32)
      (fun t => (t.mem.bytes 0x50FFE 2, t.mem.bytes 0x73000 2, t.trace.filter (fun c => c == .markDirty 0x73000 2)))
      ([1#8, 2#8], [3#8, 4#8], [.markDirty 0x73000 2]) = true := by decide
/-- DM2: the descriptor index 2 is above the maximum. -/
theorem test_scratchReq_overflow :
    shows (.scratchReq .gp .toGuest 0x2000#32 1 [0#8]) (inGp 0xF00#32) (fun t => (t.fault, t.trace))
      (some .descriptorOverflow, []) = true := by decide
/-- FI6, cut to the last 2 bytes before END: the cursor wraps to BASE. -/
theorem test_fifoReq_wrap :
    shows (.fifoReq .gp .toGuest 0 2 [7#8, 8#8]) (inGp 0x10FE#32)
      (fun t => (t.topReg (.fifo .gp .toGuest 0 .cur), t.mem.bytes 0x730FE 2)) (0xF00#32, [7#8, 8#8]) = true := by decide
/-- FI3: the pre-check. -/
theorem test_fifoReq_atEnd :
    shows (.fifoReq .gp .toGuest 0 4 [0#8, 0#8, 0#8, 0#8]) (inGp 0x1100#32)
      (fun t => (t.fault, t.topReg (.fifo .gp .toGuest 0 .cur))) (some .fifoCursorOutOfRange, 0x1100#32) = true := by decide
/-- SC1. -/
theorem test_tick_disarmed : refusal .tick State.reset = some .tickNotEnabled := by decide
/-- SC8: just after reset, with the timer armed, the tick finds voice 0 inactive. -/
theorem test_tick_afterReset :
    shows .tick { State.reset with timerArmed := true, sched := .scheduled }
      (fun t => (t.fault, t.topReg (.listCurrent .l2d), t.topReg .fedecparam)) (some .idleNotifyDisabled, 0#32, 0#32) =
      true := by decide
/-- `MEM 0x20000 = 0x50000` of program P2, and the last word of guest memory against one byte beyond it. -/
theorem test_guestStore :
    (match step (demoInbox [0x20000#32, 10#32, 0x50000#32]) with
      | .next t => decide (t.mem.bytes 0x20000 4 = [0#8, 0#8, 5#8, 0#8] ∧ t.trace = [] ∧ t.inbox = [])
      | _ => false) = true ∧
    (match step (demoInbox [0xFFFFD#32, 10#32, 1#32]) with
      | .refused r => decide (r = .guestStoreOutside)
      | _ => false) = true := by decide
/-- Rules R67, R74, R350: a guest store before VOICE_OFF's read is kept, one between its read and its write is lost. -/
theorem test_race :
    shows (.voiceOff 3#32)
      { voices 0#32 0xFFFF#32 [(0x101D4, 0x00200000#32)] with races := [[(0x101D4, 0x55#8)], [(0x101D5, 0x66#8)]] }
      (fun t => (t.mem.word 0x101D4, t.races)) (0x55#32, []) = true := by decide
/-- SC9. -/
theorem test_reset :
    shows .reset { demo [(0x1004, 0x10#32)] [] with hung := true, timerArmed := true, sched := .running, irqLine := true }
      (fun t => (t.topBank, t.hung, t.timerArmed, t.sched, t.irqLine)) ([], false, false, .idle, false) = true := by decide

/-! ## Witnesses: states and operands that meet the hypotheses of each statement -/

/-- Every witness state has the default configuration. -/
theorem witness_cfg (regs words : List (Nat × Word)) : (demo regs words).cfg.wf = true := test_wf_default

theorem witness_StepRunsTheDecodedEvent :
    State.reset.inbox = [] ∧ (∃ i, decode (demoInbox [0#32, 8#32, 0#32]).cfg [0#32, 8#32, 0#32] = .ok i) ∧
      (decodeGuestStore [0xFFFFC#32, 10#32, 5#32] = some (0xFFFFC, 5#32) ∧ 0xFFFFC + 4 ≤ State.reset.cfg.ramSize) ∧
      decodeGuestStore [0#32] = none ∧ ∃ e, decode (demoInbox [0#32]).cfg [0#32] = .error e :=
  ⟨rfl, ⟨_, rfl⟩, ⟨by decide, by decide⟩, rfl, ⟨_, rfl⟩⟩

theorem witness_DeadDeviceRefusesEveryEvent :
    Instr.tick ≠ .reset ∧ { State.reset with fault := some FaultCode.unknownOpcode }.fault ≠ none ∧
      { State.reset with hung := true }.fault = none ∧ { State.reset with hung := true }.hung = true := by decide

/-- A state with an access pending meets the invariant, and its step answers a next state. -/
theorem witness_EveryStepKeepsTheInvariant :
    (demoInbox [0x1004#32, 0x00200003#32, 0x10#32]).Inv ∧
      step (demoInbox [0x1004#32, 0x00200003#32, 0x10#32]) = .next (State.reset.setTopReg .ien 0x10#32) :=
  ⟨⟨test_wf_default, fun w => by cases w <;> decide, by decide, by decide, rfl, by decide, by decide⟩, rfl⟩

theorem witness_NoInstructionChangesTheConfiguration :
    State.reset.cfg.wf = true ∧ exec (.wTopPlain 0x1004#32 1#32) State.reset = .next (State.reset.setTopReg .ien 1#32) :=
  ⟨test_wf_default, rfl⟩

theorem witness_EveryInstructionOnlyAddsCalls :
    State.reset.cfg.wf = true ∧ ∃ t, exec (.wSubwindow .gp 0x6008#32 1#32) State.reset = .next t :=
  ⟨test_wf_default, _, rfl⟩

theorem witness_OnlyTheFrontEndBitBecomesPending :
    (demoInbox [0x1000#32, 0x00200003#32, 0#32]).cfg.wf = true ∧
      (∃ t, step (demoInbox [0x1000#32, 0x00200003#32, 0#32]) = .next t) ∧
      (demoInbox [0x1000#32, 0x00200003#32, 0#32]).topReg .ists &&&
        ~~~(Config.default.field.istsGlobal ||| Config.default.field.istsFe) = 0#32 :=
  ⟨test_wf_default, ⟨_, rfl⟩, by decide⟩

theorem witness_OnlySectlTickAndResetTouchTheTimer :
    State.reset.cfg.wf = true ∧ (Instr.wIsts 1#32).wf State.reset.cfg = true ∧
      (∃ t, exec (.wIsts 1#32) State.reset = .next t) ∧
      ∃ t, exec .tick { State.reset with timerArmed := true } = .next t :=
  ⟨test_wf_default, rfl, ⟨_, rfl⟩, ⟨_, rfl⟩⟩

theorem witness_OnlyEvaluationsDriveTheLine :
    State.reset.cfg.wf = true ∧ (Instr.wTopPlain 0x1004#32 0x10#32).wf State.reset.cfg = true ∧
      ∃ t, exec (.wTopPlain 0x1004#32 0x10#32) State.reset = .next t :=
  ⟨test_wf_default, by decide, _, rfl⟩

theorem witness_TheBlockNeverWritesItsInputRegisters :
    State.reset.cfg.wf = true ∧ (Instr.wTopPlain 0x1004#32 0x10#32).wf State.reset.cfg = true ∧
      (∃ t, exec (.wTopPlain 0x1004#32 0x10#32) State.reset = .next t) ∧ TopReg.vpvaddr ∈ TopReg.all ∧
      neverWritten .vpvaddr = true ∧ (0x1004#32).toNat ≠ State.reset.cfg.addrOf .vpvaddr :=
  ⟨test_wf_default, by decide, ⟨_, rfl⟩, by decide, rfl, by decide⟩

theorem witness_TheseInstructionsLeaveGuestMemory :
    State.reset.cfg.wf = true ∧ (Instr.gpepPlain .gp 0x4000#32 (.write 7#32)).wf State.reset.cfg = true ∧
      ∃ t, exec (.gpepPlain .gp 0x4000#32 (.write 7#32)) State.reset = .next t :=
  ⟨test_wf_default, by decide, _, rfl⟩

theorem witness_DecodeOfEncodeIsTheInstruction :
    Config.default.wf = true ∧ (Instr.scratchReq .ep .toGuest 0xFF0#32 1 [0xAB#8]).wf .default = true :=
  ⟨test_wf_default, by decide⟩

theorem witness_DecodedInstructionsAreWellFormed :
    Config.default.wf = true ∧ ∃ i, decode .default [0x20000#32, 0x00200203#32, 0#32] = .ok i :=
  ⟨test_wf_default, _, rfl⟩

/-- The boundary cases of the two clauses: 32 bits at 0x1002, 16 bits at 0x1000, and 32 bits at 0x1000. -/
theorem witness_OnlyAlignedWordAccessesAreAdmitted :
    (demoInbox (packet 0x1002#32 (.top false 32) 0#32)).inbox = packet 0x1002#32 (.top false 32) 0#32 :: [] ∧
      ¬(32 = 32 ∧ (0x1002#32).toNat % 4 = 0) ∧ ¬(16 = 32 ∧ (0x1000#32).toNat % 4 = 0) ∧ (0x1000#32).toNat % 4 = 0 := by
  decide

theorem witness_ArgumentCommandsStoreTheWholeArgument :
    State.reset.cfg.wf = true ∧ State.reset.live = true ∧ State.reset.acceptsMethod = true :=
  ⟨test_wf_default, by decide, by decide⟩

theorem witness_EveryCommandLatchesItsPair :
    State.reset.cfg.wf = true ∧ ∃ t, exec (.setCurrentVoice 7#32) State.reset = .next t := ⟨test_wf_default, _, rfl⟩

theorem witness_VoiceOffClearsOnlyTheActiveFlag :
    (voices 0#32 0xFFFF#32 []).cfg.wf = true ∧ (voices 0#32 0xFFFF#32 []).live = true ∧
      (voices 0#32 0xFFFF#32 []).races = [] ∧
      (voices 0#32 0xFFFF#32 []).acceptsMethod = true ∧ validHandle 3#32 = true ∧
      (voices 0#32 0xFFFF#32 []).inRam ((voices 0#32 0xFFFF#32 []).stateAddr 3#32) = true :=
  ⟨test_wf_default, by decide, rfl, by decide, by decide, by decide⟩

theorem witness_VoicePauseWritesOnlyThePausedFlag :
    (voices 0#32 0xFFFF#32 []).cfg.wf = true ∧ (voices 0#32 0xFFFF#32 []).races = [] ∧
      (voices 0#32 0xFFFF#32 []).live = true ∧ (voices 0#32 0xFFFF#32 []).acceptsMethod = true ∧
      validHandle (Config.default.argHandle 0x00040002#32) = true ∧
      (voices 0#32 0xFFFF#32 []).inRam ((voices 0#32 0xFFFF#32 []).stateAddr (Config.default.argHandle 0x00040002#32)) =
        true := ⟨test_wf_default, by decide⟩

/-- The invalid handle 0xFFFF; the valid 0xFFFE, whose record is outside guest memory (vector VL7); and 5. -/
theorem witness_InsertAtHeadStoresTheOldHeadAndTheHandle :
    (voices 0#32 2#32 []).cfg.wf = true ∧ (voices 0#32 2#32 []).races = [] ∧ validHandle 0xFFFF#32 = false ∧ validHandle 0xFFFE#32 = true ∧
      (voices 0#32 2#32 []).inRam ((voices 0#32 2#32 []).linkAddr 0xFFFE#32) = false ∧ validHandle 5#32 = true ∧
      (voices 0#32 2#32 []).inRam ((voices 0#32 2#32 []).linkAddr 5#32) = true :=
  ⟨test_wf_default, by decide⟩

/-- The head of a list: FEAV_LIST 2D, an old head 2, the voice 5. -/
theorem witness_VoiceOnInsertsAtTheHead :
    (voices 0x10000#32 2#32 []).cfg.wf = true ∧ (voices 0x10000#32 2#32 []).races = [] ∧
      (voices 0x10000#32 2#32 []).live = true ∧ (voices 0x10000#32 2#32 []).acceptsMethod = true ∧
      Config.default.feavList ((voices 0x10000#32 2#32 []).topReg .feav) = some .l2d ∧
      (voices 0x10000#32 2#32 []).voiceOk (Config.default.argHandle 5#32) = true := ⟨test_wf_default, by decide⟩

/-- The list 2 → 1 of vector VL2, the antecedent 2, the voice 5. -/
def list21 (feav : Word) : State := voices feav 2#32 [(0x1017C, 1#32), (0x100FC, 0xFFFF#32)]

theorem witness_VoiceOnInsertsAfterTheAntecedent :
    (list21 2#32).cfg.wf = true ∧ (list21 2#32).races = [] ∧ (list21 2#32).live = true ∧
      (list21 2#32).acceptsMethod = true ∧ Config.default.feavList ((list21 2#32).topReg .feav) = none ∧
      2#32 = Config.default.feavHandle ((list21 2#32).topReg .feav) ∧ validHandle 2#32 = true ∧
      (list21 2#32).inRam ((list21 2#32).linkAddr 2#32) = true ∧
      (list21 2#32).voiceOk (Config.default.argHandle 5#32) = true := ⟨test_wf_default, by decide⟩

theorem witness_HeadInsertionPrependsToTheChain :
    (list21 0x10000#32).cfg.wf = true ∧ (list21 0x10000#32).races = [] ∧ (list21 0x10000#32).live = true ∧ (list21 0x10000#32).acceptsMethod = true ∧
      Config.default.voice.linkMask = 0x0000FFFF#32 ∧
      Config.default.feavList ((list21 0x10000#32).topReg .feav) = some .l2d ∧
      (list21 0x10000#32).voiceOk 5#32 = true ∧ 5#32 ∉ [2#32, 1#32] ∧
      (list21 0x10000#32).chain ((list21 0x10000#32).topReg (.listTop .l2d)) [2#32, 1#32] = true ∧
      (list21 0x10000#32).chain ((list21 0x10000#32).topReg (.listTop .l3d)) [] = true := ⟨test_wf_default, by decide⟩

theorem witness_AntecedentInsertionKeepsTheOrder :
    (list21 2#32).cfg.wf = true ∧ (list21 2#32).races = [] ∧ (list21 2#32).live = true ∧
      (list21 2#32).acceptsMethod = true ∧ Config.default.voice.linkMask = 0x0000FFFF#32 ∧ 5#32 = Config.default.argHandle 5#32 ∧
      Config.default.feavList ((list21 2#32).topReg .feav) = none ∧
      2#32 = Config.default.feavHandle ((list21 2#32).topReg .feav) ∧ (list21 2#32).voiceOk 5#32 = true ∧
      5#32 ∉ [] ++ 2#32 :: [1#32] ∧ ([] ++ 2#32 :: [1#32]).Nodup ∧
      (list21 2#32).chain ((list21 2#32).topReg (.listTop .l2d)) ([] ++ 2#32 :: [1#32]) = true := ⟨test_wf_default, by decide⟩

/-- The boundary handle 0xFFFF, and for VOICE_OFF the argument 0xFFFF too; FEAV inherit of 0xFFFF. -/
theorem witness_InvalidHandlesFaultBeforeAnyStore :
    (voices 0x10000#32 0xFFFF#32 []).cfg.wf = true ∧ (voices 0x10000#32 0xFFFF#32 []).live = true ∧
      (voices 0x10000#32 0xFFFF#32 []).acceptsMethod = true ∧ (voices 0xFFFF#32 0xFFFF#32 []).live = true ∧
      (voices 0xFFFF#32 0xFFFF#32 []).acceptsMethod = true ∧
      validHandle 0xFFFF#32 = false ∧ validHandle 0xFFFE#32 = true ∧
      validHandle (Config.default.argHandle 0xFFFF#32) = false ∧
      Config.default.feavList ((voices 0x10000#32 0xFFFF#32 []).topReg .feav) ≠ none ∧
      Config.default.feavHandle ((voices 0xFFFF#32 0xFFFF#32 []).topReg .feav) = noVoice ∧
      Config.default.feavList ((voices 0xFFFF#32 0xFFFF#32 []).topReg .feav) = none := ⟨test_wf_default, by decide⟩

/-- FEAV, with VPVADDR = `vpv`, no lists. -/
def onVoice (feav vpv : Word) : State := demo [(0x1118, feav), (0x202C, vpv)] []

/-- The state word (at 0x54) and the link word (at 0x7C) one byte beyond guest memory, for VOICE_OFF, VOICE_PAUSE,
head-mode VOICE_ON of voice 0, and inherit-mode VOICE_ON after voice 0. -/
theorem witness_InvalidHandlesFaultBeforeAnyStore_outside :
    (onVoice 0#32 0xFFFA9#32).live = true ∧ (onVoice 0#32 0xFFFA9#32).acceptsMethod = true ∧ validHandle 0#32 = true ∧
      (onVoice 0#32 0xFFFA9#32).inRam ((onVoice 0#32 0xFFFA9#32).stateAddr 0#32) = false ∧
      0#32 = Config.default.argHandle 0#32 ∧
      Config.default.feavList ((onVoice 0x10000#32 0xFFF81#32).topReg .feav) ≠ none ∧
      (onVoice 0x10000#32 0xFFF81#32).inRam ((onVoice 0x10000#32 0xFFF81#32).linkAddr 0#32) = false ∧
      0#32 = Config.default.feavHandle ((onVoice 0#32 0xFFF81#32).topReg .feav) ∧ 0#32 ≠ noVoice ∧
      Config.default.feavList ((onVoice 0#32 0xFFF81#32).topReg .feav) = none ∧
      (onVoice 0#32 0xFFF81#32).inRam ((onVoice 0#32 0xFFF81#32).linkAddr 0#32) = false := by decide

/-- Inherit-mode VOICE_ON after the antecedent 0, whose link word ends guest memory, of the handle 0xFFFF and of voice 1,
whose link word is beyond it. -/
theorem witness_InvalidHandlesFaultBeforeAnyStore_inherit :
    (onVoice 0#32 0xFFF80#32).live = true ∧ 0#32 = Config.default.feavHandle ((onVoice 0#32 0xFFF80#32).topReg .feav) ∧
      Config.default.feavList ((onVoice 0#32 0xFFF80#32).topReg .feav) = none ∧
      (onVoice 0#32 0xFFF80#32).inRam ((onVoice 0#32 0xFFF80#32).linkAddr 0#32) = true ∧
      validHandle (Config.default.argHandle 0xFFFF#32) = false ∧ validHandle (Config.default.argHandle 1#32) = true ∧
      (onVoice 0#32 0xFFF80#32).inRam ((onVoice 0#32 0xFFF80#32).linkAddr 1#32) = false := by decide

/-- A configuration whose state word lies above the link word, and whose antecedent field holds words above 0xFFFF. -/
def highConfig : Config :=
  { Config.default with
    voice := { VoiceLayout.default with stateOff := 0x7C, linkOff := 0x54 }
    field := { FieldMap.default with feavHandle := 0x0001FFFF#32, feavList := 0x000C0000#32 } }

/-- `onVoice` in that configuration. -/
def highState (feav vpv : Word) : State := { onVoice feav vpv with cfg := highConfig }

/-- Head mode (FEAV_LIST 2D) and inherit mode (after voice 0) of a voice whose link word is in guest memory and whose
state word is beyond it; and the antecedent 0x10000. -/
theorem witness_InvalidHandlesFaultBeforeAnyStore_insertion :
    (highState 0x40000#32 0xFFF81#32).cfg.wf = true ∧
      ((highState 0x40000#32 0xFFF81#32).live = true ∧ (highState 0x40000#32 0xFFF81#32).acceptsMethod = true ∧
      (highState 0x40000#32 0xFFF81#32).races = [] ∧
      (highState 0x40000#32 0xFFF81#32).cfg.feavList ((highState 0x40000#32 0xFFF81#32).topReg .feav) = some .l2d ∧
      (highState 0x40000#32 0xFFF81#32).inRam ((highState 0x40000#32 0xFFF81#32).linkAddr 0#32) = true ∧
      (highState 0x40000#32 0xFFF81#32).inRam ((highState 0x40000#32 0xFFF81#32).stateAddr 0#32) = false) ∧
      ((highState 0#32 0xFFF01#32).cfg.feavList ((highState 0#32 0xFFF01#32).topReg .feav) = none ∧
      0#32 = (highState 0#32 0xFFF01#32).cfg.feavHandle ((highState 0#32 0xFFF01#32).topReg .feav) ∧
      (highState 0#32 0xFFF01#32).inRam ((highState 0#32 0xFFF01#32).linkAddr 0#32) = true ∧
      1#32 = (highState 0#32 0xFFF01#32).cfg.argHandle 1#32 ∧
      (highState 0#32 0xFFF01#32).inRam ((highState 0#32 0xFFF01#32).linkAddr 1#32) = true ∧
      (highState 0#32 0xFFF01#32).inRam ((highState 0#32 0xFFF01#32).stateAddr 1#32) = false) ∧
      (highState 0x10000#32 0#32).cfg.feavList ((highState 0x10000#32 0#32).topReg .feav) = none ∧
      validHandle ((highState 0x10000#32 0#32).cfg.feavHandle ((highState 0x10000#32 0#32).topReg .feav)) = false ∧
      (highState 0x10000#32 0#32).cfg.feavHandle ((highState 0x10000#32 0#32).topReg .feav) ≠ noVoice :=
  ⟨by decide +kernel, by decide, by decide, by decide, by decide, by decide⟩

theorem witness_UnknownOpcodesLatchAndFault :
    State.reset.cfg.wf = true ∧ State.reset.live = true ∧ State.reset.acceptsMethod = true ∧ State.reset.cfg.opcode.known 0x999#32 = false ∧
      State.reset.sched ≠ .running := ⟨test_wf_default, by decide⟩

/-- A device inside a tick, with the force-idle-enable bit. -/
def inTick (fetforce1 : Word) : State := { demo [(0x1504, fetforce1)] [] with sched := .running }

theorem witness_IdleNotificationTrapsTheFrontEnd :
    (inTick 0x8000#32).cfg.wf = true ∧ (inTick 0x8000#32).live = true ∧ (inTick 0x8000#32).sched = .running ∧
      getf ((inTick 0x8000#32).topReg .fetforce1) (inTick 0x8000#32).cfg.field.fetforce1Idle ≠ 0#32 ∧
      getf ((inTick 0x7FFF#32).topReg .fetforce1) (inTick 0x7FFF#32).cfg.field.fetforce1Idle = 0#32 :=
  ⟨test_wf_default, by decide, by decide, by decide, by decide⟩

theorem witness_MethodSubmissionIsTheCommand :
    State.reset.cfg.wf = true ∧ State.reset.sched ≠ .running ∧ State.reset.live = true ∧
      State.reset.acceptsMethod = true ∧ 0x2F8#32 = State.reset.cfg.opcode.setCurrentVoice ∧
      0x120#32 = State.reset.cfg.opcode.setAntecedentVoice :=
  ⟨test_wf_default, by decide, by decide, by decide, by decide, by decide⟩

/-- The trapped front end of vector FE14. -/
def held : State :=
  { demo [(0x1100, 0xFE0#32)] [] with cfg := { Config.default with holdWhenTrapped := true }, sched := .running }

theorem witness_TrappedFrontEndHoldsHostMethods :
    held.live = true ∧ held.cfg.holdWhenTrapped = true ∧ held.trapped = true ∧ held.sched = .running := by decide

/-- The first offset beyond each window, and the offsets 0x1FFFC and 0xFFFC, never written. -/
theorem witness_BenignAccessesNeverFault :
    State.reset.live = true ∧ Window.top.outOfRange 0x20000#32 = true ∧ Coproc.gp.window.outOfRange 0x10000#32 = true ∧
      State.reset.cfg.topPlainRead 0x1FFFC#32 = true ∧ (∀ u, ((0x1FFFC#32).toNat, u) ∉ State.reset.topBank) ∧
      State.reset.cfg.coprocPlain .gp 0xFFFC#32 .read = true ∧
      ∀ u, ((0xFFFC#32).toNat, u) ∉ State.reset.bank Coproc.gp.window :=
  ⟨by decide, by decide, by decide, by decide, nofun, by decide, nofun⟩

/-- The last offset of the window. -/
theorem witness_TopReadsReturnTheStoredWord :
    State.reset.live = true ∧ State.reset.cfg.topPlainRead 0x1FFFC#32 = true ∧ State.reset.cfg.wf = true :=
  ⟨by decide, by decide, test_wf_default⟩

/-- The last offset of the window, and the counter's. -/
theorem witness_TopPlainWritesStoreOneEntry :
    State.reset.live = true ∧ State.reset.cfg.topPlainWrite 0x1FFFC#32 = true ∧
      State.reset.cfg.topPlainWrite 0x200C#32 = true ∧ (0x200C#32).toNat = State.reset.cfg.addrOf .xgscnt := by decide

theorem witness_IstsWriteClearsAndEvaluates :
    State.reset.cfg.wf = true ∧ State.reset.live = true ∧ (∃ g, g = State.reset.cfg.field.istsGlobal) ∧
      ∃ p, p = (State.reset.topReg .ien &&& ~~~1#32) &&& (State.reset.topReg .ists &&& ~~~0x10#32) :=
  ⟨test_wf_default, by decide, ⟨_, rfl⟩, ⟨_, rfl⟩⟩

/-- The boundary values of XCNTMODE: 0x07 is off, 0x08 is not. -/
theorem witness_SectlWriteArmsOrDisarmsTheTimer :
    State.reset.cfg.wf = true ∧ State.reset.live = true ∧
      getf 0x07#32 State.reset.cfg.field.sectlXcntmode = State.reset.cfg.field.xcntmodeOff ∧
      getf 0x08#32 State.reset.cfg.field.sectlXcntmode ≠ State.reset.cfg.field.xcntmodeOff :=
  ⟨test_wf_default, by decide, by decide, by decide⟩

/-- The boundary addresses of vectors RB13 and RB14. -/
theorem witness_NotifyWriteEchoesToGuestMemory :
    (demo [(0x1324, 0xFFFFC#32)] []).cfg.wf = true ∧ (demo [(0x1324, 0xFFFFC#32)] []).live = true ∧
      (demo [(0x1324, 0xFFFFC#32)] []).races = [] ∧
      0xFFFFC = ((demo [(0x1324, 0xFFFFC#32)] []).topReg .fememaddr).toNat ∧
      0xFFFFC + 4 ≤ (demo [(0x1324, 0xFFFFC#32)] []).cfg.ramSize ∧
      0xFFFFD = ((demo [(0x1324, 0xFFFFD#32)] []).topReg .fememaddr).toNat ∧
      (demo [(0x1324, 0xFFFFD#32)] []).cfg.ramSize < 0xFFFFD + 4 := ⟨test_wf_default, by decide⟩

theorem witness_CoprocReadsRouteByOffset :
    State.reset.live = true ∧ Coproc.gp.window.outOfRange 0x10000#32 = true ∧
      State.reset.cfg.coprocPlain .gp 0xFFFC#32 .read = true ∧ State.reset.cfg.coprocPlain .gp 0x4FFC#32 .read = true ∧
      State.reset.cfg.subwindowOffset .gp 0x5000#32 = true ∧
      State.reset.cfg.subwindowAt .gp 0x5000 = some ⟨.gp, 0x5000, 0x6000, .x, .mixbuf⟩ := by decide

theorem witness_CoprocWritesRouteByOffset :
    State.reset.live = true ∧ Coproc.ep.window.outOfRange 0x10000#32 = true ∧
      State.reset.cfg.coprocPlain .ep 0x4FFC#32 (.write 1#32) = true ∧
      State.reset.cfg.subwindowOffset .ep 0x5FFC#32 = true ∧
      State.reset.cfg.subwindowAt .ep 0x5FFC = some ⟨.ep, 0x5000, 0x6000, .x, .mixbuf⟩ := by decide

theorem witness_ResetRegisterWriteCallsTheCore :
    State.reset.cfg.wf = true ∧ State.reset.live = true ∧ State.reset.inCall = none ∧
      State.reset.dspAnswers.headD [] = [] ∧ 0#32 = State.reset.reg Coproc.gp.window (State.reset.cfg.rstAddr .gp) :=
  ⟨test_wf_default, by decide, by decide, by decide, by decide⟩

theorem witness_ResetRegisterIsStoredAfterTheCall :
    (∃ t, exec (.wRst .gp 3#32) State.reset = .next t ∧ t.live = true) ∧ State.reset.inCall = none :=
  ⟨⟨_, rfl, by decide⟩, rfl⟩

/-- A device whose next DSP call makes one empty scratch request, or one FIFO request of a channel that does not exist. -/
def asked (q : DspReq) : State := { State.reset with dspAnswers := [[q]], timerArmed := true, sched := .scheduled }

/-- A `bootstrap()` whose request completes, one whose request faults, and a `reset()`; the reset register reads 0
before. -/
theorem witness_ResetRegisterIsStoredAfterTheCall_requests :
    (asked (.scratch .toGuest 0#32 0 [])).cfg.wf = true ∧ (asked (.scratch .toGuest 0#32 0 [])).live = true ∧
      0#32 = (asked (.scratch .toGuest 0#32 0 [])).reg Coproc.gp.window Config.default.addr.gprst ∧
      Config.default.rstRunning 3#32 = true ∧ Config.default.rstRunning 0#32 = false ∧
      (∃ u, callEnds .gp (.dspBootstrap .gp) (asked (.scratch .toGuest 0#32 0 [])) u ∧ u.live = true) ∧
      (∃ u, callEnds .gp (.dspBootstrap .gp) (asked (.fifo .fromGuest 2 0 [])) u ∧ u.live = false) ∧
      ∃ u, callEnds .gp (.dspReset .gp) (asked (.scratch .toGuest 0#32 0 [])) u ∧ u.live = true :=
  ⟨test_wf_default, rfl, rfl, by decide, by decide, ⟨_, ⟨_, ⟨_, rfl, rfl⟩, rfl⟩, rfl⟩, ⟨_, ⟨_, ⟨_, rfl, rfl⟩, rfl⟩, rfl⟩,
    _, ⟨_, ⟨_, rfl, rfl⟩, rfl⟩, rfl⟩

/-- Four bytes across the page boundary of the DMA vectors' table. -/
theorem witness_ScratchWritesLandAtTheTranslation :
    (inGp 0xF00#32).races = [] ∧ (inGp 0xF00#32).cfg.wf = true ∧ (inGp 0xF00#32).live = true ∧ (inGp 0xF00#32).inCall = some .gp ∧
      0x20000 = ((inGp 0xF00#32).topReg (.scratchBase .gp)).toNat ∧
      1 = ((inGp 0xF00#32).topReg (.scratchMax .gp)).toNat ∧
      (∀ i < 4, (inGp 0xF00#32).reachable 0x20000 1 (0xFFE + i)) ∧
      (∀ i < 4, ∀ j < 4, inWord ((inGp 0xF00#32).cfg.descAddr 0x20000 ((0xFFE + i) / (inGp 0xF00#32).cfg.pageSize))
        ((inGp 0xF00#32).translate 0x20000 (0xFFE + j)) = false) ∧
      ∀ i < 4, ∀ j < 4, (inGp 0xF00#32).translate 0x20000 (0xFFE + i) =
        (inGp 0xF00#32).translate 0x20000 (0xFFE + j) → i = j :=
  ⟨rfl, test_wf_default, by decide, by decide, by decide, by decide, by unfold State.reachable; decide, by decide, by decide⟩

theorem witness_ScratchReadsReturnTheTranslatedBytes :
    (inGp 0xF00#32).cfg.wf = true ∧ (inGp 0xF00#32).live = true ∧ (inGp 0xF00#32).inCall = some .gp ∧
      0x20000 = ((inGp 0xF00#32).topReg (.scratchBase .gp)).toNat ∧
      1 = ((inGp 0xF00#32).topReg (.scratchMax .gp)).toNat ∧
      (∀ i < 4, (inGp 0xF00#32).reachable 0x20000 1 (0xFFE + i)) ∧ (inGp 0xF00#32).races = [] :=
  ⟨test_wf_default, by decide, by decide, by decide, by decide, by unfold State.reachable; decide, rfl⟩

/-- `inGp`, with guest stores before the accesses of a request across the page boundary: to the page of the second
descriptor (0x73000 becomes 0x74000) before the first descriptor's read, and to a byte of either run before its read. -/
def inGpRaced : State :=
  { inGp 0xF00#32 with races := [[(0x20009, 0x40#8)], [(0x50FFE, 9#8)], [], [(0x74001, 8#8)]] }

theorem witness_ScratchReadsReturnTheTranslatedBytes_raced :
    inGpRaced.cfg.wf = true ∧ inGpRaced.live = true ∧ inGpRaced.inCall = some .gp ∧
      0x20000 = (inGpRaced.topReg (.scratchBase .gp)).toNat ∧ 1 = (inGpRaced.topReg (.scratchMax .gp)).toNat ∧
      ∀ i < 4, (State.race^[2 * runOf inGpRaced.cfg.pageSize 0xFFE i + 1] inGpRaced).reachable 0x20000 1 (0xFFE + i) :=
  ⟨test_wf_default, by decide, by decide, by decide, by decide, by unfold State.reachable; decide⟩

theorem witness_SplitReadEqualsOneRead :
    (inGp 0xF00#32).cfg.wf = true ∧ (inGp 0xF00#32).races = [] ∧
      ∃ b₁ s₁ b₂ s₂, sgTransfer .fromGuest 0x20000 1 [] 0xFFE 1 (inGp 0xF00#32) = .ok b₁ s₁ ∧
      sgTransfer .fromGuest 0x20000 1 b₁ (0xFFE + 1) 2 s₁ = .ok b₂ s₂ :=
  ⟨test_wf_default, rfl, _, _, _, _, rfl, rfl⟩

/-- Inside a call to GP, with a scratch table at `base` whose first descriptor is `page`. -/
def oneDesc (base page : Word) : State :=
  { demo [(0x2040, base)] [(0x20000, page)] with inCall := some .gp }

/-- One byte, at the first offset beyond the table; through a table whose first descriptor word is not whole inside
guest memory; and to a page that starts at its end. -/
theorem witness_TransfersFaultBeforeTheRunMoves :
    (oneDesc 0x20000#32 0#32).cfg.wf = true ∧ (oneDesc 0x20000#32 0#32).live = true ∧
      (oneDesc 0x20000#32 0#32).inCall = some .gp ∧ 0 < 1 ∧ [0#8].length = 1 ∧
      ((oneDesc 0x20000#32 0#32).topReg (.scratchMax .gp)).toNat < (0x1000#32).toNat / 4096 ∧
      (0#32).toNat / 4096 ≤ ((oneDesc 0xFFFFD#32 0#32).topReg (.scratchMax .gp)).toNat ∧
      (oneDesc 0xFFFFD#32 0#32).descInRam 0xFFFFD 0 = false ∧
      (oneDesc 0x20000#32 0x100000#32).descInRam 0x20000 0 = true ∧
      Config.default.dmaInBounds ((oneDesc 0x20000#32 0x100000#32).translate 0x20000 0) 1 = false ∧
      (oneDesc 0x20000#32 0x100000#32).races = [] :=
  ⟨test_wf_default, by decide⟩

/-- Inside a call to GP, with output channel 0 over [0xFFE, 0x1002), its cursor at 0x1001, and a FIFO table of two pages
at `base`, the second of them at `page`. -/
def fifoOut (base max page : Word) : State :=
  { demo [(0x2044, base), (0x20D8, max), (0x3024, 0xFFE#32), (0x3028, 0x1002#32), (0x302C, 0x1001#32)]
      [(0x20000, 0x50000#32), (0x20008, page)] with inCall := some .gp }

/-- One byte through channel 0: the cursor's page 1 is above the maximum 0; its descriptor word (at 0xFFFFD) is not whole
inside guest memory; and its page starts at the end of guest memory. -/
theorem witness_TransfersFaultBeforeTheRunMoves_fifo :
    (fifoOut 0x20000#32 0#32 0#32).cfg.wf = true ∧ (fifoOut 0x20000#32 0#32 0#32).live = true ∧
      (fifoOut 0x20000#32 0#32 0#32).inCall = some .gp ∧ 0 < channelCount .toGuest ∧
      (fifoOut 0x20000#32 0#32 0#32).clampedCur .gp .toGuest 0 = 0x1001 ∧
      (fifoOut 0x20000#32 0#32 0#32).fifoCur .gp .toGuest 0 < (fifoOut 0x20000#32 0#32 0#32).fifoEnd .gp .toGuest 0 ∧
      (fifoOut 0x20000#32 0#32 0#32).fifoBase .gp .toGuest 0 < (fifoOut 0x20000#32 0#32 0#32).fifoEnd .gp .toGuest 0 ∧
      ((fifoOut 0x20000#32 0#32 0#32).topReg (.fifoTableMax .gp)).toNat < 0x1001 / 4096 ∧
      0x1001 / 4096 ≤ ((fifoOut 0xFFFF5#32 1#32 0#32).topReg (.fifoTableMax .gp)).toNat ∧
      (fifoOut 0xFFFF5#32 1#32 0#32).descInRam 0xFFFF5 1 = false ∧
      (fifoOut 0x20000#32 1#32 0x100000#32).descInRam 0x20000 1 = true ∧
      (fifoOut 0x20000#32 1#32 0x100000#32).races = [] ∧
      Config.default.dmaInBounds ((fifoOut 0x20000#32 1#32 0x100000#32).translate 0x20000 0x1001)
        (min (min 1 (0x1002 - 0x1001)) (4096 - 0x1001 % 4096)) = false :=
  ⟨test_wf_default, by decide⟩

/-- A state with `n` bytes of guest memory. -/
def withRam (n : Nat) (s : State) : State := { s with cfg := { s.cfg with ramSize := n } }

/-- With 2^33 bytes of guest memory: the word of descriptor 1 of a table at 0xFFFFFFF8 has the address 2^32, and a page at
0xFFFFFFFF maps offset 1 to 2^32; both lie inside guest memory, and neither sum passes (rule R157). -/
theorem witness_TransfersFaultBeforeTheRunMoves_limit :
    (withRam (2 ^ 33) (fifoOut 0xFFFFFFF8#32 1#32 0#32)).cfg.wf = true ∧
      2 ^ 32 ≤ 0xFFFFFFF8 + 0x1001 / 4096 * Config.default.descStride + Config.default.descAddrOff ∧
      (withRam (2 ^ 33) (oneDesc 0x20000#32 0xFFFFFFFF#32)).descInRam 0x20000 0 = true ∧
      2 ^ 32 ≤ (withRam (2 ^ 33) (oneDesc 0x20000#32 0xFFFFFFFF#32)).translate 0x20000 1 ∧
      (withRam (2 ^ 33) (oneDesc 0x20000#32 0xFFFFFFFF#32)).cfg.dmaInBounds 0xFFFFFFFF 1 = true :=
  ⟨test_wf_default, by decide⟩

/-- One byte at offset 1 of a page at 0xFFFFFFFF, with 2^33 bytes of guest memory: the sum 2^32 fails (rule R157). -/
theorem test_sum_at_limit :
    ∃ t, exec (.scratchReq .gp .toGuest 1#32 1 [7#8]) (withRam (2 ^ 33) (oneDesc 0x20000#32 0xFFFFFFFF#32)) = .next t ∧
      t.fault = some .dmaOutOfBounds :=
  ⟨_, rfl, by decide⟩

theorem witness_EmptyScratchRequestDoesNothing :
    (inGp 0xF00#32).live = true ∧ (inGp 0xF00#32).inCall = some .gp := by decide

theorem witness_RequestsOutsideACallAreRefused :
    (inGp 0xF00#32).live = true ∧ (inGp 0xF00#32).inCall ≠ some .ep ∧ (inGp 0xF00#32).inCall = some .gp ∧
      [0#8].length ≠ 2 := by decide

theorem witness_FifoCursorAdvancesAroundTheRange :
    (inGp 0x10FE#32).cfg.wf = true ∧
      ∃ t, exec (.fifoReq .gp .toGuest 0 2 [7#8, 8#8]) (inGp 0x10FE#32) = .next t ∧ t.live = true :=
  ⟨test_wf_default, _, rfl, by decide⟩

/-- A completed request, and one that faults at END (vector FI3). -/
theorem witness_OnlyACompletedFifoRequestStoresTheCursor :
    (inGp 0x10FE#32).cfg.wf = true ∧ 0 < channelCount .toGuest ∧
      (∃ t, exec (.fifoReq .gp .toGuest 0 2 [7#8, 8#8]) (inGp 0x10FE#32) = .next t ∧ t.live = true) ∧
      ∃ t, exec (.fifoReq .gp .toGuest 0 1 [7#8]) (inGp 0x1100#32) = .next t ∧ t.live = false :=
  ⟨test_wf_default, by decide, ⟨_, rfl, by decide⟩, ⟨_, rfl, by decide⟩⟩

/-- Input channel 1 of vector FI12, with a range of four bytes. -/
def fifoIn : State :=
  { demo [(0x2044, 0x20000#32), (0x20D8, 1#32), (0x3074, 0xFFE#32), (0x3078, 0x1002#32), (0x307C, 0x1001#32)]
      [(0x20000, 0x50000#32), (0x20008, 0x73000#32)] with inCall := some .gp }

theorem witness_FifoReadsReturnTheCircularBytes :
    fifoIn.races = [] ∧ fifoIn.cfg.wf = true ∧ fifoIn.live = true ∧ fifoIn.inCall = some .gp ∧ 1 < 2 ∧
      fifoIn.fifoCur .gp .fromGuest 1 < fifoIn.fifoEnd .gp .fromGuest 1 ∧
      fifoIn.fifoBase .gp .fromGuest 1 < fifoIn.fifoEnd .gp .fromGuest 1 ∧
      ∀ o, fifoIn.fifoBase .gp .fromGuest 1 ≤ o → o < fifoIn.fifoEnd .gp .fromGuest 1 → fifoIn.reachable 0x20000 1 o := by
  refine ⟨rfl, test_wf_default, by decide, by decide, by decide, by decide, by decide, fun o h1 h2 => ?_⟩
  have h1' : 0xFFE ≤ o := h1
  have h2' : o < 0x1002 := h2
  have : o = 0xFFE ∨ o = 0xFFF ∨ o = 0x1000 ∨ o = 0x1001 := by omega
  unfold State.reachable
  rcases this with rfl | rfl | rfl | rfl <;> decide

theorem witness_FifoWritesLandAtTheCursor :
    (inGp 0x10FE#32).races = [] ∧ (inGp 0x10FE#32).cfg.wf = true ∧ (inGp 0x10FE#32).live = true ∧ (inGp 0x10FE#32).inCall = some .gp ∧ 0 < 4 ∧
      0x10FE = (inGp 0x10FE#32).clampedCur .gp .toGuest 0 ∧
      (inGp 0x10FE#32).fifoCur .gp .toGuest 0 < (inGp 0x10FE#32).fifoEnd .gp .toGuest 0 ∧
      0x10FE + [7#8, 8#8].length ≤ (inGp 0x10FE#32).fifoEnd .gp .toGuest 0 ∧
      0x10FE % 4096 + [7#8, 8#8].length ≤ 4096 ∧
      0x10FE / 4096 ≤ ((inGp 0x10FE#32).topReg (.fifoTableMax .gp)).toNat ∧
      (inGp 0x10FE#32).descInRam 0x20000 (0x10FE / 4096) = true ∧
      0x730FE = (inGp 0x10FE#32).translate 0x20000 0x10FE ∧ (inGp 0x10FE#32).cfg.dmaInBounds 0x730FE 2 = true :=
  ⟨rfl, test_wf_default, by decide, by decide, by decide, by decide, by decide, by decide, by decide, by decide, by decide,
    by decide, by decide⟩

/-- Six bytes from the last offset of a range of four that crosses a page: the request wraps twice. -/
theorem witness_FifoWritesLandAtTheCursor_wrap :
    (fifoOut 0x20000#32 1#32 0x73000#32).cfg.wf = true ∧ (fifoOut 0x20000#32 1#32 0x73000#32).live = true ∧
      (fifoOut 0x20000#32 1#32 0x73000#32).races = [] ∧ (fifoOut 0x20000#32 1#32 0x73000#32).inCall = some .gp ∧
      0x1001 = (fifoOut 0x20000#32 1#32 0x73000#32).clampedCur .gp .toGuest 0 ∧
      0xFFE = (fifoOut 0x20000#32 1#32 0x73000#32).fifoBase .gp .toGuest 0 ∧
      0x1002 = (fifoOut 0x20000#32 1#32 0x73000#32).fifoEnd .gp .toGuest 0 ∧
      (fifoOut 0x20000#32 1#32 0x73000#32).fifoCur .gp .toGuest 0 < 0x1002 ∧
      (∀ i < 4, (fifoOut 0x20000#32 1#32 0x73000#32).reachable 0x20000 1 (0xFFE + i)) ∧
      ∀ i < 4, ∀ j < 4, inWord (Config.default.descAddr 0x20000 ((0xFFE + i) / 4096))
          ((fifoOut 0x20000#32 1#32 0x73000#32).translate 0x20000 (0xFFE + j)) = false ∧
        ((fifoOut 0x20000#32 1#32 0x73000#32).translate 0x20000 (0xFFE + i) =
          (fifoOut 0x20000#32 1#32 0x73000#32).translate 0x20000 (0xFFE + j) → i = j) :=
  ⟨test_wf_default, by decide, rfl, rfl, by decide, by decide, by decide, by decide,
    by unfold State.reachable; decide, by decide⟩

/-- The boundary values: channel 4, CUR = END, and the empty range of vector FI9. -/
theorem witness_FifoChecksComeBeforeTheTransfer :
    (inGp 0x1100#32).live = true ∧ (inGp 0x1100#32).inCall = some .gp ∧ channelCount .toGuest ≤ 4 ∧
      0 < channelCount .toGuest ∧ (inGp 0x1100#32).fifoEnd .gp .toGuest 0 ≤ (inGp 0x1100#32).fifoCur .gp .toGuest 0 ∧
      (demo [(0x3024, 0x1000#32), (0x3028, 0x1000#32), (0x302C, 0x800#32)] []).fifoCur .gp .toGuest 0 <
        (demo [(0x3024, 0x1000#32), (0x3028, 0x1000#32), (0x302C, 0x800#32)] []).fifoEnd .gp .toGuest 0 ∧
      (demo [(0x3024, 0x1000#32), (0x3028, 0x1000#32), (0x302C, 0x800#32)] []).fifoEnd .gp .toGuest 0 ≤
        (demo [(0x3024, 0x1000#32), (0x3028, 0x1000#32), (0x302C, 0x800#32)] []).fifoBase .gp .toGuest 0 := by decide

theorem witness_DisarmedTickHasNoStep : State.reset.live = true ∧ State.reset.timerArmed = false := by decide

/-- An armed timer, with the lists 2D = `tvl`, 3D and Multipass empty. -/
def armed (tvl fetforce1 : Word) (words : List (Nat × Word)) : State :=
  { demo [(0x1504, fetforce1), (0x202C, 0x10000#32), (0x2054, tvl), (0x2060, 0xFFFF#32), (0x206C, 0xFFFF#32)] words with
    timerArmed := true, sched := .scheduled }

theorem witness_EmptyTickPublishesAndKicks :
    (armed 0xFFFF#32 0#32 []).cfg.wf = true ∧ (armed 0xFFFF#32 0#32 []).live = true ∧
      (armed 0xFFFF#32 0#32 []).timerArmed = true ∧ (armed 0xFFFF#32 0#32 []).inCall = none ∧
      (armed 0xFFFF#32 0#32 []).dspAnswers = [] ∧ ∀ l, (armed 0xFFFF#32 0#32 []).topReg (.listTop l) = noVoice :=
  ⟨test_wf_default, by decide, by decide, by decide, by decide, fun l => by cases l <;> decide⟩

/-- A GP kick whose first request faults, and one whose request completes, after which the EP kick runs: GPRST and EPRST
read running. -/
theorem witness_EmptyTickPublishesAndKicks_requests :
    (∃ g, gpKickEnds { asked (.fifo .fromGuest 2 0 []) with gpBank := [(0xFFFC, 3#32)] } g ∧ g.live = false) ∧
      ∃ g e, gpKickEnds { asked (.scratch .toGuest 0#32 0 []) with gpBank := [(0xFFFC, 3#32)], epBank := [(0xFFFC, 3#32)] } g ∧
        g.live = true ∧ epKickEnds g e ∧ e.live = true :=
  ⟨⟨_, ⟨_, ⟨_, ⟨_, rfl, rfl⟩, rfl⟩, rfl⟩, rfl⟩,
    _, _, ⟨_, ⟨_, ⟨_, rfl, rfl⟩, rfl⟩, ⟨_, rfl, rfl⟩⟩, rfl, ⟨_, rfl, rfl⟩, rfl⟩

/-- The list 2 → 1 in 2D, voice 2 active and voice 1 not. -/
def tickList : State :=
  armed 2#32 0x8000#32 [(0x1017C, 1#32), (0x100FC, 0xFFFF#32), (0x10154, 0x00200000#32)]

theorem witness_TickVisitsEveryVoiceOnce :
    tickList.races = [] ∧ tickList.cfg.wf = true ∧ tickList.live = true ∧ tickList.timerArmed = true ∧
      tickList.chain (tickList.topReg (.listTop .l2d)) [2#32, 1#32] = true ∧
      tickList.chain (tickList.topReg (.listTop .l3d)) [] = true ∧
      tickList.chain (tickList.topReg (.listTop .mp)) [] = true ∧ [2#32, 1#32].Nodup ∧
      tickList.kickCalls = [] ∧ tickList.dspAnswers = [] ∧
      tickList.cfg.idleEnabled (tickList.topReg .fetforce1) = true :=
  ⟨rfl, test_wf_default, by decide, by decide, by decide, by decide, by decide, by decide, by decide, by decide, by decide⟩

/-- The same list with GP and EP running: the kicks of cores that make no request, and of a GP whose first request
faults. -/
theorem witness_TickVisitsEveryVoiceOnce_kicks :
    { tickList with gpBank := [(0xFFFC, 3#32)], epBank := [(0xFFFC, 3#32)] }.kickCalls =
        [.dspStartFrame .gp, .dspRun .gp 1000, .dspStartFrame .ep] ∧
      (∃ g e, gpKickEnds { tickList with gpBank := [(0xFFFC, 3#32)], epBank := [(0xFFFC, 3#32)] } g ∧ g.live = true ∧
        epKickEnds g e ∧ e.live = true) ∧
      ∃ g, gpKickEnds { tickList with gpBank := [(0xFFFC, 3#32)], dspAnswers := [[.fifo .fromGuest 2 0 []]] } g ∧
        g.live = false :=
  ⟨by decide, ⟨_, _, ⟨_, ⟨_, rfl, rfl⟩, ⟨_, rfl, rfl⟩⟩, rfl, ⟨_, rfl, rfl⟩, rfl⟩,
    _, ⟨_, ⟨_, ⟨_, rfl, rfl⟩, rfl⟩, rfl⟩, rfl⟩

/-- Vector VL12: voice 1 linked to itself. -/
def cyclic : State := armed 1#32 0x8000#32 [(0x100FC, 1#32)]

theorem witness_CyclicListHangsTheTick :
    cyclic.visited .l2d [] (cyclic.topReg (.listTop .l2d)) ∧ cyclic.races = [] ∧ cyclic.cfg.wf = true ∧ cyclic.live = true ∧ cyclic.timerArmed = true ∧
      (∀ n ≤ 0x10000, cyclic.voiceOk (cyclic.linkOf^[n] (cyclic.topReg (.listTop .l2d))) = true) ∧
      cyclic.cfg.idleEnabled (cyclic.topReg .fetforce1) = true := by
  refine ⟨⟨List.nodup_nil, by decide⟩, rfl, test_wf_default, by decide, by decide, fun n _ => ?_, by decide⟩
  have h1 : cyclic.linkOf 1#32 = 1#32 := by decide
  have h2 : cyclic.topReg (.listTop .l2d) = 1#32 := by decide
  rw [h2, Function.iterate_fixed h1]
  decide

/-- The list 2 in 2D, and in Multipass the voice 1 linked to itself, both active, with 3D empty. -/
def cyclicMp : State :=
  { demo [(0x202C, 0x10000#32), (0x2054, 2#32), (0x2060, 0xFFFF#32), (0x206C, 1#32)]
      [(0x10154, 0x00200000#32), (0x1017C, 0xFFFF#32), (0x100D4, 0x00200000#32), (0x100FC, 1#32)] with
    timerArmed := true, sched := .scheduled }

theorem witness_CyclicListHangsTheTick_multipass :
    cyclicMp.cfg.wf = true ∧ cyclicMp.live = true ∧ cyclicMp.timerArmed = true ∧ cyclicMp.races = [] ∧
      cyclicMp.visited .mp [2#32] (cyclicMp.topReg (.listTop .mp)) ∧ (∀ h ∈ [2#32], cyclicMp.isActive h = true) ∧
      ∀ n ≤ 0x10000, cyclicMp.voiceOk (cyclicMp.linkOf^[n] (cyclicMp.topReg (.listTop .mp))) = true ∧
        cyclicMp.isActive (cyclicMp.linkOf^[n] (cyclicMp.topReg (.listTop .mp))) = true := by
  refine ⟨test_wf_default, by decide, by decide, rfl,
    ⟨[2#32], [], [], rfl, by decide, by decide, by decide, by decide, by decide, by decide⟩,
    List.forall_mem_singleton.2 (by decide), fun n _ => ?_⟩
  have h1 : cyclicMp.linkOf 1#32 = 1#32 := by decide
  have h2 : cyclicMp.topReg (.listTop .mp) = 1#32 := by decide
  rw [h2, Function.iterate_fixed h1]
  decide

theorem witness_IdleVoiceFaultsTheTickWhenDisabled :
    (armed 1#32 0#32 []).races = [] ∧
      (armed 1#32 0#32 []).cfg.wf = true ∧ (armed 1#32 0#32 []).live = true ∧ (armed 1#32 0#32 []).timerArmed = true ∧
      1#32 = (armed 1#32 0#32 []).topReg (.listTop .l2d) ∧ (armed 1#32 0#32 []).voiceOk 1#32 = true ∧
      (armed 1#32 0#32 []).isActive 1#32 = false ∧
      (armed 1#32 0#32 []).cfg.idleEnabled ((armed 1#32 0#32 []).topReg .fetforce1) = false :=
  ⟨rfl, test_wf_default, by decide, by decide, by decide, by decide, by decide, by decide⟩

/-- A tick comes to the handle word `x` of 3D after the active voice 2 of 2D, with VPVADDR = `vpv` in the configuration
`cfg`. -/
def late (cfg : Config) (vpv x : Word) (words : List (Nat × Word)) : State :=
  { demo [(0x202C, vpv), (0x2054, 2#32), (0x2060, x), (0x206C, 0xFFFF#32)] words with
    cfg := cfg, timerArmed := true, sched := .scheduled }

/-- The list 2 in 2D; then in 3D the handle word 0x10000 (vector VL11), voice 3, whose link word is one byte beyond guest
memory, and the inactive voice 4. -/
theorem witness_IdleVoiceFaultsTheTickWhenDisabled_later :
    (∀ s ∈ [late .default 0x10000#32 0x10000#32 [(0x10154, 0x00200000#32), (0x1017C, 0xFFFF#32)],
        late .default 0x10000#32 4#32 [(0x10154, 0x00200000#32), (0x1017C, 0xFFFF#32)]],
      s.live = true ∧ s.timerArmed = true ∧ s.races = [] ∧
      s.chain (s.topReg (.listTop .l2d)) [2#32] = true ∧ s.path (s.topReg (.listTop .l3d)) [] (s.topReg (.listTop .l3d)) = true ∧
      s.isActive 2#32 = true ∧ s.cfg.idleEnabled (s.topReg .fetforce1) = false) ∧
      0x10000#32 ≠ noVoice ∧ validHandle 0x10000#32 = false ∧
      (late .default 0x10000#32 4#32 [(0x10154, 0x00200000#32), (0x1017C, 0xFFFF#32)]).voiceOk 4#32 = true ∧
      (late .default 0x10000#32 4#32 [(0x10154, 0x00200000#32), (0x1017C, 0xFFFF#32)]).isActive 4#32 = false ∧
      (late .default 0xFFE01#32 3#32 [(0xFFF55, 0x00200000#32), (0xFFF7D, 0xFFFF#32)]).chain 2#32 [2#32] = true ∧
      (late .default 0xFFE01#32 3#32 [(0xFFF55, 0x00200000#32), (0xFFF7D, 0xFFFF#32)]).inRam
        ((late .default 0xFFE01#32 3#32 [(0xFFF55, 0x00200000#32), (0xFFF7D, 0xFFFF#32)]).linkAddr 3#32) = false := by
  decide

/-- The same list of 2D; then in 3D voice 3, whose link word (at 0x54) is in guest memory and whose state word (at 0x7C)
is one byte beyond it. -/
theorem witness_IdleVoiceFaultsTheTickWhenDisabled_state :
    (late highConfig 0xFFE01#32 3#32 [(0xFFF7D, 0x00200000#32), (0xFFF55, 0xFFFF#32)]).live = true ∧
      (late highConfig 0xFFE01#32 3#32 [(0xFFF7D, 0x00200000#32), (0xFFF55, 0xFFFF#32)]).chain 2#32 [2#32] = true ∧
      (late highConfig 0xFFE01#32 3#32 [(0xFFF7D, 0x00200000#32), (0xFFF55, 0xFFFF#32)]).isActive 2#32 = true ∧
      (late highConfig 0xFFE01#32 3#32 []).inRam ((late highConfig 0xFFE01#32 3#32 []).linkAddr 3#32) = true ∧
      (late highConfig 0xFFE01#32 3#32 []).inRam ((late highConfig 0xFFE01#32 3#32 []).stateAddr 3#32) = false := by
  decide

end Sys2Proof.Tests
end

section
/-! The machine as a whole: what a step does with its packet (rules R4, R66, R67), and what every sequence of effects,
so every instruction, keeps: the configuration (rule R6), and the calls made before its own (rules R11, R13). -/

namespace Sys2Proof.Machine

/-! ## The calls of an effect -/

/-- The call that drives the interrupt line to a level (rule R125). -/
def lineCall (l : Bool) : Call := if l then .irqAssert else .irqDeassert

/-- The collaborator calls that an effect makes, the first one first (rules R11, R13). -/
def Effect.calls (s : State) : Effect → List Call
  | .log c => [c]
  | .store p v => [.writeBytes p (wordBytes v)]
  | .run p bytes => [.writeBytes p bytes, .markDirty p bytes.length]
  | .arm => [.timerArm tickPeriodMs]
  | .disarm => [.timerDisarm]
  | .mix h => [.mixVoice h]
  | .ists v => [lineCall (istsWrite v s).irqLine]
  | .trap => [lineCall (enterTrap s).irqLine]
  | .reset => [.timerDisarm, .irqDeassert]
  | _ => []

theorem updateIrq_calls (s : State) : (updateIrq s).calls = s.calls ++ [lineCall (updateIrq s).irqLine] := by
  rw [updateIrq, State.driveIrq_calls, State.setTopReg_calls]
  rfl

theorem istsWrite_calls (v : Word) (s : State) :
    (istsWrite v s).calls = s.calls ++ [lineCall (istsWrite v s).irqLine] := by
  simp [istsWrite, updateIrq_calls]

theorem enterTrap_calls (s : State) : (enterTrap s).calls = s.calls ++ [lineCall (enterTrap s).irqLine] := by
  simp [enterTrap, updateIrq_calls]

theorem Effect.apply_calls (s : State) (e : Effect) : (e.apply s).calls = s.calls ++ e.calls s := by
  cases e with
  | ists v => exact istsWrite_calls v s
  | trap => exact enterTrap_calls s
  | _ => simp [Effect.apply, Effect.calls]

/-- A sequence of effects keeps the earlier calls, in their order, before its own. -/
theorem Steps.calls {K : Effect → Prop} {s t : State} (h : Steps K s t) : ∃ cs, t.calls = s.calls ++ cs := by
  induction h with
  | refl => exact ⟨[], (List.append_nil _).symm⟩
  | @step u e _ _ _ ih =>
    obtain ⟨cs, hu⟩ := ih
    exact ⟨cs ++ e.calls u, by rw [Effect.apply_calls, hu, List.append_assoc]⟩

/-- Settles O7: no effect changes the configuration, and an instruction is a sequence of effects. -/
theorem noInstructionChangesTheConfiguration : Obligations.NoInstructionChangesTheConfiguration :=
  fun _ _ _ hw h => (exec_effects hw h).cfg

/-- Settles O8: every effect appends its calls, and an instruction is a sequence of effects. -/
theorem everyInstructionOnlyAddsCalls : Obligations.EveryInstructionOnlyAddsCalls :=
  fun _ _ _ hw h => (exec_effects hw h).calls

/-! ## The packet of a step -/

theorem fetchEvent_nil {s : State} (h : s.inbox = []) : fetchEvent s = none := by
  simp [fetchEvent, h]

theorem fetchEvent_cons {s : State} {p : List Word} {rest : List (List Word)} (h : s.inbox = p :: rest) :
    fetchEvent s = some (p, { s with inbox := rest }) := by
  simp [fetchEvent, h]

/-- A guest CPU's store is no event: the decoder knows no form of that number (rule R67; logs 1 and 21). -/
theorem decode_of_decodeGuestStore {p : List Word} {x : Nat × Word} (cfg : Config) (h : decodeGuestStore p = some x) :
    decode cfg p = .error .unknownForm := by
  have hform : Form.ofWord guestForm = none := by decide
  unfold decodeGuestStore at h
  split at h
  · split at h
    · next hf => simp [decode, hf, hform]
    · cases h
  · cases h

theorem decodeGuestStore_of_decode {cfg : Config} {p : List Word} {i : Instr} (h : decode cfg p = .ok i) :
    decodeGuestStore p = none := by
  cases hg : decodeGuestStore p with
  | none => rfl
  | some x => simp [decode_of_decodeGuestStore cfg hg] at h

theorem step_of_nil {s : State} (h : s.inbox = []) : step s = .refused .noEvent := by
  simp [step, fetchEvent_nil h]

theorem step_of_event {s : State} {p : List Word} {rest : List (List Word)} {i : Instr} (h : s.inbox = p :: rest)
    (hd : decode s.cfg p = .ok i) : step s = exec i { s with inbox := rest } := by
  simp [step, fetchEvent_cons h, decodeGuestStore_of_decode hd, hd]

theorem step_of_guestStore {s : State} {p : List Word} {rest : List (List Word)} {a : Nat} {v : Word}
    (h : s.inbox = p :: rest) (hg : decodeGuestStore p = some (a, v)) :
    step s = guestStore a v { s with inbox := rest } := by
  simp [step, fetchEvent_cons h, hg]

theorem step_of_undecodable {s : State} {p : List Word} {rest : List (List Word)} {e : DecodeError}
    (h : s.inbox = p :: rest) (hg : decodeGuestStore p = none) (hd : decode s.cfg p = .error e) :
    step s = .refused (.undecodable e) := by
  simp [step, fetchEvent_cons h, hg, hd]

theorem guestStore_of_inRam {s : State} {a : Nat} (h : a + 4 ≤ s.cfg.ramSize) (v : Word) :
    guestStore a v s = .next { s with mem := s.mem.store a (wordBytes v) } :=
  if_pos h

/-- A word stored to guest memory leaves every byte outside it (rule R62). -/
theorem Memory.get_store_word_outside (m : Memory) {a b : Nat} (v : Word) (h : ¬inWord a b = true) :
    Cells.get (m.store a (wordBytes v)) b = Cells.get m b := by
  simp only [inWord, Bool.and_eq_true, decide_eq_true_eq] at h
  exact Memory.get_store_outside m (by rw [wordBytes_length]; omega)

/-- Settles O1: an event's packet is no guest store's, so each case of a step is the one its packet says. -/
theorem stepRunsTheDecodedEvent : Obligations.StepRunsTheDecodedEvent := by
  refine fun s => ⟨step_of_nil, fun p rest i => step_of_event, fun p rest a v h hg ha => ?_,
    fun p rest e => step_of_undecodable⟩
  refine ⟨{ s with inbox := rest, mem := s.mem.store a (wordBytes v) }, ?_, Memory.word_store s.mem a v,
    fun b hb => Memory.get_store_word_outside s.mem v hb, rfl⟩
  rw [step_of_guestStore h hg, guestStore_of_inRam (by exact ha)]

end Sys2Proof.Machine
end

section
/-! Named registers: which effects store one, and so which instructions do (rule R24). The block never writes its input
registers (rules R26, R31, R32, R35, R36, R178), and nothing a command does after its latch touches the latch
(rules R30, R231). -/

namespace Sys2Proof

theorem Window.outOfRange_iff {w : Window} {off : Word} :
    w.outOfRange off = true ↔ aligned off = true ∧ w.size ≤ off.toNat := by
  simp [Window.outOfRange]

theorem Config.key_toNat {cfg : Config} (hw : cfg.wf = true) {r : TopReg} (hr : r ∈ TopReg.all) :
    (cfg.key r).toNat = cfg.addrOf r := by
  have := (Config.addrOf_ok hw hr).2
  simp only [Window.size] at this
  rw [Config.key, BitVec.toNat_ofNat, Nat.mod_eq_of_lt (by omega)]

/-- A named register without a side effect is read and written plainly (rules R120 to R122). -/
theorem Config.topPlain_key {cfg : Config} (hw : cfg.wf = true) {r : TopReg} (hr : r ∈ TopReg.all)
    (h : ∀ r' ∈ [TopReg.ists, .sectl, .fememdata, .xgscnt], r ≠ r') :
    cfg.topPlainRead (cfg.key r) = true ∧ cfg.topPlainWrite (cfg.key r) = true := by
  obtain ⟨h4, hlt⟩ := Config.addrOf_ok hw hr
  have hne (r' : TopReg) (hm : r' ∈ [TopReg.ists, .sectl, .fememdata, .xgscnt]) (hr' : r' ∈ TopReg.all) :
      cfg.addrOf r ≠ cfg.addrOf r' := Config.addrOf_ne hw (h r' hm) hr hr'
  simp [Config.topPlainRead, Config.topPlainWrite, aligned, Config.key_toNat hw hr, h4, hlt,
    hne .ists (by decide) (by decide), hne .sectl (by decide) (by decide), hne .fememdata (by decide) (by decide),
    hne .xgscnt (by decide) (by decide)]

end Sys2Proof

namespace Sys2Proof.Machine

/-! ## Registers: which effects store a named register -/

/-- The effect may store the named register `r`. -/
def Effect.stores (cfg : Config) (r : TopReg) : Effect → Prop
  | .top r' _ => r' = r
  | .entry w a _ => w = .top ∧ a = cfg.addrOf r
  | .ists _ => r = .ists
  | .trap => r = .ists ∨ r = .fectl
  | .reset => True
  | _ => False

theorem updateIrq_topReg {s : State} (hw : s.cfg.wf = true) {r : TopReg} (hr : r ∈ TopReg.all) (h : r ≠ .ists) :
    (updateIrq s).topReg r = s.topReg r := by
  rw [updateIrq, State.driveIrq_topReg, State.topReg_setTopReg_ne hw _ h (hr' := hr)]

theorem istsWrite_topReg {s : State} (hw : s.cfg.wf = true) (v : Word) {r : TopReg} (hr : r ∈ TopReg.all)
    (h : r ≠ .ists) : (istsWrite v s).topReg r = s.topReg r := by
  rw [istsWrite, updateIrq_topReg (by exact hw) hr h, State.topReg_setTopReg_ne hw _ h (hr' := hr)]

theorem enterTrap_topReg {s : State} (hw : s.cfg.wf = true) {r : TopReg} (hr : r ∈ TopReg.all) (hi : r ≠ .ists)
    (hf : r ≠ .fectl) : (enterTrap s).topReg r = s.topReg r := by
  rw [enterTrap, updateIrq_topReg (by exact hw) hr hi, State.topReg_setTopReg_ne (by exact hw) _ hi (hr' := hr),
    State.topReg_setTopReg_ne hw _ hf (hr' := hr)]

/-- An admitted effect leaves every named register that it does not store. -/
theorem Effect.apply_topReg {s : State} {e : Effect} {r : TopReg} (hw : s.cfg.wf = true) (hr : r ∈ TopReg.all)
    (ha : e.admitted s) (h : ¬e.stores s.cfg r) : (e.apply s).topReg r = s.topReg r := by
  cases e with
  | top r' v => exact State.topReg_setTopReg_ne hw v (Ne.symm h) ha hr
  | entry w a v =>
    have hne : ¬(Window.top = w ∧ s.cfg.addrOf r = a) := fun hx => h ⟨hx.1.symm, hx.2.symm⟩
    simp only [Effect.apply, State.topReg, State.setReg_cfg, State.reg_setReg, if_neg hne]
  | ists v => exact istsWrite_topReg hw v hr h
  | trap =>
    obtain ⟨hi, hf⟩ := not_or.mp h
    exact enterTrap_topReg hw hr hi hf
  | reset => exact absurd trivial h
  | _ => rfl

/-- A sequence of effects leaves every named register that none of them stores. -/
theorem Steps.topReg {K : Effect → Prop} {s t : State} {r : TopReg} (h : Steps K s t) (hw : s.cfg.wf = true)
    (hr : r ∈ TopReg.all) (hK : ∀ e, K e → ¬e.stores s.cfg r) : t.topReg r = s.topReg r := by
  induction h with
  | refl => rfl
  | step hu hk ha ih =>
    rw [Effect.apply_topReg (by rw [hu.cfg]; exact hw) hr ha (by rw [hu.cfg]; exact hK _ hk), ih]

theorem topWrite_reset {cfg : Config} {a : Nat} {v : Word} : ¬Effect.topWrite cfg a v .reset := by
  unfold Effect.topWrite
  split_ifs <;> exact nofun

theorem coprocWrite_reset {cfg : Config} {c : Coproc} {a : Nat} {v : Word} :
    ¬Effect.coprocWrite cfg c a v .reset := by
  simp [Effect.coprocWrite, Effect.rstWrite, Effect.call]

/-- Only device reset resets. -/
theorem mayDo_reset {cfg : Config} {i : Instr} (h : Effect.mayDo cfg i .reset) : i = .reset := by
  cases i with
  | reset => rfl
  | wTopPlain => exact absurd h topWrite_reset
  | topOutOfRange off acc => cases acc with
    | read => exact h.elim
    | write v => exact absurd h topWrite_reset
  | wSubwindow => exact absurd h coprocWrite_reset
  | gpepPlain c off acc | gpepOutOfRange c off acc => cases acc with
    | read => exact h.elim
    | write v => exact absurd h coprocWrite_reset
  | methodSubmit acc => cases acc <;> exact h.elim
  | setAntecedentVoice | setCurrentVoice | voiceOn | voiceOff | voicePause | wIsts | wRst | tick =>
    simp [Effect.mayDo, Effect.latches, Effect.voiceCommand, Effect.voices, Effect.rstWrite, Effect.call, Effect.tick,
      Effect.walk] at h
  | _ => exact h.elim

/-! ## The block's input registers -/

/-- Settles O12: an instruction but reset stores a register that the block never writes as an entry only, and that entry
is a host write of its offset. -/
theorem theBlockNeverWritesItsInputRegisters : Obligations.TheBlockNeverWritesItsInputRegisters := by
  intro i s t r hw hi h hr hn hreset hplain
  refine (exec_effects hw h).topReg hw hr fun e he hs => ?_
  cases e with
  | top r' v =>
    obtain rfl : r' = r := hs
    exact Bool.noConfusion ((mayDo_top he).2.symm.trans hn)
  | entry w a v =>
    obtain ⟨rfl, rfl⟩ := hs
    obtain ⟨-, -, -, off, ho, rfl | rfl⟩ := mayDo_entry he
    · exact hplain off v rfl ho
    · have hout := (Window.outOfRange_iff.mp hi).2
      have hin := (Config.addrOf_ok hw hr).2
      omega
  | ists v =>
    obtain rfl : r = .ists := hs
    cases hn
  | trap => obtain rfl | rfl : r = .ists ∨ r = .fectl := hs <;> cases hn
  | reset => exact hreset (mayDo_reset he)
  | _ => exact hs

/-! ## The latch of a command -/

/-- What a front-end command does after its latch (rules R231 to R238). -/
def Effect.afterLatch (e : Effect) : Prop :=
  e.voices ∨ e = .trap ∨ (∃ v, e = .top .feav v) ∨ ∃ v, e = .top .fecv v

theorem Effect.afterLatch_spares {e : Effect} (he : e.afterLatch) (cfg : Config) :
    ¬e.stores cfg .fedecmeth ∧ ¬e.stores cfg .fedecparam := by
  rcases he with he | rfl | ⟨v, rfl⟩ | ⟨v, rfl⟩
  · cases e with
    | top r v => cases r with
      | listTop l => exact ⟨nofun, nofun⟩
      | _ => exact he.elim
    | entry | ists | trap | reset => exact he.elim
    | _ => exact ⟨id, id⟩
  all_goals simp [Effect.stores]

theorem latch_topReg {s : State} (hw : s.cfg.wf = true) (op arg : Word) :
    (latch op arg s).topReg .fedecmeth = op ∧ (latch op arg s).topReg .fedecparam = arg :=
  ⟨(State.topReg_setTopReg_ne (by exact hw) arg (by decide)).trans (State.topReg_setTopReg_self ..),
    State.topReg_setTopReg_self ..⟩

/-- After its latch a command leaves FEDECMETH and FEDECPARAM alone, however it ends (rules R30, R231). -/
theorem Res.Does.latched {α : Type} {r : Res α} {s : State} {op arg : Word} (hw : s.cfg.wf = true)
    (hr : r.Does Effect.afterLatch (latch op arg s)) :
    r.All fun t => t.topReg .fedecmeth = op ∧ t.topReg .fedecparam = arg := by
  refine Res.All.mono hr fun t ht => ?_
  obtain ⟨hm, hp⟩ := latch_topReg hw op arg
  exact ⟨(ht.topReg hw (by decide) fun _ he => (Effect.afterLatch_spares he _).1).trans hm,
    (ht.topReg hw (by decide) fun _ he => (Effect.afterLatch_spares he _).2).trans hp⟩

theorem Effect.afterLatch_of_voices (e : Effect) (he : e.voices) : e.afterLatch := .inl he

theorem setAntecedentVoice_afterLatch (arg : Word) (s : State) :
    (setAntecedentVoice arg s).Does Effect.afterLatch s :=
  Steps.one (.top .feav arg) (.inr (.inr (.inl ⟨_, rfl⟩))) (TopReg.mem_all _ nofun)

theorem setCurrentVoice_afterLatch (arg : Word) (s : State) : (setCurrentVoice arg s).Does Effect.afterLatch s :=
  Steps.one (.top .fecv arg) (.inr (.inr (.inr ⟨_, rfl⟩))) (TopReg.mem_all _ nofun)

theorem idleVoiceNotify_afterLatch (s : State) : (idleVoiceNotify s).Does Effect.afterLatch s := by
  unfold idleVoiceNotify
  split
  · exact Steps.one .trap (.inr (.inl rfl)) trivial
  · exact Res.Does.raise _ (.inl trivial)

theorem feDispatch_afterLatch (op arg : Word) (src : FeSource) (s : State) :
    (feDispatch op arg src s).Does Effect.afterLatch (latch op arg s) := by
  unfold feDispatch
  dsimp only
  split_ifs
  · exact setAntecedentVoice_afterLatch ..
  · exact (voiceOn_does ..).mono Effect.afterLatch_of_voices
  · exact (vset_does ..).mono Effect.afterLatch_of_voices
  · exact (vset_does ..).mono Effect.afterLatch_of_voices
  · exact setCurrentVoice_afterLatch ..
  · exact idleVoiceNotify_afterLatch _
  · exact Res.Does.raise _ (.inl trivial)

/-- Settles O19: a command latches its pair first, and nothing it does after that stores either register. -/
theorem everyCommandLatchesItsPair : Obligations.EveryCommandLatchesItsPair := by
  intro s t i op arg hw h hi
  have voices {op : Word} {r : Res Unit} (hr : r.Does Effect.voices (latch op arg s)) :=
    (hr.mono Effect.afterLatch_of_voices).latched hw
  refine and_assoc.mp ⟨?_, fun r hr => Config.topPlain_key hw ?_ ?_⟩
  · simp only [List.mem_cons, List.not_mem_nil, or_false, Prod.mk.injEq] at hi
    rcases hi with ⟨rfl, rfl⟩ | ⟨rfl, rfl⟩ | ⟨rfl, rfl⟩ | ⟨rfl, rfl⟩ | ⟨rfl, rfl⟩ | ⟨rfl, rfl⟩ | ⟨rfl, -⟩ | ⟨rfl, -⟩
    · exact hostMethod_all h ((setAntecedentVoice_afterLatch ..).latched hw)
    · exact hostMethod_all h (voices (voiceOn_does ..))
    · exact hostMethod_all h (voices (vset_does ..))
    · exact hostMethod_all h (voices (vset_does ..))
    · exact hostMethod_all h ((setCurrentVoice_afterLatch ..).latched hw)
    · simp only [exec, execIdleVoiceNotify] at h
      split at h
      · exact event_all h ((idleVoiceNotify_afterLatch _).latched hw)
      · exact hostMethod_all h ((Res.Does.raise _ (.inl trivial)).latched hw)
    · exact hostMethod_all h ((feDispatch_afterLatch ..).latched hw)
    · exact hostMethod_all h ((feDispatch_afterLatch ..).latched hw)
  · fin_cases hr <;> decide
  · fin_cases hr <;> decide

end Sys2Proof.Machine
end

section
/-! Routes: which instruction a word of the opcode table names (rules R24, R39, R91), and what an access of the GP and EP
windows does by its offset (rules R21, R39, R40, R48, R129, R130, R132). -/

namespace Sys2Proof

theorem Config.coprocPlain_read_iff {cfg : Config} {c : Coproc} {off : Word} :
    cfg.coprocPlain c off .read = true ↔ aligned off = true ∧ off.toNat < c.window.size ∧
      (off.toNat = cfg.rstAddr c ∨ cfg.subwindowAt c off.toNat = none) := by
  simp [Config.coprocPlain, and_assoc]

theorem Config.coprocPlain_write_iff {cfg : Config} {c : Coproc} {off v : Word} :
    cfg.coprocPlain c off (.write v) = true ↔ aligned off = true ∧ off.toNat < c.window.size ∧
      off.toNat ≠ cfg.rstAddr c ∧ cfg.subwindowAt c off.toNat = none := by
  simp [Config.coprocPlain, and_assoc]

theorem Config.subwindowOffset_iff {cfg : Config} {c : Coproc} {off : Word} :
    cfg.subwindowOffset c off = true ↔ aligned off = true ∧ off.toNat < c.window.size ∧
      off.toNat ≠ cfg.rstAddr c ∧ (cfg.subwindowAt c off.toNat).isSome = true := by
  simp [Config.subwindowOffset, and_assoc]

/-- A row of P_SUBWINDOWS in the MIXBUF sub-window is a range of X memory (rule R48). -/
theorem Config.space_of_mixbuf {cfg : Config} (hw : cfg.wf = true) {c : Coproc} {a : Nat} {w : SubWindow}
    (h : cfg.subwindowAt c a = some w) (hb : w.wb = .mixbuf) : w.space = .x := by
  simp only [Config.wf, subwindowTableOk, Bool.and_eq_true, List.all_eq_true] at hw
  obtain ⟨⟨-, ⟨-, hmix⟩, -⟩, -⟩ := hw
  have := hmix w (List.mem_of_find?_eq_some h)
  simpa [SubWindow.mixbufOk, hb] using this

end Sys2Proof

namespace Sys2Proof.Machine

/-! ## Words of the opcode table -/

/-- Settles O17: the words and the default configuration are closed terms, so the decoder is run on them. -/
theorem opcodeTableWordsDecode : Obligations.OpcodeTableWordsDecode := by
  unfold Obligations.OpcodeTableWordsDecode
  decide

/-! ## Accesses of the GP and EP windows -/

theorem coprocAccess_read {c : Coproc} {off : Word} {s : State} (hl : s.live = true) (ha : aligned off = true) :
    coprocAccess c off .read s = .next (hostReadCoproc c off.toNat s) := by
  simp [coprocAccess, event_live hl, ha, Res.outcome]

theorem coprocAccess_write {c : Coproc} {off : Word} {s : State} (hl : s.live = true) (ha : aligned off = true)
    (v : Word) : coprocAccess c off (.write v) s = (hostWriteCoproc c off.toNat v s).outcome := by
  simp [coprocAccess, event_live hl, ha]

theorem hostReadCoproc_outOfRange {c : Coproc} {a : Nat} (h : c.window.size ≤ a) (s : State) :
    hostReadCoproc c a s = s.deliver 0#32 :=
  if_pos h

theorem hostReadCoproc_plain {c : Coproc} {a : Nat} {s : State} (hlt : a < c.window.size)
    (h : a = s.cfg.rstAddr c ∨ s.cfg.subwindowAt c a = none) : hostReadCoproc c a s = s.deliver (s.reg c.window a) := by
  rw [hostReadCoproc, if_neg (Nat.not_le.mpr hlt)]
  split_ifs with hrst
  · rfl
  · rw [h.resolve_left hrst]

theorem hostReadCoproc_subwindow {c : Coproc} {a : Nat} {s : State} {w : SubWindow} (hlt : a < c.window.size)
    (hrst : a ≠ s.cfg.rstAddr c) (h : s.cfg.subwindowAt c a = some w) :
    hostReadCoproc c a s = dspRead c w.space (w.dspAddr s.cfg a) s := by
  rw [hostReadCoproc, if_neg (Nat.not_le.mpr hlt), if_neg hrst, h]

theorem hostWriteCoproc_outOfRange {c : Coproc} {a : Nat} (h : c.window.size ≤ a) (v : Word) (s : State) :
    hostWriteCoproc c a v s = .ok () s :=
  if_pos h

theorem hostWriteCoproc_plain {c : Coproc} {a : Nat} {s : State} (hlt : a < c.window.size)
    (hrst : a ≠ s.cfg.rstAddr c) (h : s.cfg.subwindowAt c a = none) (v : Word) :
    hostWriteCoproc c a v s = .ok () (s.setReg c.window a v) := by
  rw [hostWriteCoproc, if_neg (Nat.not_le.mpr hlt), if_neg hrst, h]

theorem hostWriteCoproc_subwindow {c : Coproc} {a : Nat} {s : State} {w : SubWindow} (hlt : a < c.window.size)
    (hrst : a ≠ s.cfg.rstAddr c) (h : s.cfg.subwindowAt c a = some w) (v : Word) :
    hostWriteCoproc c a v s = .ok () (s.log (.dspWriteMemory c w.space (w.dspAddr s.cfg a) v)) := by
  rw [hostWriteCoproc, if_neg (Nat.not_le.mpr hlt), if_neg hrst, h]

/-- Settles O40: each range of offsets has its own equation of a host read. -/
theorem coprocReadsRouteByOffset : Obligations.CoprocReadsRouteByOffset := by
  intro s c off hl
  refine ⟨fun h => ?_, fun h => ?_, fun w h hw => ?_⟩
  · obtain ⟨ha, hle⟩ := Window.outOfRange_iff.mp h
    refine ⟨s.deliver 0#32, ?_, rfl, rfl⟩
    rw [← hostReadCoproc_outOfRange hle]
    exact coprocAccess_read hl ha
  · obtain ⟨ha, hlt, hp⟩ := Config.coprocPlain_read_iff.mp h
    refine ⟨s.deliver (s.reg c.window off.toNat), ?_, rfl, rfl⟩
    rw [← hostReadCoproc_plain hlt hp]
    exact coprocAccess_read hl ha
  · obtain ⟨ha, hlt, hrst, -⟩ := Config.subwindowOffset_iff.mp h
    refine ⟨dspRead c w.space (w.dspAddr s.cfg off.toNat) s, _, ?_, rfl, ?_, rfl⟩
    · rw [← hostReadCoproc_subwindow hlt hrst hw]
      exact coprocAccess_read hl ha
    · simp [dspRead, SubWindow.dspAddr]

/-- Settles O41: each range of offsets has its own equation of a host write. -/
theorem coprocWritesRouteByOffset : Obligations.CoprocWritesRouteByOffset := by
  intro s c off v hl
  have run {r : Res Unit} (ha : aligned off = true) (hr : hostWriteCoproc c off.toNat v s = r) :
      coprocAccess c off (.write v) s = r.outcome := by
    rw [coprocAccess_write hl ha, hr]
  refine ⟨fun h => ?_, fun h => ?_, fun w h hw => ?_⟩
  · obtain ⟨ha, hle⟩ := Window.outOfRange_iff.mp h
    exact run ha (hostWriteCoproc_outOfRange hle v s)
  · obtain ⟨ha, hlt, hrst, hn⟩ := Config.coprocPlain_write_iff.mp h
    refine ⟨_, run ha (hostWriteCoproc_plain hlt hrst hn v), ?_, fun w a hne => ?_, by cases c <;> rfl⟩
    · rw [State.reg_setReg, if_pos ⟨rfl, rfl⟩]
    · rw [State.reg_setReg, if_neg hne]
  · obtain ⟨ha, hlt, hrst, -⟩ := Config.subwindowOffset_iff.mp h
    refine ⟨_, run ha (hostWriteCoproc_subwindow hlt hrst hw v), State.log_calls .., fun hwf hb => ?_, rfl⟩
    rw [State.log_calls, Config.space_of_mixbuf hwf hw hb, SubWindow.dspAddr, hb]
    rfl

end Sys2Proof.Machine
end

section
/-! The state between events: the values of reset (rule R51), and the machine's invariant (rules R20 to R22, R42, R46,
R61, R125, R273), which holds at reset and which every step keeps. Each part of the invariant is a statement about the
effects an instruction is a sequence of: the canonical form of registers and memory, the interrupt line, and the rest
of the timer, the scheduler and the DSP cores between events. -/

namespace Sys2Proof

theorem Config.default_wf : Config.default.wf = true := by decide +kernel

end Sys2Proof

namespace Sys2Proof.Machine

/-! ## The values of reset -/

/-- Settles O3: no window has an entry at reset, and a head of 0 is a handle. -/
theorem resetStateHoldsTheResetValues : Obligations.ResetStateHoldsTheResetValues := by
  have reg (w : Window) (a : Nat) : State.reset.reg w a = 0#32 := by cases w <;> rfl
  refine ⟨reg, rfl, rfl, rfl, rfl, rfl, rfl, fun l => ⟨reg _ _, ?_⟩⟩
  rw [State.topReg, reg]
  decide

/-- Settles O5: the default configuration is well-formed, and the reset state is empty, idle and outside any call. -/
theorem invariantHoldsAtReset : Obligations.InvariantHoldsAtReset where
  cfg := Config.default_wf
  bank w := by cases w <;> rfl
  mem := rfl
  line := by decide
  call := rfl
  sched _ := rfl
  mix _ := rfl

/-! ## Canonical storage -/

/-- The part of the invariant that is about storage: a well-formed configuration, and the three windows and guest
memory in canonical form (rules R20 to R22, R61). -/
structure State.Canonical (s : State) : Prop where
  cfg : s.cfg.wf = true
  bank : ∀ w : Window, Bank.ok w (s.bank w) = true
  mem : Memory.ok s.cfg.ramSize s.mem = true

theorem State.Canonical.setReg {s : State} (h : s.Canonical) {w : Window} {a : Nat} (v : Word)
    (ha : a % 4 = 0 ∧ a < w.size) : (s.setReg w a v).Canonical where
  cfg := by rw [State.setReg_cfg]; exact h.cfg
  bank := Bank.ok_setReg h.bank v ha
  mem := by rw [State.setReg_cfg, State.setReg_mem]; exact h.mem

theorem State.Canonical.setTopReg {s : State} (h : s.Canonical) {r : TopReg} (hr : r ∈ TopReg.all) (v : Word) :
    (s.setTopReg r v).Canonical :=
  h.setReg v (Config.addrOf_ok h.cfg hr)

theorem State.Canonical.updateIrq {s : State} (h : s.Canonical) : (updateIrq s).Canonical :=
  have h' := h.setTopReg (r := .ists) (by decide) (s.cfg.istsAfterIrq (s.topReg .ien) (s.topReg .ists))
  ⟨h'.cfg, h'.bank, h'.mem⟩

/-- Every admitted effect keeps storage canonical. -/
theorem Effect.apply_canonical {s : State} {e : Effect} (h : s.Canonical) (ha : e.admitted s) :
    (e.apply s).Canonical := by
  cases e with
  | top r v => exact h.setTopReg ha v
  | entry w a v => exact h.setReg v ha
  | race => exact ⟨h.cfg, h.bank, State.race_ok h.mem⟩
  | store p v => exact ⟨h.cfg, h.bank, Memory.ok_store h.mem ha⟩
  | run p bytes => exact ⟨h.cfg, h.bank, Memory.ok_store h.mem ha⟩
  | ists v => exact (h.setTopReg (by decide) _).updateIrq
  | trap => exact ((h.setTopReg (by decide) _).setTopReg (by decide) _).updateIrq
  | reset => exact ⟨h.cfg, fun w => by cases w <;> rfl, h.mem⟩
  | _ => exact ⟨h.cfg, h.bank, h.mem⟩

theorem Steps.canonical {K : Effect → Prop} {s t : State} (h : Steps K s t) (hs : s.Canonical) : t.Canonical :=
  h.rec_inv (fun _ _ _ ha hu => Effect.apply_canonical hu ha) hs

/-! ## The interrupt line -/

/-- ISTS.G shows the level of the interrupt line (rules R125, R306). -/
def State.ShowsLine (s : State) : Prop :=
  (s.topReg .ists &&& s.cfg.field.istsGlobal) != 0#32 ↔ s.irqLine = true

/-- An evaluation and device reset make ISTS.G show the line; any other effect that stores no ISTS leaves both. -/
theorem Effect.apply_showsLine {s : State} {e : Effect} (hw : s.cfg.wf = true) (h : s.ShowsLine) (ha : e.admitted s)
    (htop : ∀ r v, e = .top r v → r ≠ .ists) (hentry : ∀ a v, e = .entry .top a v → a ≠ s.cfg.addrOf .ists) :
    (e.apply s).ShowsLine := by
  have kept (hi : ¬e.stores s.cfg .ists) (hl : (e.apply s).irqLine = s.irqLine) : (e.apply s).ShowsLine := by
    rw [State.ShowsLine, Effect.apply_topReg hw (by decide) ha hi, Effect.apply_cfg, hl]
    exact h
  cases e with
  | ists v => exact updateIrq_line (by exact hw)
  | trap => exact updateIrq_line (by exact hw)
  | reset => simp [Effect.apply, State.ShowsLine, State.topReg, State.reg, State.bank, Cells.get]
  | top r v => exact kept (fun hr => htop r v rfl hr) rfl
  | entry w a v =>
    refine kept ?_ (State.setReg_irqLine ..)
    rintro ⟨rfl, rfl⟩
    exact hentry _ v rfl rfl
  | _ => exact kept id rfl

/-- No instruction stores ISTS but through an evaluation of the line. -/
theorem exec_showsLine {i : Instr} {s t : State} (hw : s.cfg.wf = true) (h : exec i s = .next t) (hs : s.ShowsLine) :
    t.ShowsLine := by
  suffices t.cfg = s.cfg ∧ t.ShowsLine from this.2
  refine (exec_effects hw h).rec_inv (P := fun u => u.cfg = s.cfg ∧ u.ShowsLine) (fun e u he ha ⟨hc, hu⟩ => ?_) ⟨rfl, hs⟩
  refine ⟨(e.apply_cfg u).trans hc, Effect.apply_showsLine (by rw [hc]; exact hw) hu ha ?_ ?_⟩
  · rintro r v rfl
    exact (mayDo_top he).1
  · rintro a v rfl
    rw [hc]
    exact (mayDo_entry he).1

/-! ## The state between events -/

/-- No tick runs: the scheduler's state is a function of the timer's, and there is no mix buffer (rules R42, R46). -/
structure State.OffTick (s : State) : Prop where
  sched : s.sched = schedOutsideTick s.timerArmed
  mix : s.mix = none

/-- No tick runs, and control is in no DSP call (rules R42, R46, R273). -/
structure State.AtRest (s : State) : Prop extends s.OffTick where
  call : s.inCall = none

/-- The kind holds no effect that moves the scheduler or makes a mix buffer. Device reset is no such effect: it leaves
the device idle. -/
structure Effect.SparesTick (K : Effect → Prop) : Prop where
  arm : ¬K .arm
  disarm : ¬K .disarm
  sched : ∀ q, ¬K (.sched q)
  startMix : ¬K .startMix

theorem Steps.offTick {K : Effect → Prop} {s t : State} (h : Steps K s t) (hK : Effect.SparesTick K) (hs : s.OffTick) :
    t.OffTick := by
  refine h.rec_inv (fun e u he _ hu => ?_) hs
  cases e with
  | arm => exact (hK.arm he).elim
  | disarm => exact (hK.disarm he).elim
  | sched q => exact (hK.sched q he).elim
  | startMix => exact (hK.startMix he).elim
  | discardMix => exact ⟨hu.sched, rfl⟩
  | mix h => exact ⟨hu.sched, by simp [Effect.apply, contribute, hu.mix]⟩
  | reset => exact ⟨rfl, rfl⟩
  | entry w a v => exact ⟨by simp [Effect.apply, hu.sched], by simp [Effect.apply, hu.mix]⟩
  | _ => exact ⟨hu.sched, hu.mix⟩

theorem Steps.inCall {K : Effect → Prop} {s t : State} (h : Steps K s t) (hK : ∀ c, ¬K (.inCall c))
    (hs : s.inCall = none) : t.inCall = none := by
  refine h.rec_inv (P := fun u => u.inCall = none) (fun e u he _ hu => ?_) hs
  cases e with
  | inCall c => exact (hK c he).elim
  | entry w a v => exact (State.setReg_inCall ..).trans hu
  | reset => rfl
  | _ => exact hu

theorem Steps.atRest {K : Effect → Prop} {s t : State} (h : Steps K s t) (hT : Effect.SparesTick K)
    (hC : ∀ c, ¬K (.inCall c)) (hs : s.AtRest) : t.AtRest where
  toOffTick := h.offTick hT hs.toOffTick
  call := h.inCall hC hs.call

/-! ## Operations that start and end between events -/

theorem sectlWrite_atRest (v : Word) {s : State} (hs : s.AtRest) : (sectlWrite v s).AtRest := by
  unfold sectlWrite
  split
  · exact ⟨⟨rfl, hs.mix⟩, hs.call⟩
  · exact ⟨⟨rfl, hs.mix⟩, hs.call⟩

theorem hostWriteTop_sectl {s : State} (hw : s.cfg.wf = true) (v : Word) :
    hostWriteTop (s.cfg.addrOf .sectl) v s = .ok () (sectlWrite v s) := by
  rw [hostWriteTop, if_neg (Nat.not_le.mpr (Config.addrOf_ok hw (by decide)).2),
    if_neg (Config.addrOf_ne hw (r := .sectl) (r' := .ists) nofun), if_pos rfl]

/-- A TOP write elsewhere than at SECTL moves no timer. -/
theorem topWrite_cases {cfg : Config} {a : Nat} {v : Word} {e : Effect} (h : a ≠ cfg.addrOf .sectl)
    (he : e.topWrite cfg a v) : e = .ists v ∨ e.notify v ∨ e = .entry .top a v := by
  unfold Effect.topWrite at he
  split_ifs at he
  · exact .inl he
  · exact .inr (.inl he)
  · exact .inr (.inr he)

theorem hostWriteTop_atRest {a : Nat} {s : State} (hw : s.cfg.wf = true) (ha : a % 4 = 0) (v : Word) (hs : s.AtRest) :
    (hostWriteTop a v s).All State.AtRest := by
  by_cases h : a = s.cfg.addrOf .sectl
  · rw [h, hostWriteTop_sectl hw]
    exact sectlWrite_atRest v hs
  · refine Res.All.mono (hostWriteTop_does a v s ha) fun t ht => ?_
    exact (ht.mono fun _ => topWrite_cases h).atRest (by constructor <;> simp [Effect.notify])
      (by simp [Effect.notify]) hs

theorem hostRead_atRest {s t : State} (h : Steps Effect.hostRead s t) (hs : s.AtRest) : t.AtRest :=
  h.atRest ⟨id, id, fun _ => id, id⟩ (fun _ => id) hs

theorem topAccess_atRest {off : Word} {acc : Access} {s t : State} (hw : s.cfg.wf = true)
    (h : topAccess off acc s = .next t) (hs : s.AtRest) : t.AtRest := by
  refine event_all h ?_
  split_ifs with ha
  · cases acc with
    | read => exact hostRead_atRest (hostReadTop_steps ..) hs
    | write v => exact hostWriteTop_atRest hw (by simpa [aligned] using ha) v hs
  · trivial

theorem Res.All.and {α : Type} {P Q : State → Prop} {r : Res α} (hp : r.All P) (hq : r.All Q) :
    r.All fun t => P t ∧ Q t := by
  cases r with
  | ok a t => exact ⟨hp, hq⟩
  | halted t => exact ⟨hp, hq⟩
  | refused e => trivial

theorem call_sparesTick : Effect.SparesTick Effect.call := ⟨id, id, fun _ => id, id⟩

/-- A call into a DSP core starts and ends with control in no call (rule R273). -/
theorem Res.All.atRest_of_call {α : Type} {r : Res α} {s : State} (hr : r.Does Effect.call s) (hs : s.AtRest)
    (hc : r.All fun t => t.inCall = none) : r.All State.AtRest :=
  (Res.All.and hr hc).mono fun _ ⟨ht, hc⟩ => ⟨ht.offTick call_sparesTick hs.toOffTick, hc⟩

theorem clearFifoCursors_inCall (c : Coproc) (s : State) : (clearFifoCursors c s).inCall = s.inCall := rfl

theorem rstEdge_inCall (c : Coproc) (old v : Word) {s : State} (hs : s.inCall = none) :
    (rstEdge c old v s).All fun t => t.inCall = none := by
  unfold rstEdge
  split_ifs
  · exact hs
  · exact dspCall_inCall ..
  · refine (dspCall_inCall ..).bind (fun _ t ht => ?_) fun _ => id
    show (if _ then _ else _ : State).inCall = none
    split_ifs
    · exact (clearFifoCursors_inCall c t).trans ht
    · exact ht

theorem rstWrite_atRest (c : Coproc) (v : Word) {s : State} (hs : s.AtRest) : (rstWrite c v s).All State.AtRest := by
  refine (Res.All.atRest_of_call (rstEdge_does c _ v s) hs (rstEdge_inCall c _ v hs.call)).bind (fun _ t ht => ?_)
    fun _ => id
  exact ⟨⟨by simp [ht.sched], by simp [ht.mix]⟩, by simp [ht.call]⟩

theorem hostWriteCoproc_rst {c : Coproc} {s : State} (hw : s.cfg.wf = true) (v : Word) :
    hostWriteCoproc c (s.cfg.rstAddr c) v s = rstWrite c v s := by
  rw [hostWriteCoproc, if_neg (Nat.not_le.mpr (Config.rstAddr_ok hw c).2), if_pos rfl]

theorem hostWriteCoproc_atRest {c : Coproc} {a : Nat} {s : State} (hw : s.cfg.wf = true) (ha : a % 4 = 0) (v : Word)
    (hs : s.AtRest) : (hostWriteCoproc c a v s).All State.AtRest := by
  by_cases h : a = s.cfg.rstAddr c
  · rw [h, hostWriteCoproc_rst hw]
    exact rstWrite_atRest c v hs
  · have hd := hostWriteCoproc_does c a v s ha hw
    simp only [Effect.coprocWrite, if_neg h] at hd
    exact Res.All.mono hd fun t ht => ht.atRest (by constructor <;> simp) (by simp) hs

theorem coprocAccess_atRest {c : Coproc} {off : Word} {acc : Access} {s t : State} (hw : s.cfg.wf = true)
    (h : coprocAccess c off acc s = .next t) (hs : s.AtRest) : t.AtRest := by
  refine event_all h ?_
  split_ifs with ha
  · cases acc with
    | read => exact hostRead_atRest (hostReadCoproc_steps ..) hs
    | write v => exact hostWriteCoproc_atRest hw (by simpa [aligned] using ha) v hs
  · trivial

theorem command_atRest {s t : State} (h : Steps Effect.command s t) (hs : s.AtRest) : t.AtRest :=
  h.atRest ⟨id, id, fun _ => id, id⟩ (fun _ => id) hs

theorem request_atRest {s t : State} (h : Steps Effect.request s t) (hs : s.AtRest) : t.AtRest :=
  h.atRest ⟨id, id, fun _ => id, id⟩ (fun _ => id) hs

theorem Effect.command_of_voiceCommand (e : Effect) (h : e.voiceCommand) : e.command :=
  h.elim e.command_of_voices e.command_of_latches

/-- Every instruction but a tick takes the device from rest to rest, whether it completes or ends it. -/
theorem exec_atRest {i : Instr} {s t : State} (hw : s.cfg.wf = true) (hi : i ≠ .tick) (h : exec i s = .next t)
    (hs : s.AtRest) : t.AtRest := by
  have he := exec_effects hw h
  cases i with
  | tick => exact absurd rfl hi
  | wTopPlain off v => exact topAccess_atRest hw (acc := .write v) h hs
  | topOutOfRange off acc => exact topAccess_atRest hw h hs
  | wSectl v => exact event_all (r := .ok () (sectlWrite v s)) h (sectlWrite_atRest v hs)
  | wRst c v => exact event_all h (rstWrite_atRest c v hs)
  | wSubwindow c off v => exact coprocAccess_atRest hw (acc := .write v) h hs
  | gpepPlain c off acc => exact coprocAccess_atRest hw h hs
  | gpepOutOfRange c off acc => exact coprocAccess_atRest hw h hs
  | setAntecedentVoice | setCurrentVoice =>
    exact command_atRest (he.mono fun e h => h.elim e.command_of_latches (by rintro ⟨v, rfl⟩; trivial)) hs
  | voiceOn | voiceOff | voicePause => exact command_atRest (he.mono Effect.command_of_voiceCommand) hs
  | unknownMethod => exact command_atRest he hs
  | methodSubmit acc => cases acc with
    | submit op arg => exact command_atRest he hs
    | read => exact hostRead_atRest he hs
  | rXgscnt | rTopPlain | rSubwindow => exact hostRead_atRest he hs
  | scratchReq | fifoReq => exact request_atRest he hs
  | idleVoiceNotify | wFememdata => exact he.atRest ⟨id, id, fun _ => id, id⟩ (fun _ => id) hs
  | wIsts | reset => exact he.atRest ⟨nofun, nofun, nofun, nofun⟩ nofun hs

/-! ## How the parts of a tick end -/

theorem checkHandle_ends (h : Word) (s : State) : (checkHandle h s).Ends s := by
  unfold checkHandle
  split
  · exact ⟨rfl, rfl, rfl⟩
  · exact raise_ends ..

theorem memWrite32_ends (p : Nat) (v : Word) (s : State) : (memWrite32 p v s).Ends s := by
  unfold memWrite32
  split
  · exact ⟨rfl, rfl, rfl⟩
  · exact raise_ends ..

theorem vget_ends (h : Word) (off : Nat) (mask : Word) (s : State) : (vget h off mask s).Ends s :=
  (checkHandle_ends h s).bind fun _ _ => (memRead32_ends ..).bind fun _ _ => ⟨rfl, rfl, rfl⟩

theorem vset_ends (h : Word) (off : Nat) (mask x : Word) (s : State) : (vset h off mask x s).Ends s :=
  (checkHandle_ends h s).bind fun _ _ => (memRead32_ends ..).bind fun _ _ => memWrite32_ends ..

theorem voiceOn_ends (arg : Word) (s : State) : (voiceOn arg s).Ends s := by
  refine Res.Ends.bind ?_ fun _ _ => vset_ends ..
  split
  · exact (vset_ends ..).bind fun _ _ => ⟨rfl, rfl, rfl⟩
  · unfold insertAfter
    split
    · exact raise_ends ..
    · exact (vget_ends ..).bind fun _ _ => (vset_ends ..).bind fun _ _ => vset_ends ..

theorem idleVoiceNotify_ends (s : State) : (idleVoiceNotify s).Ends s := by
  unfold idleVoiceNotify
  split
  · exact ⟨rfl, rfl, rfl⟩
  · exact raise_ends ..

/-- A command completes on a device as live as it was, or ends the device (rules R230, R302). -/
theorem feDispatch_ends (op arg : Word) (src : FeSource) (s : State) : (feDispatch op arg src s).Ends s := by
  suffices (feDispatch op arg src s).Ends (latch op arg s) from this.of_same rfl rfl rfl
  unfold feDispatch
  dsimp only
  split_ifs
  · exact ⟨rfl, rfl, rfl⟩
  · exact voiceOn_ends ..
  · exact vset_ends ..
  · exact vset_ends ..
  · exact ⟨rfl, rfl, rfl⟩
  · exact idleVoiceNotify_ends _
  · exact raise_ends ..

theorem visitVoice_ends (h : Word) (s : State) : (visitVoice h s).Ends s := by
  refine (vget_ends ..).bind fun a t => ?_
  split
  · exact feDispatch_ends ..
  · exact ⟨rfl, rfl, rfl⟩

theorem walkRound_ends (l : ListId) (s : State) : (walkRound l s).Ends s := by
  refine (vget_ends ..).bind fun n t => ?_
  have hv := visitVoice_ends (s.topReg (.listCurrent l)) (t.setTopReg (.listNext l) n)
  refine Res.Ends.bind (hv.of_same rfl rfl rfl) fun _ u => ?_
  exact ⟨rfl, rfl, rfl⟩

theorem walk_succ (l : ListId) (fuel : Nat) (s : State) :
    walk l (fuel + 1) s =
      if s.topReg (.listCurrent l) = noVoice then .ok () s else (walkRound l s).bind fun _ t => walk l fuel t := by
  rw [walk]
  split_ifs
  · rfl
  · cases walkRound l s <;> rfl

theorem walk_ends (l : ListId) (fuel : Nat) (s : State) : (walk l fuel s).Ends s := by
  induction fuel generalizing s with
  | zero =>
    unfold walk
    split
    · exact ⟨rfl, rfl, rfl⟩
    · exact hang_ends s
  | succ fuel ih =>
    rw [walk_succ]
    split
    · exact ⟨rfl, rfl, rfl⟩
    · exact (walkRound_ends l s).bind fun _ t => ih t

theorem traverse_ends (l : ListId) (s : State) : (traverse l s).Ends s :=
  (walk_ends ..).of_same rfl rfl rfl

theorem serveRequests_ends (c : Coproc) (qs : List DspReq) (s : State) : (serveRequests c qs s).Ends s := by
  induction qs generalizing s with
  | nil => exact ⟨rfl, rfl, rfl⟩
  | cons q qs ih => exact (serveRequest_ends c s q).bind fun _ t => ih t

/-- A call into a DSP core that starts outside any call completes on a device as live as it was, or ends it. -/
theorem dspCall_ends (c : Coproc) (call : Call) {s : State} (hs : s.inCall = none) : (dspCall c call s).Ends s := by
  have h := serveRequests_ends c s.nextAnswer (((s.log call).takeAnswer).setInCall (some c))
  unfold dspCall
  cases hr : serveRequests c s.nextAnswer (((s.log call).takeAnswer).setInCall (some c)) with
  | ok a t =>
    rw [hr] at h
    obtain ⟨hf, hh, -⟩ := h
    exact ⟨hf, hh, hs.symm⟩
  | halted t =>
    rw [hr] at h
    exact h
  | refused e => trivial

/-! ## A tick -/

/-- A tick runs in a well-formed configuration: the timer is armed again, and control is in no DSP call (rules R263,
R273). -/
structure State.Ticking (s : State) : Prop where
  cfg : s.cfg.wf = true
  armed : s.timerArmed = true
  call : s.inCall = none

/-- The operation goes on in a state that meets `P`, or ends the device outside any DSP call. -/
def Res.Reaches {α : Type} (P : State → Prop) : Res α → Prop
  | .ok _ t => P t
  | .halted t => t.live = false ∧ t.inCall = none
  | .refused _ => True

theorem Res.Reaches.bind {α β : Type} {P Q : State → Prop} {r : Res α} {k : α → State → Res β} (hr : r.Reaches P)
    (hk : ∀ a t, P t → (k a t).Reaches Q) : (r.bind k).Reaches Q := by
  cases r with
  | ok a t => exact hk a t hr
  | halted t => exact hr
  | refused e => trivial

theorem Res.Reaches.all {α : Type} {P : State → Prop} {r : Res α} (h : r.Reaches P) :
    r.All fun t => P t ∨ t.live = false ∧ t.inCall = none := by
  cases r with
  | ok a t => exact .inl h
  | halted t => exact .inr h
  | refused e => trivial

theorem Res.Ends.reaches_ticking {α : Type} {r : Res α} {s : State} (he : r.Ends s) (ht : r.All State.Ticking) :
    r.Reaches State.Ticking := by
  cases r with
  | ok a t => exact ht
  | halted t => exact ⟨he, ht.call⟩
  | refused e => trivial

/-- Once the timer is armed again, effects that neither disarm it nor reset the device leave it armed. -/
theorem Steps.timerArmed {K : Effect → Prop} {s t : State} (h : Steps K s t) (hd : ¬K .disarm) (hr : ¬K .reset)
    (hs : s.timerArmed = true) : t.timerArmed = true := by
  refine h.rec_inv (P := fun u => u.timerArmed = true) (fun e u he _ hu => ?_) hs
  cases e with
  | disarm => exact (hd he).elim
  | reset => exact (hr he).elim
  | entry w a v => exact (State.setReg_timerArmed ..).trans hu
  | arm => rfl
  | _ => exact hu

theorem traverse_ticking (l : ListId) {s : State} (hs : s.Ticking) : (traverse l s).Reaches State.Ticking :=
  (traverse_ends l s).reaches_ticking <| Res.All.mono (traverse_does l s hs.cfg) fun _ ht =>
    ⟨by rw [ht.cfg]; exact hs.cfg, ht.timerArmed id id hs.armed, ht.inCall (fun _ => id) hs.call⟩

theorem dspCall_ticking {c : Coproc} {call : Call} (hk : Effect.call (.log call)) (hp : call.plain = true) {s : State}
    (hs : s.Ticking) : (dspCall c call s).Reaches State.Ticking := by
  refine (dspCall_ends c call hs.call).reaches_ticking ?_
  refine (Res.All.and (dspCall_does c call hk hp s) (dspCall_inCall c call s)).mono fun t ⟨ht, hc⟩ => ?_
  exact ⟨by rw [ht.cfg]; exact hs.cfg, ht.timerArmed id id hs.armed, hc⟩

theorem State.Ticking.publish {s : State} (hs : s.Ticking) : (publish s).Ticking := by
  have logged (cs : List Call) : (s.logAll cs).Ticking := ⟨hs.cfg, hs.armed, hs.call⟩
  exact logged _

theorem kickGp_ticking {s : State} (hs : s.Ticking) : (kickGp s).Reaches State.Ticking := by
  unfold kickGp
  split
  · exact (dspCall_ticking (by exact trivial) rfl hs).bind fun _ t ht => dspCall_ticking (by exact trivial) rfl ht
  · exact hs

theorem kickEp_ticking {s : State} (hs : s.Ticking) : (kickEp s).Reaches State.Ticking := by
  unfold kickEp
  split
  · exact dspCall_ticking (by exact trivial) rfl hs
  · exact hs

/-- A tick that completes leaves the scheduler Scheduled and no mix buffer (rule R271); one that does not complete ends
the device. -/
theorem frameTick_reaches_atRest {s : State} (hw : s.cfg.wf = true) (hs : s.inCall = none) :
    (frameTick s).Reaches State.AtRest := by
  have start : (startMix (s.armTimer.setSched .running)).Ticking := ⟨hw, rfl, hs⟩
  refine (traverse_ticking .l2d start).bind fun _ t ht => ?_
  refine (traverse_ticking .l3d ht).bind fun _ t ht => ?_
  refine (traverse_ticking .mp ht).bind fun _ t ht => ?_
  refine (kickGp_ticking ht.publish).bind fun _ t ht => ?_
  refine (kickEp_ticking ht).bind fun _ t ht => ?_
  exact ⟨⟨(congrArg schedOutsideTick ht.armed).symm, rfl⟩, ht.call⟩

theorem execTick_atRest {s t : State} (hw : s.cfg.wf = true) (h : execTick s = .next t) (hs : s.AtRest) :
    t.AtRest ∨ t.live = false ∧ t.inCall = none := by
  refine event_all (P := fun t => t.AtRest ∨ t.live = false ∧ t.inCall = none) h ?_
  split_ifs
  · exact (frameTick_reaches_atRest hw hs.call).all
  · trivial

/-! ## Every step keeps the invariant -/

/-- Every instruction but device reset is an event, which a Faulted or Hung device refuses (rules R272, R302, R305). -/
theorem exec_eq_event {i : Instr} (hi : i ≠ .reset) (s : State) : ∃ r : Res Unit, exec i s = event s r := by
  cases i with
  | reset => exact absurd rfl hi
  | idleVoiceNotify arg =>
    by_cases hr : s.sched = .running
    · exact ⟨_, if_pos hr⟩
    · exact ⟨_, if_neg hr⟩
  | methodSubmit acc => cases acc <;> exact ⟨_, rfl⟩
  | _ => exact ⟨_, rfl⟩

theorem exec_next_live {i : Instr} {s t : State} (hi : i ≠ .reset) (h : exec i s = .next t) : s.live = true := by
  obtain ⟨r, hr⟩ := exec_eq_event hi s
  obtain ⟨hf, hh, -⟩ := event_next (hr.symm.trans h)
  simp [State.live, hf, hh]

theorem State.Inv.canonical {s : State} (h : s.Inv) : s.Canonical := ⟨h.cfg, h.bank, h.mem⟩

theorem State.Inv.atRest {s : State} (h : s.Inv) (hl : s.live = true) : s.AtRest := ⟨⟨h.sched hl, h.mix hl⟩, h.call⟩

/-- The invariant from its parts: storage, the line, and a device at rest or ended outside any call. -/
theorem State.Inv.of_parts {s : State} (hc : s.Canonical) (hl : s.ShowsLine)
    (hr : s.AtRest ∨ s.live = false ∧ s.inCall = none) : s.Inv where
  cfg := hc.cfg
  bank := hc.bank
  mem := hc.mem
  line := hl
  call := hr.elim (·.call) (·.2)
  sched hlive := hr.elim (·.sched) fun hd => absurd (hlive.symm.trans hd.1) (by decide)
  mix hlive := hr.elim (·.mix) fun hd => absurd (hlive.symm.trans hd.1) (by decide)

theorem deviceReset_atRest (s : State) : (deviceReset s).AtRest := ⟨⟨rfl, rfl⟩, rfl⟩

/-- Every instruction keeps the invariant. -/
theorem exec_inv {i : Instr} {s t : State} (hs : s.Inv) (h : exec i s = .next t) : t.Inv := by
  refine .of_parts ((exec_effects hs.cfg h).canonical hs.canonical) (exec_showsLine hs.cfg h hs.line) ?_
  by_cases hreset : i = .reset
  · subst hreset
    cases h
    exact .inl (deviceReset_atRest s)
  have hrest := hs.atRest (exec_next_live hreset h)
  by_cases htick : i = .tick
  · subst htick
    exact execTick_atRest hs.cfg h hrest
  · exact .inl (exec_atRest hs.cfg htick h hrest)

/-- A store of the guest CPU writes guest memory alone, and inside its size (rules R61, R67). -/
theorem guestStore_inv {a : Nat} {v : Word} {s t : State} (hs : s.Inv) (h : guestStore a v s = .next t) : t.Inv := by
  unfold guestStore at h
  split at h
  · next ha =>
    cases h
    exact ⟨hs.cfg, hs.bank, Memory.ok_store hs.mem ha, hs.line, hs.call, hs.sched, hs.mix⟩
  · cases h

/-- What a step that answers a next state is: a store of the guest CPU, or an instruction, on the state without its
packet (rules R4, R66, R67). -/
theorem step_next {s t : State} (h : step s = .next t) :
    ∃ rest, (∃ a v, guestStore a v { s with inbox := rest } = .next t) ∨ ∃ i, exec i { s with inbox := rest } = .next t := by
  cases hi : s.inbox with
  | nil => cases (step_of_nil hi).symm.trans h
  | cons p rest =>
    refine ⟨rest, ?_⟩
    cases hg : decodeGuestStore p with
    | some x => exact .inl ⟨x.1, x.2, (step_of_guestStore hi hg).symm.trans h⟩
    | none =>
      cases hd : decode s.cfg p with
      | ok i => exact .inr ⟨i, (step_of_event hi hd).symm.trans h⟩
      | error e => cases (step_of_undecodable hi hg hd).symm.trans h

/-- Settles O6: a step is a store of the guest CPU or an instruction, and both keep the invariant. -/
theorem everyStepKeepsTheInvariant : Obligations.EveryStepKeepsTheInvariant := by
  intro s t hs h
  obtain ⟨rest, ⟨a, v, hg⟩ | ⟨i, hi⟩⟩ := step_next h
  all_goals have hs' : { s with inbox := rest }.Inv := ⟨hs.cfg, hs.bank, hs.mem, hs.line, hs.call, hs.sched, hs.mix⟩
  · exact guestStore_inv hs' hg
  · exact exec_inv hs' hi

end Sys2Proof.Machine
end

section
/-! What leaves guest memory alone (rule R65): the effects that spare it, and the instructions that are sequences of
such effects; and the width and alignment that a host access of a register window needs (rule R63). -/

namespace Sys2Proof

theorem Config.topPlainWrite_iff {cfg : Config} {off : Word} :
    cfg.topPlainWrite off = true ↔ aligned off = true ∧ off.toNat < Window.top.size ∧ off.toNat ≠ cfg.addrOf .ists ∧
      off.toNat ≠ cfg.addrOf .sectl ∧ off.toNat ≠ cfg.addrOf .fememdata := by
  simp [Config.topPlainWrite, and_assoc]

/-! ## The packet of a host access -/

theorem decode_packet (cfg : Config) (key v : Word) {f : Form} (h : f.width < 256) :
    decode cfg (packet key f v) = decodeForm cfg key v [] f := by
  simp [packet, decode, Form.ofWord_word f h]

theorem decodeAccess_ok {rd : Bool} {v : Word} (h : rd = true → v = 0#32) : ∃ acc, decodeAccess rd v = .ok acc := by
  cases rd with
  | true => exact ⟨.read, by simp [decodeAccess, h rfl]⟩
  | false => exact ⟨.write v, rfl⟩

theorem decodeAdmitted_refused {off v : Word} {rd : Bool} {width : Nat} (h : ¬(width = 32 ∧ off.toNat % 4 = 0))
    (k : Access → Except DecodeError Instr) : decodeAdmitted off rd width v k = .error .unsupportedAccess :=
  if_neg (by simpa [admittedWidth, aligned] using h)

theorem decodeAdmitted_admitted {off v : Word} {rd : Bool} {acc : Access} (h : off.toNat % 4 = 0)
    (hacc : decodeAccess rd v = .ok acc) (k : Access → Except DecodeError Instr) :
    decodeAdmitted off rd 32 v k = k acc := by
  simp [decodeAdmitted, admittedWidth, aligned, h, hacc]

/-- A host access of a register window decodes through the admitted subset, to the instruction of its window
(rules R63, R96). -/
theorem decode_window {f : Form} {rd : Bool} {c : Coproc} {width : Nat} (hw : width < 256)
    (hf : f ∈ [Form.top rd width, .coproc c rd width]) (cfg : Config) (off v : Word) :
    ∃ k : Access → Instr, decode cfg (packet off f v) = decodeAdmitted off rd width v fun acc => .ok (k acc) := by
  simp only [List.mem_cons, List.not_mem_nil, or_false] at hf
  rcases hf with rfl | rfl
  · exact ⟨decodeTop cfg off, decode_packet cfg off v hw⟩
  · exact ⟨decodeCoproc cfg c off, decode_packet cfg off v hw⟩

end Sys2Proof

namespace Sys2Proof.Machine

/-! ## Guest memory -/

/-- The effect leaves guest memory alone: it is no store of the block, and lets no store of the guest CPU in
(rule R65). -/
def Effect.sparesMem : Effect → Prop
  | .race => False
  | .store _ _ => False
  | .run _ _ => False
  | _ => True

theorem Effect.apply_mem {e : Effect} (h : e.sparesMem) (s : State) : (e.apply s).mem = s.mem := by
  cases e with
  | race | store | run => exact h.elim
  | _ => simp [Effect.apply, istsWrite, enterTrap, updateIrq]

theorem Steps.mem {K : Effect → Prop} {s t : State} (h : Steps K s t) (hK : ∀ e, K e → e.sparesMem) :
    t.mem = s.mem :=
  h.rec_inv (P := fun u => u.mem = s.mem) (fun e u he _ hu => (Effect.apply_mem (hK e he) u).trans hu) rfl

theorem Effect.sparesMem_of_latches {e : Effect} (h : e.latches) : e.sparesMem := by
  cases e with
  | top => exact trivial
  | _ => exact h.elim

theorem Effect.sparesMem_of_hostRead {e : Effect} (h : e.hostRead) : e.sparesMem := by
  cases e with
  | race | store | run => exact h.elim
  | _ => exact trivial

theorem Effect.sparesMem_of_notification {e : Effect} (h : e.notification) : e.sparesMem := by
  cases e with
  | race | store | run => exact h.elim
  | _ => exact trivial

theorem Effect.sparesMem_of_sectl {v : Word} {e : Effect} (h : e.sectl v) : e.sparesMem := by
  cases e with
  | race | store | run => exact h.elim
  | _ => exact trivial

/-- Of the writes of TOP, only the notify write stores to guest memory (rules R122, R127). -/
theorem Effect.sparesMem_of_topWrite {cfg : Config} {a : Nat} {v : Word} {e : Effect} (ha : a ≠ cfg.addrOf .fememdata)
    (h : e.topWrite cfg a v) : e.sparesMem := by
  unfold Effect.topWrite at h
  split_ifs at h
  · subst h; trivial
  · exact Effect.sparesMem_of_sectl h
  · subst h; trivial

/-- Of the writes of GP and EP, only the reset register's calls a DSP core, whose requests may store (rule R130). -/
theorem Effect.sparesMem_of_coprocWrite {cfg : Config} {c : Coproc} {a : Nat} {v : Word} {e : Effect}
    (ha : a ≠ cfg.rstAddr c) (h : e.coprocWrite cfg c a v) : e.sparesMem := by
  rw [Effect.coprocWrite, if_neg ha] at h
  obtain rfl | ⟨sp, d, rfl⟩ := h <;> trivial

theorem Effect.sparesMem_of_topAccess {cfg : Config} {off : Word} {acc : Access} {e : Effect}
    (ha : off.toNat ≠ cfg.addrOf .fememdata) (h : e.topAccess cfg off acc) : e.sparesMem := by
  cases acc with
  | read => exact Effect.sparesMem_of_hostRead h
  | write v => exact Effect.sparesMem_of_topWrite ha h

theorem Effect.sparesMem_of_coprocAccess {cfg : Config} {c : Coproc} {off : Word} {acc : Access} {e : Effect}
    (ha : ∀ v, acc = .write v → off.toNat ≠ cfg.rstAddr c) (h : e.coprocAccess cfg c off acc) : e.sparesMem := by
  cases acc with
  | read => exact Effect.sparesMem_of_hostRead h
  | write v => exact Effect.sparesMem_of_coprocWrite (ha v rfl) h

/-- The host's unknown method faults right after its latch (rule R231). -/
theorem feDispatch_unknown {op : Word} {s : State} (h : s.cfg.opcode.known op = false) (arg : Word) :
    feDispatch op arg .host s = raise .unknownOpcode (latch op arg s) := by
  simp only [OpcodeMap.known, List.contains_eq_mem, List.mem_cons, List.not_mem_nil, or_false, decide_eq_false_iff_not,
    not_or] at h
  simp [feDispatch, h]

theorem execUnknownMethod_mem {op arg : Word} {s t : State} (hop : s.cfg.opcode.known op = false)
    (h : execUnknownMethod op arg s = .next t) : t.mem = s.mem := by
  refine hostMethod_all (P := fun t => t.mem = s.mem) h ?_
  rw [feDispatch_unknown hop]
  rfl

/-- Settles O13: each instruction of the list is a sequence of effects that spare guest memory; the offsets that its
well-formedness admits are neither FEMEMDATA's nor a written reset register's. -/
theorem theseInstructionsLeaveGuestMemory : Obligations.TheseInstructionsLeaveGuestMemory := by
  intro s t v arg off c acc i hw hi hmem h
  have he := exec_effects hw h
  cases i with
  | setAntecedentVoice | setCurrentVoice =>
    exact he.mem fun e he => he.elim Effect.sparesMem_of_latches (by rintro ⟨_, rfl⟩; trivial)
  | idleVoiceNotify => exact he.mem fun _ => Effect.sparesMem_of_notification
  | unknownMethod => exact execUnknownMethod_mem (by simpa [Instr.wf] using hi) h
  | wIsts | reset => exact he.mem (by rintro _ rfl; trivial)
  | wSectl => exact he.mem fun _ => Effect.sparesMem_of_sectl
  | rXgscnt | rTopPlain | rSubwindow => exact he.mem fun _ => Effect.sparesMem_of_hostRead
  | wTopPlain =>
    obtain ⟨-, -, -, -, hne⟩ := Config.topPlainWrite_iff.mp hi
    exact he.mem fun _ => Effect.sparesMem_of_topWrite hne
  | topOutOfRange =>
    have hout := (Window.outOfRange_iff.mp hi).2
    have hin := (Config.addrOf_ok hw (r := .fememdata) (by decide)).2
    exact he.mem fun _ => Effect.sparesMem_of_topAccess (by omega)
  | wSubwindow =>
    obtain ⟨-, -, hne, -⟩ := Config.subwindowOffset_iff.mp hi
    exact he.mem fun _ => Effect.sparesMem_of_coprocWrite hne
  | gpepPlain c off acc =>
    refine he.mem fun _ => Effect.sparesMem_of_coprocAccess ?_
    rintro v rfl
    obtain ⟨-, -, hne, -⟩ := (Config.coprocPlain_write_iff (v := v)).mp hi
    exact hne
  | gpepOutOfRange c off =>
    have hout := (Window.outOfRange_iff.mp hi).2
    have hin := (Config.rstAddr_ok hw c).2
    exact he.mem fun _ => Effect.sparesMem_of_coprocAccess fun _ _ => by omega
  | methodSubmit acc =>
    cases acc with
    | read => exact he.mem fun _ => Effect.sparesMem_of_hostRead
    | submit => simp at hmem
  | voiceOn | voiceOff | voicePause | wFememdata | wRst | scratchReq | fifoReq | tick => simp at hmem

/-! ## Admitted accesses -/

/-- A packet that the decoder refuses for another reason than its form is refused by the step (rule R305). -/
theorem step_of_refusedEvent {s : State} {p : List Word} {rest : List (List Word)} {e : DecodeError}
    (h : s.inbox = p :: rest) (hd : decode s.cfg p = .error e) (he : e ≠ .unknownForm) :
    step s = .refused (.undecodable e) := by
  refine step_of_undecodable h ?_ hd
  cases hg : decodeGuestStore p with
  | none => rfl
  | some x => exact absurd (Except.error.inj (hd.symm.trans (decode_of_decodeGuestStore s.cfg hg))) he

/-- Settles O16: a window access decodes through `decodeAdmitted`, which asks for the width and the alignment first. -/
theorem onlyAlignedWordAccessesAreAdmitted : Obligations.OnlyAlignedWordAccessesAreAdmitted := by
  intro s off v rd c width f rest hwidth hf hin
  obtain ⟨k, hk⟩ := decode_window hwidth hf s.cfg off v
  refine ⟨fun hno => ?_, fun h32 ha hv => ?_⟩
  · exact step_of_refusedEvent hin (hk.trans (decodeAdmitted_refused hno _)) nofun
  · subst h32
    obtain ⟨acc, hacc⟩ := decodeAccess_ok hv
    exact ⟨k acc, hk.trans (decodeAdmitted_admitted ha hacc _)⟩

end Sys2Proof.Machine
end

section
/-! Scratch requests: a transfer moves its bytes run by run, one run a page (rules R71, R150), so a ToGuest request
stores each byte at its translation (rule R154), and a FromGuest request returns the translated bytes as the guest left
them when their run was read (rules R67, R159, R350). -/

namespace Sys2Proof.Machine

/-! ## Offsets within a page -/

theorem page_add {ps o i : Nat} (h : i < ps - o % ps) : (o + i) / ps = o / ps ∧ (o + i) % ps = o % ps + i := by
  have hlt : o % ps + i < ps := by omega
  have ho : o + i = o % ps + i + ps * (o / ps) := by
    have := Nat.mod_add_div o ps
    omega
  rw [ho, Nat.add_mul_div_left _ _ (by omega), Nat.add_mul_mod_self_left, Nat.div_eq_of_lt hlt, Nat.mod_eq_of_lt hlt]
  simp

/-- The rest of a page ends where the next page starts. -/
theorem page_rest {ps o : Nat} (h : 0 < ps) : (o + (ps - o % ps)) / ps = o / ps + 1 ∧ (o + (ps - o % ps)) % ps = 0 := by
  have ho : o + (ps - o % ps) = ps * (o / ps + 1) := by
    have := Nat.mod_add_div o ps
    have := Nat.mod_lt o h
    rw [Nat.mul_add]
    omega
  rw [ho, Nat.mul_div_cancel_left _ h, Nat.mul_mod_right]
  exact ⟨rfl, rfl⟩

theorem runOf_first {ps o i : Nat} (h : i < ps - o % ps) : runOf ps o i = 0 := by
  rw [runOf, (page_add h).1, Nat.sub_self]

/-- Beyond its first run a transfer is the one that starts on the next page. -/
theorem runOf_rest {ps o : Nat} (h : 0 < ps) (j : Nat) :
    runOf ps o (ps - o % ps + j) = runOf ps (o + (ps - o % ps)) j + 1 := by
  have hle := Nat.div_le_div_right (c := ps) (Nat.le_add_right (o + (ps - o % ps)) j)
  rw [(page_rest h).1] at hle
  rw [runOf, runOf, (page_rest h).1, ← Nat.add_assoc]
  omega

/-- Within a page the translation moves with the offset (rule R71). -/
theorem State.translate_add {s : State} {o i : Nat} (h : i < s.cfg.pageSize - o % s.cfg.pageSize) (T : Nat) :
    s.translate T (o + i) = s.translate T o + i := by
  obtain ⟨hdiv, hmod⟩ := page_add h
  rw [State.translate, State.translate, hdiv, hmod, Nat.add_assoc]

/-! ## One run -/

/-- The bytes that the run at offset `o` moves when `rem` bytes are left (rule R150). -/
def State.runLength (s : State) (o rem : Nat) : Nat := min rem (s.cfg.pageSize - o % s.cfg.pageSize)

theorem Config.dmaInBounds_of_last {cfg : Config} {p n : Nat} (hn : 0 < n)
    (h : cfg.dmaInBounds (p + (n - 1)) 1 = true) : cfg.dmaInBounds p n = true := by
  rwa [Config.dmaInBounds, show p + (n - 1) + 1 = p + n by omega] at h

/-- A run whose bytes are reachable is in bounds (rules R71, R153). -/
theorem State.run_inBounds {s : State} {T M o n : Nat} (hn : 0 < n) (hp : n ≤ s.cfg.pageSize - o % s.cfg.pageSize)
    (h : ∀ i < n, s.reachable T M (o + i)) : s.cfg.dmaInBounds (s.translate T o) n = true := by
  obtain ⟨-, -, hlast⟩ := h (n - 1) (by omega)
  rw [State.translate_add (by omega)] at hlast
  exact Config.dmaInBounds_of_last hn hlast

/-- What a run of `n` bytes at `p` does with the buffer and the state (rules R150, R154). -/
def moveRun (dir : Dir) (p n : Nat) (buf : List Byte) (s : State) : List Byte × State :=
  match dir with
  | .toGuest => (buf.drop n, memWriteRun p (buf.take n) s)
  | .fromGuest => (buf ++ (memReadRun p n s).1, (memReadRun p n s).2)

theorem sgLoop_zero (dir : Dir) (T M fuel idx off : Nat) (buf : List Byte) (s : State) :
    sgLoop dir T M fuel idx off 0 buf s = .ok buf s := by
  cases fuel <;> rfl

/-- An iteration of the loop whose checks pass is a run, and the loop goes on at the next descriptor (rule R150). -/
theorem sgLoop_page {dir : Dir} {T M fuel o rem : Nat} {buf : List Byte} {s : State} (hM : o / s.cfg.pageSize ≤ M)
    (hd : s.descInRam T (o / s.cfg.pageSize) = true)
    (hb : s.cfg.dmaInBounds (s.race.translate T o) (s.runLength o (rem + 1)) = true) :
    sgLoop dir T M (fuel + 1) (o / s.cfg.pageSize) (o % s.cfg.pageSize) (rem + 1) buf s =
      let n := s.runLength o (rem + 1)
      let r := moveRun dir (s.race.translate T o) n buf
        (s.race.log (.readBytes (s.cfg.descAddr T (o / s.cfg.pageSize)) 4))
      sgLoop dir T M fuel (o / s.cfg.pageSize + 1) 0 (rem + 1 - n) r.1 r.2 := by
  rw [sgLoop, if_neg (Nat.not_lt.mpr hM), descRead_ok hd]
  exact (if_pos hb).trans (by cases dir <;> rfl)

/-- A transfer whose next run can be moved is that run, and then the transfer at the offset after it (rules R71,
R150). -/
theorem sgLoop_run {dir : Dir} {T M fuel o rem n : Nat} {buf : List Byte} {s : State} (hps : 0 < s.cfg.pageSize)
    (hrem : 0 < rem) (hn : n = s.runLength o rem) (h : ∀ i < n, s.race.reachable T M (o + i)) :
    sgLoop dir T M (fuel + 1) (o / s.cfg.pageSize) (o % s.cfg.pageSize) rem buf s =
      let r := moveRun dir (s.race.translate T o) n buf
        (s.race.log (.readBytes (s.cfg.descAddr T (o / s.cfg.pageSize)) 4))
      sgLoop dir T M fuel ((o + n) / s.cfg.pageSize) ((o + n) % s.cfg.pageSize) (rem - n) r.1 r.2 := by
  have hmod := Nat.mod_lt o hps
  have hmin : n = min rem (s.cfg.pageSize - o % s.cfg.pageSize) := hn
  obtain ⟨hM, hd, -⟩ : s.race.reachable T M o := h 0 (by omega)
  have hb := State.run_inBounds (s := s.race) (by omega) (hmin.trans_le (Nat.min_le_right ..)) h
  obtain ⟨k, rfl⟩ : ∃ k, rem = k + 1 := ⟨rem - 1, by omega⟩
  rw [sgLoop_page (s := s) hM hd (by rw [← hn]; exact hb), ← hn]
  dsimp only
  by_cases hlast : k + 1 ≤ s.cfg.pageSize - o % s.cfg.pageSize
  · rw [show k + 1 - n = 0 by omega, sgLoop_zero, sgLoop_zero]
  · obtain ⟨hdiv, hmod⟩ := page_rest (o := o) hps
    rw [show n = s.cfg.pageSize - o % s.cfg.pageSize by omega, hdiv, hmod]

/-! ## Scratch requests -/

theorem exec_scratchReq {c : Coproc} {s : State} (hl : s.live = true) (hc : s.inCall = some c) (dir : Dir) (off : Word)
    (len : Nat) (data : List Byte) :
    exec (.scratchReq c dir off len data) s = (scratchRequest c dir off len data s).outcome :=
  exec_requestInstr (.scratch dir off len data) hl hc

theorem scratchRequest_of_transfer {c : Coproc} {dir : Dir} {off : Word} {len : Nat} {data bytes : List Byte}
    {s t : State} (ha : requestAdmitted dir len data = true)
    (h : sgTransfer dir (s.topReg (.scratchBase c)).toNat (s.topReg (.scratchMax c)).toNat (startBuffer dir data)
      off.toNat len s = .ok bytes t) :
    scratchRequest c dir off len data s = .ok () (returnBytes c dir bytes t) := by
  rw [scratchRequest, if_pos ha, h]
  rfl

/-! ## ToGuest transfers -/

/-- The bytes of a transfer of `len` bytes at `o` can be stored: each is reachable, none lies in a descriptor word that
the transfer uses, and no two lie at the same address (rules R71, R150, R348). -/
structure State.Storable (s : State) (T M o len : Nat) : Prop where
  reach : ∀ i < len, s.reachable T M (o + i)
  apart : ∀ i < len, ∀ j < len,
    inWord (s.cfg.descAddr T ((o + i) / s.cfg.pageSize)) (s.translate T (o + j)) = false
  inj : ∀ i < len, ∀ j < len, s.translate T (o + i) = s.translate T (o + j) → i = j

/-- Memory `m` is that of `s` with the bytes `data` stored at the translations of the offsets from `o` (rule R71). -/
structure State.Stored (s : State) (T o : Nat) (data : List Byte) (m : Memory) : Prop where
  inside : ∀ i (h : i < data.length), Cells.get m (s.translate T (o + i)) = data[i]
  outside : ∀ a, (¬∃ i < data.length, a = s.translate T (o + i)) → Cells.get m a = Cells.get s.mem a

/-- The state after a run of `n` bytes is the one before it, with the run's bytes in memory. -/
structure State.RanTo (s : State) (T o n : Nat) (data : List Byte) (t : State) : Prop where
  cfg : t.cfg = s.cfg
  mem : t.mem = s.mem.store (s.translate T o) (data.take n)
  len : n ≤ data.length
  page : n ≤ s.cfg.pageSize - o % s.cfg.pageSize

theorem State.RanTo.get_outside {s t : State} {T o n a : Nat} {data : List Byte} (h : s.RanTo T o n data t)
    (ha : ∀ i < n, a ≠ s.translate T (o + i)) : Cells.get t.mem a = Cells.get s.mem a := by
  have hlen := h.len
  have hpage := h.page
  rw [h.mem, Memory.get_store, dif_neg]
  rintro ⟨hle, hlt⟩
  rw [List.length_take] at hlt
  refine ha (a - s.translate T o) (by omega) ?_
  rw [State.translate_add (by omega)]
  omega

theorem State.RanTo.get_inside {s t : State} {T o n i : Nat} {data : List Byte} (h : s.RanTo T o n data t)
    (hi : i < n) : Cells.get t.mem (s.translate T (o + i)) = data[i]'(Nat.lt_of_lt_of_le hi h.len) := by
  have hlen := h.len
  have hpage := h.page
  rw [h.mem, State.translate_add (by omega), Memory.get_store, dif_pos]
  · simp
  · rw [List.length_take]
    omega

/-- A run that touches no descriptor word leaves the translation of every offset of the transfer. -/
theorem State.RanTo.translate {s t : State} {T M o n i : Nat} {data : List Byte} (h : s.RanTo T o n data t)
    (hs : s.Storable T M o data.length) (hi : i < data.length) : t.translate T (o + i) = s.translate T (o + i) := by
  rw [State.translate, State.translate, h.cfg]
  congr 2
  refine Memory.word_congr fun k hk => h.get_outside fun j hj he => ?_
  have := hs.apart i hi j (Nat.lt_of_lt_of_le hj h.len)
  simp [← he, inWord, hk] at this

theorem State.RanTo.translate_rest {s t : State} {T M o n i : Nat} {data : List Byte} (h : s.RanTo T o n data t)
    (hs : s.Storable T M o data.length) (hi : n + i < data.length) :
    t.translate T (o + n + i) = s.translate T (o + (n + i)) := by
  rw [Nat.add_assoc, h.translate hs hi]

theorem State.RanTo.storable {s t : State} {T M o n : Nat} {data : List Byte} (h : s.RanTo T o n data t)
    (hs : s.Storable T M o data.length) : t.Storable T M (o + n) (data.drop n).length := by
  have lt {i : Nat} (hi : i < (data.drop n).length) : n + i < data.length := by
    rw [List.length_drop] at hi
    omega
  refine ⟨fun i hi => ?_, fun i hi j hj => ?_, fun i hi j hj he => ?_⟩
  · rw [State.reachable, h.translate_rest hs (lt hi), Nat.add_assoc, State.descInRam, State.inRam, h.cfg]
    exact hs.reach _ (lt hi)
  · rw [h.translate_rest hs (lt hj), h.cfg, Nat.add_assoc]
    exact hs.apart _ (lt hi) _ (lt hj)
  · rw [h.translate_rest hs (lt hi), h.translate_rest hs (lt hj)] at he
    exact Nat.add_left_cancel (hs.inj _ (lt hi) _ (lt hj) he)

/-- The bytes stored after a run, and the run's own, are those of the whole transfer. -/
theorem State.RanTo.stored {s t : State} {T M o n : Nat} {data : List Byte} {m : Memory} (h : s.RanTo T o n data t)
    (hs : s.Storable T M o data.length) (hm : t.Stored T (o + n) (data.drop n) m) : s.Stored T o data m := by
  have hlen := h.len
  have hdrop : (data.drop n).length = data.length - n := List.length_drop
  refine ⟨fun i hi => ?_, fun a ha => ?_⟩
  · by_cases hin : i < n
    · rw [hm.outside, h.get_inside hin]
      rintro ⟨j, hj, he⟩
      rw [h.translate_rest hs (by omega)] at he
      have := hs.inj i hi (n + j) (by omega) he
      omega
    · obtain ⟨j, rfl⟩ : ∃ j, i = n + j := ⟨i - n, by omega⟩
      rw [← h.translate_rest hs hi, hm.inside j (by omega), List.getElem_drop]
  · rw [hm.outside, h.get_outside fun i hi he => ha ⟨i, by omega, he⟩]
    rintro ⟨j, hj, he⟩
    exact ha ⟨n + j, by omega, by rw [he, h.translate_rest hs (by omega)]⟩

theorem moveRun_toGuest {s : State} (hr : s.races = []) (p n : Nat) (buf : List Byte) (call : Call) :
    moveRun .toGuest p n buf (s.log call) = (buf.drop n, storeRun p (buf.take n) (s.log call)) := by
  rw [moveRun, memWriteRun, State.race_of_nil (by exact hr)]

/-- A ToGuest transfer without racing stores stores its bytes at their translations (rules R71, R150, R154). -/
theorem sgLoop_toGuest (T M : Nat) : ∀ fuel o data s, 0 < s.cfg.pageSize → s.races = [] → data.length ≤ fuel →
    s.Storable T M o data.length →
    ∃ m cs, sgLoop .toGuest T M fuel (o / s.cfg.pageSize) (o % s.cfg.pageSize) data.length data s =
        .ok [] ({ s with mem := m }.logAll cs) ∧ s.Stored T o data m := by
  intro fuel
  induction fuel with
  | zero =>
    intro o data s _ _ hf _
    obtain rfl : data = [] := List.eq_nil_of_length_eq_zero (by omega)
    exact ⟨s.mem, [], sgLoop_zero .., nofun, fun _ _ => rfl⟩
  | succ fuel ih =>
    intro o data s hps hr hf hs
    by_cases h0 : data = []
    · subst h0
      exact ⟨s.mem, [], sgLoop_zero .., nofun, fun _ _ => rfl⟩
    have hpos := List.length_pos_iff.mpr h0
    have hmod := Nat.mod_lt o hps
    obtain ⟨n, hn⟩ : ∃ n, n = s.runLength o data.length := ⟨_, rfl⟩
    have hmin : n = min data.length (s.cfg.pageSize - o % s.cfg.pageSize) := hn
    have hrace := State.race_of_nil hr
    have hrun := sgLoop_run (dir := .toGuest) (T := T) (M := M) (fuel := fuel) (buf := data) hps hpos hn
      (by rw [hrace]; exact fun i hi => hs.reach i (by omega))
    rw [hrace, moveRun_toGuest hr, ← List.length_drop] at hrun
    generalize Call.readBytes (s.cfg.descAddr T (o / s.cfg.pageSize)) 4 = call at hrun
    have hran : s.RanTo T o n data (storeRun (s.translate T o) (data.take n) (s.log call)) :=
      ⟨rfl, rfl, by omega, by omega⟩
    obtain ⟨m, cs, hm, hst⟩ := ih (o + n) (data.drop n) (storeRun (s.translate T o) (data.take n) (s.log call)) hps hr
      (by rw [List.length_drop]; omega) (hran.storable hs)
    refine ⟨m, call :: .writeBytes (s.translate T o) (data.take n) ::
      .markDirty (s.translate T o) (data.take n).length :: cs, ?_, hran.stored hs hst⟩
    rw [hrun]
    refine hm.trans ?_
    simp [State.logAll, storeRun, State.log]

/-- Settles O44: the transfer stores its bytes at their translations, and a ToGuest request is its transfer. -/
theorem scratchWritesLandAtTheTranslation : Obligations.ScratchWritesLandAtTheTranslation := by
  rintro s c off data T M hw hl hr hc rfl rfl hreach hapart hinj
  obtain ⟨m, cs, hm, hst⟩ := sgLoop_toGuest _ _ data.length off.toNat data s (Config.pageSize_pos hw) hr le_rfl
    ⟨hreach, hapart, hinj⟩
  refine ⟨({ s with mem := m } : State).logAll cs, ?_, hst.inside, hst.outside, rfl⟩
  rw [exec_scratchReq hl hc, scratchRequest_of_transfer (by simp [requestAdmitted]) hm]
  rfl

/-! ## Racing stores, access after access -/

theorem State.race_iterate_of_nil {s : State} (h : s.races = []) (k : Nat) : State.race^[k] s = s :=
  Function.iterate_fixed (State.race_of_nil h) k

theorem State.race_iterate_calls (s : State) (k : Nat) : (State.race^[k] s).calls = s.calls := by
  induction k generalizing s with
  | zero => rfl
  | succ k ih => exact (ih s.race).trans s.race_calls

theorem State.race_iterate_logAll (s : State) (cs : List Call) (k : Nat) :
    State.race^[k] (s.logAll cs) = (State.race^[k] s).logAll cs :=
  Function.Commute.iterate_left (f := State.race) (g := (·.logAll cs)) (fun _ => rfl) k s

theorem State.logAll_logAll (s : State) (cs cs' : List Call) : (s.logAll cs).logAll cs' = s.logAll (cs ++ cs') := by
  simp [State.logAll]

/-! ## FromGuest transfers -/

/-- The `i`-th byte of a FromGuest transfer at `o`: what the guest left in the byte that the run's descriptor, as its
read found it, maps the offset to (rules R67, R71, R350). -/
def State.fetchedByte (s : State) (T o i : Nat) : Byte :=
  Cells.get (State.race^[2 * runOf s.cfg.pageSize o i + 2] s).mem
    ((State.race^[2 * runOf s.cfg.pageSize o i + 1] s).translate T (o + i))

/-- The bytes of a FromGuest transfer of `len` bytes at `o`. -/
def State.fetched (s : State) (T o len : Nat) : List Byte := (List.range len).map (s.fetchedByte T o)

/-- The accesses of guest memory that a FromGuest transfer of `len` bytes at `o` makes: two a run (rule R150). -/
def accesses (ps o len : Nat) : Nat := if len = 0 then 0 else 2 * runOf ps o (len - 1) + 2

theorem accesses_run {s : State} {o len n : Nat} (hps : 0 < s.cfg.pageSize) (hlen : 0 < len)
    (hn : n = s.runLength o len) :
    accesses s.cfg.pageSize o len = accesses s.cfg.pageSize (o + n) (len - n) + 2 := by
  have hmod := Nat.mod_lt o hps
  rw [State.runLength] at hn
  rw [accesses, if_neg (by omega), accesses]
  by_cases hlast : len ≤ s.cfg.pageSize - o % s.cfg.pageSize
  · rw [runOf_first (by omega), if_pos (by omega)]
  · have hpage : n = s.cfg.pageSize - o % s.cfg.pageSize := by omega
    have hrest := runOf_rest (o := o) hps (len - n - 1)
    rw [← hpage, show n + (len - n - 1) = len - 1 by omega] at hrest
    rw [if_neg (by omega), hrest]
    omega

/-- The first run's bytes lie together, and its two reads are the first two accesses. -/
theorem State.fetchedByte_first {s : State} {o i : Nat} (h : i < s.cfg.pageSize - o % s.cfg.pageSize) (T : Nat) :
    s.fetchedByte T o i = Cells.get s.race.race.mem (s.race.translate T o + i) := by
  rw [State.fetchedByte, runOf_first h]
  exact congrArg _ (State.translate_add (s := s.race) h T)

theorem State.fetchedByte_rest {s : State} {o n i : Nat} (hps : 0 < s.cfg.pageSize)
    (hn : n = s.cfg.pageSize - o % s.cfg.pageSize) (T : Nat) :
    s.fetchedByte T o (n + i) = s.race.race.fetchedByte T (o + n) i := by
  subst hn
  rw [State.fetchedByte, runOf_rest hps, ← Nat.add_assoc]
  rfl

theorem State.fetched_run {s : State} {o len n : Nat} (hps : 0 < s.cfg.pageSize) (hn : n = s.runLength o len)
    (T : Nat) :
    s.fetched T o len =
      s.race.race.mem.bytes (s.race.translate T o) n ++ s.race.race.fetched T (o + n) (len - n) := by
  rw [State.runLength] at hn
  obtain ⟨m, rfl⟩ : ∃ m, len = n + m := ⟨len - n, by omega⟩
  rw [Nat.add_sub_cancel_left, State.fetched, State.fetched, Memory.bytes, List.range_add, List.map_append,
    List.map_map]
  congr 1
  · refine List.map_congr_left fun i hi => State.fetchedByte_first ?_ T
    have := List.mem_range.mp hi
    omega
  · refine List.map_congr_left fun i hi => State.fetchedByte_rest hps ?_ T
    have := List.mem_range.mp hi
    omega

theorem State.fetched_logAll (s : State) (cs : List Call) (T o len : Nat) :
    (s.logAll cs).fetched T o len = s.fetched T o len := by
  refine List.map_congr_left fun i _ => ?_
  simp only [State.fetchedByte, State.race_iterate_logAll]
  rfl

theorem moveRun_fromGuest (p n : Nat) (buf : List Byte) (s : State) (call : Call) :
    ∃ cs, moveRun .fromGuest p n buf (s.race.log call) =
      (buf ++ s.race.race.mem.bytes p n, s.race.race.logAll cs) :=
  ⟨[call, .readBytes p n], rfl⟩

/-- The offsets after a run are reached through the descriptors that the later reads find. -/
theorem State.reachable_rest {s : State} {T M o len n : Nat} (hps : 0 < s.cfg.pageSize) (hn : n = s.runLength o len)
    (h : ∀ i < len, (State.race^[2 * runOf s.cfg.pageSize o i + 1] s).reachable T M (o + i)) (cs : List Call) :
    ∀ i < len - n, (State.race^[2 * runOf s.cfg.pageSize (o + n) i + 1] (s.race.race.logAll cs)).reachable T M
      (o + n + i) := by
  intro i hi
  rw [State.runLength] at hn
  have hpage : n = s.cfg.pageSize - o % s.cfg.pageSize := by omega
  have hr := h (n + i) (by omega)
  rw [hpage, runOf_rest hps, ← hpage, ← Nat.add_assoc] at hr
  rw [State.race_iterate_logAll]
  exact hr

/-- A FromGuest transfer returns its bytes as the guest left them when their run was read, whatever stores race with it
(rules R67, R71, R150, R159). -/
theorem sgLoop_fromGuest (T M : Nat) : ∀ fuel o len buf s, 0 < s.cfg.pageSize → len ≤ fuel →
    (∀ i < len, (State.race^[2 * runOf s.cfg.pageSize o i + 1] s).reachable T M (o + i)) →
    ∃ cs, sgLoop .fromGuest T M fuel (o / s.cfg.pageSize) (o % s.cfg.pageSize) len buf s =
      .ok (buf ++ s.fetched T o len) ((State.race^[accesses s.cfg.pageSize o len] s).logAll cs) := by
  intro fuel
  induction fuel with
  | zero =>
    intro o len buf s _ hf _
    obtain rfl : len = 0 := by omega
    exact ⟨[], by rw [sgLoop_zero]; simp [State.fetched, accesses, State.logAll]⟩
  | succ fuel ih =>
    intro o len buf s hps hf h
    by_cases h0 : len = 0
    · subst h0
      exact ⟨[], by rw [sgLoop_zero]; simp [State.fetched, accesses, State.logAll]⟩
    have hpos := Nat.pos_of_ne_zero h0
    have hmod := Nat.mod_lt o hps
    obtain ⟨n, hn⟩ : ∃ n, n = s.runLength o len := ⟨_, rfl⟩
    have hmin : n = min len (s.cfg.pageSize - o % s.cfg.pageSize) := hn
    have hrun := sgLoop_run (dir := .fromGuest) (T := T) (M := M) (fuel := fuel) (buf := buf) hps hpos hn fun i hi => by
      have hi := h i (by omega)
      rwa [runOf_first (by omega)] at hi
    obtain ⟨calls, hmove⟩ := moveRun_fromGuest (s.race.translate T o) n buf s
      (.readBytes (s.cfg.descAddr T (o / s.cfg.pageSize)) 4)
    rw [hmove] at hrun
    obtain ⟨cs, hcs⟩ := ih (o + n) (len - n) _ (s.race.race.logAll calls) hps (by omega)
      (State.reachable_rest hps hn h calls)
    refine ⟨calls ++ cs, hrun.trans (hcs.trans ?_)⟩
    rw [State.fetched_logAll, State.race_iterate_logAll, State.logAll_logAll, List.append_assoc,
      ← State.fetched_run hps hn, accesses_run hps hpos hn]
    rfl

/-- A FromGuest request over reachable offsets returns the bytes of its transfer, last of all, and makes no other change
than the guest's stores do (rules R158, R159). -/
theorem exec_scratchReq_fromGuest {s : State} {c : Coproc} {off : Word} {len T M : Nat} (hw : s.cfg.wf = true)
    (hl : s.live = true) (hc : s.inCall = some c) (hT : T = (s.topReg (.scratchBase c)).toNat)
    (hM : M = (s.topReg (.scratchMax c)).toNat)
    (h : ∀ i < len, (State.race^[2 * runOf s.cfg.pageSize off.toNat i + 1] s).reachable T M (off.toNat + i)) :
    ∃ t cs, exec (.scratchReq c .fromGuest off len []) s = .next t ∧
      t.calls = s.calls ++ cs ++ [.dspReceive c (s.fetched T off.toNat len)] ∧
      t = { State.race^[accesses s.cfg.pageSize off.toNat len] s with trace := t.trace } := by
  subst hT hM
  obtain ⟨cs, hcs⟩ := sgLoop_fromGuest _ _ len off.toNat len [] s (Config.pageSize_pos hw) le_rfl h
  rw [exec_scratchReq hl hc, scratchRequest_of_transfer rfl hcs]
  refine ⟨_, cs, rfl, ?_, rfl⟩
  simp [returnBytes, State.race_iterate_calls]

theorem State.length_fetched (s : State) (T o len : Nat) : (s.fetched T o len).length = len := by
  simp [State.fetched]

theorem State.getElem_fetched (s : State) (T o len i : Nat) (h : i < (s.fetched T o len).length) :
    (s.fetched T o len)[i] = s.fetchedByte T o i := by
  simp [State.fetched]

/-- Without racing stores the bytes are read where the table of the state before the request maps them. -/
theorem State.fetchedByte_of_nil {s : State} (h : s.races = []) (T o i : Nat) :
    s.fetchedByte T o i = Cells.get s.mem (s.translate T (o + i)) := by
  rw [State.fetchedByte, State.race_iterate_of_nil h, State.race_iterate_of_nil h]

/-- Settles O45: the bytes returned are those that the runs find; without races every run finds the state before. -/
theorem scratchReadsReturnTheTranslatedBytes : Obligations.ScratchReadsReturnTheTranslatedBytes := by
  intro s c off len T M hw hl hc hT hM
  refine ⟨fun hr hreach => ?_, fun run hrun hreach => ?_⟩
  · obtain ⟨t, cs, ht, hcalls, hframe⟩ := exec_scratchReq_fromGuest (len := len) hw hl hc hT hM fun i hi => by
      rw [State.race_iterate_of_nil hr]
      exact hreach i hi
    rw [State.race_iterate_of_nil hr] at hframe
    refine ⟨t, cs, _, ht, hcalls, State.length_fetched .., fun i hi => ?_, hframe⟩
    rw [State.getElem_fetched, State.fetchedByte_of_nil hr]
  · obtain rfl : run = runOf s.cfg.pageSize off.toNat := funext hrun
    obtain ⟨t, cs, ht, hcalls, hframe⟩ := exec_scratchReq_fromGuest hw hl hc hT hM hreach
    exact ⟨t, cs, _, ht, hcalls, State.length_fetched .., State.getElem_fetched s T off.toNat len, hframe⟩

end Sys2Proof.Machine
end

section
/-! Event packets: an encoded instruction is read back from its packet, and whatever the decoder accepts is a form of its
row of the opcode table (rules R90 to R97; the packet of log 1). -/

namespace Sys2Proof

/-! ## Commands (rules R90, R91) -/

theorem OpcodeMap.known_eq_false_iff {o : OpcodeMap} {op : Word} :
    o.known op = false ↔ op ≠ o.setAntecedentVoice ∧ op ≠ o.voiceOn ∧ op ≠ o.voiceOff ∧ op ≠ o.voicePause ∧
      op ≠ o.setCurrentVoice ∧ op ≠ o.idleVoiceNotify := by
  simp [OpcodeMap.known]

/-- Each of the six opcodes selects its command (rule R91). -/
theorem decodeCommand_opcode {cfg : Config} (hw : cfg.wf = true) :
    (∀ arg, decodeCommand cfg cfg.opcode.setAntecedentVoice arg = .setAntecedentVoice arg) ∧
      (∀ arg, decodeCommand cfg cfg.opcode.voiceOn arg = .voiceOn arg) ∧
      (∀ arg, decodeCommand cfg cfg.opcode.voiceOff arg = .voiceOff arg) ∧
      (∀ arg, decodeCommand cfg cfg.opcode.voicePause arg = .voicePause arg) ∧
      (∀ arg, decodeCommand cfg cfg.opcode.setCurrentVoice arg = .setCurrentVoice arg) ∧
      ∀ arg, decodeCommand cfg cfg.opcode.idleVoiceNotify arg = .idleVoiceNotify arg := by
  have hn := List.nodup_reverse.mpr (Config.opcodes_nodup hw)
  simp only [List.reverse_cons, List.reverse_nil, List.nil_append, List.cons_append, List.nodup_cons, List.mem_cons,
    List.not_mem_nil, or_false, not_or] at hn
  simp [decodeCommand, hn]

/-- Any other opcode selects the unknown method (rules R91, R98). -/
theorem decodeCommand_unknown {cfg : Config} {op : Word} (h : cfg.opcode.known op = false) (arg : Word) :
    decodeCommand cfg op arg = .unknownMethod op arg := by
  simp [decodeCommand, OpcodeMap.known_eq_false_iff.mp h]

theorem decodeCommand_wf (cfg : Config) (op arg : Word) : (decodeCommand cfg op arg).wf cfg = true := by
  cases hk : cfg.opcode.known op with
  | false => simp [decodeCommand_unknown hk, Instr.wf, hk]
  | true =>
    dsimp only [decodeCommand]
    split_ifs with h1 h2 h3 h4 h5 h6
    case neg => exact absurd hk (by simp [OpcodeMap.known_eq_false_iff.mpr ⟨h1, h2, h3, h4, h5, h6⟩])
    all_goals rfl

/-! ## Accesses of TOP (rule R96) -/

theorem Config.topPlainRead_iff {cfg : Config} {off : Word} :
    cfg.topPlainRead off = true ↔ aligned off = true ∧ off.toNat < Window.top.size ∧ off.toNat ≠ cfg.addrOf .xgscnt := by
  simp [Config.topPlainRead, and_assoc]

theorem Config.key_aligned {cfg : Config} (hw : cfg.wf = true) {r : TopReg} (hr : r ∈ TopReg.all) :
    aligned (cfg.key r) = true := by
  simp [aligned, Config.key_toNat hw hr, (Config.addrOf_ok hw hr).1]

theorem decodeTop_plainWrite {cfg : Config} {off : Word} (h : cfg.topPlainWrite off = true) (v : Word) :
    decodeTop cfg off (.write v) = .wTopPlain off v := by
  obtain ⟨-, hlt, hists, hsectl, hdata⟩ := Config.topPlainWrite_iff.mp h
  simp [decodeTop, hlt, hists, hsectl, hdata]

theorem decodeTop_plainRead {cfg : Config} {off : Word} (h : cfg.topPlainRead off = true) :
    decodeTop cfg off .read = .rTopPlain off := by
  obtain ⟨-, hlt, hcnt⟩ := Config.topPlainRead_iff.mp h
  simp [decodeTop, hlt, hcnt]

theorem decodeTop_outOfRange {cfg : Config} {off : Word} (hw : cfg.wf = true) (h : Window.top.outOfRange off = true)
    (acc : Access) : decodeTop cfg off acc = .topOutOfRange off acc := by
  have hle := (Window.outOfRange_iff.mp h).2
  have hne (r : TopReg) (hr : r ∈ TopReg.all) : off.toNat ≠ cfg.addrOf r := by
    have := (Config.addrOf_ok hw hr).2
    omega
  cases acc with
  | read => simp [decodeTop, hne .xgscnt (by decide), Nat.not_lt.mpr hle]
  | write v =>
    simp [decodeTop, hne .ists (by decide), hne .sectl (by decide), hne .fememdata (by decide), Nat.not_lt.mpr hle]

/-- The three writes with a side effect, and the read of the counter, at their registers' own offsets (rules R120,
R121). -/
theorem decodeTop_key {cfg : Config} (hw : cfg.wf = true) :
    (∀ v, decodeTop cfg (cfg.key .ists) (.write v) = .wIsts v) ∧
      (∀ v, decodeTop cfg (cfg.key .sectl) (.write v) = .wSectl v) ∧
      (∀ v, decodeTop cfg (cfg.key .fememdata) (.write v) = .wFememdata v) ∧
      decodeTop cfg (cfg.key .xgscnt) .read = .rXgscnt := by
  have hsi : cfg.addrOf .sectl ≠ cfg.addrOf .ists := Config.addrOf_ne hw (by decide)
  have hdi : cfg.addrOf .fememdata ≠ cfg.addrOf .ists := Config.addrOf_ne hw (by decide)
  have hds : cfg.addrOf .fememdata ≠ cfg.addrOf .sectl := Config.addrOf_ne hw (by decide)
  simp [decodeTop, Config.key_toNat hw (r := .ists) (by decide), Config.key_toNat hw (r := .sectl) (by decide),
    Config.key_toNat hw (r := .fememdata) (by decide), Config.key_toNat hw (r := .xgscnt) (by decide), hsi, hdi, hds]

theorem decodeTop_wf {cfg : Config} {off : Word} (ha : aligned off = true) (acc : Access) :
    (decodeTop cfg off acc).wf cfg = true := by
  cases acc with
  | read =>
    dsimp only [decodeTop]
    split_ifs with hcnt hlt
    · rfl
    · exact Config.topPlainRead_iff.mpr ⟨ha, hlt, hcnt⟩
    · exact Window.outOfRange_iff.mpr ⟨ha, Nat.not_lt.mp hlt⟩
  | write v =>
    dsimp only [decodeTop]
    split_ifs with hists hsectl hdata hlt
    · rfl
    · rfl
    · rfl
    · exact Config.topPlainWrite_iff.mpr ⟨ha, hlt, hists, hsectl, hdata⟩
    · exact Window.outOfRange_iff.mpr ⟨ha, Nat.not_lt.mp hlt⟩

/-! ## Accesses of GP and EP (rule R96) -/

/-- A reset register's offset as a word is its offset (rule R39). -/
theorem Config.rstKey_toNat {cfg : Config} (hw : cfg.wf = true) (c : Coproc) :
    (BitVec.ofNat 32 (cfg.rstAddr c)).toNat = cfg.rstAddr c := by
  have hlt := (Config.rstAddr_ok hw c).2
  have hsize : c.window.size ≤ 0x10000 := by cases c <;> decide
  rw [BitVec.toNat_ofNat, Nat.mod_eq_of_lt (by omega)]

theorem Config.rstKey_aligned {cfg : Config} (hw : cfg.wf = true) (c : Coproc) :
    aligned (BitVec.ofNat 32 (cfg.rstAddr c)) = true := by
  simp [aligned, Config.rstKey_toNat hw, (Config.rstAddr_ok hw c).1]

theorem decodeCoproc_rst {cfg : Config} (hw : cfg.wf = true) (c : Coproc) (v : Word) :
    decodeCoproc cfg c (BitVec.ofNat 32 (cfg.rstAddr c)) (.write v) = .wRst c v := by
  simp [decodeCoproc, Config.rstKey_toNat hw, (Config.rstAddr_ok hw c).2]

theorem decodeCoproc_subwindow {cfg : Config} {c : Coproc} {off : Word} (h : cfg.subwindowOffset c off = true) :
    decodeCoproc cfg c off .read = .rSubwindow c off ∧
      ∀ v, decodeCoproc cfg c off (.write v) = .wSubwindow c off v := by
  obtain ⟨-, hlt, hrst, hsub⟩ := Config.subwindowOffset_iff.mp h
  simp [decodeCoproc, hlt, hrst, hsub]

theorem Config.coprocPlain_aligned {cfg : Config} {c : Coproc} {off : Word} {acc : Access}
    (h : cfg.coprocPlain c off acc = true) : aligned off = true := by
  cases acc with
  | read => exact (Config.coprocPlain_read_iff.mp h).1
  | write v => exact (Config.coprocPlain_write_iff.mp h).1

theorem decodeCoproc_plain {cfg : Config} {c : Coproc} {off : Word} {acc : Access}
    (h : cfg.coprocPlain c off acc = true) : decodeCoproc cfg c off acc = .gpepPlain c off acc := by
  cases acc with
  | read =>
    obtain ⟨-, hlt, hrst | hsub⟩ := Config.coprocPlain_read_iff.mp h
    · simp [decodeCoproc, ← hrst, hlt]
    · simp [decodeCoproc, hlt, hsub]
  | write v =>
    obtain ⟨-, hlt, hrst, hsub⟩ := Config.coprocPlain_write_iff.mp h
    simp [decodeCoproc, hlt, hrst, hsub]

theorem decodeCoproc_outOfRange {cfg : Config} {c : Coproc} {off : Word} (h : c.window.outOfRange off = true)
    (acc : Access) : decodeCoproc cfg c off acc = .gpepOutOfRange c off acc := by
  have hle := Nat.not_lt.mpr (Window.outOfRange_iff.mp h).2
  cases acc <;> simp [decodeCoproc, hle]

theorem decodeCoproc_wf {cfg : Config} {off : Word} (ha : aligned off = true) (c : Coproc) (acc : Access) :
    (decodeCoproc cfg c off acc).wf cfg = true := by
  cases acc with
  | read =>
    dsimp only [decodeCoproc]
    split_ifs with hlt hrst hsub
    · exact Config.coprocPlain_read_iff.mpr ⟨ha, hlt, .inl hrst⟩
    · exact Config.subwindowOffset_iff.mpr ⟨ha, hlt, hrst, hsub⟩
    · exact Config.coprocPlain_read_iff.mpr ⟨ha, hlt, .inr (Option.not_isSome_iff_eq_none.mp hsub)⟩
    · exact Window.outOfRange_iff.mpr ⟨ha, Nat.not_lt.mp hlt⟩
  | write v =>
    dsimp only [decodeCoproc]
    split_ifs with hlt hrst hsub
    · rfl
    · exact Config.subwindowOffset_iff.mpr ⟨ha, hlt, hrst, hsub⟩
    · exact (Config.coprocPlain_write_iff (v := v)).mpr ⟨ha, hlt, hrst, Option.not_isSome_iff_eq_none.mp hsub⟩
    · exact Window.outOfRange_iff.mpr ⟨ha, Nat.not_lt.mp hlt⟩

/-! ## The instruction of an encoded packet -/

theorem decodeAccess_encoded (acc : Access) : decodeAccess acc.isRead acc.value = .ok acc := by
  cases acc <;> rfl

theorem admittedWidth_lt : admittedWidth < 256 := by decide

theorem decode_topPacket {cfg : Config} {off : Word} (h : aligned off = true) (acc : Access) :
    decode cfg (topPacket off acc) = .ok (decodeTop cfg off acc) :=
  (decode_packet cfg off acc.value (f := .top acc.isRead admittedWidth) admittedWidth_lt).trans
    (decodeAdmitted_admitted (by simpa [aligned] using h) (decodeAccess_encoded acc) _)

theorem decode_coprocPacket {cfg : Config} {off : Word} (h : aligned off = true) (c : Coproc) (acc : Access) :
    decode cfg (coprocPacket c off acc) = .ok (decodeCoproc cfg c off acc) :=
  (decode_packet cfg off acc.value (f := .coproc c acc.isRead admittedWidth) admittedWidth_lt).trans
    (decodeAdmitted_admitted (by simpa [aligned] using h) (decodeAccess_encoded acc) _)

theorem decode_commandPacket (cfg : Config) (op arg : Word) :
    decode cfg (packet op .command arg) = .ok (decodeCommand cfg op arg) :=
  decode_packet cfg op arg (by decide)

/-- A request's length and data words are read back as its length and its bytes (rules R97, R305). -/
theorem decodeRequest_encoded {dir : Dir} {len : Nat} {data : List Byte} (hlen : len < 2 ^ 32)
    (h : requestDataOk dir len data = true) (k : List Byte → Instr) :
    decodeRequest dir (BitVec.ofNat 32 len) (data.map (BitVec.setWidth 32)) k = .ok (k data) := by
  rw [decodeRequest, decodeBytes_map, BitVec.toNat_ofNat, Nat.mod_eq_of_lt hlen]
  exact if_pos h

theorem decode_dataPacket {f : Form} (h : f.width < 256) (cfg : Config) (key v : Word) (data : List Word) :
    decode cfg (packet key f v ++ data) = decodeForm cfg key v data f := by
  simp [packet, decode, Form.ofWord_word f h]

theorem decode_encode_scratchReq {dir : Dir} {len : Nat} {data : List Byte} (hlen : len < 2 ^ 32)
    (h : requestDataOk dir len data = true) (cfg : Config) (c : Coproc) (off : Word) :
    decode cfg (encode cfg (.scratchReq c dir off len data)) = .ok (.scratchReq c dir off len data) := by
  rw [encode, decode_dataPacket (f := .scratch c dir) (Nat.zero_lt_succ _), decodeForm, decodeRequest_encoded hlen h,
    BitVec.toNat_ofNat, Nat.mod_eq_of_lt hlen]

theorem decode_encode_fifoReq {dir : Dir} {k len : Nat} {data : List Byte} (hk : k < 2 ^ 32) (hlen : len < 2 ^ 32)
    (h : requestDataOk dir len data = true) (cfg : Config) (c : Coproc) :
    decode cfg (encode cfg (.fifoReq c dir k len data)) = .ok (.fifoReq c dir k len data) := by
  rw [encode, decode_dataPacket (f := .fifo c dir) (Nat.zero_lt_succ _), decodeForm, decodeRequest_encoded hlen h,
    BitVec.toNat_ofNat, BitVec.toNat_ofNat, Nat.mod_eq_of_lt hlen, Nat.mod_eq_of_lt hk]

end Sys2Proof

namespace Sys2Proof.Machine

/-- Settles O14: the packet's form leads the decoder to the selection of its kind (a command's opcode, an access's
offset, a request's data), and that selection answers the instruction. -/
theorem decodeOfEncodeIsTheInstruction : Obligations.DecodeOfEncodeIsTheInstruction := by
  intro cfg i hw hi
  have top {off : Word} {acc : Access} (ha : aligned off = true) (hd : decodeTop cfg off acc = i) :
      decode cfg (topPacket off acc) = .ok i := by
    rw [decode_topPacket ha, hd]
  have coproc {c : Coproc} {off : Word} {acc : Access} (ha : aligned off = true) (hd : decodeCoproc cfg c off acc = i) :
      decode cfg (coprocPacket c off acc) = .ok i := by
    rw [decode_coprocPacket ha, hd]
  have command {op arg : Word} (hd : decodeCommand cfg op arg = i) : decode cfg (packet op .command arg) = .ok i := by
    rw [decode_commandPacket, hd]
  obtain ⟨hante, hon, hoff, hpause, hcur, hidle⟩ := decodeCommand_opcode hw
  obtain ⟨hists, hsectl, hdata, hcnt⟩ := decodeTop_key hw
  cases i with
  | setAntecedentVoice arg => exact command (hante arg)
  | voiceOn arg => exact command (hon arg)
  | voiceOff arg => exact command (hoff arg)
  | voicePause arg => exact command (hpause arg)
  | setCurrentVoice arg => exact command (hcur arg)
  | idleVoiceNotify arg => exact command (hidle arg)
  | unknownMethod op arg => exact command (decodeCommand_unknown (by simpa [Instr.wf] using hi) arg)
  | wIsts v => exact top (Config.key_aligned hw (by decide)) (hists v)
  | wSectl v => exact top (Config.key_aligned hw (by decide)) (hsectl v)
  | wFememdata v => exact top (Config.key_aligned hw (by decide)) (hdata v)
  | rXgscnt => exact top (Config.key_aligned hw (by decide)) hcnt
  | wTopPlain off v => exact top (Config.topPlainWrite_iff.mp hi).1 (decodeTop_plainWrite hi v)
  | rTopPlain off => exact top (Config.topPlainRead_iff.mp hi).1 (decodeTop_plainRead hi)
  | topOutOfRange off acc => exact top (Window.outOfRange_iff.mp hi).1 (decodeTop_outOfRange hw hi acc)
  | wRst c v => exact coproc (Config.rstKey_aligned hw c) (decodeCoproc_rst hw c v)
  | wSubwindow c off v => exact coproc (Config.subwindowOffset_iff.mp hi).1 ((decodeCoproc_subwindow hi).2 v)
  | rSubwindow c off => exact coproc (Config.subwindowOffset_iff.mp hi).1 (decodeCoproc_subwindow hi).1
  | gpepPlain c off acc => exact coproc (Config.coprocPlain_aligned hi) (decodeCoproc_plain hi)
  | gpepOutOfRange c off acc => exact coproc (Window.outOfRange_iff.mp hi).1 (decodeCoproc_outOfRange hi acc)
  | methodSubmit acc =>
    cases acc with
    | submit op arg => exact decode_packet cfg op arg (by decide)
    | read => exact decode_packet cfg 0#32 0#32 (by decide)
  | scratchReq c dir off len data =>
    simp only [Instr.wf, Bool.and_eq_true, decide_eq_true_eq] at hi
    obtain ⟨hlen, hok⟩ := hi
    exact decode_encode_scratchReq hlen hok cfg c off
  | fifoReq c dir k len data =>
    simp only [Instr.wf, Bool.and_eq_true, decide_eq_true_eq] at hi
    obtain ⟨⟨hk, hlen⟩, hok⟩ := hi
    exact decode_encode_fifoReq hk hlen hok cfg c
  | tick => exact decode_packet cfg 0#32 0#32 (by decide)
  | reset => exact decode_packet cfg 0#32 0#32 (by decide)

end Sys2Proof.Machine

namespace Sys2Proof

/-! ## The forms that the decoder accepts -/

/-- A guarded answer of the decoder: it accepts only where the guard holds. -/
theorem accepted_of_guard {p : Prop} [Decidable p] {x : Except DecodeError Instr} {e : DecodeError} {i : Instr}
    (h : (if p then x else .error e) = .ok i) : p ∧ x = .ok i := by
  split_ifs at h with hp
  exact ⟨hp, h⟩

theorem decodePort_wf (cfg : Config) (key : Word) (acc : Access) : (decodePort key acc).wf cfg = true := by
  cases acc <;> rfl

theorem decodeTable_wf (cfg : Config) (key v : Word) : (decodeTable cfg key v).wf cfg = true := by
  unfold decodeTable
  split_ifs
  · exact decodeCommand_wf cfg key v
  all_goals rfl

/-- The windows of the device's MMIO region start at multiples of 4 (log 27). -/
theorem Config.mmio_aligned {cfg : Config} (hw : cfg.wf = true) :
    cfg.mmio.topBase % 4 = 0 ∧ cfg.mmio.gpBase % 4 = 0 ∧ cfg.mmio.epBase % 4 = 0 := by
  simp only [Config.wf, MmioLayout.ok, Bool.and_eq_true, beq_iff_eq] at hw
  obtain ⟨-, ⟨⟨-, htop⟩, hgp⟩, hep⟩ := hw
  exact ⟨htop, hgp, hep⟩

/-- An aligned device address is an aligned offset of its window (rule R92). -/
theorem aligned_windowOffset {a : Word} {base : Nat} (ha : aligned a = true) (hb : base % 4 = 0) :
    aligned (BitVec.ofNat 32 (a.toNat - base)) = true := by
  simp only [aligned, beq_iff_eq, BitVec.toNat_ofNat] at *
  omega

theorem decodeDevice_wf {cfg : Config} {a : Word} {acc : Access} {i : Instr} (hw : cfg.wf = true)
    (ha : aligned a = true) (h : decodeDevice cfg a acc = .ok i) : i.wf cfg = true := by
  obtain ⟨htop, hgp, hep⟩ := Config.mmio_aligned hw
  dsimp only [decodeDevice] at h
  split_ifs at h <;> cases h
  · exact decodePort_wf ..
  · exact decodeTop_wf (aligned_windowOffset ha htop) acc
  · exact decodeCoproc_wf (aligned_windowOffset ha hgp) .gp acc
  · exact decodeCoproc_wf (aligned_windowOffset ha hep) .ep acc

/-- An admitted access is aligned, and is decoded as a read or as a write (rules R63, R96). -/
theorem decodeAdmitted_ok {off v : Word} {rd : Bool} {width : Nat} {k : Access → Except DecodeError Instr} {i : Instr}
    (h : decodeAdmitted off rd width v k = .ok i) : aligned off = true ∧ ∃ acc, k acc = .ok i := by
  obtain ⟨⟨-, ha⟩, h⟩ := accepted_of_guard h
  split at h
  · exact ⟨ha, _, h⟩
  · cases h

/-- An accepted request holds the data that its length says (rules R97, R305). -/
theorem decodeRequest_ok {dir : Dir} {len : Word} {data : List Word} {k : List Byte → Instr} {i : Instr}
    (h : decodeRequest dir len data k = .ok i) : ∃ bs, requestDataOk dir len.toNat bs = true ∧ k bs = i := by
  unfold decodeRequest at h
  split at h
  · obtain ⟨hok, h⟩ := accepted_of_guard h
    exact ⟨_, hok, Except.ok.inj h⟩
  · cases h

theorem decodeForm_wf {cfg : Config} {key v : Word} {data : List Word} {f : Form} {i : Instr} (hw : cfg.wf = true)
    (h : decodeForm cfg key v data f = .ok i) : i.wf cfg = true := by
  cases f with
  | table =>
    cases (accepted_of_guard h).2
    exact decodeTable_wf ..
  | command =>
    cases (accepted_of_guard h).2
    exact decodeCommand_wf ..
  | port rd =>
    have h := (accepted_of_guard h).2
    split at h <;> cases h
    exact decodePort_wf ..
  | top rd width =>
    obtain ⟨ha, acc, h⟩ := decodeAdmitted_ok (accepted_of_guard h).2
    cases h
    exact decodeTop_wf ha acc
  | coproc c rd width =>
    obtain ⟨ha, acc, h⟩ := decodeAdmitted_ok (accepted_of_guard h).2
    cases h
    exact decodeCoproc_wf ha c acc
  | device rd width =>
    obtain ⟨ha, acc, h⟩ := decodeAdmitted_ok (accepted_of_guard h).2
    exact decodeDevice_wf hw ha h
  | scratch c dir =>
    obtain ⟨bs, hok, rfl⟩ := decodeRequest_ok h
    simp [Instr.wf, hok, v.isLt]
  | fifo c dir =>
    obtain ⟨bs, hok, rfl⟩ := decodeRequest_ok h
    simp [Instr.wf, hok, v.isLt, key.isLt]
  | tick | reset =>
    cases (accepted_of_guard (accepted_of_guard h).2).2
    rfl

end Sys2Proof

namespace Sys2Proof.Machine

/-- Settles O15: an accepted packet has a form, and what is selected under each form is well-formed. -/
theorem decodedInstructionsAreWellFormed : Obligations.DecodedInstructionsAreWellFormed := by
  intro cfg p i hw h
  unfold decode at h
  split at h
  · split at h
    · exact decodeForm_wf hw h
    · cases h
  · cases h

end Sys2Proof.Machine
end

section
/-! Commands of the host: the latch of the pair, then the store of the argument or the fault (rules R231, R232, R236);
and a submission at the method port is the command of its opcode (rules R133, R230). -/

namespace Sys2Proof.Machine

/-! ## The latch and what follows it -/

theorem hostMethod_of_accepts {s : State} (hl : s.live = true) (ha : s.acceptsMethod = true) (r : Res Unit) :
    hostMethod s r = r.outcome := by
  have hheld : (s.cfg.holdWhenTrapped && s.trapped) = false := by rwa [State.acceptsMethod, Bool.not_eq_true'] at ha
  rw [hostMethod, event_live hl, hheld]
  rfl

/-- A store of a named register leaves every entry but that register's. -/
theorem State.sameRegsBut.setTopReg {s t : State} {rs : List TopReg} (h : s.sameRegsBut t rs) (hc : t.cfg = s.cfg)
    {r : TopReg} (hr : r ∈ rs) (v : Word) : s.sameRegsBut (t.setTopReg r v) rs := by
  intro w a hne
  rw [State.reg_setTopReg, hc, if_neg (hne r hr)]
  exact h w a hne

theorem latch_sameRegsBut {rs : List TopReg} (hm : .fedecmeth ∈ rs) (hp : .fedecparam ∈ rs) (op arg : Word)
    (s : State) : s.sameRegsBut (latch op arg s) rs :=
  have hs : s.sameRegsBut s rs := fun _ _ _ => rfl
  (hs.setTopReg rfl hm op).setTopReg rfl hp arg

/-- A command that stores its argument latches its pair and stores the argument, and nothing else changes (rules R231,
R232, R236). -/
theorem hostMethod_storeArgument {s : State} (hw : s.cfg.wf = true) (hl : s.live = true) (ha : s.acceptsMethod = true)
    (op arg : Word) {r : TopReg} (hm : r ≠ .fedecmeth) (hp : r ≠ .fedecparam) (hr : r ∈ TopReg.all := by decide) :
    ∃ t, hostMethod s (.ok () ((latch op arg s).setTopReg r arg)) = .next t ∧ t.topReg r = arg ∧
      t.topReg .fedecmeth = op ∧ t.topReg .fedecparam = arg ∧ s.sameRegsBut t [r, .fedecmeth, .fedecparam] ∧
      t = { s with topBank := t.topBank } := by
  obtain ⟨hop, harg⟩ := latch_topReg hw op arg
  refine ⟨_, hostMethod_of_accepts hl ha _, State.topReg_setTopReg_self .., ?_, ?_, ?_, rfl⟩
  · rw [State.topReg_setTopReg_ne (by exact hw) arg hm.symm hr, hop]
  · rw [State.topReg_setTopReg_ne (by exact hw) arg hp.symm hr, harg]
  · exact (latch_sameRegsBut (by simp) (by simp) op arg s).setTopReg rfl (by simp) arg

/-- A method that is unknown faults after its latch, and nothing else changes (rule R231). -/
theorem hostMethod_unknownOpcode {s : State} (hw : s.cfg.wf = true) (hl : s.live = true) (ha : s.acceptsMethod = true)
    (op arg : Word) :
    ∃ t, hostMethod s (raise .unknownOpcode (latch op arg s)) = .next t ∧ t.fault = some .unknownOpcode ∧
      t.topReg .fedecmeth = op ∧ t.topReg .fedecparam = arg ∧ s.sameRegsBut t [.fedecmeth, .fedecparam] ∧
      t = { s with topBank := t.topBank, fault := t.fault } := by
  obtain ⟨hop, harg⟩ := latch_topReg hw op arg
  refine ⟨(latch op arg s).setFault .unknownOpcode, hostMethod_of_accepts hl ha _, rfl, hop, harg, fun w a hne => ?_,
    rfl⟩
  rw [State.setFault_reg]
  exact latch_sameRegsBut (by simp) (by simp) op arg s w a hne

/-- Settles O28: for the host, an opcode outside the fixed set and the idle notification both dispatch to the fault. -/
theorem unknownOpcodesLatchAndFault : Obligations.UnknownOpcodesLatchAndFault := by
  intro s op arg hw hl ha
  refine ⟨fun hop => ?_, fun hs => ?_⟩
  · simp only [exec, execUnknownMethod, feDispatch_unknown hop]
    exact hostMethod_unknownOpcode hw hl ha op arg
  · simp only [exec, execIdleVoiceNotify, if_neg hs]
    exact hostMethod_unknownOpcode hw hl ha _ arg

/-! ## The method port -/

/-- The command that an opcode selects is the host's dispatch of its pair, outside a tick (rules R91, R230; log 23). -/
theorem exec_decodeCommand {s : State} (hs : s.sched ≠ .running) (op arg : Word) :
    exec (decodeCommand s.cfg op arg) s = hostMethod s (feDispatch op arg .host s) := by
  have hunknown (hk : s.cfg.opcode.known op = false) :
      exec (.unknownMethod op arg) s = hostMethod s (raise .unknownOpcode (latch op arg s)) :=
    congrArg (hostMethod s) (feDispatch_unknown hk arg)
  simp only [decodeCommand, feDispatch, reduceCtorEq, and_false, if_false]
  split_ifs with h1 h2 h3 h4 h5 h6
  · rw [h1]; rfl
  · rw [h2]; rfl
  · rw [h3]; rfl
  · rw [h4]; rfl
  · rw [h5]; rfl
  · rw [h6]; exact if_neg hs
  · exact hunknown (OpcodeMap.known_eq_false_iff.mpr ⟨h1, h2, h3, h4, h5, h6⟩)

/-- Settles O30: a submission and the command of its opcode are the same dispatch; the two argument commands are then a
latch and the store of their register. -/
theorem methodSubmissionIsTheCommand : Obligations.MethodSubmissionIsTheCommand := by
  intro s op arg hw hs
  obtain ⟨hante, -, -, -, hcur, -⟩ := decodeCommand_opcode hw
  have hexec : exec (.methodSubmit (.submit op arg)) s = exec (decodeCommand s.cfg op arg) s :=
    (exec_decodeCommand hs op arg).symm
  refine ⟨hexec, ?_, ?_⟩
  · rintro hl ha rfl
    rw [hexec, hcur]
    exact hostMethod_storeArgument hw hl ha _ arg (r := .fecv) nofun nofun
  · rintro hl ha rfl
    rw [hexec, hante]
    exact hostMethod_storeArgument hw hl ha _ arg (r := .feav) nofun nofun

end Sys2Proof.Machine
end


section
/-! The frame timer: which effects move it, and so which instructions do (rules R41, R126, R262, R263, R330). -/

namespace Sys2Proof.Machine

/-! ## What leaves the timer alone -/

/-- Effects that neither move the scheduler nor reset the device leave the timer and the scheduler (rules R41, R42). -/
theorem Steps.timer {K : Effect → Prop} {s t : State} (h : Steps K s t) (hK : Effect.SparesTick K) (hr : ¬K .reset) :
    t.timerArmed = s.timerArmed ∧ t.timerDeadline = s.timerDeadline ∧ t.sched = s.sched := by
  refine h.rec_inv
    (P := fun u => u.timerArmed = s.timerArmed ∧ u.timerDeadline = s.timerDeadline ∧ u.sched = s.sched)
    (fun e u he _ hu => ?_) ⟨rfl, rfl, rfl⟩
  cases e with
  | arm => exact (hK.arm he).elim
  | disarm => exact (hK.disarm he).elim
  | sched q => exact (hK.sched q he).elim
  | reset => exact (hr he).elim
  | entry w a v =>
    simpa only [Effect.apply, State.setReg_timerArmed, State.setReg_timerDeadline, State.setReg_sched] using hu
  | _ => exact hu

theorem Effect.SparesTick.mono {K K' : Effect → Prop} (h : Effect.SparesTick K') (hK : ∀ e, K e → K' e) :
    Effect.SparesTick K :=
  ⟨fun he => h.arm (hK _ he), fun he => h.disarm (hK _ he), fun q he => h.sched q (hK _ he),
    fun he => h.startMix (hK _ he)⟩

theorem command_sparesTick : Effect.SparesTick Effect.command := ⟨id, id, fun _ => id, id⟩

theorem hostRead_sparesTick : Effect.SparesTick Effect.hostRead := ⟨id, id, fun _ => id, id⟩

/-- Of the writes of TOP, only SECTL's moves the timer (rules R122, R126). -/
theorem topWrite_sparesTick {cfg : Config} {a : Nat} (h : a ≠ cfg.addrOf .sectl) (v : Word) :
    Effect.SparesTick (Effect.topWrite cfg a v) :=
  .mono (K' := fun e => e = .ists v ∨ e.notify v ∨ e = .entry .top a v)
    ⟨by simp [Effect.notify], by simp [Effect.notify], by simp [Effect.notify], by simp [Effect.notify]⟩
    fun _ => topWrite_cases h

theorem rstWrite_sparesTick (cfg : Config) (c : Coproc) (v : Word) : Effect.SparesTick (Effect.rstWrite cfg c v) := by
  constructor <;> simp [Effect.rstWrite, Effect.call]

theorem coprocAccess_sparesTick (cfg : Config) (c : Coproc) (off : Word) (acc : Access) :
    Effect.SparesTick (Effect.coprocAccess cfg c off acc) := by
  cases acc with
  | read => exact hostRead_sparesTick
  | write v => constructor <;> simp [Effect.coprocAccess, Effect.coprocWrite, Effect.rstWrite, Effect.call]

/-- Well-formed instructions other than a SECTL write, a tick and device reset have no effect on the scheduler. -/
theorem mayDo_sparesTick {cfg : Config} {i : Instr} (hw : cfg.wf = true) (hi : i.wf cfg = true)
    (hsectl : ∀ v, i ≠ .wSectl v) (htick : i ≠ .tick) : Effect.SparesTick (Effect.mayDo cfg i) := by
  cases i with
  | wSectl v => exact absurd rfl (hsectl v)
  | tick => exact absurd rfl htick
  | setAntecedentVoice | setCurrentVoice =>
    exact command_sparesTick.mono fun e he => he.elim e.command_of_latches (by rintro ⟨v, rfl⟩; trivial)
  | voiceOn | voiceOff | voicePause => exact command_sparesTick.mono Effect.command_of_voiceCommand
  | unknownMethod => exact command_sparesTick
  | methodSubmit acc => cases acc with
    | submit => exact command_sparesTick
    | read => exact hostRead_sparesTick
  | rXgscnt | rTopPlain | rSubwindow => exact hostRead_sparesTick
  | wTopPlain off v =>
    obtain ⟨-, -, -, hne, -⟩ := Config.topPlainWrite_iff.mp hi
    exact topWrite_sparesTick hne v
  | topOutOfRange off acc => cases acc with
    | read => exact hostRead_sparesTick
    | write v =>
      have hout := (Window.outOfRange_iff.mp hi).2
      have hin := (Config.addrOf_ok hw (r := .sectl) (by decide)).2
      exact topWrite_sparesTick (by omega) v
  | wRst c v => exact rstWrite_sparesTick ..
  | wSubwindow c off v => exact coprocAccess_sparesTick cfg c off (.write v)
  | gpepPlain | gpepOutOfRange => exact coprocAccess_sparesTick ..
  | idleVoiceNotify | wFememdata | scratchReq | fifoReq => exact ⟨id, id, fun _ => id, id⟩
  | wIsts | reset => exact ⟨nofun, nofun, nofun, nofun⟩

/-- A tick has a step only while the timer is armed (rule R261). -/
theorem execTick_armed {s t : State} (h : execTick s = .next t) : s.timerArmed = true := by
  obtain ⟨-, -, hr⟩ := event_next h
  by_contra hn
  simp [hn] at hr

/-- Settles O10: no other instruction has an effect on the timer, and a tick finds it armed and never disarms it. -/
theorem onlySectlTickAndResetTouchTheTimer : Obligations.OnlySectlTickAndResetTouchTheTimer := by
  intro i s t hw hi h
  have he := exec_effects hw h
  refine ⟨fun hsectl htick hreset => ?_, ?_⟩
  · exact he.timer (mayDo_sparesTick hw hi hsectl htick) fun hr => hreset (mayDo_reset hr)
  · rintro rfl
    have hdisarm : ¬Effect.tick .disarm := by simp [Effect.tick, Effect.walk, Effect.call]
    exact he.timerArmed hdisarm (fun hr => nomatch mayDo_reset hr) (execTick_armed h)

/-! ## SECTL writes -/

theorem exec_wSectl {s : State} (hl : s.live = true) (v : Word) : exec (.wSectl v) s = .next (sectlWrite v s) :=
  event_live hl _

theorem sectlWrite_off {s : State} {v : Word} (h : getf v s.cfg.field.sectlXcntmode = s.cfg.field.xcntmodeOff) :
    sectlWrite v s = (s.disarmTimer.setSched .idle).setTopReg .sectl v := by
  rw [sectlWrite, if_pos (by simpa [Config.xcntOff] using h)]

theorem sectlWrite_on {s : State} {v : Word} (h : getf v s.cfg.field.sectlXcntmode ≠ s.cfg.field.xcntmodeOff) :
    sectlWrite v s = (s.armTimer.setSched .scheduled).setTopReg .sectl v := by
  rw [sectlWrite, if_neg (by simpa [Config.xcntOff] using h)]

/-- Settles O38: the count mode chooses between disarming and arming; the store of SECTL follows either. -/
theorem sectlWriteArmsOrDisarmsTheTimer : Obligations.SectlWriteArmsOrDisarmsTheTimer := by
  intro s v _ hl
  have regs {u : State} (hu : ∀ w a, u.reg w a = s.reg w a) (hc : u.cfg = s.cfg) :
      s.sameRegsBut (u.setTopReg .sectl v) [.sectl] :=
    State.sameRegsBut.setTopReg (fun w a _ => hu w a) hc (by simp) v
  refine ⟨fun h => ?_, fun h => ?_⟩
  · refine ⟨_, (exec_wSectl hl v).trans (congrArg _ (sectlWrite_off h)), rfl, rfl, State.topReg_setTopReg_self .., ?_,
      regs (by simp) rfl, rfl⟩
    simp
  · refine ⟨_, Config.nowMs s.draws, (exec_wSectl hl v).trans (congrArg _ (sectlWrite_on h)), rfl, rfl, rfl,
      State.topReg_setTopReg_self .., ?_, regs (by simp) rfl, rfl⟩
    simp [tickPeriodMs]

end Sys2Proof.Machine
end

section
/-! The interrupt line and the front-end trap: what an evaluation leaves in ISTS and on the line (rule R125), what an
ISTS write does (rule R124), and what the idle notification of a tick does (rules R238, R309). -/

namespace Sys2Proof

/-! ## Words of the evaluation and of the trap -/

/-- An enabled source is pending (rule R125). -/
theorem Config.irqPending_iff {cfg : Config} {ien ists : Word} :
    cfg.irqPending ien ists = true ↔ (ien &&& ~~~cfg.field.istsGlobal) &&& ists ≠ 0#32 ∧
      (cfg.irqGlobalGate = true → ien &&& cfg.field.istsGlobal ≠ 0#32) := by
  simp only [Config.irqPending, Bool.and_eq_true, bne_iff_ne, Bool.or_eq_true, Bool.not_eq_true']
  cases cfg.irqGlobalGate <;> simp

/-- The evaluation changes no ISTS bit but G (rule R125). -/
theorem Config.istsAfterIrq_and {cfg : Config} {m : Word} (h : cfg.field.istsGlobal &&& m = 0#32) (ien ists : Word) :
    cfg.istsAfterIrq ien ists &&& m = ists &&& m := by
  ext i hi
  have hbit : cfg.field.istsGlobal[i] = true → m[i] = false := by simpa using congrArg (·[i]) h
  unfold Config.istsAfterIrq
  cases hg : cfg.field.istsGlobal[i]
  · split <;> simp [hg]
  · simp [hbit hg]

/-- The trap's FECTL word: mode TRAPPED, reason REQUESTED, every other bit kept (rule R238). -/
theorem Config.fectlTrap_fields {cfg : Config} (hw : cfg.wf = true) (w : Word) :
    getf (cfg.fectlTrap w) cfg.field.fectlMode = cfg.field.modeTrapped ∧
      getf (cfg.fectlTrap w) cfg.field.fectlReason = cfg.field.reasonRequested ∧
      cfg.fectlTrap w &&& ~~~(cfg.field.fectlMode ||| cfg.field.fectlReason) =
        w &&& ~~~(cfg.field.fectlMode ||| cfg.field.fectlReason) := by
  have hm := Config.masks hw
  refine ⟨?_, ?_, ?_⟩
  · rw [Config.fectlTrap, getf_setf_apart (by rw [BitVec.and_comm]; exact hm.mode_reason), getf_setf, hm.mode_holds]
  · rw [Config.fectlTrap, getf_setf, hm.reason_holds]
  · rw [Config.fectlTrap, BitVec.not_or, BitVec.and_comm (~~~cfg.field.fectlMode), ← BitVec.and_assoc,
      setf_and_not_mask, BitVec.and_assoc, BitVec.and_comm (~~~cfg.field.fectlReason), ← BitVec.and_assoc,
      setf_and_not_mask, BitVec.and_assoc]

end Sys2Proof

namespace Sys2Proof.Machine

/-! ## The evaluation of the line -/

/-- An evaluation right after a store of ISTS drives the line to what is pending in the stored word (rule R125). -/
theorem updateIrq_setIsts_irqLine {s : State} (hw : s.cfg.wf = true) (x : Word) :
    (updateIrq (s.setTopReg .ists x)).irqLine = s.cfg.irqPending (s.topReg .ien) x := by
  have hien : (s.setTopReg .ists x).topReg .ien = s.topReg .ien := State.topReg_setTopReg_ne hw x nofun
  rw [updateIrq, State.driveIrq_irqLine, hien, State.topReg_setTopReg_self, State.setTopReg_cfg]

/-- An evaluation right after a store of ISTS leaves the stored word but for G, which shows the line (rule R125). -/
theorem updateIrq_setIsts_ists {s : State} (hw : s.cfg.wf = true) (x : Word) :
    (updateIrq (s.setTopReg .ists x)).topReg .ists = s.cfg.istsAfterIrq (s.topReg .ien) x := by
  have hien : (s.setTopReg .ists x).topReg .ien = s.topReg .ien := State.topReg_setTopReg_ne hw x nofun
  rw [updateIrq, State.driveIrq_topReg, State.topReg_setTopReg_self, hien, State.topReg_setTopReg_self,
    State.setTopReg_cfg]

/-- An evaluation stores ISTS alone (rule R125). -/
theorem State.sameRegsBut.updateIrq {s t : State} {rs : List TopReg} (h : s.sameRegsBut t rs) (hc : t.cfg = s.cfg)
    (hi : .ists ∈ rs) : s.sameRegsBut (updateIrq t) rs := by
  intro w a hne
  rw [Machine.updateIrq, State.driveIrq_reg]
  exact h.setTopReg hc hi _ w a hne

/-! ## ISTS writes -/

theorem exec_wIsts {s : State} (hl : s.live = true) (v : Word) : exec (.wIsts v) s = .next (istsWrite v s) :=
  event_live hl _

/-- Settles O37: the write clears its bits and evaluates the line on what is left. -/
theorem istsWriteClearsAndEvaluates : Obligations.IstsWriteClearsAndEvaluates := by
  rintro s v g p hw hl rfl rfl
  have hs : s.sameRegsBut s [.ists] := fun _ _ _ => rfl
  refine ⟨_, exec_wIsts hl v, ?_, ?_, istsWrite_calls v s, ?_, rfl⟩
  · rw [istsWrite, updateIrq_setIsts_irqLine hw, Config.irqPending_iff, writeOneToClear]
  · rw [istsWrite, updateIrq_setIsts_ists hw, updateIrq_setIsts_irqLine hw]
    rfl
  · exact (hs.setTopReg rfl (by simp) _).updateIrq rfl (by simp)

/-! ## The idle notification of a tick -/

/-- The trap is the store of FECTL's trap word, then the evaluation of ISTS with FET raised (rule R238). -/
theorem enterTrap_eq {s : State} (hw : s.cfg.wf = true) :
    enterTrap s = updateIrq ((s.setTopReg .fectl (s.cfg.fectlTrap (s.topReg .fectl))).setTopReg .ists
      (s.topReg .ists ||| s.cfg.field.istsFe)) := by
  have hists (v : Word) : (s.setTopReg .fectl v).topReg .ists = s.topReg .ists :=
    State.topReg_setTopReg_ne hw v nofun
  simp only [enterTrap, hists, State.setTopReg_cfg]

theorem enterTrap_irqLine {s : State} (hw : s.cfg.wf = true) :
    (enterTrap s).irqLine = s.cfg.irqPending (s.topReg .ien) (s.topReg .ists ||| s.cfg.field.istsFe) := by
  rw [enterTrap_eq hw, updateIrq_setIsts_irqLine (by exact hw), State.topReg_setTopReg_ne hw _ (by decide),
    State.setTopReg_cfg]

theorem enterTrap_ists {s : State} (hw : s.cfg.wf = true) :
    (enterTrap s).topReg .ists =
      s.cfg.istsAfterIrq (s.topReg .ien) (s.topReg .ists ||| s.cfg.field.istsFe) := by
  rw [enterTrap_eq hw, updateIrq_setIsts_ists (by exact hw), State.topReg_setTopReg_ne hw _ (by decide),
    State.setTopReg_cfg]

theorem enterTrap_fectl {s : State} (hw : s.cfg.wf = true) :
    (enterTrap s).topReg .fectl = s.cfg.fectlTrap (s.topReg .fectl) := by
  rw [enterTrap_eq hw, updateIrq_topReg (by exact hw) (by decide) (by decide),
    State.topReg_setTopReg_ne (by exact hw) _ (by decide),
    State.topReg_setTopReg_self]

/-- The trap stores FECTL and ISTS alone (rules R238, R309). -/
theorem State.sameRegsBut.enterTrap {s t : State} {rs : List TopReg} (h : s.sameRegsBut t rs) (hc : t.cfg = s.cfg)
    (hf : .fectl ∈ rs) (hi : .ists ∈ rs) : s.sameRegsBut (enterTrap t) rs :=
  ((h.setTopReg hc hf _).setTopReg hc hi _).updateIrq hc hi

/-- After the trap ISTS.FET is set (rule R238). -/
theorem enterTrap_ists_fe {s : State} (hw : s.cfg.wf = true) :
    (enterTrap s).topReg .ists &&& s.cfg.field.istsFe = s.cfg.field.istsFe := by
  rw [enterTrap_ists hw, Config.istsAfterIrq_and (Config.masks hw).global_fe]
  grind

/-- The latch stores FEDECMETH and FEDECPARAM alone (rules R30, R231). -/
theorem latch_topReg_of_ne {s : State} (hw : s.cfg.wf = true) (op arg : Word) {r : TopReg} (hm : r ≠ .fedecmeth)
    (hp : r ≠ .fedecparam) (hr : r ∈ TopReg.all := by decide) : (latch op arg s).topReg r = s.topReg r := by
  rw [latch, State.topReg_setTopReg_ne (by exact hw) arg hp (hr' := hr), State.topReg_setTopReg_ne hw op hm (hr' := hr)]

/-- Inside a tick the idle notification is the trap or its fault, after the latch (rules R231, R238; log 23). -/
theorem exec_idleVoiceNotify_running {s : State} (hl : s.live = true) (hs : s.sched = .running) (h : Word) :
    exec (.idleVoiceNotify h) s = (idleVoiceNotify (latch s.cfg.opcode.idleVoiceNotify h s)).outcome :=
  (if_pos hs).trans (event_live hl _)

theorem idleVoiceNotify_enabled {s : State} (h : getf (s.topReg .fetforce1) s.cfg.field.fetforce1Idle ≠ 0#32) :
    idleVoiceNotify s = .ok () (enterTrap s) :=
  if_pos (by simpa [Config.idleEnabled] using h)

theorem idleVoiceNotify_disabled {s : State} (h : getf (s.topReg .fetforce1) s.cfg.field.fetforce1Idle = 0#32) :
    idleVoiceNotify s = raise .idleNotifyDisabled s :=
  if_neg (by simpa [Config.idleEnabled] using h)

/-- Settles O29: the latch leaves FETFORCE1, FECTL, IEN and ISTS, so the notification traps on the words of `s`. -/
theorem idleNotificationTrapsTheFrontEnd : Obligations.IdleNotificationTrapsTheFrontEnd := by
  intro s h hw hl hs
  let l := latch s.cfg.opcode.idleVoiceNotify h s
  have kept {r : TopReg} (hm : r ≠ .fedecmeth) (hp : r ≠ .fedecparam) (hr : r ∈ TopReg.all) :
      l.topReg r = s.topReg r := latch_topReg_of_ne hw _ h hm hp hr
  have hforce := kept (r := .fetforce1) nofun nofun (by decide)
  have hfectl := kept (r := .fectl) nofun nofun (by decide)
  have hien := kept (r := .ien) nofun nofun (by decide)
  have hists := kept (r := .ists) nofun nofun (by decide)
  obtain ⟨hop, harg⟩ := latch_topReg hw s.cfg.opcode.idleVoiceNotify h
  refine ⟨fun hen => ?_, fun hdis => ?_⟩
  · obtain ⟨hmode, hreason, hrest⟩ := Config.fectlTrap_fields hw (s.topReg .fectl)
    have hline : (enterTrap l).irqLine = _ := (enterTrap_irqLine (s := l) hw).trans (by rw [hien, hists])
    have hfe : (enterTrap l).topReg .fectl = _ := (enterTrap_fectl (s := l) hw).trans (by rw [hfectl])
    refine ⟨enterTrap l, ?_, ?_, ?_, ?_, enterTrap_ists_fe (s := l) hw, ?_, hline, enterTrap_calls l, ?_, ?_, ?_, rfl⟩
    · rw [exec_idleVoiceNotify_running hl hs, idleVoiceNotify_enabled (by rw [hforce]; exact hen)]
      rfl
    · rw [hfe]; exact hmode
    · rw [hfe]; exact hreason
    · rw [hfe]; exact hrest
    · rw [enterTrap_ists (s := l) hw, hline, hien, hists]
      rfl
    · exact (enterTrap_topReg (s := l) hw (by decide) (by decide) (by decide)).trans hop
    · exact (enterTrap_topReg (s := l) hw (by decide) (by decide) (by decide)).trans harg
    · exact (latch_sameRegsBut (by simp) (by simp) _ h s).enterTrap rfl (by simp) (by simp)
  · refine ⟨l.setFault .idleNotifyDisabled, ?_, rfl, hop, harg, ?_, rfl⟩
    · rw [exec_idleVoiceNotify_running hl hs, idleVoiceNotify_disabled (by rw [hforce]; exact hdis)]
      rfl
    · exact latch_sameRegsBut (by simp) (by simp) _ h s

end Sys2Proof.Machine
end

section
/-! Accesses of the TOP window and of the method port: plain reads and writes (rules R120 to R123), the draws of XGSCNT
and of the method port (rules R128, R134), the FEMEMDATA write (rule R127), and the hold of a trapped front end
(rules R133, R239). -/

namespace Sys2Proof

/-- A named register but XGSCNT is read plainly (rules R120, R123). -/
theorem Config.topPlainRead_key {cfg : Config} (hw : cfg.wf = true) {r : TopReg} (hr : r ∈ TopReg.all)
    (h : r ≠ .xgscnt) : cfg.topPlainRead (cfg.key r) = true := by
  obtain ⟨h4, hlt⟩ := Config.addrOf_ok hw hr
  rw [Config.topPlainRead_iff, Config.key_toNat hw hr]
  exact ⟨by simpa [aligned, Config.key_toNat hw hr] using h4, hlt, Config.addrOf_ne hw h hr (by decide)⟩

end Sys2Proof

namespace Sys2Proof.Machine

/-! ## Reads -/

theorem exec_rTopPlain {s : State} (hl : s.live = true) {off : Word} (h : s.cfg.topPlainRead off = true) :
    exec (.rTopPlain off) s = .next (s.deliver (s.reg .top off.toNat)) := by
  obtain ⟨ha, hlt, hne⟩ := Config.topPlainRead_iff.mp h
  simp only [exec, execRTopPlain, topAccess, event_live hl, ha, if_true, hostReadTop, if_neg (Nat.not_le.mpr hlt),
    if_neg hne]
  rfl

theorem exec_rXgscnt {s : State} (hl : s.live = true) : exec .rXgscnt s = .next (counterRead s) :=
  event_live hl _

/-- Settles O34: a plain offset is neither out of range nor the counter's, and the three registers' addresses are
plain. -/
theorem topReadsReturnTheStoredWord : Obligations.TopReadsReturnTheStoredWord := by
  intro s off hl
  refine ⟨exec_rTopPlain hl, fun hw r hr => ?_⟩
  have hplain : r ∈ TopReg.all ∧ r ≠ .xgscnt := by fin_cases hr <;> decide
  rw [exec_rTopPlain hl (Config.topPlainRead_key hw hplain.1 hplain.2), Config.key_toNat hw hplain.1]
  rfl

/-- Settles O35: the counter's draw is delivered, whatever the register holds. -/
theorem counterReadReturnsADraw : Obligations.CounterReadReturnsADraw :=
  fun _ hl => ⟨_, _, exec_rXgscnt hl, rfl, rfl⟩

/-- Settles O31: a live device's read of the port delivers the port's draw. -/
theorem methodPortReadReturnsADraw : Obligations.MethodPortReadReturnsADraw :=
  fun _ hl => ⟨_, _, event_live hl _, rfl, rfl⟩

/-! ## Plain writes -/

theorem exec_wTopPlain {s : State} (hl : s.live = true) {off : Word} (h : s.cfg.topPlainWrite off = true) (v : Word) :
    exec (.wTopPlain off v) s = .next (s.setReg .top off.toNat v) := by
  obtain ⟨ha, hlt, hists, hsectl, hdata⟩ := Config.topPlainWrite_iff.mp h
  simp only [exec, execWTopPlain, topAccess, event_live hl, ha, if_true, hostWriteTop, if_neg (Nat.not_le.mpr hlt),
    if_neg hists, if_neg hsectl, if_neg hdata]
  rfl

/-- Settles O36: a plain offset has no side effect, so the write is the store; the counter's draw does not see it. -/
theorem topPlainWritesStoreOneEntry : Obligations.TopPlainWritesStoreOneEntry := by
  intro s off v hl h
  refine ⟨_, exec_wTopPlain hl h v, ?_, fun w a hne => ?_, rfl, fun _ => ?_⟩
  · rw [State.reg_setReg, if_pos ⟨rfl, rfl⟩]
  · rw [State.reg_setReg, if_neg hne]
  · exact ⟨_, _, exec_rXgscnt (by exact hl), exec_rXgscnt hl, rfl⟩

/-! ## The FEMEMDATA write -/

/-- A stored word lies in memory with its low byte first (rule R62). -/
theorem Memory.get_store_wordBytes (m : Memory) (p : Nat) (v : Word) {i : Nat} (hi : i < 4) :
    Cells.get (m.store p (wordBytes v)) (p + i) = v.extractLsb' (8 * i) 8 := by
  have hbyte : ∀ (j : Nat) (hj : j < 4), (wordBytes v)[j]'hj = v.extractLsb' (8 * j) 8
    | 0, _ | 1, _ | 2, _ | 3, _ => rfl
  rw [Memory.get_store, dif_pos ⟨by omega, by rw [wordBytes_length]; omega⟩]
  simp only [Nat.add_sub_cancel_left]
  exact hbyte i hi

theorem exec_wFememdata_inRam {s : State} (hl : s.live = true) (h : (s.topReg .fememaddr).toNat + 4 ≤ s.cfg.ramSize)
    (v : Word) : exec (.wFememdata v) s =
      .next ((storeWord (s.topReg .fememaddr).toNat v s.race).setTopReg .fememdata v) := by
  simp only [exec, execWFememdata, event_live hl, notifyWrite, memWrite32_ok h]
  rfl

theorem exec_wFememdata_outside {s : State} (hl : s.live = true)
    (h : ¬(s.topReg .fememaddr).toNat + 4 ≤ s.cfg.ramSize) (v : Word) :
    exec (.wFememdata v) s = .next (s.setFault .guestMemoryOutOfRange) := by
  simp only [exec, execWFememdata, event_live hl, notifyWrite, memWrite32, if_neg h]
  rfl

/-- Settles O39: the word store, after the stores that race with it, then the register; or the fault of the bound. -/
theorem notifyWriteEchoesToGuestMemory : Obligations.NotifyWriteEchoesToGuestMemory := by
  rintro s v p - hl rfl
  have outside : s.race.sameMemBut (storeWord (s.topReg .fememaddr).toNat v s.race)
      (fun a => inWord (s.topReg .fememaddr).toNat a = true) :=
    fun a ha => Memory.get_store_word_outside s.race.mem v ha
  refine ⟨fun h => ?_, fun h => ?_⟩
  · refine ⟨_, exec_wFememdata_inRam hl h v, State.topReg_setTopReg_self .., fun i hi => ?_, outside, fun hr => ?_,
      ?_, ?_, rfl⟩
    · exact Memory.get_store_wordBytes _ _ v hi
    · rw [State.race_of_nil hr] at outside ⊢
      exact outside
    · simp
    · exact State.sameRegsBut.setTopReg (t := storeWord _ v s.race) (fun w a _ => by simp) rfl (by simp) v
  · exact exec_wFememdata_outside hl (Nat.not_le.mpr h) v

/-! ## The hold of a trapped front end -/

/-- Under P_HOLD_WHEN_TRAPPED a trapped front end holds every submission of the host (rule R239; log 18). -/
theorem hostMethod_held {s : State} (hl : s.live = true) (hold : s.cfg.holdWhenTrapped = true)
    (ht : s.trapped = true) (r : Res Unit) : hostMethod s r = .refused .methodHeld := by
  rw [hostMethod, event_live hl, hold, ht]
  rfl

/-- The notification traps or faults; either is a next state (rule R238). -/
theorem idleVoiceNotify_next (s : State) : ∃ t, (idleVoiceNotify s).outcome = .next t := by
  unfold idleVoiceNotify
  split
  · exact ⟨_, rfl⟩
  · exact ⟨_, rfl⟩

/-- Settles O32: each command of the list is a host submission; the notification of a tick always has a next state. -/
theorem trappedFrontEndHoldsHostMethods : Obligations.TrappedFrontEndHoldsHostMethods := by
  intro s op arg i hl hold ht hi
  refine ⟨?_, fun hs => ?_⟩
  · have held := hostMethod_held hl hold ht
    simp only [List.mem_cons, List.not_mem_nil, or_false] at hi
    rcases hi with rfl | rfl | rfl | rfl | rfl | rfl | rfl <;> exact held _
  · obtain ⟨t, hn⟩ := idleVoiceNotify_next (latch s.cfg.opcode.idleVoiceNotify arg s)
    rw [exec_idleVoiceNotify_running hl hs, hn]
    exact nofun

end Sys2Proof.Machine
end

section
/-! The reset registers: a write makes its DSP call, runs the core's requests, and then stores the register on the state
they leave (rules R131, R273, R302, R331). -/

namespace Sys2Proof.Machine

/-! ## The cursors -/

/-- The six CUR registers of a coprocessor (rules R38, R331). -/
def cursorRegs (c : Coproc) : List TopReg :=
  (List.range (channelCount .toGuest)).map (fun k => .fifo c .toGuest k .cur) ++
    (List.range (channelCount .fromGuest)).map fun k => .fifo c .fromGuest k .cur

theorem mem_cursorRegs {c : Coproc} {r : TopReg} :
    r ∈ cursorRegs c ↔ ∃ dir k, k < channelCount dir ∧ r = .fifo c dir k .cur := by
  simp only [cursorRegs, List.mem_append, List.mem_map, List.mem_range]
  constructor
  · rintro (⟨k, hk, rfl⟩ | ⟨k, hk, rfl⟩)
    · exact ⟨_, k, hk, rfl⟩
    · exact ⟨_, k, hk, rfl⟩
  · rintro ⟨dir, k, hk, rfl⟩
    cases dir with
    | toGuest => exact .inl ⟨k, hk, rfl⟩
    | fromGuest => exact .inr ⟨k, hk, rfl⟩

/-- The state with the registers of a list cleared, the first one first. -/
def clearRegs (rs : List TopReg) (s : State) : State := rs.foldl (fun s r => s.setTopReg r 0#32) s

theorem clearFifoCursors_eq (c : Coproc) (s : State) : clearFifoCursors c s = clearRegs (cursorRegs c) s := by
  simp only [clearFifoCursors, clearRegs, cursorRegs, List.foldl_append, List.foldl_map]

/-- Clearing registers of TOP leaves every other part of the state. -/
theorem clearRegs_topBank (rs : List TopReg) (s : State) :
    clearRegs rs s = { s with topBank := (clearRegs rs s).topBank } := by
  induction rs generalizing s with
  | nil => rfl
  | cons r rs ih => exact (ih (s.setTopReg r 0#32)).trans rfl

theorem clearRegs_cfg (rs : List TopReg) (s : State) : (clearRegs rs s).cfg = s.cfg := by
  rw [clearRegs_topBank]

theorem clearRegs_reg (rs : List TopReg) (s : State) (w : Window) (a : Nat) :
    (clearRegs rs s).reg w a = if w = .top ∧ ∃ r ∈ rs, a = s.cfg.addrOf r then 0#32 else s.reg w a := by
  induction rs generalizing s with
  | nil => simp [clearRegs]
  | cons r rs ih =>
    have hcons : clearRegs (r :: rs) s = clearRegs rs (s.setTopReg r 0#32) := rfl
    rw [hcons, ih, State.reg_setTopReg, State.setTopReg_cfg]
    by_cases hw : w = .top <;> by_cases hr : a = s.cfg.addrOf r <;> simp [hw, hr]

/-! ## The store after the call -/

/-- What a write of a reset register does on the state its call leaves: a reset clears the cursors if it is configured
to, and the value is stored (rules R131, R331). -/
def finishRst (c : Coproc) (v : Word) (u : State) : State :=
  (if u.cfg.coprocResetClearsFifo = true ∧ u.cfg.rstRunning v = false then clearFifoCursors c u else u).setRst c v

/-- What comes before the store clears a list of registers, which may be empty. -/
theorem finishRst_eq (c : Coproc) (v : Word) (u : State) :
    finishRst c v u = (clearRegs
      (if u.cfg.coprocResetClearsFifo = true ∧ u.cfg.rstRunning v = false then cursorRegs c else []) u).setRst c v := by
  unfold finishRst
  split
  · rw [clearFifoCursors_eq]
  · rfl

theorem finishRst_rst (c : Coproc) (v : Word) (u : State) :
    (finishRst c v u).reg c.window (u.cfg.rstAddr c) = v := by
  rw [finishRst_eq, State.reg_setRst, clearRegs_cfg, if_pos ⟨rfl, rfl⟩]

theorem finishRst_banks (c : Coproc) (v : Word) (u : State) :
    finishRst c v u = { u with
      topBank := (finishRst c v u).topBank, gpBank := (finishRst c v u).gpBank,
      epBank := (finishRst c v u).epBank } := by
  rw [finishRst_eq, clearRegs_topBank]
  cases c <;> rfl

/-- A reset clears the cursors if it is configured to; any other write leaves them. -/
theorem finishRst_cursor (c : Coproc) (v : Word) (u : State) {dir : Dir} {k : Nat} (hk : k < channelCount dir) :
    (finishRst c v u).topReg (.fifo c dir k .cur) =
      if u.cfg.coprocResetClearsFifo = true ∧ u.cfg.rstRunning v = false then 0#32
      else u.topReg (.fifo c dir k .cur) := by
  rw [finishRst_eq, State.topReg_setRst, State.topReg, clearRegs_reg, clearRegs_cfg]
  split
  · exact if_pos ⟨rfl, _, mem_cursorRegs.mpr ⟨dir, k, hk, rfl⟩, rfl⟩
  · exact if_neg (by simp)

theorem finishRst_reg_of_ne (c : Coproc) (v : Word) (u : State) {w : Window} {a : Nat}
    (hrst : ¬(w = c.window ∧ a = u.cfg.rstAddr c))
    (hcur : ∀ dir k, k < channelCount dir → ¬(w = .top ∧ a = u.cfg.addrOf (.fifo c dir k .cur))) :
    (finishRst c v u).reg w a = u.reg w a := by
  rw [finishRst_eq, State.reg_setRst, clearRegs_cfg, if_neg hrst, clearRegs_reg, if_neg]
  rintro ⟨hw, r, hr, ha⟩
  split at hr
  · obtain ⟨dir, k, hk, rfl⟩ := mem_cursorRegs.mp hr
    exact hcur dir k hk ⟨hw, ha⟩
  · cases hr

/-! ## The call -/

/-- The call of a reset-register write over the value `old` ends in `u` (rules R131, R273). -/
def rstCallEnds (c : Coproc) (v old : Word) (s u : State) : Prop :=
  (s.cfg.rstRunning v = true ∧ s.cfg.rstRunning old = false ∧ callEnds c (.dspBootstrap c) s u) ∨
    (s.cfg.rstRunning v = false ∧ callEnds c (.dspReset c) s u)

theorem exec_wRst {s : State} (hl : s.live = true) (c : Coproc) (v : Word) :
    exec (.wRst c v) s = (rstWrite c v s).outcome :=
  event_live hl _

/-- The effects of a DSP call store no entry of GP or EP: the reset registers are stored by the write alone. -/
theorem Steps.coprocReg {s t : State} (h : Steps Effect.call s t) (c : Coproc) (a : Nat) :
    t.reg c.window a = s.reg c.window a := by
  refine h.rec_inv (P := fun u => u.reg c.window a = s.reg c.window a) (fun e u he _ hu => ?_) rfl
  cases e with
  | top r v => exact (State.reg_setTopReg ..).trans ((if_neg (by cases c <;> simp [Coproc.window])).trans hu)
  | entry | store | arm | disarm | sched | startMix | discardMix | mix | ists | trap | deliver | draw | reset =>
    exact he.elim
  | _ => exact hu

/-- A call that ends in `u` leads there by the effects of a DSP call. -/
theorem callEnds_steps {c : Coproc} {call : Call} {s u : State} (hk : Effect.call (.log call)) (hp : call.plain = true)
    (hl : s.live = true) (h : callEnds c call s u) : Steps Effect.call s u := by
  have hd := dspCall_does c call hk hp s
  rw [dspCall_of_callEnds hl h] at hd
  split at hd <;> exact hd

theorem rstCallEnds_steps {c : Coproc} {v old : Word} {s u : State} (hl : s.live = true)
    (h : rstCallEnds c v old s u) : Steps Effect.call s u := by
  obtain ⟨-, -, h⟩ | ⟨-, h⟩ := h
  · exact callEnds_steps (by exact trivial) rfl hl h
  · exact callEnds_steps (by exact trivial) rfl hl h

/-- A write whose call ends in `u` goes on to its store there, or ends there. -/
theorem rstWrite_of_callEnds {c : Coproc} {v : Word} {s u : State} (hl : s.live = true)
    (h : rstCallEnds c v (s.rst c) s u) :
    rstWrite c v s = if u.live then .ok () (finishRst c v u) else .halted u := by
  have hcfg : u.cfg = s.cfg := (rstCallEnds_steps hl h).cfg
  obtain ⟨hv, hold, h⟩ | ⟨hv, h⟩ := h
  · rw [rstWrite, rstEdge, if_pos hv, if_neg (by simp [hold]), dspCall_of_callEnds hl h]
    cases u.live <;> simp [Res.bind, finishRst, hcfg, hv]
  · rw [rstWrite, rstEdge, if_neg (by simp [hv]), dspCall_of_callEnds hl h]
    cases u.live <;> simp [Res.bind, finishRst, hcfg, hv]

/-- A write that leaves the core running makes no call (rule R131). -/
theorem rstWrite_running {c : Coproc} {v : Word} {s : State} (hv : s.cfg.rstRunning v = true)
    (hold : s.cfg.rstRunning (s.rst c) = true) : rstWrite c v s = .ok () (finishRst c v s) := by
  simp [rstWrite, rstEdge, hv, hold, Res.bind, finishRst]

/-- A call during which the core makes no request is its record and the use of the core's answer (log 14). -/
theorem callEnds_of_noRequests (c : Coproc) (call : Call) {s : State} (h : s.dspAnswers.headD [] = []) :
    callEnds c call s { s with trace := call :: s.trace, dspAnswers := s.dspAnswers.tail, inCall := none } := by
  refine ⟨{ s with trace := call :: s.trace, dspAnswers := s.dspAnswers.tail, inCall := some c }, ?_, rfl⟩
  rw [h]
  rfl

/-- Without requests a write goes on to its store, after the call that its value makes, if any (rule R131). -/
theorem rstWrite_noRequests {c : Coproc} {s : State} (hl : s.live = true) (hc : s.inCall = none)
    (hans : s.dspAnswers.headD [] = []) (v : Word) :
    ∃ u, rstWrite c v s = .ok () (finishRst c v u) ∧
      u.calls = s.calls ++ (if s.cfg.rstRunning v then (if s.cfg.rstRunning (s.rst c) then [] else [.dspBootstrap c])
        else [.dspReset c]) ∧
      u = { s with trace := u.trace, dspAnswers := u.dspAnswers } := by
  have called {call : Call} (h : ∀ u, callEnds c call s u → rstCallEnds c v (s.rst c) s u) :
      ∃ u, rstWrite c v s = .ok () (finishRst c v u) ∧ u.calls = s.calls ++ [call] ∧
        u = { s with trace := u.trace, dspAnswers := u.dspAnswers } := by
    refine ⟨_, (rstWrite_of_callEnds hl (h _ (callEnds_of_noRequests c call hans))).trans (if_pos hl), ?_, ?_⟩
    · exact State.log_calls s call
    · rw [hc]
  by_cases hv : s.cfg.rstRunning v = true
  · by_cases hold : s.cfg.rstRunning (s.rst c) = true
    · exact ⟨s, rstWrite_running hv hold, by simp [hv, hold], rfl⟩
    · simpa only [hv, hold, if_true, Bool.false_eq_true, if_false] using
        called fun u h => .inl ⟨hv, by simpa using hold, h⟩
  · simpa only [hv, Bool.false_eq_true, if_false] using called fun u h => .inr ⟨by simpa using hv, h⟩

/-- Settles O42: without requests the call leaves its record, and the store follows on that state. -/
theorem resetRegisterWriteCallsTheCore : Obligations.ResetRegisterWriteCallsTheCore := by
  rintro s c v _ - hl hc hans rfl
  obtain ⟨u, hw, hcalls, hu⟩ := rstWrite_noRequests (c := c) hl hc hans v
  have hcfg : u.cfg = s.cfg := by rw [hu]
  have hreg (w : Window) (a : Nat) : u.reg w a = s.reg w a := by rw [hu]; cases w <;> rfl
  have htop (r : TopReg) : u.topReg r = s.topReg r := by rw [State.topReg, hreg, hcfg]; rfl
  have hbanks := finishRst_banks c v u
  refine ⟨finishRst c v u, ?_, ?_, ?_, fun w a hr hcur => ?_, fun dir k hk => ?_, ?_⟩
  · rw [exec_wRst hl, hw]
    rfl
  · rw [← hcfg]
    exact finishRst_rst c v u
  · rw [hbanks]
    exact hcalls
  · rw [← hcfg] at hr hcur
    rw [finishRst_reg_of_ne c v u hr hcur, hreg]
  · rw [finishRst_cursor c v u hk, hcfg, htop]
  · rw [hbanks, hu]

/-! ## How a write ends -/

theorem rstEdge_ends (c : Coproc) (old v : Word) {s : State} (hc : s.inCall = none) : (rstEdge c old v s).Ends s := by
  unfold rstEdge
  split_ifs
  · exact ⟨rfl, rfl, rfl⟩
  · exact dspCall_ends _ _ hc
  · refine (dspCall_ends _ _ hc).bind fun _ t => ?_
    split
    · exact ⟨rfl, rfl, rfl⟩
    · exact ⟨rfl, rfl, rfl⟩

/-- A write of a reset register ends with the register stored, or ends the device; control is in no call either way
(rules R131, R273, R302). -/
theorem rstWrite_reaches (c : Coproc) (v : Word) {s : State} (hc : s.inCall = none) :
    (rstWrite c v s).Reaches fun t => t.reg c.window (s.cfg.rstAddr c) = v ∧ t.inCall = none := by
  have hall := Res.All.and (rstEdge_does c (s.rst c) v s) (rstEdge_inCall c (s.rst c) v hc)
  have hends := rstEdge_ends c (s.rst c) v hc
  unfold rstWrite
  cases hr : rstEdge c (s.rst c) v s with
  | ok a u =>
    rw [hr] at hall
    obtain ⟨hu, hcall⟩ := hall
    refine ⟨?_, (State.setRst_inCall ..).trans hcall⟩
    rw [State.reg_setRst, hu.cfg, if_pos ⟨rfl, rfl⟩]
  | halted u =>
    rw [hr] at hall hends
    exact ⟨hends, hall.2⟩
  | refused e => trivial

/-- Settles O43: a write that ends live has stored its value; and a call that ends in `u` stores no reset register and
leads the write to its store on `u`, or to its end there. -/
theorem resetRegisterIsStoredAfterTheCall : Obligations.ResetRegisterIsStoredAfterTheCall := by
  intro s c v old
  refine ⟨fun t h hlive hc => ?_, ?_⟩
  · refine (event_all h (rstWrite_reaches c v hc).all).resolve_right fun hdead => ?_
    exact absurd (hlive.symm.trans hdead.1) (by decide)
  · rintro u - hl rfl hcall
    have hsteps := rstCallEnds_steps hl hcall
    have hw := (exec_wRst hl c v).trans (congrArg Res.outcome (rstWrite_of_callEnds hl hcall))
    refine ⟨hsteps.coprocReg .., fun hlive => ?_, fun hdead => ?_⟩
    · rw [hlive] at hw
      refine ⟨finishRst c v u, hw, ?_, fun dir k hk => ?_, fun w a hr hcur => ?_, finishRst_banks c v u⟩
      · rw [← hsteps.cfg]; exact finishRst_rst c v u
      · rw [← hsteps.cfg]; exact finishRst_cursor c v u hk
      · rw [← hsteps.cfg] at hr hcur; exact finishRst_reg_of_ne c v u hr hcur
    · rw [hdead] at hw
      exact hw

end Sys2Proof.Machine
end

section
/-! DMA requests: which are refused and which do nothing (rules R156, R158, R177, R305); the check of a transfer's first
run that fails decides its fault (rules R150 to R153, R157); and a FromGuest transfer that succeeds is the fetch of its
bytes, so it can be cut in two anywhere (rule R155). -/

namespace Sys2Proof.Machine

/-! ## Refused and empty requests -/

theorem exec_requestInstr_outsideCall {c : Coproc} {s : State} (q : DspReq) (hl : s.live = true)
    (hc : s.inCall ≠ some c) : exec (requestInstr c q) s = .refused .requestOutsideCall := by
  cases q <;> simp [requestInstr, exec, execScratchReq, execFifoReq, requestEvent, event_live hl, hc, Res.outcome]

theorem exec_fifoReq {c : Coproc} {s : State} (hl : s.live = true) (hc : s.inCall = some c) (dir : Dir) (k len : Nat)
    (data : List Byte) : exec (.fifoReq c dir k len data) s = (fifoRequest c dir k len data s).outcome :=
  exec_requestInstr (.fifo dir k len data) hl hc

theorem requestAdmitted_toGuest {len : Nat} {data : List Byte} :
    requestAdmitted .toGuest len data = true ↔ data.length = len :=
  beq_iff_eq

theorem requestAdmitted_of_toGuest {dir : Dir} {len : Nat} {data : List Byte}
    (h : dir = .toGuest → data.length = len) : requestAdmitted dir len data = true := by
  cases dir with
  | toGuest => exact requestAdmitted_toGuest.mpr (h rfl)
  | fromGuest => rfl

/-- Settles O49: control must be inside a call to the core, and the data must be `len` bytes. -/
theorem requestsOutsideACallAreRefused : Obligations.RequestsOutsideACallAreRefused := by
  intro s c dir off k len data hl
  refine ⟨fun hc => ?_, fun hc hlen => ?_⟩
  · exact ⟨exec_requestInstr_outsideCall (.scratch dir off len data) hl hc,
      exec_requestInstr_outsideCall (.fifo dir k len data) hl hc⟩
  · have hdata : ¬requestAdmitted .toGuest len data = true := mt requestAdmitted_toGuest.mp hlen
    rw [exec_scratchReq hl hc, exec_fifoReq hl hc, scratchRequest, fifoRequest, if_neg hdata, if_neg hdata]
    exact ⟨rfl, rfl⟩

theorem sgTransfer_zero (dir : Dir) (T M : Nat) (buf : List Byte) (o : Nat) (s : State) :
    sgTransfer dir T M buf o 0 s = .ok buf s :=
  sgLoop_zero ..

/-- Settles O48: the transfer of no bytes is no run, so no check is made. -/
theorem emptyScratchRequestDoesNothing : Obligations.EmptyScratchRequestDoesNothing := by
  intro s c off hl hc
  have empty (dir : Dir) : exec (.scratchReq c dir off 0 []) s = .next (returnBytes c dir (startBuffer dir []) s) := by
    have hdata : requestAdmitted dir 0 [] = true := requestAdmitted_of_toGuest fun _ => rfl
    rw [exec_scratchReq hl hc, scratchRequest_of_transfer hdata (sgTransfer_zero ..)]
    rfl
  exact ⟨empty .toGuest, _, empty .fromGuest, s.log_calls _, rfl⟩

/-! ## The checks of a run -/

/-- A run whose descriptor index is above the maximum (rule R150). -/
theorem sgLoop_descriptorOverflow {M idx : Nat} (h : M < idx) (dir : Dir) (T fuel off rem : Nat) (buf : List Byte)
    (s : State) : sgLoop dir T M (fuel + 1) idx off (rem + 1) buf s = raise .descriptorOverflow s :=
  if_pos h

/-- A run whose descriptor word cannot be read (rules R151, R157). -/
theorem sgLoop_guestMemoryOutOfRange {T M idx : Nat} {s : State} (hM : idx ≤ M) (hd : s.descInRam T idx = false)
    (dir : Dir) (fuel off rem : Nat) (buf : List Byte) :
    sgLoop dir T M (fuel + 1) idx off (rem + 1) buf s = raise .guestMemoryOutOfRange s := by
  rw [sgLoop, if_neg (Nat.not_lt.mpr hM), descRead_out hd]
  rfl

/-- A run that is out of bounds: its descriptor has been read, and none of its bytes moves (rules R153, R157). -/
theorem sgLoop_dmaOutOfBounds {T M o rem : Nat} {s : State} (hM : o / s.cfg.pageSize ≤ M)
    (hd : s.descInRam T (o / s.cfg.pageSize) = true)
    (hb : s.cfg.dmaInBounds (s.race.translate T o) (s.runLength o (rem + 1)) = false) (dir : Dir) (fuel : Nat)
    (buf : List Byte) :
    sgLoop dir T M (fuel + 1) (o / s.cfg.pageSize) (o % s.cfg.pageSize) (rem + 1) buf s =
      raise .dmaOutOfBounds (s.race.log (.readBytes (s.cfg.descAddr T (o / s.cfg.pageSize)) 4)) := by
  rw [sgLoop, if_neg (Nat.not_lt.mpr hM), descRead_ok hd]
  exact if_neg (Bool.eq_false_iff.mp hb)

/-! ## The first transfer of a request -/

/-- The instruction starts with a transfer of `rem` bytes at offset `o`, and ends where that ends the device. -/
def startsWithTransfer (i : Instr) (dir : Dir) (T M o rem : Nat) (s : State) : Prop :=
  ∃ buf, ∀ u, sgTransfer dir T M buf o rem s = .halted u → exec i s = .next u

theorem scratchReq_startsWithTransfer {c : Coproc} {dir : Dir} {len : Nat} {data : List Byte} {s : State}
    (hl : s.live = true) (hc : s.inCall = some c) (hdata : dir = .toGuest → data.length = len) (off : Word) :
    startsWithTransfer (.scratchReq c dir off len data) dir (s.topReg (.scratchBase c)).toNat
      (s.topReg (.scratchMax c)).toNat off.toNat len s := by
  refine ⟨startBuffer dir data, fun u h => ?_⟩
  rw [exec_scratchReq hl hc, scratchRequest, if_pos (requestAdmitted_of_toGuest hdata), h]
  rfl

/-- With its cursor in the range, the loop moves a chunk up to END or up to the last byte, and goes on from the advanced
cursor (rules R170, R173). -/
theorem circLoop_chunk {base stop cur rem : Nat} (hbase : base ≤ cur) (hstop : cur < stop) (hrem : 0 < rem) (dir : Dir)
    (T M fuel : Nat) (buf : List Byte) (s : State) :
    circLoop dir T M base stop (fuel + 1) cur rem buf s =
      (sgTransfer dir T M buf cur (min rem (stop - cur)) s).bind fun buf s =>
        circLoop dir T M base stop fuel (advanceCursor base stop cur (min rem (stop - cur)))
          (rem - min rem (stop - cur)) buf s := by
  obtain ⟨k, rfl⟩ : ∃ k, rem = k + 1 := ⟨rem - 1, by omega⟩
  exact if_pos ⟨hbase, hstop⟩

/-- The clamped cursor of a channel whose stored cursor lies below END lies in its range (rules R172, R177). -/
theorem State.clampedCur_range {s : State} {c : Coproc} {dir : Dir} {k : Nat}
    (hcur : s.fifoCur c dir k < s.fifoEnd c dir k) (hbase : s.fifoBase c dir k < s.fifoEnd c dir k) :
    s.fifoBase c dir k ≤ s.clampedCur c dir k ∧ s.clampedCur c dir k < s.fifoEnd c dir k :=
  ⟨Nat.le_max_right .., Nat.max_lt.mpr ⟨hcur, hbase⟩⟩

/-- A FIFO request whose channel exists and whose stored cursor lies below END is its circular transfer from the clamped
cursor, and then the cursor's write-back (rules R172, R177, R178). -/
theorem exec_fifoReq_circTransfer {c : Coproc} {dir : Dir} {k len : Nat} {data : List Byte} {s : State}
    (hl : s.live = true) (hc : s.inCall = some c) (hdata : dir = .toGuest → data.length = len)
    (hk : k < channelCount dir) (hcur : s.fifoCur c dir k < s.fifoEnd c dir k) :
    exec (.fifoReq c dir k len data) s =
      ((circTransfer dir (s.topReg (.fifoTableBase c)).toNat (s.topReg (.fifoTableMax c)).toNat (startBuffer dir data)
        (s.fifoBase c dir k) (s.fifoEnd c dir k) (s.clampedCur c dir k) len s).bind fun r t =>
        .ok () (returnBytes c dir r.1 (t.storeFifoCur c dir k r.2))).outcome := by
  rw [exec_fifoReq hl hc, fifoRequest, if_pos (requestAdmitted_of_toGuest hdata), if_neg (Nat.not_le.mpr hk),
    if_pos hcur]
  rfl

theorem fifoReq_startsWithTransfer {c : Coproc} {dir : Dir} {k len : Nat} {data : List Byte} {s : State}
    (hl : s.live = true) (hc : s.inCall = some c) (hdata : dir = .toGuest → data.length = len) (hlen : 0 < len)
    (hk : k < channelCount dir) (hcur : s.fifoCur c dir k < s.fifoEnd c dir k)
    (hbase : s.fifoBase c dir k < s.fifoEnd c dir k) :
    startsWithTransfer (.fifoReq c dir k len data) dir (s.topReg (.fifoTableBase c)).toNat
      (s.topReg (.fifoTableMax c)).toNat (s.clampedCur c dir k)
      (min len (s.fifoEnd c dir k - s.clampedCur c dir k)) s := by
  refine ⟨startBuffer dir data, fun u h => ?_⟩
  obtain ⟨fuel, rfl⟩ : ∃ fuel, len = fuel + 1 := ⟨len - 1, by omega⟩
  obtain ⟨hlo, hhi⟩ := State.clampedCur_range hcur hbase
  rw [exec_fifoReq_circTransfer hl hc hdata hk hcur, circTransfer, circLoop_chunk hlo hhi hlen, h]
  rfl

/-- Settles O47: a scratch or a FIFO request starts with a transfer, whose first run the checks end. -/
theorem transfersFaultBeforeTheRunMoves : Obligations.TransfersFaultBeforeTheRunMoves := by
  rintro s c dir off data len T M idx n k o i hw hl hc hlen hdata hi rfl
  have hps := Config.pageSize_pos hw
  have hmod := Nat.mod_lt o hps
  obtain ⟨rem, hn, buf, hexec⟩ : ∃ rem, n = s.runLength o (rem + 1) ∧ startsWithTransfer i dir T M o (rem + 1) s := by
    obtain ⟨rfl, rfl, rfl, rfl, rfl⟩ | ⟨rfl, rfl, rfl, rfl, hk, hcur, hbase, rfl⟩ := hi
    · refine ⟨len - 1, ?_, ?_⟩ <;> rw [Nat.sub_add_cancel hlen]
      · rfl
      · exact scratchReq_startsWithTransfer hl hc hdata off
    · have hclamp := (State.clampedCur_range hcur hbase).2
      refine ⟨min len (s.fifoEnd c dir k - s.clampedCur c dir k) - 1, ?_, ?_⟩ <;> rw [Nat.sub_add_cancel (by omega)]
      · rfl
      · exact fifoReq_startsWithTransfer hl hc hdata hlen hk hcur hbase
  have hpos : 0 < n := by
    rw [State.runLength] at hn
    omega
  refine ⟨fun hM => ?_, fun hM hd => ?_, fun hr hM hd hb => ?_⟩
  · exact hexec _ (sgLoop_descriptorOverflow hM ..)
  · exact hexec _ (sgLoop_guestMemoryOutOfRange hM (hd.elim id State.descInRam_of_le) ..)
  · have hb : s.cfg.dmaInBounds (s.translate T o) n = false := hb.elim id (Config.dmaInBounds_of_le hpos)
    have hrace := State.race_of_nil hr
    have hfault := sgLoop_dmaOutOfBounds hM hd (by rwa [hrace, ← hn]) dir rem buf
    rw [hrace] at hfault
    exact ⟨_, hexec _ hfault, rfl, rfl⟩

/-! ## FromGuest transfers that succeed -/

/-- A run that ends no later than one in bounds is in bounds (rule R153). -/
theorem Config.dmaInBounds_mono {cfg : Config} {p n q m : Nat} (h : cfg.dmaInBounds p n = true)
    (hle : q + m ≤ p + n) : cfg.dmaInBounds q m = true := by
  simp only [Config.dmaInBounds, Bool.and_eq_true, decide_eq_true_eq] at h ⊢
  refine ⟨hle.trans h.1, ?_⟩
  cases hstrict : cfg.dmaBoundStrict <;> simp only [hstrict] at h ⊢
  · exact decide_eq_true (hle.trans (of_decide_eq_true h.2))
  · exact decide_eq_true (hle.trans_lt (of_decide_eq_true h.2))

/-- The bytes of a run that its checks let pass are reachable (rules R71, R153). -/
theorem State.run_reachable {s : State} {T M o n : Nat} (hM : o / s.cfg.pageSize ≤ M)
    (hd : s.descInRam T (o / s.cfg.pageSize) = true) (hb : s.cfg.dmaInBounds (s.translate T o) n = true)
    (hn : n ≤ s.cfg.pageSize - o % s.cfg.pageSize) : ∀ i < n, s.reachable T M (o + i) := by
  intro i hi
  rw [State.reachable, (page_add (by omega)).1, State.translate_add (by omega)]
  exact ⟨hM, hd, Config.dmaInBounds_mono hb (by omega)⟩

/-- Without racing stores a FromGuest transfer over reachable offsets is the fetch of their bytes (rules R71, R150,
R159). -/
theorem sgTransfer_fromGuest {T M o len : Nat} {s : State} (buf : List Byte) (hps : 0 < s.cfg.pageSize)
    (hr : s.races = []) (h : ∀ i < len, s.reachable T M (o + i)) :
    ∃ cs, sgTransfer .fromGuest T M buf o len s = .ok (buf ++ s.fetched T o len) (s.logAll cs) := by
  obtain ⟨cs, hcs⟩ := sgLoop_fromGuest T M len o len buf s hps le_rfl fun i hi => by
    rw [State.race_iterate_of_nil hr]
    exact h i hi
  rw [State.race_iterate_of_nil hr] at hcs
  exact ⟨cs, hcs⟩

/-- Without racing stores a run of a FromGuest transfer leaves everything but the buffer and the trace. -/
theorem sgLoop_fromGuest_run {T M o rem n : Nat} {s : State} (fuel : Nat) (buf : List Byte) (hps : 0 < s.cfg.pageSize)
    (hr : s.races = []) (hrem : 0 < rem) (hn : n = s.runLength o rem) (h : ∀ i < n, s.reachable T M (o + i)) :
    ∃ buf' cs, sgLoop .fromGuest T M (fuel + 1) (o / s.cfg.pageSize) (o % s.cfg.pageSize) rem buf s =
      sgLoop .fromGuest T M fuel ((o + n) / s.cfg.pageSize) ((o + n) % s.cfg.pageSize) (rem - n) buf'
        (s.logAll cs) := by
  have hrace := State.race_of_nil hr
  obtain ⟨cs, hmove⟩ := moveRun_fromGuest (s.race.translate T o) n buf s
    (.readBytes (s.cfg.descAddr T (o / s.cfg.pageSize)) 4)
  rw [sgLoop_run hps hrem hn (by rwa [hrace]), hmove]
  dsimp only
  rw [hrace, hrace]
  exact ⟨_, cs, rfl⟩

/-- Without racing stores a FromGuest transfer that succeeds has found every one of its offsets reachable (rules R150 to
R153). -/
theorem reachable_of_sgLoop_fromGuest {T M : Nat} : ∀ {fuel o len buf s b t}, 0 < s.cfg.pageSize → s.races = [] →
    sgLoop .fromGuest T M fuel (o / s.cfg.pageSize) (o % s.cfg.pageSize) len buf s = .ok b t →
    ∀ i < len, s.reachable T M (o + i) := by
  intro fuel
  induction fuel with
  | zero =>
    rintro o (_ | rem) buf s b t _ _ h i hi
    · omega
    · cases h
  | succ fuel ih =>
    rintro o (_ | rem) buf s b t hps hr h i hi
    · omega
    have hrace := State.race_of_nil hr
    have hM : o / s.cfg.pageSize ≤ M := by
      by_contra hM
      cases (sgLoop_descriptorOverflow (Nat.not_le.mp hM) ..).symm.trans h
    have hd : s.descInRam T (o / s.cfg.pageSize) = true := by
      by_contra hd
      cases (sgLoop_guestMemoryOutOfRange hM (Bool.eq_false_iff.mpr hd) ..).symm.trans h
    have hb : s.cfg.dmaInBounds (s.race.translate T o) (s.runLength o (rem + 1)) = true := by
      by_contra hb
      cases (sgLoop_dmaOutOfBounds hM hd (Bool.eq_false_iff.mpr hb) ..).symm.trans h
    obtain ⟨n, hn⟩ : ∃ n, n = s.runLength o (rem + 1) := ⟨_, rfl⟩
    rw [hrace, ← hn] at hb
    have hrun := State.run_reachable hM hd hb (hn.trans_le (Nat.min_le_right ..))
    by_cases hin : i < n
    · exact hrun i hin
    · obtain ⟨buf', cs, hrest⟩ := sgLoop_fromGuest_run fuel buf hps hr (by omega) hn hrun
      have hnext := ih (s := s.logAll cs) hps hr (hrest.symm.trans h) (i - n) (by omega)
      rwa [Nat.add_assoc, Nat.add_sub_cancel' (by omega)] at hnext

/-- Without racing stores a FromGuest transfer that succeeds has read the bytes of its offsets, and changed nothing else
(rules R71, R150, R159). -/
theorem sgTransfer_fromGuest_inv {T M o len : Nat} {buf b : List Byte} {s t : State} (hps : 0 < s.cfg.pageSize)
    (hr : s.races = []) (h : sgTransfer .fromGuest T M buf o len s = .ok b t) :
    (∀ i < len, s.reachable T M (o + i)) ∧ b = buf ++ s.fetched T o len ∧ ∃ cs, t = s.logAll cs := by
  have hreach := reachable_of_sgLoop_fromGuest hps hr h
  obtain ⟨cs, hcs⟩ := sgTransfer_fromGuest buf hps hr hreach
  obtain ⟨rfl, rfl⟩ := Res.ok.inj (h.symm.trans hcs)
  exact ⟨hreach, rfl, cs, rfl⟩

theorem State.fetched_add {s : State} (h : s.races = []) (T o k m : Nat) :
    s.fetched T o (k + m) = s.fetched T o k ++ s.fetched T (o + k) m := by
  rw [State.fetched, List.range_add, List.map_append, List.map_map]
  congr 1
  refine List.map_congr_left fun i _ => ?_
  rw [Function.comp_apply, State.fetchedByte_of_nil h, State.fetchedByte_of_nil h, Nat.add_assoc]

/-- Settles O46: the two transfers have found all the offsets reachable, and have read their bytes from one memory. -/
theorem splitReadEqualsOneRead : Obligations.SplitReadEqualsOneRead := by
  intro T M o k m buf b₁ b₂ s s₁ s₂ hw hr h₁ h₂
  have hps := Config.pageSize_pos hw
  obtain ⟨hreach₁, rfl, cs₁, rfl⟩ := sgTransfer_fromGuest_inv hps hr h₁
  obtain ⟨hreach₂, rfl, cs₂, rfl⟩ := sgTransfer_fromGuest_inv (s := s.logAll cs₁) hps hr h₂
  have hreach : ∀ i < k + m, s.reachable T M (o + i) := by
    intro i hi
    by_cases hik : i < k
    · exact hreach₁ i hik
    · have hi₂ := hreach₂ (i - k) (by omega)
      rwa [Nat.add_assoc, Nat.add_sub_cancel' (by omega)] at hi₂
  obtain ⟨cs, hcs⟩ := sgTransfer_fromGuest buf hps hr hreach
  rw [State.fetched_add hr, ← List.append_assoc] at hcs
  rw [State.fetched_logAll]
  exact ⟨_, hcs, rfl, rfl⟩

end Sys2Proof.Machine
end

section
/-! ToGuest FIFO requests: a circular transfer is a sequence of chunks, none of which crosses END (rules R170, R173), so
each byte lies at the translation of its circular offset, unless a later byte has come round to that offset. -/

namespace Sys2Proof.Machine

/-! ## Circular offsets -/

/-- Before END the circular offset is the offset. -/
theorem circOffset_of_lt {base stop cur i : Nat} (hbase : base ≤ cur) (h : cur + i < stop) :
    circOffset base stop cur i = cur + i := by
  rw [circOffset, Nat.mod_eq_of_lt (by omega)]
  omega

theorem circOffset_range {base stop : Nat} (h : base < stop) (cur i : Nat) :
    base ≤ circOffset base stop cur i ∧ circOffset base stop cur i < stop := by
  have := Nat.mod_lt (cur - base + i) (Nat.sub_pos_of_lt h)
  rw [circOffset]
  omega

theorem advanceCursor_range {base stop cur n : Nat} (hbase : base ≤ cur) (hstop : cur < stop) (hn : n ≤ stop - cur) :
    base ≤ advanceCursor base stop cur n ∧ advanceCursor base stop cur n < stop := by
  rw [advanceCursor]
  split <;> omega

/-- The circular offsets after a chunk start at the advanced cursor (rule R173). -/
theorem circOffset_advance {base stop cur n : Nat} (hbase : base ≤ cur) (hstop : cur < stop) (i : Nat) :
    circOffset base stop cur (n + i) = circOffset base stop (advanceCursor base stop cur n) i := by
  rw [circOffset, circOffset, advanceCursor]
  split
  · rw [show cur - base + (n + i) = i + (stop - base) by omega, Nat.add_mod_right, Nat.sub_self, Nat.zero_add]
  · rw [show cur - base + (n + i) = cur + n - base + i by omega]

/-- Two bytes fewer than a whole range apart lie at different offsets. -/
theorem circOffset_ne {base stop i j : Nat} (cur : Nat) (hij : i < j) (h : j < i + (stop - base)) :
    circOffset base stop cur i ≠ circOffset base stop cur j := by
  intro he
  have hmod : cur - base + i ≡ cur - base + j [MOD stop - base] := Nat.add_left_cancel he
  have hdvd := (Nat.modEq_iff_dvd' (by omega)).mp hmod
  have := Nat.le_of_dvd (by omega) hdvd
  omega

/-! ## A chunk -/

/-- A ToGuest transfer moves the first bytes of its buffer and leaves the rest of it (rule R159). -/
theorem sgLoop_toGuest_append (T M : Nat) (rest : List Byte) : ∀ fuel idx off rem data s, rem ≤ data.length →
    sgLoop .toGuest T M fuel idx off rem (data ++ rest) s =
      (sgLoop .toGuest T M fuel idx off rem data s).bind fun left t => .ok (left ++ rest) t := by
  intro fuel
  induction fuel with
  | zero => rintro idx off (_ | rem) data s _ <;> rfl
  | succ fuel ih =>
    rintro idx off (_ | rem) data s hlen
    · rfl
    rw [sgLoop, sgLoop]
    split
    · rfl
    cases descRead T idx s with
    | halted t => rfl
    | refused e => rfl
    | ok desc t =>
      simp only [Res.bind]
      split
      · rw [List.take_append_of_le_length (by omega), List.drop_append_of_le_length (by omega)]
        exact ih _ _ _ _ _ (by rw [List.length_drop]; omega)
      · rfl

/-- The bytes of the range can be stored: each offset is reachable, none maps into a descriptor word of the range, and no
two map to the same address (rules R71, R150, R348). -/
structure State.RingStorable (s : State) (T M base stop : Nat) : Prop where
  reach : ∀ o, base ≤ o → o < stop → s.reachable T M o
  apart : ∀ o o', base ≤ o → o < stop → base ≤ o' → o' < stop →
    inWord (s.cfg.descAddr T (o / s.cfg.pageSize)) (s.translate T o') = false
  inj : ∀ o o', base ≤ o → o < stop → base ≤ o' → o' < stop → s.translate T o = s.translate T o' → o = o'

/-- Memory `m` is that of `s` with the bytes `data` stored at the translations of the circular offsets from `cur`: each
offset of the range holds the last byte that came to it (rules R71, R170). -/
structure State.RingStored (s : State) (T base stop cur : Nat) (data : List Byte) (m : Memory) : Prop where
  inside : ∀ i (h : i < data.length), data.length ≤ i + (stop - base) →
    Cells.get m (s.translate T (circOffset base stop cur i)) = data[i]
  outside : ∀ a, (¬∃ i < data.length, a = s.translate T (circOffset base stop cur i)) →
    Cells.get m a = Cells.get s.mem a

theorem State.RingStorable.storable {s : State} {T M base stop cur n : Nat} (h : s.RingStorable T M base stop)
    (hbase : base ≤ cur) (hn : cur + n ≤ stop) : s.Storable T M cur n where
  reach i hi := h.reach _ (by omega) (by omega)
  apart i hi j hj := h.apart _ _ (by omega) (by omega) (by omega) (by omega)
  inj i hi j hj he := Nat.add_left_cancel (h.inj _ _ (by omega) (by omega) (by omega) (by omega) he)

/-- The state after the chunk of the first `n` bytes of `data`, which lies in the range, with its bytes in memory. -/
structure State.ChunkTo (s : State) (T base stop cur n : Nat) (data : List Byte) (t : State) : Prop where
  cfg : t.cfg = s.cfg
  mem : s.Stored T cur (data.take n) t.mem
  lo : base ≤ cur
  hi : cur < stop
  len : n ≤ data.length
  fits : n ≤ stop - cur

section
variable {s t : State} {T M base stop cur n : Nat} {data : List Byte}

theorem State.ChunkTo.get_inside (h : s.ChunkTo T base stop cur n data t) {i : Nat} (hi : i < n) :
    Cells.get t.mem (s.translate T (cur + i)) = data[i]'(Nat.lt_of_lt_of_le hi h.len) := by
  rw [h.mem.inside i (by rw [List.length_take]; exact Nat.lt_min.mpr ⟨hi, Nat.lt_of_lt_of_le hi h.len⟩),
    List.getElem_take]

theorem State.ChunkTo.get_outside (h : s.ChunkTo T base stop cur n data t) {a : Nat}
    (ha : ∀ i < n, a ≠ s.translate T (cur + i)) : Cells.get t.mem a = Cells.get s.mem a := by
  refine h.mem.outside a ?_
  rintro ⟨i, hi, he⟩
  rw [List.length_take] at hi
  exact ha i (by omega) he

/-- A chunk touches no descriptor word of the range, so it leaves the translation of every offset of the range. -/
theorem State.ChunkTo.translate (h : s.ChunkTo T base stop cur n data t) (hs : s.RingStorable T M base stop) {o : Nat}
    (hlo : base ≤ o) (hhi : o < stop) : t.translate T o = s.translate T o := by
  have hcur := h.lo
  have hfits := h.fits
  rw [State.translate, State.translate, h.cfg]
  congr 2
  refine Memory.word_congr fun k hk => h.get_outside fun i hi he => ?_
  have := hs.apart o (cur + i) hlo hhi (by omega) (by omega)
  simp [← he, inWord, hk] at this

theorem State.ChunkTo.ringStorable (h : s.ChunkTo T base stop cur n data t) (hs : s.RingStorable T M base stop) :
    t.RingStorable T M base stop := by
  refine ⟨fun o hlo hhi => ?_, fun o o' hlo hhi hlo' hhi' => ?_, fun o o' hlo hhi hlo' hhi' he => ?_⟩
  · rw [State.reachable, h.translate hs hlo hhi, State.descInRam, State.inRam, h.cfg]
    exact hs.reach o hlo hhi
  · rw [h.translate hs hlo' hhi', h.cfg]
    exact hs.apart o o' hlo hhi hlo' hhi'
  · rw [h.translate hs hlo hhi, h.translate hs hlo' hhi'] at he
    exact hs.inj o o' hlo hhi hlo' hhi' he

/-- A byte after the chunk lies where the state before the chunk maps its circular offset. -/
theorem State.ChunkTo.translate_rest (h : s.ChunkTo T base stop cur n data t) (hs : s.RingStorable T M base stop)
    (i : Nat) : t.translate T (circOffset base stop (advanceCursor base stop cur n) i) =
      s.translate T (circOffset base stop cur (n + i)) := by
  rw [← circOffset_advance h.lo h.hi]
  obtain ⟨hlo, hhi⟩ := circOffset_range (h.lo.trans_lt h.hi) cur (n + i)
  exact h.translate hs hlo hhi

/-- The bytes stored after a chunk, and those of the chunk that no later byte came round to, are those of the whole
transfer. -/
theorem State.ChunkTo.ringStored (h : s.ChunkTo T base stop cur n data t) (hs : s.RingStorable T M base stop)
    {m : Memory} (hm : t.RingStored T base stop (advanceCursor base stop cur n) (data.drop n) m) :
    s.RingStored T base stop cur data m := by
  have hcur := h.lo
  have hfits := h.fits
  have hlen := h.len
  have hdrop : (data.drop n).length = data.length - n := List.length_drop
  have hrange := circOffset_range (h.lo.trans_lt h.hi) cur
  refine ⟨fun i hi hlast => ?_, fun a ha => ?_⟩
  · by_cases hin : i < n
    · have hoff : circOffset base stop cur i = cur + i := circOffset_of_lt hcur (by omega)
      rw [hm.outside, hoff, h.get_inside hin]
      rintro ⟨j, hj, he⟩
      rw [h.translate_rest hs] at he
      exact circOffset_ne cur (by omega) (by omega)
        (hs.inj _ _ (hrange i).1 (hrange i).2 (hrange (n + j)).1 (hrange (n + j)).2 he)
    · obtain ⟨j, rfl⟩ : ∃ j, i = n + j := ⟨i - n, by omega⟩
      rw [← h.translate_rest hs, hm.inside j (by omega) (by omega), List.getElem_drop]
  · rw [hm.outside, h.get_outside fun i hi he => ha ⟨i, by omega, ?_⟩]
    · rw [he, circOffset_of_lt hcur (by omega)]
    · rintro ⟨j, hj, he⟩
      exact ha ⟨n + j, by omega, by rw [he, h.translate_rest hs]⟩

end

/-- The transfer of a chunk stores its bytes and leaves the rest of the buffer (rules R154, R159). -/
theorem sgTransfer_chunk {s : State} {T M base stop cur n : Nat} {data : List Byte} (hps : 0 < s.cfg.pageSize)
    (hr : s.races = []) (hs : s.RingStorable T M base stop) (hbase : base ≤ cur) (hstop : cur < stop)
    (hlen : n ≤ data.length) (hn : n ≤ stop - cur) :
    ∃ m cs, sgTransfer .toGuest T M data cur n s = .ok (data.drop n) ({ s with mem := m }.logAll cs) ∧
      s.ChunkTo T base stop cur n data ({ s with mem := m }.logAll cs) := by
  have htake : (data.take n).length = n := List.length_take_of_le hlen
  obtain ⟨m, cs, hm, hst⟩ := sgLoop_toGuest T M n cur (data.take n) s hps hr htake.le
    (hs.storable hbase (by omega))
  refine ⟨m, cs, ?_, rfl, hst, hbase, hstop, hlen, hn⟩
  have happend := sgLoop_toGuest_append T M (data.drop n) n (cur / s.cfg.pageSize) (cur % s.cfg.pageSize) n
    (data.take n) s htake.ge
  rw [htake] at hm
  rwa [List.take_append_drop, hm] at happend

/-! ## Circular transfers -/

theorem circLoop_zero (dir : Dir) (T M base stop fuel cur : Nat) (buf : List Byte) (s : State) :
    circLoop dir T M base stop fuel cur 0 buf s = .ok (buf, cur) s := by
  cases fuel <;> rfl

/-- A ToGuest circular transfer without racing stores, over a range that can be stored, stores its bytes at the
translations of their circular offsets (rules R154, R170, R173). -/
theorem circLoop_toGuest (T M base stop : Nat) : ∀ fuel cur data s, 0 < s.cfg.pageSize → s.races = [] →
    base ≤ cur → cur < stop → data.length ≤ fuel → s.RingStorable T M base stop →
    ∃ cur' m cs, circLoop .toGuest T M base stop fuel cur data.length data s =
        .ok ([], cur') ({ s with mem := m }.logAll cs) ∧ s.RingStored T base stop cur data m := by
  intro fuel
  induction fuel with
  | zero =>
    intro cur data s _ _ _ _ hf _
    obtain rfl : data = [] := List.eq_nil_of_length_eq_zero (by omega)
    exact ⟨cur, s.mem, [], circLoop_zero .., nofun, fun _ _ => rfl⟩
  | succ fuel ih =>
    intro cur data s hps hr hbase hstop hf hs
    by_cases h0 : data = []
    · subst h0
      exact ⟨cur, s.mem, [], circLoop_zero .., nofun, fun _ _ => rfl⟩
    have hpos := List.length_pos_iff.mpr h0
    obtain ⟨n, hn⟩ : ∃ n, n = min data.length (stop - cur) := ⟨_, rfl⟩
    obtain ⟨m₁, cs₁, hmove, hchunk⟩ := sgTransfer_chunk (n := n) (data := data) hps hr hs hbase hstop (by omega) (by omega)
    obtain ⟨hbase', hstop'⟩ := advanceCursor_range (n := n) hbase hstop (by omega)
    obtain ⟨cur', m, cs, hm, hst⟩ := ih _ (data.drop n) ({ s with mem := m₁ }.logAll cs₁) hps hr hbase' hstop'
      (by rw [List.length_drop]; omega) (hchunk.ringStorable hs)
    refine ⟨cur', m, cs₁ ++ cs, ?_, hchunk.ringStored hs hst⟩
    rw [circLoop_chunk hbase hstop hpos, ← hn, hmove, ← List.length_drop]
    refine hm.trans ?_
    rw [← State.logAll_logAll]
    rfl

/-- A transfer that fits in one page before END is one run: the descriptor's read, the store and its mark, and nothing
else of memory changes (rules R150, R154, R170). -/
theorem circTransfer_toGuest_oneRun {s : State} {T M base stop cur : Nat} {data : List Byte} (hps : 0 < s.cfg.pageSize)
    (hr : s.races = []) (hpos : 0 < data.length) (hbase : base ≤ cur) (hstop : cur + data.length ≤ stop)
    (hpage : cur % s.cfg.pageSize + data.length ≤ s.cfg.pageSize) (hM : cur / s.cfg.pageSize ≤ M)
    (hd : s.descInRam T (cur / s.cfg.pageSize) = true)
    (hb : s.cfg.dmaInBounds (s.translate T cur) data.length = true) :
    circTransfer .toGuest T M data base stop cur data.length s =
      .ok ([], advanceCursor base stop cur data.length) (storeRun (s.translate T cur) data
        (s.log (.readBytes (s.cfg.descAddr T (cur / s.cfg.pageSize)) 4))) := by
  have hrace := State.race_of_nil hr
  have hn : data.length = s.runLength cur data.length := by
    rw [State.runLength]
    omega
  have hreach := State.run_reachable hM hd hb (by omega)
  obtain ⟨fuel, hfuel⟩ : ∃ fuel, data.length = fuel + 1 := ⟨data.length - 1, by omega⟩
  have hmove : sgTransfer .toGuest T M data cur data.length s = .ok [] (storeRun (s.translate T cur) data
      (s.log (.readBytes (s.cfg.descAddr T (cur / s.cfg.pageSize)) 4))) := by
    have hrun := sgLoop_run (dir := .toGuest) (T := T) (M := M) (fuel := fuel) (buf := data) hps hpos hn
      (by rwa [hrace])
    rwa [hrace, moveRun_toGuest hr, Nat.sub_self, sgLoop_zero, List.drop_length, List.take_length, ← hfuel] at hrun
  have hchunk := circLoop_chunk hbase (by omega) hpos .toGuest T M fuel data s (stop := stop)
  rw [Nat.min_eq_left (by omega), hmove, Nat.sub_self, ← hfuel] at hchunk
  exact hchunk.trans (circLoop_zero ..)

/-! ## The request -/

/-- A ToGuest request whose circular transfer completes ends in the state of that transfer, with the cursor written back
(rules R177, R178). -/
theorem exec_fifoReq_toGuest {c : Coproc} {k cur' T M : Nat} {data : List Byte} {s t : State} (hl : s.live = true)
    (hc : s.inCall = some c) (hk : k < 4) (hcur : s.fifoCur c .toGuest k < s.fifoEnd c .toGuest k)
    (hT : T = (s.topReg (.fifoTableBase c)).toNat) (hM : M = (s.topReg (.fifoTableMax c)).toNat)
    (h : circTransfer .toGuest T M data (s.fifoBase c .toGuest k) (s.fifoEnd c .toGuest k) (s.clampedCur c .toGuest k)
      data.length s = .ok ([], cur') t) :
    exec (.fifoReq c .toGuest k data.length data) s = .next (t.storeFifoCur c .toGuest k cur') := by
  subst hT hM
  rw [exec_fifoReq_circTransfer hl hc (fun _ => rfl) hk hcur, startBuffer, h]
  rfl

/-- The write-back of a cursor leaves every entry but CUR (rule R178). -/
theorem State.sameRegsBut_storeFifoCur {s t : State} (hreg : t.reg = s.reg) (hcfg : t.cfg = s.cfg) (c : Coproc)
    (dir : Dir) (k cur : Nat) : s.sameRegsBut (t.storeFifoCur c dir k cur) [.fifo c dir k .cur] :=
  State.sameRegsBut.setTopReg (fun w a _ => congrFun₂ hreg w a) hcfg (List.mem_singleton_self _) _

/-- Settles O53: a request within one page is one run; any other stores its chunks, one after another. -/
theorem fifoWritesLandAtTheCursor : Obligations.FifoWritesLandAtTheCursor := by
  rintro s c k cur base stop p T M data hw hl hr hc hk hpos rfl rfl rfl hcur hT hM
  have hps := Config.pageSize_pos hw
  refine ⟨fun hstop hpage hidx hd hp hb => ?_, fun hbase hreach hapart => ?_⟩
  · subst hp
    have hlo : s.fifoBase c .toGuest k ≤ s.clampedCur c .toGuest k := Nat.le_max_right ..
    have hrun := circTransfer_toGuest_oneRun hps hr hpos hlo hstop hpage hidx hd hb
    refine ⟨_, exec_fifoReq_toGuest hl hc hk hcur hT hM hrun, fun i hi => ?_, fun a ha => ?_, ?_, ?_, rfl⟩
    · refine (Memory.get_store ..).trans ?_
      simp [hi]
    · exact Memory.get_store_outside _ (by omega)
    · refine (State.storeRun_calls ..).trans ?_
      rw [State.log_calls, List.append_assoc]
      rfl
    · refine State.sameRegsBut_storeFifoCur ?_ ?_ c .toGuest k _
      · funext w a
        rw [State.storeRun_reg, State.log_reg]
      · rfl
  · obtain ⟨hlo, hhi⟩ := State.clampedCur_range hcur hbase
    obtain ⟨cur', m, cs, hm, hst⟩ := circLoop_toGuest T M _ _ data.length _ data s hps hr hlo hhi le_rfl
      ⟨hreach, fun o o' h₁ h₂ h₃ h₄ => (hapart o o' h₁ h₂ h₃ h₄).1, fun o o' h₁ h₂ h₃ h₄ => (hapart o o' h₁ h₂ h₃ h₄).2⟩
    refine ⟨_, exec_fifoReq_toGuest hl hc hk hcur hT hM hm, hst.inside, hst.outside, ?_, rfl⟩
    refine State.sameRegsBut_storeFifoCur ?_ ?_ c .toGuest k _
    · funext w a
      rw [State.logAll_reg]
      cases w <;> rfl
    · rfl

end Sys2Proof.Machine
end

section
/-! FIFO requests: the checks before the transfer (rules R172, R177, R179); the registers, which only the write-back of
the cursor changes (rule R178); the cursor that a circular transfer answers (rules R170, R173); and the bytes of a
FromGuest request (rule R179). -/

namespace Sys2Proof.Machine

/-! ## The checks before the transfer -/

/-- A circular transfer of some bytes whose cursor is not in its range (rule R172). -/
theorem circLoop_outOfRange {base stop cur rem : Nat} (h : ¬(base ≤ cur ∧ cur < stop)) (hrem : 0 < rem) (dir : Dir)
    (T M fuel : Nat) (buf : List Byte) (s : State) :
    circLoop dir T M base stop (fuel + 1) cur rem buf s = raise .fifoCursorOutOfRange s := by
  obtain ⟨k, rfl⟩ : ∃ k, rem = k + 1 := ⟨rem - 1, by omega⟩
  exact if_neg h

/-- Settles O54: the channel, then the stored cursor, then the clamped cursor of a transfer that has bytes to move. -/
theorem fifoChecksComeBeforeTheTransfer : Obligations.FifoChecksComeBeforeTheTransfer := by
  intro s c dir k len data hl hc hdata
  have hadmitted := requestAdmitted_of_toGuest hdata
  refine ⟨fun hk => ?_, fun hk hcur => ?_, fun hk hcur hempty hlen => ?_⟩
  · rw [exec_fifoReq hl hc, fifoRequest, if_pos hadmitted, if_pos hk]
    rfl
  · rw [exec_fifoReq hl hc, fifoRequest, if_pos hadmitted, if_neg (Nat.not_le.mpr hk), if_neg (Nat.not_lt.mpr hcur)]
    rfl
  · obtain ⟨fuel, rfl⟩ : ∃ fuel, len = fuel + 1 := ⟨len - 1, by omega⟩
    rw [exec_fifoReq_circTransfer hl hc hdata hk hcur, circTransfer, circLoop_outOfRange (by omega) hlen]
    rfl

/-! ## The registers -/

/-- Both states have the same configuration and the same register entries. -/
structure State.SameRegs (s t : State) : Prop where
  cfg : t.cfg = s.cfg
  reg : t.reg = s.reg

theorem State.SameRegs.trans {s t u : State} (h : s.SameRegs t) (h' : t.SameRegs u) : s.SameRegs u :=
  ⟨h'.cfg.trans h.cfg, h'.reg.trans h.reg⟩

theorem State.SameRegs.topReg {s t : State} (h : s.SameRegs t) (r : TopReg) : t.topReg r = s.topReg r := by
  rw [State.topReg, State.topReg, h.cfg, h.reg]

theorem descRead_sameRegs (T i : Nat) (s : State) : (descRead T i s).All s.SameRegs := by
  rw [descRead, memRead32]
  split
  · split <;> exact ⟨rfl, rfl⟩
  · exact ⟨rfl, rfl⟩

/-- A linear transfer changes no register, however it ends (rules R150, R302). -/
theorem sgLoop_sameRegs (dir : Dir) (T M : Nat) : ∀ fuel idx off rem buf s,
    (sgLoop dir T M fuel idx off rem buf s).All s.SameRegs := by
  intro fuel
  induction fuel with
  | zero => rintro idx off (_ | rem) buf s <;> exact ⟨rfl, rfl⟩
  | succ fuel ih =>
    rintro idx off (_ | rem) buf s
    · exact ⟨rfl, rfl⟩
    rw [sgLoop]
    split
    · exact ⟨rfl, rfl⟩
    refine (descRead_sameRegs ..).bind (fun base t ht => Res.All.mono ?_ fun _ => ht.trans) fun _ => id
    dsimp only
    split
    · cases dir <;> exact (ih ..).mono fun _ => State.SameRegs.trans ⟨rfl, rfl⟩
    · exact ⟨rfl, rfl⟩

/-- A circular transfer changes no register, however it ends (rules R170, R302). -/
theorem circLoop_sameRegs (dir : Dir) (T M base stop : Nat) : ∀ fuel cur rem buf s,
    (circLoop dir T M base stop fuel cur rem buf s).All s.SameRegs := by
  intro fuel
  induction fuel with
  | zero => rintro cur (_ | rem) buf s <;> exact ⟨rfl, rfl⟩
  | succ fuel ih =>
    rintro cur (_ | rem) buf s
    · exact ⟨rfl, rfl⟩
    rw [circLoop]
    split
    · exact (sgLoop_sameRegs ..).bind (fun _ _ ht => (ih ..).mono fun _ => ht.trans) fun _ => id
    · exact ⟨rfl, rfl⟩

section
variable {dir : Dir} {T M base stop cur len : Nat} {buf : List Byte} {s u : State}

/-- A circular transfer that completes leaves the registers, and the device as live as it was. -/
theorem circTransfer_ok {r : List Byte × Nat} (h : circTransfer dir T M buf base stop cur len s = .ok r u) :
    s.SameRegs u ∧ u.live = s.live := by
  have hregs := circLoop_sameRegs dir T M base stop len cur len buf s
  have hends := circLoop_ends dir T M base stop len cur len buf s
  rw [← circTransfer, h] at hregs hends
  obtain ⟨hfault, hhung, -⟩ := hends
  exact ⟨hregs, by rw [State.live, State.live, hfault, hhung]⟩

/-- A circular transfer that a fault or a hang ends leaves the registers (rule R302). -/
theorem circTransfer_halted (h : circTransfer dir T M buf base stop cur len s = .halted u) :
    s.SameRegs u ∧ u.live = false := by
  have hregs := circLoop_sameRegs dir T M base stop len cur len buf s
  have hends := circLoop_ends dir T M base stop len cur len buf s
  rw [← circTransfer, h] at hregs hends
  exact ⟨hregs, hends⟩

end

theorem returnBytes_sameRegs (c : Coproc) (dir : Dir) (bytes : List Byte) (s : State) :
    s.SameRegs (returnBytes c dir bytes s) := by
  cases dir <;> exact ⟨rfl, rfl⟩

theorem returnBytes_live (c : Coproc) (dir : Dir) (bytes : List Byte) (s : State) :
    (returnBytes c dir bytes s).live = s.live := by
  cases dir <;> rfl

/-- The write-back changes no entry but CUR, and the return of the bytes none (rules R177, R178). -/
theorem State.SameRegs.sameRegsBut_completed {s u : State} (h : s.SameRegs u) {c : Coproc} {dir : Dir} {k cur : Nat}
    {bytes : List Byte} :
    s.sameRegsBut (returnBytes c dir bytes (u.storeFifoCur c dir k cur)) [.fifo c dir k .cur] := by
  intro w a hne
  rw [(returnBytes_sameRegs ..).reg]
  exact State.sameRegsBut_storeFifoCur h.reg h.cfg c dir k cur w a hne

/-- The cursor is written back over the bits that CUR held before the request (rules R176, R178). -/
theorem State.SameRegs.topReg_completed {s u : State} (h : s.SameRegs u) {c : Coproc} {dir : Dir} {k cur : Nat}
    {bytes : List Byte} :
    (returnBytes c dir bytes (u.storeFifoCur c dir k cur)).topReg (.fifo c dir k .cur) =
      s.cfg.fifoDecode.curStore (s.topReg (.fifo c dir k .cur)) cur := by
  rw [(returnBytes_sameRegs ..).topReg, State.storeFifoCur, State.topReg_setTopReg_self, h.topReg, h.cfg]

/-! ## How a request ends -/

/-- A FIFO request whose circular transfer completes writes its cursor back and returns its bytes (rules R177, R178). -/
theorem exec_fifoReq_of_transfer {c : Coproc} {dir : Dir} {k len cur : Nat} {data bytes : List Byte} {s u : State}
    (hl : s.live = true) (hc : s.inCall = some c) (hdata : dir = .toGuest → data.length = len)
    (hk : k < channelCount dir) (hcur : s.fifoCur c dir k < s.fifoEnd c dir k)
    (h : circTransfer dir (s.topReg (.fifoTableBase c)).toNat (s.topReg (.fifoTableMax c)).toNat (startBuffer dir data)
      (s.fifoBase c dir k) (s.fifoEnd c dir k) (s.clampedCur c dir k) len s = .ok (bytes, cur) u) :
    exec (.fifoReq c dir k len data) s = .next (returnBytes c dir bytes (u.storeFifoCur c dir k cur)) := by
  rw [exec_fifoReq_circTransfer hl hc hdata hk hcur, h]
  rfl

/-- A FIFO request that completes: its circular transfer from the clamped cursor answers `bytes` and `cur` in the state
`u`, and the cursor is written back and the bytes are returned on that state (rules R177, R178). -/
structure FifoCompletes (s : State) (c : Coproc) (dir : Dir) (k len : Nat) (data bytes : List Byte) (cur : Nat)
    (u t : State) : Prop where
  transfer : circTransfer dir (s.topReg (.fifoTableBase c)).toNat (s.topReg (.fifoTableMax c)).toNat
    (startBuffer dir data) (s.fifoBase c dir k) (s.fifoEnd c dir k) (s.clampedCur c dir k) len s = .ok (bytes, cur) u
  regs : s.SameRegs u
  final : t = returnBytes c dir bytes (u.storeFifoCur c dir k cur)

/-- A FIFO request that has a next state completes, or ends the device with every register as it was (rules R178,
R302). -/
theorem exec_fifoReq_next {s t : State} {c : Coproc} {dir : Dir} {k len : Nat} {data : List Byte}
    (h : exec (.fifoReq c dir k len data) s = .next t) :
    (t.live = true ∧ ∃ bytes cur u, FifoCompletes s c dir k len data bytes cur u t) ∨
      (t.live = false ∧ s.SameRegs t) := by
  have hl : s.live = true := exec_next_live (by nofun) h
  have hc : s.inCall = some c := by
    by_contra hc
    cases (exec_requestInstr_outsideCall (.fifo dir k len data) hl hc).symm.trans h
  rw [exec_fifoReq hl hc, fifoRequest, ← State.clampedCur] at h
  split_ifs at h
  · cases h
    exact .inr ⟨rfl, rfl, rfl⟩
  · cases htransfer : circTransfer dir (s.topReg (.fifoTableBase c)).toNat (s.topReg (.fifoTableMax c)).toNat
      (startBuffer dir data) (s.fifoBase c dir k) (s.fifoEnd c dir k) (s.clampedCur c dir k) len s with
    | ok r u =>
      obtain ⟨hregs, hlive⟩ := circTransfer_ok htransfer
      rw [htransfer] at h
      cases h
      refine .inl ⟨?_, r.1, r.2, u, htransfer, hregs, rfl⟩
      rw [returnBytes_live, ← hl, ← hlive]
      rfl
    | halted u =>
      rw [htransfer] at h
      cases h
      obtain ⟨hregs, hlive⟩ := circTransfer_halted htransfer
      exact .inr ⟨hlive, hregs⟩
    | refused e =>
      rw [htransfer] at h
      cases h
  · cases h
    exact .inr ⟨rfl, rfl, rfl⟩
  · cases h

/-- A FIFO request stores no register of its channel but CUR (rule R178). -/
theorem exec_fifoReq_topReg {s t : State} {c : Coproc} {dir : Dir} {k len : Nat} {data : List Byte} {part : FifoPart}
    (hw : s.cfg.wf = true) (hk : k < channelCount dir) (h : exec (.fifoReq c dir k len data) s = .next t)
    (hpart : part ≠ .cur) : t.topReg (.fifo c dir k part) = s.topReg (.fifo c dir k part) := by
  have hmem : TopReg.fifo c dir k part ∈ TopReg.all := TopReg.mem_all _ fun _ _ _ _ he => by
    cases he
    exact hk
  refine (exec_effects hw h).topReg hw hmem fun e he hs => ?_
  cases e with
  | top r v =>
    obtain rfl : r = .fifo c dir k part := hs
    cases part with
    | cur => exact hpart rfl
    | base | limit => exact he
  | entry | ists | trap | reset => exact he
  | _ => exact hs

/-- Settles O51: a request that completes writes back the cursor of its transfer; any other leaves the registers. -/
theorem onlyACompletedFifoRequestStoresTheCursor : Obligations.OnlyACompletedFifoRequestStoresTheCursor := by
  intro s t c dir k len data hw hk h
  have hbase := exec_fifoReq_topReg (part := .base) hw hk h nofun
  have hlimit := exec_fifoReq_topReg (part := .limit) hw hk h nofun
  obtain ⟨hlive, bytes, cur, u, htransfer, hregs, rfl⟩ | ⟨hdead, hregs⟩ := exec_fifoReq_next h
  · exact ⟨hbase, hlimit, fun hdead => Bool.noConfusion (hlive.symm.trans hdead),
      fun _ => ⟨bytes, cur, u, htransfer, hregs.topReg_completed⟩⟩
  · exact ⟨hbase, hlimit, fun _ => hregs.topReg _, fun hlive => Bool.noConfusion (hlive.symm.trans hdead)⟩

/-! ## The cursor of a transfer -/

theorem circOffset_start {base stop cur : Nat} (hbase : base ≤ cur) (hstop : cur < stop) :
    circOffset base stop cur 0 = cur :=
  circOffset_of_lt hbase hstop

/-- A whole range comes round to where it started (rule R173). -/
theorem circOffset_whole {base stop cur : Nat} (hbase : base ≤ cur) (hstop : cur < stop) :
    circOffset base stop cur (stop - base) = cur := by
  rw [circOffset, Nat.add_mod_right]
  exact circOffset_start hbase hstop

theorem Res.bind_eq_ok {α β : Type} {r : Res α} {k : α → State → Res β} {b : β} {t : State} :
    r.bind k = .ok b t ↔ ∃ a u, r = .ok a u ∧ k a u = .ok b t := by
  cases r <;> simp [Res.bind]

/-- The cursor that a circular transfer answers has advanced around the range by the bytes moved (rules R170, R173). -/
theorem circLoop_cursor {dir : Dir} {T M base stop : Nat} : ∀ {fuel cur rem buf s r u}, base ≤ cur → cur < stop →
    circLoop dir T M base stop fuel cur rem buf s = .ok r u → r.2 = circOffset base stop cur rem := by
  intro fuel
  induction fuel with
  | zero =>
    rintro cur (_ | rem) buf s r u hbase hstop h <;> cases h
    exact (circOffset_start hbase hstop).symm
  | succ fuel ih =>
    rintro cur (_ | rem) buf s r u hbase hstop h
    · cases h
      exact (circOffset_start hbase hstop).symm
    rw [circLoop_chunk hbase hstop (Nat.succ_pos rem)] at h
    obtain ⟨n, hn⟩ : ∃ n, n = min (rem + 1) (stop - cur) := ⟨_, rfl⟩
    rw [← hn] at h
    obtain ⟨left, t, -, hrest⟩ := Res.bind_eq_ok.mp h
    obtain ⟨hbase', hstop'⟩ := advanceCursor_range (n := n) hbase hstop (by omega)
    rw [ih hbase' hstop' hrest, ← circOffset_advance hbase hstop, Nat.add_sub_cancel' (by omega)]

/-- A circular transfer of some bytes that completes has found its cursor in the range, and has advanced it around the
range (rules R172, R173). -/
theorem circTransfer_cursor {dir : Dir} {T M base stop cur len : Nat} {buf : List Byte} {s u : State}
    {r : List Byte × Nat} (h : circTransfer dir T M buf base stop cur len s = .ok r u) (hlen : 0 < len) :
    base ≤ cur ∧ cur < stop ∧ r.2 = circOffset base stop cur len := by
  by_cases hin : base ≤ cur ∧ cur < stop
  · obtain ⟨hbase, hstop⟩ := hin
    exact ⟨hbase, hstop, circLoop_cursor hbase hstop h⟩
  · obtain ⟨fuel, rfl⟩ : ∃ fuel, len = fuel + 1 := ⟨len - 1, by omega⟩
    cases (circLoop_outOfRange hin hlen ..).symm.trans h

/-- Settles O50: a request that completes writes back the cursor of its transfer, which moves around the range. -/
theorem fifoCursorAdvancesAroundTheRange : Obligations.FifoCursorAdvancesAroundTheRange := by
  intro s t c dir k len data hw h hlive
  obtain ⟨-, bytes, cur, u, htransfer, hregs, rfl⟩ | ⟨hdead, -⟩ := exec_fifoReq_next h
  · refine ⟨cur, hregs.topReg_completed, ?_, fun hlen => ?_, fun hwhole hlen => ?_, hregs.sameRegsBut_completed⟩
    · rintro rfl
      cases htransfer
      rfl
    · obtain ⟨hbase, hstop, rfl : cur = _⟩ := circTransfer_cursor htransfer hlen
      obtain ⟨hlo, hhi⟩ := circOffset_range (hbase.trans_lt hstop) (s.clampedCur c dir k) len
      exact ⟨hlo, hhi, rfl⟩
    · obtain ⟨hbase, hstop, rfl : cur = _⟩ := circTransfer_cursor htransfer hlen
      rw [hwhole, circOffset_whole hbase hstop]
  · exact Bool.noConfusion (hlive.symm.trans hdead)

/-! ## The bytes of a FromGuest request -/

/-- The bytes of a FromGuest circular transfer of `len` bytes from `cur`: the guest bytes at the translations of the
circular offsets (rules R71, R170, R179). -/
def State.circFetched (s : State) (T base stop cur len : Nat) : List Byte :=
  (List.range len).map fun i => Cells.get s.mem (s.translate T (circOffset base stop cur i))

theorem State.circFetched_zero (s : State) (T base stop cur : Nat) : s.circFetched T base stop cur 0 = [] := rfl

theorem State.length_circFetched (s : State) (T base stop cur len : Nat) :
    (s.circFetched T base stop cur len).length = len := by
  rw [State.circFetched, List.length_map, List.length_range]

theorem State.getElem_circFetched (s : State) (T base stop cur len i : Nat)
    (h : i < (s.circFetched T base stop cur len).length) :
    (s.circFetched T base stop cur len)[i] = Cells.get s.mem (s.translate T (circOffset base stop cur i)) := by
  simp only [State.circFetched, List.getElem_map, List.getElem_range]

/-- The bytes of a chunk lie before END, and those after it start at the advanced cursor (rule R173). -/
theorem State.circFetched_chunk {s : State} {base stop cur n : Nat} (hr : s.races = []) (hbase : base ≤ cur)
    (hstop : cur < stop) (hn : n ≤ stop - cur) (T m : Nat) :
    s.circFetched T base stop cur (n + m) =
      s.fetched T cur n ++ s.circFetched T base stop (advanceCursor base stop cur n) m := by
  rw [State.circFetched, List.range_add, List.map_append, List.map_map]
  congr 1
  · refine List.map_congr_left fun i hi => ?_
    have := List.mem_range.mp hi
    rw [State.fetchedByte_of_nil hr, circOffset_of_lt hbase (by omega)]
  · refine List.map_congr_left fun i _ => ?_
    rw [Function.comp_apply, circOffset_advance hbase hstop]

/-- A FromGuest circular transfer without racing stores, over a range that is all reachable, returns its bytes and
changes nothing but the trace (rules R154, R159, R170). -/
theorem circLoop_fromGuest (T M base stop : Nat) : ∀ fuel cur rem buf s, 0 < s.cfg.pageSize → s.races = [] →
    base ≤ cur → cur < stop → rem ≤ fuel → (∀ o, base ≤ o → o < stop → s.reachable T M o) →
    ∃ cur' cs, circLoop .fromGuest T M base stop fuel cur rem buf s =
      .ok (buf ++ s.circFetched T base stop cur rem, cur') (s.logAll cs) := by
  intro fuel
  induction fuel with
  | zero =>
    intro cur rem buf s _ _ _ _ hf _
    obtain rfl : rem = 0 := by omega
    exact ⟨cur, [], by rw [circLoop_zero, State.circFetched_zero, List.append_nil]; rfl⟩
  | succ fuel ih =>
    rintro cur (_ | rem) buf s hps hr hbase hstop hf hreach
    · exact ⟨cur, [], by rw [circLoop_zero, State.circFetched_zero, List.append_nil]; rfl⟩
    obtain ⟨n, hn⟩ : ∃ n, n = min (rem + 1) (stop - cur) := ⟨_, rfl⟩
    obtain ⟨calls, hmove⟩ := sgTransfer_fromGuest (len := n) buf hps hr fun i hi =>
      hreach (cur + i) (by omega) (by omega)
    obtain ⟨hbase', hstop'⟩ := advanceCursor_range (n := n) hbase hstop (by omega)
    obtain ⟨cur', cs, hrest⟩ := ih _ (rem + 1 - n) (buf ++ s.fetched T cur n) (s.logAll calls) hps hr hbase' hstop'
      (by omega) hreach
    have hsplit := State.circFetched_chunk hr hbase hstop (n := n) (by omega) T (rem + 1 - n)
    rw [Nat.add_sub_cancel' (by omega)] at hsplit
    refine ⟨cur', calls ++ cs, ?_⟩
    rw [circLoop_chunk hbase hstop (Nat.succ_pos rem), ← hn, hmove, hsplit, ← List.append_assoc,
      ← State.logAll_logAll]
    exact hrest

/-- The bytes are returned after every other call, and the write-back makes none (rules R177, R178). -/
theorem State.calls_completed_fromGuest (s : State) (cs : List Call) (c : Coproc) (k cur : Nat) (bytes : List Byte) :
    (returnBytes c .fromGuest bytes ((s.logAll cs).storeFifoCur c .fromGuest k cur)).calls =
      s.calls ++ cs ++ [.dspReceive c bytes] := by
  rw [returnBytes, State.log_calls, State.storeFifoCur, State.setTopReg_calls, State.logAll_calls]

/-- Settles O52: the request is its circular transfer from the clamped cursor, and returns the bytes last of all. -/
theorem fifoReadsReturnTheCircularBytes : Obligations.FifoReadsReturnTheCircularBytes := by
  rintro s c k len T M hw hl hr hc hk hcur hbase rfl rfl hreach
  obtain ⟨hlo, hhi⟩ := State.clampedCur_range hcur hbase
  obtain ⟨cur, cs, htransfer⟩ := circLoop_fromGuest _ _ _ _ len _ len [] s (Config.pageSize_pos hw) hr hlo hhi le_rfl
    hreach
  rw [List.nil_append] at htransfer
  obtain ⟨hregs, -⟩ := circTransfer_ok htransfer
  exact ⟨_, cs, _, exec_fifoReq_of_transfer hl hc nofun hk hcur htransfer, State.calls_completed_fromGuest ..,
    State.length_circFetched .., State.getElem_circFetched s _ _ _ _ len, hregs.sameRegsBut_completed, rfl⟩

end Sys2Proof.Machine
end

section
/-! Fields of voice records: VSet is a read and a write of one word, and the guest CPU may store before either (rules R67,
R74, R202); the fields of a record, and of two records, are apart (rules R43, R200). -/

namespace Sys2Proof.Machine

/-! ## Fields of guest memory -/

/-- Guest memory with one field of the word at `p` written (rule R7). -/
def Memory.setField (m : Memory) (p : Nat) (mask x : Word) : Memory := m.store p (wordBytes (setf (m.word p) mask x))

@[simp] theorem Memory.word_setField (m : Memory) (p : Nat) (mask x : Word) :
    (m.setField p mask x).word p = setf (m.word p) mask x :=
  Memory.word_store ..

theorem Memory.get_setField_outside (m : Memory) {p b : Nat} (mask x : Word) (h : ¬inWord p b = true) :
    Cells.get (m.setField p mask x) b = Cells.get m b :=
  Memory.get_store_word_outside m _ h

/-- Two fields share no bit: their words do not overlap, or they are the same word and the masks are apart. -/
def fieldsApart (p q : Nat) (m m' : Word) : Prop := p + 4 ≤ q ∨ q + 4 ≤ p ∨ p = q ∧ m &&& m' = 0#32

theorem fieldsApart.symm {p q : Nat} {m m' : Word} (h : fieldsApart p q m m') : fieldsApart q p m' m := by
  rw [fieldsApart, BitVec.and_comm]
  exact or_left_comm.mp (h.imp_right (.imp_right (.imp_left Eq.symm)))

/-- A field apart from the one written reads as before. -/
theorem Memory.getf_setField_apart (m : Memory) {p q : Nat} {mask mask' : Word} (x : Word)
    (h : fieldsApart p q mask mask') : getf ((m.setField p mask x).word q) mask' = getf (m.word q) mask' := by
  obtain h | h | ⟨rfl, h⟩ := h
  · rw [Memory.setField, Memory.word_store_apart m (.inr (by simpa using h))]
  · rw [Memory.setField, Memory.word_store_apart m (.inl h)]
  · rw [Memory.word_setField, getf_setf_apart h]

/-! ## Fields of voice records -/

theorem State.voiceWord_congr {s t : State} (h : t.topReg .vpvaddr = s.topReg .vpvaddr) (v : Word) (off : Nat) :
    t.voiceWord v off = s.voiceWord v off := by
  rw [State.voiceWord, State.voiceWord, h]

theorem State.fieldsApart_voiceWord (s : State) {a b : Word} {i j : Nat} {m m' : Word} (hi : i + 4 ≤ voiceRecordSize)
    (hj : j + 4 ≤ voiceRecordSize) (h : a ≠ b ∨ fieldsApart i j m m') :
    fieldsApart (s.voiceWord a i) (s.voiceWord b j) m m' := by
  by_cases hab : a = b
  · subst hab
    obtain hlt | hgt | ⟨rfl, hm⟩ := h.resolve_left (· rfl)
    · exact .inl (by simp only [State.voiceWord]; omega)
    · exact .inr (.inl (by simp only [State.voiceWord]; omega))
    · exact .inr (.inr ⟨rfl, hm⟩)
  · exact (s.voiceWord_apart hab hi hj).imp_right .inl

section
variable {s : State} (hw : s.cfg.wf = true)
include hw

theorem State.link_apart_active (a b : Word) :
    fieldsApart (s.linkAddr a) (s.stateAddr b) s.cfg.voice.linkMask s.cfg.voice.activeMask := by
  have hv := Config.voice_ok hw
  exact s.fieldsApart_voiceWord hv.link_in hv.state_in
    (.inr (or_left_comm.mp (hv.words.imp_right (.imp_right fun h => ⟨h.1.symm, h.2.1⟩))))

theorem State.link_apart_paused (a b : Word) :
    fieldsApart (s.linkAddr a) (s.stateAddr b) s.cfg.voice.linkMask s.cfg.voice.pausedMask := by
  have hv := Config.voice_ok hw
  exact s.fieldsApart_voiceWord hv.link_in hv.state_in
    (.inr (or_left_comm.mp (hv.words.imp_right (.imp_right fun h => ⟨h.1.symm, h.2.2⟩))))

theorem State.active_apart_paused (a : Word) :
    fieldsApart (s.stateAddr a) (s.stateAddr a) s.cfg.voice.activeMask s.cfg.voice.pausedMask :=
  .inr (.inr ⟨rfl, (Config.voice_ok hw).active_paused⟩)

theorem State.link_apart_link {a b : Word} (h : a ≠ b) :
    fieldsApart (s.linkAddr a) (s.linkAddr b) s.cfg.voice.linkMask s.cfg.voice.linkMask :=
  s.fieldsApart_voiceWord (Config.voice_ok hw).link_in (Config.voice_ok hw).link_in (.inl h)

end

/-! ## VSet -/

/-- The state after VSet of a field of the word at `p`, with the guest CPU's stores before its read and before its write
(rules R67, R74, R202). -/
def State.setField (s : State) (p : Nat) (mask x : Word) : State :=
  storeWord p (setf (s.race.mem.word p) mask x) (s.race.log (.readBytes p 4)).race

@[simp] theorem State.setField_cfg (s : State) (p : Nat) (mask x : Word) : (s.setField p mask x).cfg = s.cfg := rfl
@[simp] theorem State.setField_topReg (s : State) (p : Nat) (mask x : Word) (r : TopReg) :
    (s.setField p mask x).topReg r = s.topReg r := rfl
@[simp] theorem State.setField_reg (s : State) (p : Nat) (mask x : Word) (w : Window) (a : Nat) :
    (s.setField p mask x).reg w a = s.reg w a := by cases w <;> rfl

/-- The word written is made of the word read. -/
@[simp] theorem State.setField_word (s : State) (p : Nat) (mask x : Word) :
    (s.setField p mask x).mem.word p = setf (s.race.mem.word p) mask x :=
  Memory.word_store ..

theorem State.setField_sameMemBut (s : State) (p : Nat) (mask x : Word) :
    s.race.race.sameMemBut (s.setField p mask x) fun a => inWord p a = true :=
  fun _ ha => Memory.get_store_word_outside _ _ ha

/-- Without racing stores VSet writes its field and nothing else of guest memory. -/
theorem State.setField_mem {s : State} (hr : s.races = []) (p : Nat) (mask x : Word) :
    (s.setField p mask x).mem = s.mem.setField p mask x := by
  have hread : (s.log (.readBytes p 4)).race = s.log (.readBytes p 4) := State.race_of_nil hr
  rw [State.setField, State.race_of_nil hr, hread]
  rfl

/-- Without racing stores the word written is made of the word that stood there, and no other byte changes. -/
theorem State.setField_quiet {s : State} (hr : s.races = []) (p : Nat) (mask x : Word) :
    (s.setField p mask x).mem.word p = setf (s.mem.word p) mask x ∧
      s.sameMemBut (s.setField p mask x) fun a => inWord p a = true := by
  rw [State.sameMemBut, State.setField_mem hr]
  exact ⟨Memory.word_setField .., fun a ha => Memory.get_setField_outside _ _ _ ha⟩

theorem State.setField_races {s : State} (hr : s.races = []) (p : Nat) (mask x : Word) :
    (s.setField p mask x).races = [] :=
  congrArg (fun l => l.tail.tail) hr

theorem State.sameRegsBut.setField {s t : State} {rs : List TopReg} (h : s.sameRegsBut t rs) (p : Nat)
    (mask x : Word) : s.sameRegsBut (t.setField p mask x) rs :=
  fun w a hn => (t.setField_reg p mask x w a).trans (h w a hn)

section
variable {s : State} {h : Word} {off : Nat}

theorem vset_eq_setField (hv : validHandle h = true) (hr : s.inRam (s.voiceWord h off) = true) (mask x : Word) :
    vset h off mask x s = .ok () (s.setField (s.voiceWord h off) mask x) :=
  vset_ok hv hr x

theorem vget_outside (hv : validHandle h = true) (hr : s.inRam (s.voiceWord h off) = false) (mask : Word) :
    vget h off mask s = raise .guestMemoryOutOfRange s := by
  have hn : ¬s.voiceWord h off + 4 ≤ s.cfg.ramSize := of_decide_eq_false hr
  rw [vget, checkHandle_ok hv, Res.bind, memRead32, if_neg hn]
  rfl

theorem vset_outside (hv : validHandle h = true) (hr : s.inRam (s.voiceWord h off) = false) (mask x : Word) :
    vset h off mask x s = raise .guestMemoryOutOfRange s := by
  have hn : ¬s.voiceWord h off + 4 ≤ s.cfg.ramSize := of_decide_eq_false hr
  rw [vset, checkHandle_ok hv, Res.bind, memRead32, if_neg hn]
  rfl

end

/-! ## Insertion -/

/-- Head insertion writes the old head into the voice's link field and stores the voice as the head (rule R204). -/
theorem insertAtHead_ok {l : ListId} {h : Word} {s : State} (hv : validHandle h = true)
    (hr : s.inRam (s.linkAddr h) = true) :
    insertAtHead l h s = .ok ()
      ((s.setField (s.linkAddr h) s.cfg.voice.linkMask (s.topReg (.listTop l))).setTopReg (.listTop l) h) := by
  rw [insertAtHead, setLink, vset_eq_setField hv hr]
  rfl

/-- Settles O22: the insertion is VSet of the link field, which checks the handle and the word, then the store of the
head. -/
theorem insertAtHeadStoresTheOldHeadAndTheHandle : Obligations.InsertAtHeadStoresTheOldHeadAndTheHandle := by
  intro s l h hw
  refine ⟨fun hv => ?_, fun hv hr => ?_, fun hv hr => ?_⟩
  · rw [insertAtHead, setLink, vset_invalid hv]
    rfl
  · rw [insertAtHead, setLink, vset_outside hv hr]
    rfl
  · have hs : s.sameRegsBut s [.listTop l] := fun _ _ _ => rfl
    exact ⟨_, insertAtHead_ok hv hr, s.setField_word .., State.topReg_setTopReg_self .., s.setField_sameMemBut _ _ _,
      fun hn => State.setField_quiet hn _ _ _, (hs.setField _ _ _).setTopReg rfl (by simp) h, rfl⟩

end Sys2Proof.Machine
end

section
/-! Voice commands that complete: VOICE_OFF and VOICE_PAUSE write one flag (rules R234, R235), and VOICE_ON inserts the
voice at the head of a list or after the antecedent, and then sets its active flag (rules R204 to R206, R233). -/

namespace Sys2Proof.Machine

/-! ## Registers left as they were -/

/-- A named register that is none of those listed reads the same in both states (rule R24). -/
theorem State.sameRegsBut.topReg {s t : State} {rs : List TopReg} (h : s.sameRegsBut t rs) (hw : s.cfg.wf = true)
    (hc : t.cfg = s.cfg) {r : TopReg} (hn : r ∉ rs) (hr : r ∈ TopReg.all := by decide)
    (hrs : ∀ r' ∈ rs, r' ∈ TopReg.all := by decide) : t.topReg r = s.topReg r := by
  rw [State.topReg, State.topReg, hc]
  refine h _ _ fun r' hr' ⟨_, ha⟩ => hn ?_
  rwa [Config.addrOf_inj hw hr (hrs r' hr') ha]

theorem State.sameRegsBut.mono {s t : State} {rs rs' : List TopReg} (h : s.sameRegsBut t rs) (hrs : rs ⊆ rs') :
    s.sameRegsBut t rs' :=
  fun w a hn => h w a fun r hr => hn r (hrs hr)

/-! ## Where the records lie -/

/-- Both states lay the voice records out alike: the same configuration, the same VPVADDR (rule R200). -/
structure State.SameRecords (s t : State) : Prop where
  cfg : t.cfg = s.cfg
  vpvaddr : t.topReg .vpvaddr = s.topReg .vpvaddr

section
variable {s t : State} (h : s.SameRecords t) (v : Word)
include h

theorem State.SameRecords.linkAddr : t.linkAddr v = s.linkAddr v := by
  rw [State.linkAddr, State.linkAddr, h.cfg, State.voiceWord_congr h.vpvaddr]

theorem State.SameRecords.stateAddr : t.stateAddr v = s.stateAddr v := by
  rw [State.stateAddr, State.stateAddr, h.cfg, State.voiceWord_congr h.vpvaddr]

theorem State.SameRecords.inRam (p : Nat) : t.inRam p = s.inRam p := by
  rw [State.inRam, State.inRam, h.cfg]

theorem State.SameRecords.voiceOk : t.voiceOk v = s.voiceOk v := by
  rw [State.voiceOk, State.voiceOk, h.linkAddr, h.stateAddr, h.inRam, h.inRam]

theorem State.SameRecords.linkOf (hm : t.mem.word (s.linkAddr v) = s.mem.word (s.linkAddr v)) :
    t.linkOf v = s.linkOf v := by
  rw [State.linkOf, State.linkOf, h.linkAddr, h.cfg, hm]

theorem State.SameRecords.isActive (hm : t.mem.word (s.stateAddr v) = s.mem.word (s.stateAddr v)) :
    t.isActive v = s.isActive v := by
  rw [State.isActive, State.isActive, h.stateAddr, h.cfg, hm]

theorem State.SameRecords.isPaused (hm : t.mem.word (s.stateAddr v) = s.mem.word (s.stateAddr v)) :
    t.isPaused v = s.isPaused v := by
  rw [State.isPaused, State.isPaused, h.stateAddr, h.cfg, hm]

end

theorem State.SameRecords.setTopReg {s t : State} (h : s.SameRecords t) (hw : s.cfg.wf = true) {r : TopReg}
    (hr : r ∈ TopReg.all) (hn : TopReg.vpvaddr ≠ r) (v : Word) : s.SameRecords (t.setTopReg r v) where
  cfg := h.cfg
  vpvaddr := (State.topReg_setTopReg_ne (by rw [h.cfg]; exact hw) v hn (hr := hr)).trans h.vpvaddr

theorem latch_sameRecords {s : State} (hw : s.cfg.wf = true) (op arg : Word) : s.SameRecords (latch op arg s) where
  cfg := rfl
  vpvaddr := latch_topReg_of_ne hw op arg (by decide) (by decide)

theorem State.sameRegsBut.sameRecords {s t : State} {rs : List TopReg} (h : s.sameRegsBut t rs) (hw : s.cfg.wf = true)
    (hc : t.cfg = s.cfg) (hn : TopReg.vpvaddr ∉ rs) (hrs : ∀ r' ∈ rs, r' ∈ TopReg.all := by decide) :
    s.SameRecords t :=
  ⟨hc, h.topReg hw hc hn (by decide) hrs⟩

/-! ## Flags -/

/-- A command that is VSet of one field writes that field and its latch, and nothing else (rules R74, R202, R231). -/
theorem hostMethod_vset {s : State} (hw : s.cfg.wf = true) (hl : s.live = true) (ha : s.acceptsMethod = true)
    (op arg : Word) {h : Word} {off p : Nat} (hp : p = s.voiceWord h off) (hv : validHandle h = true)
    (hr : s.inRam p = true) (mask x : Word) :
    ∃ t, hostMethod s (vset h off mask x (latch op arg s)) = .next t ∧
      t.mem.word p = setf (s.race.mem.word p) mask x ∧ s.race.race.sameMemBut t (fun a => inWord p a = true) ∧
      (s.races = [] → t.mem.word p = setf (s.mem.word p) mask x ∧ s.sameMemBut t fun a => inWord p a = true) ∧
      t.topReg .fedecmeth = op ∧ t.topReg .fedecparam = arg ∧ s.sameRegsBut t [.fedecmeth, .fedecparam] ∧
      t = { s with topBank := t.topBank, mem := t.mem, trace := t.trace, races := s.races.tail.tail } := by
  subst hp
  let l := latch op arg s
  have haddr : l.voiceWord h off = s.voiceWord h off := State.voiceWord_congr (latch_sameRecords hw op arg).vpvaddr ..
  obtain ⟨hop, harg⟩ := latch_topReg hw op arg
  have hset := vset_eq_setField (s := l) hv (by rw [haddr]; exact hr) mask x
  rw [haddr] at hset
  exact ⟨_, (hostMethod_of_accepts hl ha _).trans (congrArg Res.outcome hset), l.setField_word _ _ _,
    l.setField_sameMemBut _ _ _, fun hn => State.setField_quiet (s := l) hn _ _ _, hop, harg,
    (latch_sameRegsBut (by simp) (by simp) op arg s).setField _ _ _, rfl⟩

/-- Settles O20: VOICE_OFF is VSet of the active flag to 0. -/
theorem voiceOffClearsOnlyTheActiveFlag : Obligations.VoiceOffClearsOnlyTheActiveFlag := by
  intro s arg hw hl ha hv hr
  have h := hostMethod_vset hw hl ha s.cfg.opcode.voiceOff arg (p := s.stateAddr arg) rfl hv hr s.cfg.voice.activeMask 0#32
  rw [setf_zero, setf_zero] at h
  exact h

/-- Settles O21: VOICE_PAUSE is VSet of the paused flag to the action bit, and the active flag is apart from it. -/
theorem voicePauseWritesOnlyThePausedFlag : Obligations.VoicePauseWritesOnlyThePausedFlag := by
  intro s arg hw hl ha hv hr
  have hvoice := Config.voice_ok hw
  have hflag : flagWord (s.cfg.argPause arg) = if getf arg s.cfg.field.argPauseAction = 0#32 then 0#32 else 1#32 := by
    by_cases hb : getf arg s.cfg.field.argPauseAction = 0#32 <;> simp [flagWord, Config.argPause, hb]
  obtain ⟨t, hexec, hword, hmem, hquiet, hop, harg, hregs, ht⟩ := hostMethod_vset hw hl ha s.cfg.opcode.voicePause arg
    (p := s.stateAddr (s.cfg.argHandle arg)) rfl hv hr s.cfg.voice.pausedMask (flagWord (s.cfg.argPause arg))
  have hrec : s.SameRecords t := hregs.sameRecords hw (by rw [ht]) (by decide)
  rw [← hflag]
  refine ⟨t, hexec, hword, ?_, hmem, fun hn => ?_, hop, harg, hregs, ht⟩
  · rw [State.isPaused, hrec.stateAddr, hrec.cfg]
    refine (congrArg (fun w => getf w _ != 0#32) hword).trans ?_
    exact getf_setf_flagWord hvoice.paused_ne _ _
  · obtain ⟨hw', hm'⟩ := hquiet hn
    refine ⟨hw', ?_, hm'⟩
    rw [State.isActive, State.isActive, hrec.stateAddr, hrec.cfg]
    refine congrArg (· != 0#32) ((congrArg (getf · _) hw').trans ?_)
    exact getf_setf_apart (by rw [BitVec.and_comm]; exact hvoice.active_paused) _ _

end Sys2Proof.Machine
end

section
/-! VOICE_ON: the insertion, at the head of a list or after the antecedent, and then the active flag (rules R204 to R206,
R233). -/

namespace Sys2Proof.Machine

/-! ## The parts of the command -/

/-- The state after `link(a)` has been read (rule R201). -/
def State.readLink (s : State) (a : Word) : State := s.race.log (.readBytes (s.linkAddr a) 4)

/-- The state after `InsertAtHead(l, h)` (rule R204). -/
def State.withHead (s : State) (l : ListId) (h : Word) : State :=
  (s.setField (s.linkAddr h) s.cfg.voice.linkMask (s.topReg (.listTop l))).setTopReg (.listTop l) h

/-- The state after `InsertAfter(a, h)`: the antecedent's link is read, and the two links are written (rule R205). -/
def State.withAfter (s : State) (a h : Word) : State :=
  ((s.readLink a).setField (s.linkAddr h) s.cfg.voice.linkMask (s.race.linkOf a)).setField (s.linkAddr a)
    s.cfg.voice.linkMask h

/-- The state after `SetActive(h, true)` (rule R206). -/
def State.activated (s : State) (h : Word) : State :=
  s.setField (s.stateAddr h) s.cfg.voice.activeMask (flagWord true)

theorem State.setField_sameRecords (s : State) (p : Nat) (mask x : Word) : s.SameRecords (s.setField p mask x) :=
  ⟨rfl, rfl⟩

theorem State.readLink_sameRecords (s : State) (a : Word) : s.SameRecords (s.readLink a) := ⟨rfl, rfl⟩

theorem State.SameRecords.trans {s t u : State} (h : s.SameRecords t) (h' : t.SameRecords u) : s.SameRecords u :=
  ⟨h'.cfg.trans h.cfg, h'.vpvaddr.trans h.vpvaddr⟩

theorem ne_noVoice_of_validHandle {h : Word} (hv : validHandle h = true) : h ≠ noVoice := by
  rintro rfl
  exact absurd hv (by decide)

section
variable {s : State} {h : Word}

theorem setLink_ok (hv : validHandle h = true) (hr : s.inRam (s.linkAddr h) = true) (x : Word) :
    setLink h x s = .ok () (s.setField (s.linkAddr h) s.cfg.voice.linkMask x) :=
  vset_eq_setField hv hr ..

theorem setActive_ok (hv : validHandle h = true) (hr : s.inRam (s.stateAddr h) = true) :
    setActive h true s = .ok () (s.activated h) :=
  vset_eq_setField hv hr ..

theorem insertAfter_eq {a : Word} (ha : validHandle a = true) (hr : s.inRam (s.linkAddr a) = true) :
    insertAfter a h s = (setLink h (s.race.linkOf a) (s.readLink a)).bind fun _ s => setLink a h s := by
  rw [insertAfter, if_neg (ne_noVoice_of_validHandle ha), getLink, vget_ok ha hr]
  rfl

theorem insertAfter_ok {a : Word} (ha : validHandle a = true) (hra : s.inRam (s.linkAddr a) = true)
    (hv : validHandle h = true) (hr : s.inRam (s.linkAddr h) = true) :
    insertAfter a h s = .ok () (s.withAfter a h) := by
  have hrec := s.readLink_sameRecords a
  have hrec' := hrec.trans ((s.readLink a).setField_sameRecords (s.linkAddr h) s.cfg.voice.linkMask (s.race.linkOf a))
  rw [insertAfter_eq ha hra, setLink_ok hv (by rwa [hrec.linkAddr, hrec.inRam]), Res.bind, hrec.linkAddr, hrec.cfg,
    setLink_ok ha (by rwa [hrec'.linkAddr, hrec'.inRam]), hrec'.linkAddr, hrec'.cfg]
  rfl

end

/-! ## The state after an insertion -/

/-- What a voice command leaves: everything but TOP, guest memory, the calls made and the races used up. -/
def State.besideVoices (s : State) : State := { s with topBank := [], mem := [], trace := [], races := [] }

theorem State.setField_besideVoices (s : State) (p : Nat) (mask x : Word) :
    (s.setField p mask x).besideVoices = s.besideVoices := rfl

/-- An insertion of VOICE_ON `arg` from `s` has led to `t`: besides the latch it stores the registers `rs` alone. -/
structure Inserts (s t : State) (arg : Word) (rs : List TopReg) : Prop where
  records : s.SameRecords t
  meth : t.topReg .fedecmeth = s.cfg.opcode.voiceOn
  param : t.topReg .fedecparam = arg
  regs : s.sameRegsBut t (.fedecmeth :: .fedecparam :: rs)
  beside : t.besideVoices = s.besideVoices

section
variable {s t : State} {arg : Word} {rs : List TopReg}

theorem latch_inserts (hw : s.cfg.wf = true) (arg : Word) (rs : List TopReg) :
    Inserts s (latch s.cfg.opcode.voiceOn arg s) arg rs where
  records := latch_sameRecords hw _ arg
  meth := (latch_topReg hw _ arg).1
  param := (latch_topReg hw _ arg).2
  regs := latch_sameRegsBut (by simp) (by simp) _ arg s
  beside := rfl

theorem Inserts.setField (h : Inserts s t arg rs) (p : Nat) (mask x : Word) : Inserts s (t.setField p mask x) arg rs where
  records := h.records.trans (t.setField_sameRecords ..)
  meth := (t.setField_topReg ..).trans h.meth
  param := (t.setField_topReg ..).trans h.param
  regs := h.regs.setField _ _ _
  beside := (t.setField_besideVoices ..).trans h.beside

theorem Inserts.readLink (h : Inserts s t arg rs) (a : Word) : Inserts s (t.readLink a) arg rs where
  records := ⟨h.records.cfg, h.records.vpvaddr⟩
  meth := h.meth
  param := h.param
  regs w x hn := by
    rw [State.readLink, State.log_reg, State.race_reg]
    exact h.regs w x hn
  beside := (rfl : (t.readLink a).besideVoices = t.besideVoices).trans h.beside

theorem Inserts.setTopReg (h : Inserts s t arg rs) (hw : s.cfg.wf = true) {l : ListId} (hl : .listTop l ∈ rs)
    (v : Word) : Inserts s (t.setTopReg (.listTop l) v) arg rs := by
  have hall : TopReg.listTop l ∈ TopReg.all := TopReg.mem_all _ nofun
  have kept (r : TopReg) (hr : r ∈ TopReg.all) (hn : r ≠ .listTop l) :
      (t.setTopReg (.listTop l) v).topReg r = t.topReg r :=
    State.topReg_setTopReg_ne (by rw [h.records.cfg]; exact hw) v hn hall hr
  exact {
    records := h.records.setTopReg hw hall (by simp) v
    meth := (kept _ (by decide) (by simp)).trans h.meth
    param := (kept _ (by decide) (by simp)).trans h.param
    regs := h.regs.setTopReg h.records.cfg (by simp [hl]) v
    beside := (rfl : (t.setTopReg (.listTop l) v).besideVoices = t.besideVoices).trans h.beside }

theorem Inserts.withHead (h : Inserts s t arg rs) (hw : s.cfg.wf = true) {l : ListId} (hl : .listTop l ∈ rs)
    (v : Word) : Inserts s (t.withHead l v) arg rs :=
  (h.setField _ _ _).setTopReg hw hl v

theorem Inserts.withAfter (h : Inserts s t arg rs) (a v : Word) : Inserts s (t.withAfter a v) arg rs :=
  ((h.readLink a).setField _ _ _).setField _ _ _

theorem Inserts.activated (h : Inserts s t arg rs) (v : Word) : Inserts s (t.activated v) arg rs :=
  h.setField _ _ _

theorem Inserts.frame (h : Inserts s t arg rs) :
    t = { s with topBank := t.topBank, mem := t.mem, trace := t.trace, races := t.races } :=
  congrArg (fun u : State => { u with topBank := t.topBank, mem := t.mem, trace := t.trace, races := t.races }) h.beside

end

/-! ## Guest memory after an insertion -/

section
variable {s : State} (hw : s.cfg.wf = true)
include hw

theorem State.activated_isActive (h : Word) : (s.activated h).isActive h = true := by
  have hrec : s.SameRecords (s.activated h) := s.setField_sameRecords ..
  rw [State.isActive, hrec.stateAddr, hrec.cfg]
  refine (congrArg (getf · s.cfg.voice.activeMask != 0#32) (s.setField_word ..)).trans ?_
  exact getf_setf_flagWord (Config.voice_ok hw).active_ne _ true

/-- The flag changes no link and no paused flag. -/
theorem State.activated_quiet (hr : s.races = []) (h : Word) :
    (∀ b, (s.activated h).linkOf b = s.linkOf b) ∧ (s.activated h).isPaused h = s.isPaused h ∧
      s.sameMemBut (s.activated h) fun a => inWord (s.stateAddr h) a = true := by
  have hmem : (s.activated h).mem = s.mem.setField (s.stateAddr h) s.cfg.voice.activeMask (flagWord true) :=
    State.setField_mem hr ..
  have hrec : s.SameRecords (s.activated h) := s.setField_sameRecords ..
  refine ⟨fun b => ?_, ?_, (State.setField_quiet hr ..).2⟩
  · rw [State.linkOf, hmem, hrec.linkAddr, hrec.cfg]
    exact Memory.getf_setField_apart _ _ (State.link_apart_active hw b h).symm
  · rw [State.isPaused, hmem, hrec.stateAddr, hrec.cfg]
    exact congrArg (· != 0#32) (Memory.getf_setField_apart _ _ (State.active_apart_paused hw h))

/-- After a head insertion the voice's link reads the old head (rule R204). -/
theorem State.withHead_quiet (hr : s.races = []) (l : ListId) (h : Word) :
    (s.withHead l h).linkOf h =
        getf (setf 0#32 s.cfg.voice.linkMask (s.topReg (.listTop l))) s.cfg.voice.linkMask ∧
      (s.withHead l h).isPaused h = s.isPaused h ∧
      (s.withHead l h).mem.word (s.linkAddr h) =
        setf (s.mem.word (s.linkAddr h)) s.cfg.voice.linkMask (s.topReg (.listTop l)) ∧
      s.sameMemBut (s.withHead l h) fun a => inWord (s.linkAddr h) a = true := by
  have hmem : (s.withHead l h).mem = s.mem.setField (s.linkAddr h) s.cfg.voice.linkMask (s.topReg (.listTop l)) :=
    State.setField_mem hr ..
  have hrec : s.SameRecords (s.withHead l h) :=
    (s.setField_sameRecords ..).setTopReg hw (r := .listTop l) (TopReg.mem_all _ nofun) (by simp) h
  refine ⟨?_, ?_, State.setField_quiet hr ..⟩
  · rw [State.linkOf, hmem, hrec.linkAddr, hrec.cfg, Memory.word_setField]
    exact getf_setf ..
  · rw [State.isPaused, hmem, hrec.stateAddr, hrec.cfg]
    exact congrArg (· != 0#32) (Memory.getf_setField_apart _ _ (State.link_apart_paused hw h h))

omit hw in
theorem State.withHead_races (hr : s.races = []) (l : ListId) (h : Word) : (s.withHead l h).races = [] :=
  State.setField_races hr (s.linkAddr h) s.cfg.voice.linkMask (s.topReg (.listTop l))

omit hw in
theorem State.withAfter_mem (hr : s.races = []) (a h : Word) :
    (s.withAfter a h).races = [] ∧ (s.withAfter a h).mem =
      (s.mem.setField (s.linkAddr h) s.cfg.voice.linkMask (s.linkOf a)).setField (s.linkAddr a) s.cfg.voice.linkMask
        h := by
  have hread : (s.readLink a).races = [] := congrArg List.tail hr
  have hread' : (s.readLink a).mem = s.mem := (congrArg State.mem (State.race_of_nil hr) : s.race.mem = s.mem)
  have hset := State.setField_races hread (s.linkAddr h) s.cfg.voice.linkMask (s.race.linkOf a)
  refine ⟨State.setField_races hset .., ?_⟩
  rw [State.withAfter, State.setField_mem hset, State.setField_mem hread, hread', State.race_of_nil hr]

/-- After an insertion after `a`, the link of `a` reads the voice, and the voice's link reads what that of `a` read
(rule R205). -/
theorem State.withAfter_quiet (hr : s.races = []) (a h : Word) :
    (s.withAfter a h).linkOf a = getf (setf 0#32 s.cfg.voice.linkMask h) s.cfg.voice.linkMask ∧
      (a ≠ h → (s.withAfter a h).linkOf h = s.linkOf a) ∧ (s.withAfter a h).isPaused h = s.isPaused h ∧
      s.sameMemBut (s.withAfter a h) fun b => inWord (s.linkAddr a) b = true ∨ inWord (s.linkAddr h) b = true := by
  have hmem := (State.withAfter_mem hr a h).2
  have hrec : s.SameRecords (s.withAfter a h) :=
    ((s.readLink_sameRecords a).trans (State.setField_sameRecords ..)).trans (State.setField_sameRecords ..)
  refine ⟨?_, fun hn => ?_, ?_, fun b hb => ?_⟩
  · rw [State.linkOf, hmem, hrec.linkAddr, hrec.cfg, Memory.word_setField]
    exact getf_setf ..
  · rw [State.linkOf, hmem, hrec.linkAddr, hrec.cfg, Memory.getf_setField_apart _ _ (State.link_apart_link hw hn),
      Memory.word_setField]
    exact getf_setf_getf ..
  · rw [State.isPaused, hmem, hrec.stateAddr, hrec.cfg, Memory.getf_setField_apart _ _ (State.link_apart_paused hw a h),
      Memory.getf_setField_apart _ _ (State.link_apart_paused hw h h)]
    rfl
  · obtain ⟨hba, hbh⟩ := not_or.mp hb
    rw [hmem, Memory.get_setField_outside _ _ _ hba, Memory.get_setField_outside _ _ _ hbh]

end

end Sys2Proof.Machine
end

section
/-! VOICE_ON as a whole: what it completes with (rule R233), what it makes of the voice lists (rules R209 to R211), and how
commands on invalid handles, or on voices outside guest memory, fault (rules R203, R302, R303). -/

namespace Sys2Proof.Machine

/-! ## The command after its latch -/

theorem State.voiceOk_iff {s : State} {h : Word} : s.voiceOk h = true ↔
    validHandle h = true ∧ s.inRam (s.stateAddr h) = true ∧ s.inRam (s.linkAddr h) = true := by
  rw [State.voiceOk, Bool.and_eq_true, Bool.and_eq_true, and_assoc]

section
variable {s : State} (hw : s.cfg.wf = true)
include hw

theorem voiceOn_latch_head {l : ListId} (hf : s.cfg.feavList (s.topReg .feav) = some l) (arg : Word) :
    voiceOn arg (latch s.cfg.opcode.voiceOn arg s) =
      (insertAtHead l (s.cfg.argHandle arg) (latch s.cfg.opcode.voiceOn arg s)).bind fun _ t =>
        setActive (s.cfg.argHandle arg) true t := by
  have hfeav : (latch s.cfg.opcode.voiceOn arg s).topReg .feav = s.topReg .feav :=
    latch_topReg_of_ne hw _ arg (by decide) (by decide)
  have hsel : (latch s.cfg.opcode.voiceOn arg s).cfg.feavList (s.topReg .feav) = some l := hf
  simp only [voiceOn, hfeav, hsel]
  rfl

theorem voiceOn_latch_inherit (hf : s.cfg.feavList (s.topReg .feav) = none) (arg : Word) :
    voiceOn arg (latch s.cfg.opcode.voiceOn arg s) =
      (insertAfter (s.cfg.feavHandle (s.topReg .feav)) (s.cfg.argHandle arg)
        (latch s.cfg.opcode.voiceOn arg s)).bind fun _ t => setActive (s.cfg.argHandle arg) true t := by
  have hfeav : (latch s.cfg.opcode.voiceOn arg s).topReg .feav = s.topReg .feav :=
    latch_topReg_of_ne hw _ arg (by decide) (by decide)
  have hsel : (latch s.cfg.opcode.voiceOn arg s).cfg.feavList (s.topReg .feav) = none := hf
  simp only [voiceOn, hfeav, hsel]
  rfl

variable (hl : s.live = true) (ha : s.acceptsMethod = true)
include hl ha

/-- VOICE_ON that has inserted the voice at a head goes on to its flag (rule R233). -/
theorem exec_voiceOn_withHead {l : ListId} {arg h : Word} (hf : s.cfg.feavList (s.topReg .feav) = some l)
    (hh : h = s.cfg.argHandle arg) (hv : validHandle h = true) (hr : s.inRam (s.linkAddr h) = true) :
    exec (.voiceOn arg) s =
      (setActive h true ((latch s.cfg.opcode.voiceOn arg s).withHead l h)).outcome := by
  subst hh
  have hrec := latch_sameRecords hw s.cfg.opcode.voiceOn arg
  refine (hostMethod_of_accepts hl ha _).trans ?_
  rw [voiceOn_latch_head hw hf, insertAtHead_ok hv (by rwa [hrec.linkAddr, hrec.inRam])]
  rfl

/-- VOICE_ON that has inserted the voice after the antecedent goes on to its flag (rule R233). -/
theorem exec_voiceOn_withAfter {arg a h : Word} (hf : s.cfg.feavList (s.topReg .feav) = none)
    (haa : a = s.cfg.feavHandle (s.topReg .feav)) (hh : h = s.cfg.argHandle arg) (hva : validHandle a = true)
    (hra : s.inRam (s.linkAddr a) = true) (hv : validHandle h = true) (hr : s.inRam (s.linkAddr h) = true) :
    exec (.voiceOn arg) s =
      (setActive h true ((latch s.cfg.opcode.voiceOn arg s).withAfter a h)).outcome := by
  subst hh haa
  have hrec := latch_sameRecords hw s.cfg.opcode.voiceOn arg
  refine (hostMethod_of_accepts hl ha _).trans ?_
  rw [voiceOn_latch_inherit hw hf, insertAfter_ok hva (by rwa [hrec.linkAddr, hrec.inRam]) hv
    (by rwa [hrec.linkAddr, hrec.inRam])]
  rfl

end

/-- The flag of a voice that an insertion has linked is set (rule R206). -/
theorem Inserts.setActive_ok {s t : State} {arg h : Word} {rs : List TopReg} (hi : Inserts s t arg rs)
    (hok : s.voiceOk h = true) : setActive h true t = .ok () (t.activated h) := by
  obtain ⟨hv, hr, -⟩ := State.voiceOk_iff.mp hok
  exact Machine.setActive_ok hv (by rwa [hi.records.stateAddr, hi.records.inRam])

section
variable {s : State} (hw : s.cfg.wf = true) (hn : s.races = []) (op arg : Word)
include hw hn

/-- What a head insertion after the latch makes of guest memory, in terms of the state before the latch. -/
theorem latch_withHead_quiet (l : ListId) (h : Word) :
    ((latch op arg s).withHead l h).linkOf h =
        getf (setf 0#32 s.cfg.voice.linkMask (s.topReg (.listTop l))) s.cfg.voice.linkMask ∧
      ((latch op arg s).withHead l h).isPaused h = s.isPaused h ∧
      ((latch op arg s).withHead l h).mem.word (s.linkAddr h) =
        setf (s.mem.word (s.linkAddr h)) s.cfg.voice.linkMask (s.topReg (.listTop l)) ∧
      s.sameMemBut ((latch op arg s).withHead l h) fun a => inWord (s.linkAddr h) a = true := by
  have hrec := latch_sameRecords hw op arg
  have htop : (latch op arg s).topReg (.listTop l) = s.topReg (.listTop l) :=
    latch_topReg_of_ne hw op arg nofun nofun (TopReg.mem_all _ nofun)
  have hquiet := State.withHead_quiet (s := latch op arg s) hw hn l h
  rwa [htop, hrec.isPaused h rfl, hrec.linkAddr] at hquiet

/-- What an insertion after the antecedent makes of guest memory after the latch, in terms of the state before the latch. -/
theorem latch_withAfter_quiet (a h : Word) :
    ((latch op arg s).withAfter a h).linkOf a = getf (setf 0#32 s.cfg.voice.linkMask h) s.cfg.voice.linkMask ∧
      (a ≠ h → ((latch op arg s).withAfter a h).linkOf h = s.linkOf a) ∧
      ((latch op arg s).withAfter a h).isPaused h = s.isPaused h ∧
      s.sameMemBut ((latch op arg s).withAfter a h)
        fun b => inWord (s.linkAddr a) b = true ∨ inWord (s.linkAddr h) b = true := by
  have hrec := latch_sameRecords hw op arg
  have hquiet := State.withAfter_quiet (s := latch op arg s) hw hn a h
  rwa [hrec.linkOf a rfl, hrec.isPaused h rfl, hrec.linkAddr, hrec.linkAddr] at hquiet

end

/-- Settles O23: the head insertion, then the flag; the fields that each does not write are apart from those it does. -/
theorem voiceOnInsertsAtTheHead : Obligations.VoiceOnInsertsAtTheHead := by
  intro s arg l hw hl ha hf hok
  obtain ⟨h, hh⟩ : ∃ h, h = s.cfg.argHandle arg := ⟨_, rfl⟩
  rw [← hh] at hok ⊢
  obtain ⟨hv, -, hlink⟩ := State.voiceOk_iff.mp hok
  have hhead := (latch_inserts hw arg [.listTop l]).withHead hw (List.mem_singleton_self _) h
  have hact := hhead.activated h
  have hexec := exec_voiceOn_withHead hw hl ha hf hh hv hlink
  rw [hhead.setActive_ok hok] at hexec
  have hwt : ((latch s.cfg.opcode.voiceOn arg s).withHead l h).cfg.wf = true := by rw [hhead.records.cfg]; exact hw
  refine ⟨_, hexec, State.topReg_setTopReg_self .., State.activated_isActive hwt h, fun hn => ?_, hact.meth, hact.param,
    hact.regs, hact.frame⟩
  obtain ⟨hlinkt, hpausedt, -, hmemt⟩ := latch_withHead_quiet hw hn s.cfg.opcode.voiceOn arg l h
  obtain ⟨hlinks, hpaused, hmem⟩ := State.activated_quiet hwt (State.withHead_races hn l h) h
  refine ⟨?_, ?_, fun x hx => ?_⟩
  · rw [hlinks, hlinkt]
  · rw [hpaused, hpausedt]
  · obtain ⟨hxl, hxs⟩ := not_or.mp hx
    rw [hmem x (by rwa [hhead.records.stateAddr])]
    exact hmemt x hxl

/-- Settles O24: the insertion after the antecedent, then the flag, which is apart from every link. -/
theorem voiceOnInsertsAfterTheAntecedent : Obligations.VoiceOnInsertsAfterTheAntecedent := by
  intro s arg a hw hl ha hf haa hva hra hok
  obtain ⟨h, hh⟩ : ∃ h, h = s.cfg.argHandle arg := ⟨_, rfl⟩
  rw [← hh] at hok ⊢
  obtain ⟨hv, -, hlink⟩ := State.voiceOk_iff.mp hok
  have hafter := (latch_inserts hw arg []).withAfter a h
  have hact := hafter.activated h
  have hexec := exec_voiceOn_withAfter hw hl ha hf haa hh hva hra hv hlink
  rw [hafter.setActive_ok hok] at hexec
  have hwt : ((latch s.cfg.opcode.voiceOn arg s).withAfter a h).cfg.wf = true := by rw [hafter.records.cfg]; exact hw
  refine ⟨_, hexec, State.activated_isActive hwt h, fun hn => ?_, hact.meth, hact.param, hact.regs, hact.frame⟩
  obtain ⟨hlinka, hlinkh, hpausedt, hmemt⟩ := latch_withAfter_quiet hw hn s.cfg.opcode.voiceOn arg a h
  have hnt := (State.withAfter_mem (s := latch s.cfg.opcode.voiceOn arg s) hn a h).1
  obtain ⟨hlinks, hpaused, hmem⟩ := State.activated_quiet hwt hnt h
  refine ⟨?_, fun hne => ?_, ?_, fun x hx => ?_⟩
  · rw [hlinks, hlinka]
  · rw [hlinks, hlinkh hne]
  · rw [hpaused, hpausedt]
  · rw [hmem x (by rw [hafter.records.stateAddr]; tauto)]
    exact hmemt x (by tauto)

/-! ## Chains and paths -/

/-- A chain is a path that ends at 0xFFFF (rule R211). -/
theorem State.chain_eq_path (s : State) (h : Word) (hs : List Word) : s.chain h hs = s.path h hs noVoice := by
  induction hs generalizing h with
  | nil => rfl
  | cons x xs ih => rw [State.chain, State.path, ih]

theorem State.path_nil {s : State} {h x : Word} : s.path h [] x = true ↔ h = x := decide_eq_true_iff

theorem State.path_cons {s : State} {h x y : Word} {ys : List Word} :
    s.path h (y :: ys) x = true ↔ h = y ∧ s.voiceOk y = true ∧ s.path (s.linkOf y) ys x = true := by
  rw [State.path, Bool.and_eq_true, Bool.and_eq_true, decide_eq_true_iff, and_assoc]

theorem State.path_append {s : State} {h x : Word} {ys zs : List Word} :
    s.path h (ys ++ zs) x = true ↔ ∃ y, s.path h ys y = true ∧ s.path y zs x = true := by
  induction ys generalizing h with
  | nil => simp [State.path_nil]
  | cons y ys ih => simp [State.path_cons, ih, and_assoc]

theorem State.path_voiceOk {s : State} {h x : Word} {ys : List Word} (hp : s.path h ys x = true) :
    ∀ y ∈ ys, s.voiceOk y = true := by
  induction ys generalizing h with
  | nil => simp
  | cons y ys ih =>
    obtain ⟨-, hy, hp⟩ := State.path_cons.mp hp
    exact List.forall_mem_cons.mpr ⟨hy, ih hp⟩

/-- A path whose links are kept is kept. -/
theorem State.SameRecords.path {s t : State} (hrec : s.SameRecords t) {h x : Word} {ys : List Word}
    (hk : ∀ y ∈ ys, t.linkOf y = s.linkOf y) (hp : s.path h ys x = true) : t.path h ys x = true := by
  induction ys generalizing h with
  | nil => exact hp
  | cons y ys ih =>
    obtain ⟨hy, hks⟩ := List.forall_mem_cons.mp hk
    obtain ⟨hh, hok, hp⟩ := State.path_cons.mp hp
    exact State.path_cons.mpr ⟨hh, by rwa [hrec.voiceOk], by rw [hy]; exact ih hks hp⟩

/-- A link outside the bytes that changed reads as before. -/
theorem State.SameRecords.linkOf_of_sameMemBut {s t : State} (hrec : s.SameRecords t) {inside : Nat → Prop}
    (hm : s.sameMemBut t inside) {x : Word} (hout : ∀ b, inWord (s.linkAddr x) b = true → ¬inside b) :
    t.linkOf x = s.linkOf x :=
  hrec.linkOf x (Memory.word_congr fun i hi => hm _ (hout _ (by simp [inWord, hi])))

/-- The link word of one voice shares no byte with the words of another (rule R200). -/
theorem State.link_outside {s : State} (hw : s.cfg.wf = true) {x h : Word} (hx : x ≠ h) {b : Nat}
    (hb : inWord (s.linkAddr x) b = true) : ¬inWord (s.linkAddr h) b = true ∧ ¬inWord (s.stateAddr h) b = true := by
  have hv := Config.voice_ok hw
  have hlink : s.linkAddr x + 4 ≤ s.linkAddr h ∨ s.linkAddr h + 4 ≤ s.linkAddr x :=
    s.voiceWord_apart hx hv.link_in hv.link_in
  have hstate : s.linkAddr x + 4 ≤ s.stateAddr h ∨ s.stateAddr h + 4 ≤ s.linkAddr x :=
    s.voiceWord_apart hx hv.link_in hv.state_in
  simp only [inWord, Bool.and_eq_true, decide_eq_true_eq] at hb ⊢
  omega

theorem toNat_le_of_validHandle {h : Word} (hv : validHandle h = true) : h.toNat ≤ 0xFFFF :=
  (of_decide_eq_true hv).le

theorem State.path_noVoice_toNat_le {s : State} {h : Word} {ys : List Word} (hp : s.path h ys noVoice = true) :
    h.toNat ≤ 0xFFFF := by
  cases ys with
  | nil => rw [State.path_nil.mp hp]; decide
  | cons y ys =>
    obtain ⟨rfl, hok, -⟩ := State.path_cons.mp hp
    exact toNat_le_of_validHandle (State.voiceOk_iff.mp hok).1

/-- Settles O25: the voice's link reads the old head, and no other voice's link changes. -/
theorem headInsertionPrependsToTheChain : Obligations.HeadInsertionPrependsToTheChain := by
  rintro s arg h l hs hw hl ha hn hmask hf rfl hok hmem hchain
  obtain ⟨t, hexec, htop, -, hquiet, -, -, hregs, ht⟩ := voiceOnInsertsAtTheHead s arg l hw hl ha hf hok
  obtain ⟨hlink, -, hsame⟩ := hquiet hn
  have hcfg : t.cfg = s.cfg := by rw [ht]
  have hall (l' : ListId) : TopReg.listTop l' ∈ TopReg.all := TopReg.mem_all _ nofun
  have hrs : ∀ r ∈ [TopReg.fedecmeth, .fedecparam, .listTop l], r ∈ TopReg.all := by
    simpa using ⟨by decide, by decide, hall l⟩
  have hrec : s.SameRecords t := hregs.sameRecords hw hcfg (by simp) hrs
  have kept {v : Word} {xs : List Word} (hx : s.cfg.argHandle arg ∉ xs) (hp : s.path v xs noVoice = true) :
      t.path v xs noVoice = true := by
    refine hrec.path (fun x hxs => hrec.linkOf_of_sameMemBut hsame fun b hb => ?_) hp
    exact not_or.mpr (State.link_outside hw (ne_of_mem_of_not_mem hxs hx) hb)
  rw [State.chain_eq_path] at hchain
  refine ⟨t, hexec, ?_, fun l' hs' hl' hx hchain' => ?_⟩
  · rw [hmask, getf_setf_handle (State.path_noVoice_toNat_le hchain)] at hlink
    rw [State.chain_eq_path, htop]
    exact State.path_cons.mpr ⟨rfl, by rwa [hrec.voiceOk], by rw [hlink]; exact kept hmem hchain⟩
  · rw [State.chain_eq_path] at hchain' ⊢
    rw [hregs.topReg hw hcfg (by simpa using hl') (hall l') hrs]
    exact kept hx hchain'

/-- Settles O26: the antecedent's link reads the voice, the voice's link reads what the antecedent's read, and no other
voice's link changes. -/
theorem antecedentInsertionKeepsTheOrder : Obligations.AntecedentInsertionKeepsTheOrder := by
  rintro s arg h a l front back hw hl ha hn hmask hf haa rfl hok hmem hnodup hchain
  obtain ⟨h, hh⟩ : ∃ h, h = s.cfg.argHandle arg := ⟨_, rfl⟩
  rw [← hh] at hok hmem ⊢
  rw [State.chain_eq_path] at hchain
  obtain ⟨y, hfront, hrest⟩ := State.path_append.mp hchain
  obtain ⟨rfl, hoka, hback⟩ := State.path_cons.mp hrest
  obtain ⟨hva, -, hra⟩ := State.voiceOk_iff.mp hoka
  obtain ⟨t, hexec, -, hquiet, -, -, hregs, ht⟩ :=
    voiceOnInsertsAfterTheAntecedent s arg y hw hl ha hf haa hva hra (hh ▸ hok)
  rw [← hh] at hquiet
  obtain ⟨hlinka, hlinkh, -, hsame⟩ := hquiet hn
  have hcfg : t.cfg = s.cfg := by rw [ht]
  have hrec : s.SameRecords t := hregs.sameRecords hw hcfg (by decide)
  have htop : t.topReg (.listTop l) = s.topReg (.listTop l) :=
    hregs.topReg hw hcfg (by simp) (TopReg.mem_all _ nofun)
  rw [hmask, getf_setf_handle (toNat_le_of_validHandle (State.voiceOk_iff.mp hok).1)] at hlinka
  have kept {v z : Word} {xs : List Word} (hx : ∀ x ∈ xs, x ≠ y ∧ x ≠ h) (hp : s.path v xs z = true) :
      t.path v xs z = true := by
    refine hrec.path (fun x hxs => hrec.linkOf_of_sameMemBut hsame fun b hb => ?_) hp
    have hy := State.link_outside hw (hx x hxs).1 hb
    have hh := State.link_outside hw (hx x hxs).2 hb
    tauto
  obtain ⟨hhf, hhy, hhb⟩ : h ∉ front ∧ h ≠ y ∧ h ∉ back := by simpa using hmem
  obtain ⟨-, hyb, hyf⟩ := List.nodup_append.mp hnodup
  have hxf : ∀ x ∈ front, x ≠ y ∧ x ≠ h := fun x hx => ⟨hyf x hx y (by simp), ne_of_mem_of_not_mem hx hhf⟩
  have hxb : ∀ x ∈ back, x ≠ y ∧ x ≠ h := fun x hx =>
    ⟨ne_of_mem_of_not_mem hx (List.nodup_cons.mp hyb).1, ne_of_mem_of_not_mem hx hhb⟩
  refine ⟨t, hexec, ?_⟩
  rw [State.chain_eq_path, htop]
  refine State.path_append.mpr ⟨y, kept hxf hfront, State.path_cons.mpr ⟨rfl, by rwa [hrec.voiceOk], ?_⟩⟩
  rw [hlinka]
  refine State.path_cons.mpr ⟨rfl, by rwa [hrec.voiceOk], ?_⟩
  rw [hlinkh hhy.symm]
  exact kept hxb hback

end Sys2Proof.Machine
end

section
/-! Commands on invalid handles, or on voices outside guest memory: the fault of the first check that fails, with what was
done before it kept (rules R203, R205, R233 to R235, R302, R303). -/

namespace Sys2Proof.Machine

/-! ## Faults right after the latch -/

/-- A command whose operation raises a fault on the latched state changes nothing but its latch (rules R231, R302). -/
theorem State.latchFaults_of_raise {s : State} (hl : s.live = true) (ha : s.acceptsMethod = true) {i : Instr}
    {op arg : Word} {code : FaultCode} {r : Res Unit} (hi : exec i s = hostMethod s r)
    (h : r = raise code (latch op arg s)) : s.latchFaults i code := by
  refine ⟨(latch op arg s).setFault code, ?_, rfl, fun w a hne => ?_, rfl⟩
  · rw [hi, h, hostMethod_of_accepts hl ha]
    rfl
  · rw [State.setFault_reg]
    exact latch_sameRegsBut (by simp) (by simp) op arg s w a hne

theorem insertAtHead_invalid {l : ListId} {h : Word} {s : State} (hv : validHandle h = false) :
    insertAtHead l h s = raise .invalidVoiceHandle s := by
  rw [insertAtHead, setLink, vset_invalid hv]
  rfl

theorem insertAtHead_outside {l : ListId} {h : Word} {s : State} (hv : validHandle h = true)
    (hr : s.inRam (s.linkAddr h) = false) : insertAtHead l h s = raise .guestMemoryOutOfRange s := by
  rw [insertAtHead, setLink, vset_outside hv hr]
  rfl

theorem insertAfter_noVoice (h : Word) (s : State) : insertAfter noVoice h s = raise .invalidAntecedent s :=
  if_pos rfl

theorem insertAfter_invalid {a h : Word} {s : State} (hn : a ≠ noVoice) (hv : validHandle a = false) :
    insertAfter a h s = raise .invalidVoiceHandle s := by
  rw [insertAfter, if_neg hn, getLink, vget_invalid hv]
  rfl

theorem insertAfter_outside {a h : Word} {s : State} (hv : validHandle a = true)
    (hr : s.inRam (s.linkAddr a) = false) : insertAfter a h s = raise .guestMemoryOutOfRange s := by
  rw [insertAfter, if_neg (ne_noVoice_of_validHandle hv), getLink, vget_outside hv hr]
  rfl

/-- The fault that VSet of a field raises when the handle is invalid or the word is outside guest memory (rule R203). -/
theorem setLink_bad {h x : Word} {s : State} (hb : validHandle h = false ∨ s.inRam (s.linkAddr h) = false) :
    setLink h x s = raise (if validHandle h then .guestMemoryOutOfRange else .invalidVoiceHandle) s := by
  cases hv : validHandle h with
  | false => exact vset_invalid hv x
  | true => exact vset_outside hv (hb.resolve_left (by simp [hv])) _ x

theorem setActive_outside {h : Word} {s : State} (hv : validHandle h = true) (hr : s.inRam (s.stateAddr h) = false) :
    setActive h true s = raise .guestMemoryOutOfRange s :=
  vset_outside hv hr ..

/-- The flag of a voice that an insertion has linked, when its state word is outside guest memory. -/
theorem Inserts.setActive_outside {s t : State} {arg h : Word} {rs : List TopReg} (hi : Inserts s t arg rs)
    (hv : validHandle h = true) (hr : s.inRam (s.stateAddr h) = false) :
    setActive h true t = raise .guestMemoryOutOfRange t :=
  Machine.setActive_outside hv (by rwa [hi.records.stateAddr, hi.records.inRam])

section
variable {s : State} (hw : s.cfg.wf = true) (hl : s.live = true) (ha : s.acceptsMethod = true) {arg : Word}
  {code : FaultCode}
include hw hl ha

/-- VOICE_ON whose head insertion raises a fault at once (rules R203, R233). -/
theorem voiceOn_latchFaults_head (hf : s.cfg.feavList (s.topReg .feav) ≠ none)
    (h : ∀ l, insertAtHead l (s.cfg.argHandle arg) (latch s.cfg.opcode.voiceOn arg s) =
      raise code (latch s.cfg.opcode.voiceOn arg s)) : s.latchFaults (.voiceOn arg) code := by
  obtain ⟨l, hf⟩ := Option.ne_none_iff_exists'.mp hf
  exact State.latchFaults_of_raise hl ha rfl (by rw [voiceOn_latch_head hw hf, h]; rfl)

/-- VOICE_ON whose insertion after the antecedent raises a fault at once (rules R203, R205, R233). -/
theorem voiceOn_latchFaults_inherit (hf : s.cfg.feavList (s.topReg .feav) = none)
    (h : insertAfter (s.cfg.feavHandle (s.topReg .feav)) (s.cfg.argHandle arg) (latch s.cfg.opcode.voiceOn arg s) =
      raise code (latch s.cfg.opcode.voiceOn arg s)) : s.latchFaults (.voiceOn arg) code :=
  State.latchFaults_of_raise hl ha rfl (by rw [voiceOn_latch_inherit hw hf, h]; rfl)

/-- VOICE_ON of a bad handle after an antecedent whose link can be read: the link is read, and nothing is stored. -/
theorem voiceOn_badHandle_inherit {a h : Word} (haa : a = s.cfg.feavHandle (s.topReg .feav))
    (hh : h = s.cfg.argHandle arg) (hf : s.cfg.feavList (s.topReg .feav) = none) (hva : validHandle a = true)
    (hra : s.inRam (s.linkAddr a) = true) (hb : validHandle h = false ∨ s.inRam (s.linkAddr h) = false) :
    exec (.voiceOn arg) s = .next (((latch s.cfg.opcode.voiceOn arg s).readLink a).setFault
      (if validHandle h then .guestMemoryOutOfRange else .invalidVoiceHandle)) := by
  subst haa hh
  have hrec := latch_sameRecords hw s.cfg.opcode.voiceOn arg
  have hrec' := hrec.trans (State.readLink_sameRecords _ (s.cfg.feavHandle (s.topReg .feav)))
  refine (hostMethod_of_accepts hl ha _).trans ?_
  rw [voiceOn_latch_inherit hw hf, insertAfter_eq hva (by rwa [hrec.linkAddr, hrec.inRam]),
    setLink_bad (by rwa [hrec'.linkAddr, hrec'.inRam])]
  rfl

end

/-- A fault after an insertion keeps the insertion (rule R302). -/
theorem Inserts.setFault_frame {s t : State} {arg : Word} {rs : List TopReg} (h : Inserts s t arg rs)
    (code : FaultCode) : t.setFault code = { s with
      topBank := t.topBank, fault := some code, mem := t.mem, trace := t.trace, races := t.races } :=
  congrArg (·.setFault code) h.frame

theorem State.sameRegsBut.setFault {s t : State} {rs : List TopReg} (h : s.sameRegsBut t rs) (code : FaultCode) :
    s.sameRegsBut (t.setFault code) rs :=
  fun w a hn => (State.setFault_reg ..).trans (h w a hn)

/-- Settles O27: each clause is the first check of its command that fails, on the state that the parts before it leave. -/
theorem invalidHandlesFaultBeforeAnyStore : Obligations.InvalidHandlesFaultBeforeAnyStore := by
  intro s arg hw hl ha
  have hoff := latch_sameRecords hw s.cfg.opcode.voiceOff arg
  have hpause := latch_sameRecords hw s.cfg.opcode.voicePause arg
  have hon := latch_sameRecords hw s.cfg.opcode.voiceOn arg
  refine ⟨fun hv => ?_, fun hv => ?_, fun hv hf => ?_, fun haa hf => ?_, fun hv hr => ?_, ?_, ?_, ?_, ?_, ?_, ?_⟩
  · exact State.latchFaults_of_raise hl ha (i := .voiceOff arg) rfl (vset_invalid hv _)
  · exact State.latchFaults_of_raise hl ha (i := .voicePause arg) rfl (vset_invalid hv _)
  · exact voiceOn_latchFaults_head hw hl ha hf fun l => insertAtHead_invalid hv
  · exact voiceOn_latchFaults_inherit hw hl ha hf (by rw [haa]; exact insertAfter_noVoice ..)
  · refine State.latchFaults_of_raise hl ha (i := .voiceOff arg) rfl (vset_outside hv ?_ _ _)
    exact (hoff.inRam _).trans ((congrArg s.inRam (hoff.stateAddr arg)).trans hr)
  · rintro _ rfl hv hr
    refine State.latchFaults_of_raise hl ha (i := .voicePause arg) rfl (vset_outside hv ?_ _ _)
    exact (hpause.inRam _).trans ((congrArg s.inRam (hpause.stateAddr _)).trans hr)
  · rintro _ rfl hf hv hr
    exact voiceOn_latchFaults_head hw hl ha hf fun l => insertAtHead_outside hv (by rwa [hon.linkAddr, hon.inRam])
  · rintro _ rfl hf hn
    refine ⟨fun hv => ?_, fun hv hr => ?_⟩
    · exact voiceOn_latchFaults_inherit hw hl ha hf (insertAfter_invalid hn hv)
    · exact voiceOn_latchFaults_inherit hw hl ha hf (insertAfter_outside hv (by rwa [hon.linkAddr, hon.inRam]))
  · rintro a h haa hh hf hva hra hb
    refine ⟨_, voiceOn_badHandle_inherit hw hl ha haa hh hf hva hra hb, rfl, ?_, ?_, rfl⟩
    · rw [State.setFault_calls, State.readLink, State.log_calls, hon.linkAddr]
      rfl
    · exact ((latch_inserts hw arg []).readLink a).regs.setFault _
  · rintro l h hf hh hv hr hs
    have hi := (latch_inserts hw arg [.listTop l]).withHead hw (List.mem_singleton_self _) h
    have hexec := exec_voiceOn_withHead hw hl ha hf hh hv hr
    rw [hi.setActive_outside hv hs] at hexec
    refine ⟨_, hexec, rfl, State.topReg_setTopReg_self .., fun hn => ?_, hi.regs.setFault _, hi.setFault_frame _⟩
    obtain ⟨-, -, hword, hmem⟩ := latch_withHead_quiet hw hn s.cfg.opcode.voiceOn arg l h
    exact ⟨hword, hmem⟩
  · rintro a h haa hh hf hva hra hv hr hs
    have hi := (latch_inserts hw arg []).withAfter a h
    have hexec := exec_voiceOn_withAfter hw hl ha hf haa hh hva hra hv hr
    rw [hi.setActive_outside hv hs] at hexec
    refine ⟨_, hexec, rfl, fun hn => ?_, hi.regs.setFault _, hi.setFault_frame _⟩
    obtain ⟨hlinka, hlinkh, -, hmem⟩ := latch_withAfter_quiet hw hn s.cfg.opcode.voiceOn arg a h
    exact ⟨hlinka, hlinkh, hmem⟩

end Sys2Proof.Machine
end

section
/-! The tour of a tick: the state a tick has reached after visiting some voices, without racing stores (rules R67, R208,
R263 to R267). It is told by the voices visited and the calls made: the mix buffer is the active voices' contributions,
and the front end is trapped exactly when one of them was inactive (rules R125, R238). -/

namespace Sys2Proof

/-! ## Repeated notifications -/

/-- The trap's FECTL word is its own trap word (rule R238). -/
theorem Config.fectlTrap_fectlTrap {cfg : Config} (hw : cfg.wf = true) (w : Word) :
    cfg.fectlTrap (cfg.fectlTrap w) = cfg.fectlTrap w := by
  simp only [Config.fectlTrap]
  have hm := (Config.masks hw).mode_reason
  rw [setf_comm hm w, setf_setf, ← setf_comm hm w, setf_setf]

section
variable {cfg : Config} {ien x y : Word} (h : x &&& ~~~cfg.field.istsGlobal = y &&& ~~~cfg.field.istsGlobal)
include h

/-- The evaluation does not look at ISTS.G (rule R125). -/
theorem Config.irqPending_congr : cfg.irqPending ien x = cfg.irqPending ien y := by
  have hm : (ien &&& ~~~cfg.field.istsGlobal) &&& x = (ien &&& ~~~cfg.field.istsGlobal) &&& y := by
    rw [BitVec.and_assoc, BitVec.and_assoc, BitVec.and_comm _ x, BitVec.and_comm _ y, h]
  simp only [Config.irqPending, hm]

theorem Config.istsAfterIrq_congr : cfg.istsAfterIrq ien x = cfg.istsAfterIrq ien y := by
  have hor (v : Word) : v ||| cfg.field.istsGlobal = (v &&& ~~~cfg.field.istsGlobal) ||| cfg.field.istsGlobal := by
    ext i hi
    cases hv : v[i] <;> simp [hv]
  rw [Config.istsAfterIrq, Config.istsAfterIrq, Config.irqPending_congr h, hor x, hor y, h]

end

/-- Raising FET in the word that an evaluation with FET raised has left changes nothing but G (rules R125, R238). -/
theorem Config.istsAfterIrq_or_fe (cfg : Config) (ien w : Word) :
    (cfg.istsAfterIrq ien (w ||| cfg.field.istsFe) ||| cfg.field.istsFe) &&& ~~~cfg.field.istsGlobal =
      (w ||| cfg.field.istsFe) &&& ~~~cfg.field.istsGlobal := by
  have hkept := cfg.istsAfterIrq_and (m := ~~~cfg.field.istsGlobal) (by simp) ien (w ||| cfg.field.istsFe)
  ext i hi
  have hbit := congrArg (·[i]) hkept
  simp only [BitVec.getElem_and, BitVec.getElem_or, BitVec.getElem_not] at hbit ⊢
  rw [Bool.and_or_distrib_right, hbit]
  cases w[i] <;> cases cfg.field.istsFe[i] <;> simp

end Sys2Proof

namespace Sys2Proof.Machine

/-! ## What a tour leaves -/

/-- The registers that the walks of a tick store (rule R37). -/
def listRegs : List TopReg :=
  [.listCurrent .l2d, .listCurrent .l3d, .listCurrent .mp, .listNext .l2d, .listNext .l3d, .listNext .mp]

/-- The registers that the walks and the visits of a tick may store (rules R30, R37, R238). -/
def tourRegs : List TopReg := [.fedecmeth, .fedecparam, .fectl, .ists] ++ listRegs

/-- The registers that the visits of `hs` may have stored, when the walks have stored the list registers `rs`: an
inactive voice's notification stores the latch, FECTL and ISTS (rule R238). -/
def State.touched (s : State) (rs : List TopReg) (hs : List Word) : List TopReg :=
  if hs.all s.isActive then rs else tourRegs

/-- The mix buffer that the contributions of the active voices of `hs` make (rules R264, R267). -/
def State.mixed (s : State) (hs : List Word) : MixBuffer :=
  (hs.filter s.isActive).foldl (fun m h => Config.mixVoice h m s.mem) MixBuffer.zero

/-- Everything but TOP, the line and the calls made. -/
def State.besideTour (s : State) : State := { s with topBank := [], trace := [], irqLine := false }

/-- The interrupt line's level after an idle notification (rules R125, R238). -/
def State.trapLevel (s : State) : Bool :=
  s.cfg.irqPending (s.topReg .ien) (s.topReg .ists ||| s.cfg.field.istsFe)

/-- A tick from `s` has come to `t`: it has visited the voices `hs`, made the calls `cs` after its re-arm, and stored, of
the list registers, `rs` alone. -/
structure Toured (s : State) (rs : List TopReg) (hs : List Word) (cs : List Call) (t : State) : Prop where
  sub : rs ⊆ tourRegs
  beside : t.besideTour = { s.besideTour with
    timerArmed := true, timerDeadline := Config.nowMs s.draws + 10, sched := .running, mix := some (s.mixed hs),
    draws := s.draws + 1 }
  calls : t.calls = s.calls ++ [.timerArm 10] ++ cs
  regs : s.sameRegsBut t (s.touched rs hs)
  fectl : t.topReg .fectl = if hs.all s.isActive then s.topReg .fectl else s.cfg.fectlTrap (s.topReg .fectl)
  ists : t.topReg .ists =
    if hs.all s.isActive then s.topReg .ists
    else s.cfg.istsAfterIrq (s.topReg .ien) (s.topReg .ists ||| s.cfg.field.istsFe)
  irqLine : t.irqLine = if hs.all s.isActive then s.irqLine else s.trapLevel

theorem State.touched_subset {s : State} {rs : List TopReg} (h : rs ⊆ tourRegs) (hs : List Word) :
    rs ⊆ s.touched rs hs ∧ s.touched rs hs ⊆ tourRegs := by
  unfold State.touched
  split
  · exact ⟨List.Subset.refl _, h⟩
  · exact ⟨h, List.Subset.refl _⟩

/-- A tick starts with a fresh mix buffer and no voice visited (rules R263, R264). -/
theorem Toured.start (s : State) {rs : List TopReg} (h : rs ⊆ tourRegs) :
    Toured s rs [] [] (startMix (s.armTimer.setSched .running)) where
  sub := h
  beside := rfl
  calls := by simp [tickPeriodMs]
  regs w a _ := by simp
  fectl := rfl
  ists := rfl
  irqLine := rfl

section
variable {s t : State} {rs : List TopReg} {hs : List Word} {cs : List Call} (h : Toured s rs hs cs t)
include h

/-! ## What a tour keeps -/

theorem Toured.cfg : t.cfg = s.cfg := (congrArg State.cfg h.beside :)

theorem Toured.mem : t.mem = s.mem := (congrArg State.mem h.beside :)

theorem Toured.races : t.races = s.races := (congrArg State.races h.beside :)

theorem Toured.live : t.live = s.live := (congrArg State.live h.beside :)

theorem Toured.mix : t.mix = some (s.mixed hs) := (congrArg State.mix h.beside :)

theorem Toured.frame (ha : s.timerArmed = true) : t = { s with
    topBank := t.topBank, trace := t.trace, sched := .running, timerDeadline := Config.nowMs s.draws + 10,
    irqLine := t.irqLine, mix := some (s.mixed hs), draws := s.draws + 1 } := by
  have hframe := congrArg (fun u : State => { u with topBank := t.topBank, trace := t.trace, irqLine := t.irqLine })
    h.beside
  rw [ha]
  exact hframe

theorem Toured.wf (hw : s.cfg.wf = true) : t.cfg.wf = true := by rw [h.cfg]; exact hw

/-- A register that no visit stores reads as before the tick. -/
theorem Toured.topReg (hw : s.cfg.wf = true) {r : TopReg} (hr : r ∈ TopReg.all) (hn : r ∉ tourRegs) :
    t.topReg r = s.topReg r :=
  (h.regs.mono (State.touched_subset h.sub hs).2).topReg hw h.cfg hn hr

theorem Toured.records (hw : s.cfg.wf = true) : s.SameRecords t :=
  ⟨h.cfg, h.topReg hw (by decide) (by decide)⟩

theorem Toured.listTop (hw : s.cfg.wf = true) (l : ListId) : t.topReg (.listTop l) = s.topReg (.listTop l) :=
  h.topReg hw (TopReg.mem_all _ nofun) (by simp [tourRegs, listRegs])

theorem Toured.rst (c : Coproc) : t.rst c = s.rst c := by
  rw [State.rst, State.rst, h.cfg]
  exact h.regs _ _ fun _ _ hc => absurd hc.1 (by cases c <;> decide)

/-! ## The steps of a tour -/

/-- Calls that touch nothing but the trace. -/
theorem Toured.logAll (cs' : List Call) : Toured s rs hs (cs ++ cs') (t.logAll cs') where
  sub := h.sub
  beside := h.beside
  calls := by rw [State.logAll_calls, h.calls, List.append_assoc]
  regs w a hn := by rw [State.logAll_reg]; exact h.regs w a hn
  fectl := h.fectl
  ists := h.ists
  irqLine := h.irqLine

theorem Toured.log (c : Call) : Toured s rs hs (cs ++ [c]) (t.log c) := h.logAll [c]

/-- A store of a list register. -/
theorem Toured.setTopReg (hw : s.cfg.wf = true) {r : TopReg} (hr : r ∈ rs) (hf : .fectl ≠ r) (hi : .ists ≠ r)
    (hall : r ∈ TopReg.all) (v : Word) : Toured s rs hs cs (t.setTopReg r v) where
  sub := h.sub
  beside := h.beside
  calls := by rw [State.setTopReg_calls, h.calls]
  regs := h.regs.setTopReg h.cfg ((State.touched_subset h.sub hs).1 hr) v
  fectl := (State.topReg_setTopReg_ne (h.wf hw) v hf (hr := hall)).trans h.fectl
  ists := (State.topReg_setTopReg_ne (h.wf hw) v hi (hr := hall)).trans h.ists
  irqLine := h.irqLine

theorem Toured.setListCurrent (hw : s.cfg.wf = true) {l : ListId} (hr : .listCurrent l ∈ rs) (v : Word) :
    Toured s rs hs cs (t.setTopReg (.listCurrent l) v) :=
  h.setTopReg hw hr nofun nofun (TopReg.mem_all _ nofun) v

theorem Toured.setListNext (hw : s.cfg.wf = true) {l : ListId} (hr : .listNext l ∈ rs) (v : Word) :
    Toured s rs hs cs (t.setTopReg (.listNext l) v) :=
  h.setTopReg hw hr nofun nofun (TopReg.mem_all _ nofun) v

/-- An active voice contributes to the mix buffer (rule R267). -/
theorem Toured.contributed {x : Word} (hx : s.isActive x = true) :
    Toured s rs (hs ++ [x]) (cs ++ [.mixVoice x]) (contribute x t) where
  sub := h.sub
  beside := by
    have hmix : some (s.mixed (hs ++ [x])) = (some (s.mixed hs)).map fun m => Config.mixVoice x m s.mem := by
      simp [State.mixed, hx]
    rw [hmix]
    exact congrArg (fun u : State => { u with mix := u.mix.map fun m => Config.mixVoice x m u.mem }) h.beside
  calls := by rw [State.contribute_calls, h.calls, List.append_assoc]
  regs w a hn := by
    rw [State.contribute_reg]
    exact h.regs w a (by simpa [State.touched, hx] using hn)
  fectl := h.fectl.trans (by simp [hx])
  ists := h.ists.trans (by simp [hx])
  irqLine := h.irqLine.trans (by simp [hx])

theorem Toured.sameRegsBut_latch (op x : Word) : s.sameRegsBut (latch op x t) tourRegs :=
  ((h.regs.mono (State.touched_subset h.sub hs).2).setTopReg h.cfg (by decide) op).setTopReg h.cfg (by decide) x

/-- The notification of an inactive voice traps the front end, again or for the first time (rules R125, R238). -/
theorem Toured.trapped (hw : s.cfg.wf = true) {x : Word} (hx : s.isActive x = false) (op : Word) :
    Toured s rs (hs ++ [x]) (cs ++ [lineCall s.trapLevel]) (enterTrap (latch op x t)) := by
  have hwl : (latch op x t).cfg.wf = true := h.wf hw
  have hien : (latch op x t).topReg .ien = s.topReg .ien :=
    (latch_topReg_of_ne (h.wf hw) op x (by decide) (by decide)).trans (h.topReg hw (by decide) (by decide))
  have hists : (latch op x t).topReg .ists = t.topReg .ists :=
    latch_topReg_of_ne (h.wf hw) op x (by decide) (by decide)
  have hfectl : (latch op x t).topReg .fectl = t.topReg .fectl :=
    latch_topReg_of_ne (h.wf hw) op x (by decide) (by decide)
  have hcfg : (latch op x t).cfg = s.cfg := h.cfg
  have hraised : (t.topReg .ists ||| s.cfg.field.istsFe) &&& ~~~s.cfg.field.istsGlobal =
      (s.topReg .ists ||| s.cfg.field.istsFe) &&& ~~~s.cfg.field.istsGlobal := by
    rw [h.ists]
    split
    · rfl
    · exact s.cfg.istsAfterIrq_or_fe ..
  have hline : (enterTrap (latch op x t)).irqLine = s.trapLevel := by
    rw [enterTrap_irqLine hwl, hien, hists, hcfg]
    exact Config.irqPending_congr hraised
  have hall : (hs ++ [x]).all s.isActive = false := by simp [hx]
  exact {
    sub := h.sub
    beside := by
      rw [show s.mixed (hs ++ [x]) = s.mixed hs by simp [State.mixed, hx]]
      exact h.beside
    calls := by
      rw [enterTrap_calls, hline, ← List.append_assoc, ← h.calls]
      rfl
    regs := by
      rw [State.touched, hall]
      exact (h.sameRegsBut_latch op x).enterTrap hcfg (by decide) (by decide)
    fectl := by
      rw [enterTrap_fectl hwl, hfectl, hcfg, h.fectl, hall]
      split
      · rfl
      · exact Config.fectlTrap_fectlTrap hw _
    ists := by
      rw [enterTrap_ists hwl, hien, hists, hcfg, hall]
      exact Config.istsAfterIrq_congr hraised
    irqLine := by rw [hline, hall]; rfl }

end

end Sys2Proof.Machine
end

section
/-! Visits and walks of a tick without racing stores (rules R67, R208, R265, R266): one round reads the link, visits the
voice and advances; a walk along a path makes one round a voice; and a check that fails ends the round (rules R203, R302,
R303). -/

namespace Sys2Proof.Machine

/-- A visit of the voice does not fault: it is active, or idle notification is enabled (rules R238, R266). -/
def State.visitable (s : State) (x : Word) : Prop :=
  s.isActive x = true ∨ s.cfg.idleEnabled (s.topReg .fetforce1) = true

section
variable {s t : State} {rs : List TopReg} {hs : List Word} {cs : List Call} {x : Word} (h : Toured s rs hs cs t)
  (hw : s.cfg.wf = true) (hn : s.races = [])
include h hw

/-! ## Reading a record -/

include hn in
/-- A field of a voice whose word is in guest memory reads as before the tick. -/
theorem Toured.field_read {off p : Nat} (hp : p = s.voiceWord x off) (hv : validHandle x = true) (hr : s.inRam p = true)
    (mask : Word) : vget x off mask t = .ok (getf (s.mem.word p) mask) (t.log (.readBytes p 4)) := by
  subst hp
  have haddr : t.voiceWord x off = s.voiceWord x off := State.voiceWord_congr (h.records hw).vpvaddr ..
  rw [vget_ok hv (by rwa [haddr, (h.records hw).inRam]), State.race_of_nil (h.races.trans hn), haddr, h.mem]

theorem Toured.field_outside {off p : Nat} (hp : p = s.voiceWord x off) (hv : validHandle x = true)
    (hr : s.inRam p = false) (mask : Word) : vget x off mask t = raise .guestMemoryOutOfRange t := by
  subst hp
  have haddr : t.voiceWord x off = s.voiceWord x off := State.voiceWord_congr (h.records hw).vpvaddr ..
  exact vget_outside hv (by rwa [haddr, (h.records hw).inRam]) mask

/-! ## A visit -/

include hn in
/-- The state word is read; then an active voice is mixed, and an inactive one is notified of (rule R266). -/
theorem Toured.visitVoice_eq (hv : validHandle x = true) (hr : s.inRam (s.stateAddr x) = true) :
    visitVoice x t =
      if s.isActive x then .ok () (contribute x (t.log (.readBytes (s.stateAddr x) 4)))
      else idleVoiceNotify (latch s.cfg.opcode.idleVoiceNotify x (t.log (.readBytes (s.stateAddr x) 4))) := by
  have hget : getActive x t = .ok (getf (s.mem.word (s.stateAddr x)) s.cfg.voice.activeMask)
      (t.log (.readBytes (s.stateAddr x) 4)) := by
    rw [getActive, h.cfg]
    exact h.field_read hw hn rfl hv hr _
  have hquiet : (t.log (.readBytes (s.stateAddr x) 4)).race = t.log (.readBytes (s.stateAddr x) 4) :=
    State.race_of_nil (h.races.trans hn)
  have hidle := feDispatch_idle x (t.log (.readBytes (s.stateAddr x) 4)) (h.wf hw)
  rw [State.log_cfg, h.cfg] at hidle
  rw [visitVoice, hget, Res.bind, State.log_cfg, h.cfg, hidle, mixVoice, hquiet, State.isActive]
  by_cases ha : getf (s.mem.word (s.stateAddr x)) s.cfg.voice.activeMask = 0#32 <;> simp [ha]

/-- Whether idle notification is enabled is as before the tick, after the latch too. -/
theorem Toured.idleEnabled_latch (op : Word) : (latch op x t).cfg.idleEnabled ((latch op x t).topReg .fetforce1) =
    s.cfg.idleEnabled (s.topReg .fetforce1) := by
  rw [latch_topReg_of_ne (h.wf hw) op x (by decide) (by decide), h.topReg hw (by decide) (by decide)]
  exact congrArg (Config.idleEnabled · _) h.cfg

include hn in
/-- A visit of an active voice mixes it, and one of an inactive voice traps the front end; NVL keeps the captured link
(rules R266, R341). -/
theorem Toured.visit (hok : s.voiceOk x = true) (hvis : s.visitable x) : ∃ u, visitVoice x t = .ok () u ∧
    Toured s rs (hs ++ [x]) (cs ++ [.readBytes (s.stateAddr x) 4,
      if s.isActive x then .mixVoice x else lineCall s.trapLevel]) u ∧
    ∀ l, u.topReg (.listNext l) = t.topReg (.listNext l) := by
  obtain ⟨hv, hr, -⟩ := State.voiceOk_iff.mp hok
  have hread := h.log (.readBytes (s.stateAddr x) 4)
  rw [h.visitVoice_eq hw hn hv hr, List.append_cons cs]
  cases ha : s.isActive x with
  | true => exact ⟨_, rfl, hread.contributed ha, fun l => rfl⟩
  | false =>
    have hen : s.cfg.idleEnabled (s.topReg .fetforce1) = true := hvis.resolve_left (by simp [ha])
    refine ⟨_, if_pos ((hread.idleEnabled_latch hw _).trans hen), hread.trapped hw ha _, fun l => ?_⟩
    have hall : TopReg.listNext l ∈ TopReg.all := TopReg.mem_all _ nofun
    have hwl : (latch s.cfg.opcode.idleVoiceNotify x (t.log (.readBytes (s.stateAddr x) 4))).cfg.wf = true := hread.wf hw
    rw [enterTrap_topReg hwl hall nofun nofun, latch_topReg_of_ne (r := .listNext l) (hread.wf hw) _ _ nofun nofun hall]
    rfl

/-! ## A round -/

/-- The state after a round has read the link `n` at `p` and captured it in NVL_L (rule R208). -/
def State.captured (t : State) (l : ListId) (p : Nat) (n : Word) : State :=
  (t.log (.readBytes p 4)).setTopReg (.listNext l) n

omit hw in
theorem Toured.captured (hw : s.cfg.wf = true) {l : ListId} (hnl : .listNext l ∈ rs) (p : Nat) (n : Word) :
    Toured s rs hs (cs ++ [.readBytes p 4]) (t.captured l p n) :=
  (h.log _).setListNext hw hnl n

include hn in
/-- A round whose link can be read captures it and goes on to the visit (rule R208). -/
theorem Toured.walkRound_eq {l : ListId} (hx : t.topReg (.listCurrent l) = x) (hv : validHandle x = true)
    (hr : s.inRam (s.linkAddr x) = true) :
    walkRound l t = (visitVoice x (t.captured l (s.linkAddr x) (s.linkOf x))).bind fun _ u =>
      .ok () (u.setTopReg (.listCurrent l) (u.topReg (.listNext l))) := by
  have hget : getLink x t = .ok (s.linkOf x) (t.log (.readBytes (s.linkAddr x) 4)) := by
    rw [getLink, h.cfg]
    exact h.field_read hw hn rfl hv hr _
  rw [walkRound, hx, hget]
  rfl

include hn in
/-- A round on a voice that can be visited visits it and comes to its link (rules R208, R266). -/
theorem Toured.round {l : ListId} (hcl : .listCurrent l ∈ rs) (hnl : .listNext l ∈ rs)
    (hx : t.topReg (.listCurrent l) = x) (hok : s.voiceOk x = true) (hvis : s.visitable x) :
    ∃ u, walkRound l t = .ok () u ∧ Toured s rs (hs ++ [x]) (cs ++ s.visitCalls x) u ∧
      u.topReg (.listCurrent l) = s.linkOf x := by
  obtain ⟨hv, -, hr⟩ := State.voiceOk_iff.mp hok
  obtain ⟨u, hu, htour, hnext⟩ := (h.captured hw hnl (s.linkAddr x) (s.linkOf x)).visit hw hn hok hvis
  rw [List.append_assoc] at htour
  refine ⟨_, ?_, htour.setListCurrent hw hcl (u.topReg (.listNext l)), ?_⟩
  · rw [h.walkRound_eq hw hn hx hv hr, hu]
    rfl
  · rw [State.topReg_setTopReg_self, hnext, State.captured, State.topReg_setTopReg_self]

/-! ## Rounds that fault -/

omit h hw in
theorem walkRound_invalid {l : ListId} (hx : t.topReg (.listCurrent l) = x) (hv : validHandle x = false) :
    walkRound l t = raise .invalidVoiceHandle t := by
  rw [walkRound, hx, getLink, vget_invalid hv]
  rfl

theorem Toured.walkRound_linkOutside {l : ListId} (hx : t.topReg (.listCurrent l) = x) (hv : validHandle x = true)
    (hr : s.inRam (s.linkAddr x) = false) : walkRound l t = raise .guestMemoryOutOfRange t := by
  rw [walkRound, hx, getLink, h.cfg, h.field_outside hw rfl hv hr]
  rfl

include hn in
theorem Toured.walkRound_stateOutside {l : ListId} (hnl : .listNext l ∈ rs) (hx : t.topReg (.listCurrent l) = x)
    (hv : validHandle x = true) (hr : s.inRam (s.linkAddr x) = true) (hs' : s.inRam (s.stateAddr x) = false) :
    walkRound l t = raise .guestMemoryOutOfRange (t.captured l (s.linkAddr x) (s.linkOf x)) := by
  have hcap := h.captured hw hnl (s.linkAddr x) (s.linkOf x)
  rw [h.walkRound_eq hw hn hx hv hr, visitVoice, getActive, hcap.cfg, hcap.field_outside hw rfl hv hs']
  rfl

include hn in
/-- A round on an inactive voice while notification is disabled: link and state word are read, and the latch holds the
notification (rules R238, R344). -/
theorem Toured.walkRound_idleDisabled {l : ListId} (hnl : .listNext l ∈ rs) (hx : t.topReg (.listCurrent l) = x)
    (hok : s.voiceOk x = true) (ha : s.isActive x = false)
    (hdis : s.cfg.idleEnabled (s.topReg .fetforce1) = false) :
    walkRound l t = raise .idleNotifyDisabled (latch s.cfg.opcode.idleVoiceNotify x
      ((t.captured l (s.linkAddr x) (s.linkOf x)).log (.readBytes (s.stateAddr x) 4))) := by
  obtain ⟨hv, hst, hr⟩ := State.voiceOk_iff.mp hok
  have hcap := h.captured hw hnl (s.linkAddr x) (s.linkOf x)
  have hnot := ((hcap.log (.readBytes (s.stateAddr x) 4)).idleEnabled_latch (x := x) hw
    s.cfg.opcode.idleVoiceNotify).trans hdis
  rw [h.walkRound_eq hw hn hx hv hr, hcap.visitVoice_eq hw hn hv hst, ha, if_neg (by decide), idleVoiceNotify, hnot]
  rfl

end

/-! ## A walk -/

theorem walk_noVoice {l : ListId} {t : State} (hx : t.topReg (.listCurrent l) = noVoice) (k : Nat) :
    walk l k t = .ok () t := by
  cases k with
  | zero => exact if_pos hx
  | succ k => rw [walk_succ, if_pos hx]

/-- A walk along a path makes one round a voice and comes to the path's end (rule R208). -/
theorem Toured.walk_path {s : State} {rs : List TopReg} {l : ListId} (hw : s.cfg.wf = true) (hn : s.races = [])
    (hcl : .listCurrent l ∈ rs) (hnl : .listNext l ∈ rs) {x : Word} (k : Nat) {ys : List Word} :
    ∀ {t hs cs v}, Toured s rs hs cs t → t.topReg (.listCurrent l) = v → s.path v ys x = true →
      (∀ y ∈ ys, s.visitable y) → ∃ u, walk l (ys.length + k) t = walk l k u ∧
        Toured s rs (hs ++ ys) (cs ++ ys.flatMap s.visitCalls) u ∧ u.topReg (.listCurrent l) = x := by
  induction ys with
  | nil =>
    intro t hs cs v h hv hp _
    refine ⟨t, by rw [List.length_nil, Nat.zero_add], ?_, hv.trans (State.path_nil.mp hp)⟩
    rw [List.append_nil, List.flatMap_nil, List.append_nil]
    exact h
  | cons y ys ih =>
    intro t hs cs v h hv hp hvis
    obtain ⟨rfl, hok, hrest⟩ := State.path_cons.mp hp
    obtain ⟨hy, hys⟩ := List.forall_mem_cons.mp hvis
    obtain ⟨u, hround, htour, hcur⟩ := h.round hw hn hcl hnl hv hok hy
    obtain ⟨z, hwalk, htour', hcur'⟩ := ih htour hcur hrest hys
    refine ⟨z, ?_, ?_, hcur'⟩
    · rw [List.length_cons, Nat.add_right_comm, walk_succ, hround, hv,
        if_neg (ne_noVoice_of_validHandle (State.voiceOk_iff.mp hok).1)]
      exact hwalk
    · rwa [List.append_cons, List.flatMap_cons, ← List.append_assoc]

/-- Distinct voices are fewer than the visits of a walk (rules R203, R272). -/
theorem length_lt_visitBound {s : State} {ys : List Word} (hok : ∀ y ∈ ys, s.voiceOk y = true) (hd : ys.Nodup) :
    ys.length < visitBound := by
  have hd' : (ys.map BitVec.toNat).Nodup := hd.map BitVec.toNat_injective
  have hsub : ys.map BitVec.toNat ⊆ List.range 0xFFFF := fun n hmem => by
    obtain ⟨y, hy, rfl⟩ := List.mem_map.mp hmem
    exact List.mem_range.mpr (of_decide_eq_true (State.voiceOk_iff.mp (hok y hy)).1)
  have hle := (List.subperm_of_subset hd' hsub).length_le
  rw [List.length_map, List.length_range] at hle
  exact Nat.lt_of_le_of_lt hle (by decide)

section
variable {s t : State} {rs : List TopReg} {hs ys : List Word} {cs : List Call} {l : ListId} {x : Word}
  (h : Toured s rs hs cs t) (hw : s.cfg.wf = true) (hn : s.races = []) (hcl : .listCurrent l ∈ rs)
include h hw hcl

omit hcl in
theorem Toured.traverse_eq (hn : s.races = []) : traverse l t =
    walk l visitBound (t.setTopReg (.listCurrent l) (s.topReg (.listTop l))) := by
  rw [traverse, h.races, hn, h.listTop hw]
  rfl

/-- A list that is empty ends at once, whatever stores race (rule R208). -/
theorem Toured.traverse_empty (htop : s.topReg (.listTop l) = noVoice) :
    traverse l t = .ok () (t.setTopReg (.listCurrent l) noVoice) ∧
      Toured s rs hs cs (t.setTopReg (.listCurrent l) noVoice) := by
  refine ⟨?_, h.setListCurrent hw hcl _⟩
  rw [traverse, h.listTop hw, htop]
  exact walk_noVoice (State.topReg_setTopReg_self ..) _

variable (hnl : .listNext l ∈ rs) (hp : s.path (s.topReg (.listTop l)) ys x = true) (hd : ys.Nodup)
  (hvis : ∀ y ∈ ys, s.visitable y)
include hn hnl hp hd hvis

/-- The walk of a list comes, after the voices before it, to each handle word of the list with a visit left. -/
theorem Toured.traverse_path : ∃ k u, k < visitBound ∧ traverse l t = walk l (k + 1) u ∧
    Toured s rs (hs ++ ys) (cs ++ ys.flatMap s.visitCalls) u ∧ u.topReg (.listCurrent l) = x := by
  have hlt := length_lt_visitBound (State.path_voiceOk hp) hd
  obtain ⟨u, hwalk, htour, hcur⟩ := Toured.walk_path hw hn hcl hnl (visitBound - ys.length)
    (h.setListCurrent hw hcl (s.topReg (.listTop l))) (State.topReg_setTopReg_self ..) hp hvis
  refine ⟨visitBound - ys.length - 1, u, by omega, ?_, htour, hcur⟩
  rw [h.traverse_eq hw hn, Nat.sub_add_cancel (by omega), ← hwalk, Nat.add_sub_cancel' hlt.le]

omit hp in
/-- The walk of a well-formed list visits its voices and ends (rules R208, R211). -/
theorem Toured.traverse_chain (hc : s.chain (s.topReg (.listTop l)) ys = true) : ∃ u, traverse l t = .ok () u ∧
    Toured s rs (hs ++ ys) (cs ++ ys.flatMap s.visitCalls) u ∧ u.topReg (.listCurrent l) = noVoice := by
  rw [State.chain_eq_path] at hc
  obtain ⟨k, u, -, htrav, htour, hcur⟩ := h.traverse_path hw hn hcl hnl hc hd hvis
  exact ⟨u, htrav.trans (walk_noVoice hcur _), htour, hcur⟩

end

end Sys2Proof.Machine
end

section
/-! Ticks that end in a walk, without racing stores (rule R67): a tick comes to any place of any list after visiting the
voices before it (rules R208, R265); there a check that fails ends it with its fault (rules R203, R238, R266, R302), and a
list that never ends hangs it (rule R272). -/

namespace Sys2Proof.Machine

/-! ## A tick comes to a place of a list -/

theorem exec_tick {s : State} (hl : s.live = true) (ha : s.timerArmed = true) :
    exec .tick s = (frameTick s).outcome :=
  (event_live hl _).trans (congrArg Res.outcome (if_pos ha))

/-- The lists a tick walks up to a list, in order (rule R265). -/
def listsUpTo : ListId → List ListId
  | .l2d => [.l2d]
  | .l3d => [.l2d, .l3d]
  | .mp => [.l2d, .l3d, .mp]

/-- The registers `rs` hold those that a tick's walks store up to a list (rule R37). -/
def walkRegsIn (l : ListId) (rs : List TopReg) : Prop :=
  ∀ l' ∈ listsUpTo l, .listCurrent l' ∈ rs ∧ .listNext l' ∈ rs

theorem listRegs_mem (l : ListId) : .listCurrent l ∈ listRegs ∧ .listNext l ∈ listRegs := by
  cases l <;> decide

theorem listRegs_subset : listRegs ⊆ tourRegs := List.subset_append_right ..

theorem walkRegsIn_of_subset {l : ListId} {rs : List TopReg} (h : listRegs ⊆ rs) : walkRegsIn l rs :=
  fun l' _ => ⟨h (listRegs_mem l').1, h (listRegs_mem l').2⟩

/-- A tick from `s` stands in `t` before a round of list `l` at the handle word `x`, after the voices `hs`: if the walk
ends the device there, with at least one visit left, so does the tick. -/
structure TickAt (s : State) (rs : List TopReg) (l : ListId) (hs : List Word) (x : Word) (t : State) : Prop where
  tour : Toured s rs hs (hs.flatMap s.visitCalls) t
  current : t.topReg (.listCurrent l) = x
  ends : ∃ k < visitBound, ∀ u, walk l (k + 1) t = .halted u → frameTick s = .halted u

theorem tickAt_of_visited {s : State} (hw : s.cfg.wf = true) (hn : s.races = []) {rs : List TopReg}
    (hsub : rs ⊆ tourRegs) {l : ListId} (hrs : walkRegsIn l rs) {hs : List Word} {x : Word} (hv : s.visited l hs x)
    (hvis : ∀ h ∈ hs, s.visitable h) : ∃ t, TickAt s rs l hs x t := by
  have h0 := Toured.start s hsub
  cases l with
  | l2d =>
    obtain ⟨hd, hp⟩ := hv
    obtain ⟨hc, hx⟩ := hrs .l2d (by decide)
    obtain ⟨k, t, hk, htrav, htour, hcur⟩ := h0.traverse_path hw hn hc hx hp hd hvis
    refine ⟨t, htour, hcur, k, hk, fun u hu => ?_⟩
    rw [frameTick, htrav, hu]
    rfl
  | l3d =>
    obtain ⟨h2d, h3d, rfl, hd2, hd3, hc2, hp⟩ := hv
    obtain ⟨hv2, hv3⟩ := List.forall_mem_append.mp hvis
    obtain ⟨hc, hx⟩ := hrs .l2d (by decide)
    obtain ⟨hc', hx'⟩ := hrs .l3d (by decide)
    obtain ⟨t2, htrav2, htour2, -⟩ := h0.traverse_chain hw hn hc hx hd2 hv2 hc2
    obtain ⟨k, t, hk, htrav, htour, hcur⟩ := htour2.traverse_path hw hn hc' hx' hp hd3 hv3
    refine ⟨t, by rw [List.flatMap_append]; exact htour, hcur, k, hk, fun u hu => ?_⟩
    rw [frameTick, htrav2, Res.bind, htrav, hu]
    rfl
  | mp =>
    obtain ⟨h2d, h3d, hmp, rfl, hd2, hd3, hdm, hc2, hc3, hp⟩ := hv
    obtain ⟨hv23, hvm⟩ := List.forall_mem_append.mp hvis
    obtain ⟨hv2, hv3⟩ := List.forall_mem_append.mp hv23
    obtain ⟨hc, hx⟩ := hrs .l2d (by decide)
    obtain ⟨hc', hx'⟩ := hrs .l3d (by decide)
    obtain ⟨hc'', hx''⟩ := hrs .mp (by decide)
    obtain ⟨t2, htrav2, htour2, -⟩ := h0.traverse_chain hw hn hc hx hd2 hv2 hc2
    obtain ⟨t3, htrav3, htour3, -⟩ := htour2.traverse_chain hw hn hc' hx' hd3 hv3 hc3
    obtain ⟨k, t, hk, htrav, htour, hcur⟩ := htour3.traverse_path hw hn hc'' hx'' hp hdm hvm
    refine ⟨t, by rw [List.flatMap_append, List.flatMap_append]; exact htour, hcur, k, hk, fun u hu => ?_⟩
    rw [frameTick, htrav2, Res.bind, htrav3, Res.bind, htrav, hu]
    rfl

theorem visitable_of_all {s : State} {hs : List Word}
    (h : s.cfg.idleEnabled (s.topReg .fetforce1) = true ∨ ∀ x ∈ hs, s.isActive x = true) : ∀ x ∈ hs, s.visitable x :=
  fun x hx => h.elim .inr fun ha => .inl (ha x hx)

/-! ## A list that never ends -/

/-- The first links of a walk, each of which names a voice (rule R208). -/
theorem State.path_iterate {s : State} {h : Word} (k : Nat) (hok : ∀ n < k, s.voiceOk (s.linkOf^[n] h) = true) :
    s.path h (List.iterate s.linkOf h k) (s.linkOf^[k] h) = true := by
  induction k generalizing h with
  | zero => exact State.path_nil.mpr rfl
  | succ k ih =>
    refine State.path_cons.mpr ⟨rfl, hok 0 (Nat.succ_pos k), ?_⟩
    exact ih fun n hn => hok (n + 1) (Nat.succ_lt_succ hn)

/-- Settles O59: whatever visits are left, each leads to one more voice, and the walk hangs when none is left. -/
theorem cyclicListHangsTheTick : Obligations.CyclicListHangsTheTick := by
  intro s l hs hw hl ha hn hvisited hok hvis
  have hvis' : (∀ h ∈ hs, s.visitable h) ∧
      ∀ n ≤ 0x10000, s.visitable (s.linkOf^[n] (s.topReg (.listTop l))) := by
    obtain hen | ⟨hact, hact'⟩ := hvis
    · exact ⟨fun _ _ => .inr hen, fun _ _ => .inr hen⟩
    · exact ⟨fun h hh => .inl (hact h hh), fun n hn => .inl (hact' n hn)⟩
  obtain ⟨t, htour, hcur, k, hk, hends⟩ := tickAt_of_visited hw hn listRegs_subset
    (walkRegsIn_of_subset (List.Subset.refl _)) hvisited hvis'.1
  have hk' : k + 1 ≤ 0x10000 := hk
  have hpath := State.path_iterate (k + 1) fun n hn => hok n (by omega)
  have hlater : ∀ y ∈ List.iterate s.linkOf (s.topReg (.listTop l)) (k + 1), s.visitable y := by
    intro y hy
    obtain ⟨n, hn, rfl⟩ := List.mem_iterate.mp hy
    exact hvis'.2 n (by omega)
  obtain ⟨u, hwalk, htour', hcur'⟩ := Toured.walk_path hw hn (listRegs_mem l).1 (listRegs_mem l).2 0 htour hcur hpath hlater
  have hlast := (State.voiceOk_iff.mp (hok (k + 1) hk')).1
  have hhang : walk l (k + 1) t = .halted u.setHung := by
    rw [List.length_iterate, Nat.add_zero] at hwalk
    rw [hwalk, walk, hcur', if_neg (ne_noVoice_of_validHandle hlast)]
    rfl
  have hlive : s.fault = none := by
    rw [State.live, Bool.and_eq_true, Option.isNone_iff_eq_none] at hl
    exact hl.1
  refine ⟨u.setHung, ?_, rfl, ?_, ?_, htour'.mem⟩
  · rw [exec_tick hl ha, hends _ hhang]
    rfl
  · exact (congrArg State.fault htour'.beside :).trans hlive
  · exact (congrArg State.sched htour'.beside :)

/-! ## A visit that faults -/

section
variable {s t v : State} {rs : List TopReg} {l : ListId} {hs : List Word} {x : Word} {cs : List Call} {code : FaultCode}

/-- A round that raises a fault ends the tick in the state that the round leaves (rule R302). -/
theorem TickAt.faults {rs' : List TopReg} (h : TickAt s rs l hs x t) (hl : s.live = true) (ha : s.timerArmed = true) (hx : x ≠ noVoice)
    (hround : walkRound l t = raise code v) (hv : Toured s rs' hs cs v) (hcur : v.topReg (.listCurrent l) = x) :
    s.tickFaults (v.setFault code) l x code cs := by
  obtain ⟨k, -, hends⟩ := h.ends
  have hhalt : walk l (k + 1) t = .halted (v.setFault code) := by
    rw [walk_succ, h.current, if_neg hx, hround]
    rfl
  refine ⟨?_, rfl, hcur, ?_, hv.mem, (congrArg State.timerArmed hv.beside :), (congrArg State.sched hv.beside :)⟩
  · rw [exec_tick hl ha, hends _ hhalt]
    rfl
  · rw [State.setFault_calls, hv.calls]

/-- Where every voice visited was active, only list registers have changed, and the line has not. -/
theorem Toured.quiet (h : Toured s rs hs cs t) (hact : ∀ y ∈ hs, s.isActive y = true) :
    s.sameRegsBut t rs ∧ t.irqLine = s.irqLine := by
  have hall : hs.all s.isActive = true := List.all_eq_true.mpr hact
  have hregs := h.regs
  have hline := h.irqLine
  rw [State.touched, if_pos hall] at hregs
  rw [if_pos hall] at hline
  exact ⟨hregs, hline⟩

/-- The capture of NVL_L leaves CVL_L (rule R208). -/
theorem State.captured_listCurrent (hw : t.cfg.wf = true) (p : Nat) (n : Word) :
    (t.captured l p n).topReg (.listCurrent l) = t.topReg (.listCurrent l) :=
  State.topReg_setTopReg_ne (s := t.log (.readBytes p 4)) hw n nofun (TopReg.mem_all _ nofun) (TopReg.mem_all _ nofun)

/-- The latch stores its two registers (rule R231). -/
theorem Toured.latched (h : Toured s rs hs cs t) (hw : s.cfg.wf = true) (op arg : Word) :
    Toured s (.fedecmeth :: .fedecparam :: rs) hs cs (latch op arg t) := by
  have hsub : TopReg.fedecmeth :: .fedecparam :: rs ⊆ tourRegs :=
    List.cons_subset.mpr ⟨by decide, List.cons_subset.mpr ⟨by decide, h.sub⟩⟩
  have hregs : s.touched rs hs ⊆ s.touched (.fedecmeth :: .fedecparam :: rs) hs := by
    unfold State.touched
    split
    · exact fun _ hr => List.mem_cons_of_mem _ (List.mem_cons_of_mem _ hr)
    · exact List.Subset.refl _
  have hwide : Toured s (.fedecmeth :: .fedecparam :: rs) hs cs t :=
    { h with sub := hsub, regs := h.regs.mono hregs }
  exact (hwide.setTopReg (r := .fedecmeth) hw (by simp) nofun nofun (by decide) op).setTopReg (r := .fedecparam) hw
    (by simp) nofun nofun (by decide) arg

/-- A tick that comes to an inactive voice while notification is disabled (rules R238, R266, R302, R344). -/
theorem TickAt.idleDisabled (h : TickAt s rs l hs x t) (hw : s.cfg.wf = true) (hn : s.races = []) (hl : s.live = true)
    (ha : s.timerArmed = true) (hnl : .listNext l ∈ rs) (hok : s.voiceOk x = true) (hact : s.isActive x = false)
    (hdis : s.cfg.idleEnabled (s.topReg .fetforce1) = false) (hacts : ∀ y ∈ hs, s.isActive y = true) :
    ∃ u, s.tickFaults u l x .idleNotifyDisabled
        (hs.flatMap s.visitCalls ++ [.readBytes (s.linkAddr x) 4, .readBytes (s.stateAddr x) 4]) ∧
      u.topReg .fedecmeth = s.cfg.opcode.idleVoiceNotify ∧ u.topReg .fedecparam = x ∧
      u.topReg (.listNext l) = s.linkOf x ∧ s.sameRegsBut u (.fedecmeth :: .fedecparam :: rs) ∧
      u.irqLine = s.irqLine := by
  have hv := (State.voiceOk_iff.mp hok).1
  have hround := h.tour.walkRound_idleDisabled hw hn hnl h.current hok hact hdis
  have hread := (h.tour.captured hw hnl (s.linkAddr x) (s.linkOf x)).log (.readBytes (s.stateAddr x) 4)
  rw [List.append_assoc] at hread
  have hlatch := hread.latched hw s.cfg.opcode.idleVoiceNotify x
  obtain ⟨hregs, hline⟩ := hlatch.quiet hacts
  obtain ⟨hop, harg⟩ := latch_topReg (hread.wf hw) s.cfg.opcode.idleVoiceNotify x
  have kept {r : TopReg} (hm : r ≠ .fedecmeth) (hp : r ≠ .fedecparam) (hr : r ∈ TopReg.all) :=
    latch_topReg_of_ne (hread.wf hw) s.cfg.opcode.idleVoiceNotify x hm hp hr
  refine ⟨_, h.faults hl ha (ne_noVoice_of_validHandle hv) hround hlatch ?_, hop, harg, ?_, hregs.setFault _, hline⟩
  · refine (kept (r := .listCurrent l) nofun nofun (TopReg.mem_all _ nofun)).trans ?_
    exact (State.captured_listCurrent (h.tour.wf hw) ..).trans h.current
  · exact (kept (r := .listNext l) nofun nofun (TopReg.mem_all _ nofun)).trans (State.topReg_setTopReg_self ..)

end

/-- Settles O60: the tick comes to the handle word, and the round there raises the fault of the first check that fails. -/
theorem idleVoiceFaultsTheTickWhenDisabled : Obligations.IdleVoiceFaultsTheTickWhenDisabled := by
  intro s hw hl ha hn
  refine ⟨?_, ?_⟩
  · rintro h rfl hok hact hdis
    obtain ⟨t, ht⟩ := tickAt_of_visited hw hn (rs := [.listCurrent .l2d, .listNext .l2d]) (by decide) (l := .l2d)
      (by simp [walkRegsIn, listsUpTo]) (hs := []) ⟨List.nodup_nil, State.path_nil.mpr rfl⟩ (by simp)
    obtain ⟨u, hu, hop, harg, hnext, hregs, hline⟩ := ht.idleDisabled hw hn hl ha (by simp) hok hact hdis (by simp)
    obtain ⟨hexec, hfault, hcur, -, hmem, harmed, hsched⟩ := hu
    exact ⟨u, hexec, hfault, hop, harg, hcur, hnext, hregs, hmem, hsched, harmed, hline⟩
  · rintro l hs x cvls hv hvis rfl
    obtain ⟨t, ht⟩ := tickAt_of_visited hw hn listRegs_subset (walkRegsIn_of_subset (List.Subset.refl _)) hv
      (visitable_of_all hvis)
    have hnl := (listRegs_mem l).2
    have quiet {cs : List Call} {u : State} (hu : Toured s listRegs hs cs u) (code : FaultCode)
        (hacts : ∀ h ∈ hs, s.isActive h = true) :
        s.sameRegsBut (u.setFault code) listRegs ∧ (u.setFault code).irqLine = s.irqLine :=
      ⟨(hu.quiet hacts).1.setFault code, (hu.quiet hacts).2⟩
    refine ⟨fun hx hbad => ?_, fun hval hlink => ?_, fun hval hlink hstate => ?_, fun hok hact hdis => ?_⟩
    · exact ⟨_, ht.faults hl ha hx (walkRound_invalid ht.current hbad) ht.tour ht.current, quiet ht.tour _⟩
    · exact ⟨_, ht.faults hl ha (ne_noVoice_of_validHandle hval)
        (ht.tour.walkRound_linkOutside hw ht.current hval hlink) ht.tour ht.current, quiet ht.tour _⟩
    · have hcap := ht.tour.captured hw hnl (s.linkAddr x) (s.linkOf x)
      exact ⟨_, ht.faults hl ha (ne_noVoice_of_validHandle hval)
        (ht.tour.walkRound_stateOutside hw hn hnl ht.current hval hlink hstate) hcap
        ((State.captured_listCurrent (ht.tour.wf hw) ..).trans ht.current), State.topReg_setTopReg_self .., quiet hcap _⟩
    · refine ht.idleDisabled hw hn hl ha hnl hok hact hdis (hvis.resolve_left ?_)
      simp [hdis]

end Sys2Proof.Machine
end

section
/-! Ticks that come to their end: the publication of the mix buffer (rule R268), the kicks of the cores with their requests
(rules R269, R270, R273), and the end (rule R271); the tick on empty lists, and the tick on well-formed lists. -/

namespace Sys2Proof.Machine

/-! ## The kicks -/

/-- What a tick does after its publication (rules R269 to R271). -/
def kicks (s : State) : Res Unit :=
  (kickGp s).bind fun _ s => (kickEp s).bind fun _ s => .ok () ((discardMix s).setSched .scheduled)

theorem kickGp_of_ends {s g : State} (hl : s.live = true) (h : gpKickEnds s g) :
    kickGp s = if g.live then .ok () g else .halted g := by
  unfold gpKickEnds at h
  split at h
  · next hr =>
    obtain ⟨u, hcall, hrest⟩ := h
    rw [kickGp, if_pos hr, dspCall_of_callEnds hl hcall]
    cases hu : u.live with
    | true =>
      rw [hu] at hrest
      exact dspCall_of_callEnds hu hrest
    | false =>
      rw [hu] at hrest
      obtain rfl : g = u := hrest
      rw [hu]
      rfl
  · next hr =>
    rw [kickGp, if_neg hr, h, hl]
    rfl

theorem kickEp_of_ends {s e : State} (hl : s.live = true) (h : epKickEnds s e) :
    kickEp s = if e.live then .ok () e else .halted e := by
  unfold epKickEnds at h
  split at h
  · next hr => rw [kickEp, if_pos hr, dspCall_of_callEnds hl h]
  · next hr =>
    rw [kickEp, if_neg hr, h, hl]
    rfl

/-- The kicks end where the cores' calls end (rules R271, R273, R302). -/
theorem kicks_of_ends {s g : State} (hl : s.live = true) (hg : gpKickEnds s g) :
    (g.live = false → kicks s = .halted g) ∧
      (g.live = true → ∀ e, epKickEnds g e → (e.live = false → kicks s = .halted e) ∧
        (e.live = true → kicks s = .ok () { e with mix := none, sched := .scheduled })) := by
  have hkick := kickGp_of_ends hl hg
  refine ⟨fun hd => ?_, fun hlive e he => ⟨fun hd => ?_, fun hlive' => ?_⟩⟩
  · rw [kicks, hkick, hd]
    rfl
  · rw [kicks, hkick, hlive, if_pos rfl, Res.bind, kickEp_of_ends hlive he, hd]
    rfl
  · rw [kicks, hkick, hlive, if_pos rfl, Res.bind, kickEp_of_ends hlive he, hlive']
    rfl

/-! ## Kicks without requests -/

/-- `t` is `s` after the calls `cs`, and in no call if `s` was in none. -/
structure AfterCalls (s : State) (cs : List Call) (t : State) : Prop where
  calls : t.calls = s.calls ++ cs
  inCall : s.inCall = none → t.inCall = none
  frame : t = { s with trace := t.trace, inCall := t.inCall }

theorem AfterCalls.refl (s : State) : AfterCalls s [] s := ⟨(List.append_nil _).symm, id, rfl⟩

theorem AfterCalls.trans {s t u : State} {cs cs' : List Call} (h : AfterCalls s cs t) (h' : AfterCalls t cs' u) :
    AfterCalls s (cs ++ cs') u where
  calls := by rw [h'.calls, h.calls, List.append_assoc]
  inCall hs := h'.inCall (h.inCall hs)
  frame := h'.frame.trans (congrArg (fun v : State => { v with trace := u.trace, inCall := u.inCall }) h.frame)

theorem dspCall_noRequests {s : State} (h : s.dspAnswers = []) (c : Coproc) (call : Call) :
    ∃ t, dspCall c call s = .ok () t ∧ AfterCalls s [call] t := by
  refine ⟨{ s with trace := call :: s.trace, inCall := none }, ?_, s.log_calls call, fun _ => rfl, rfl⟩
  have hnext : s.nextAnswer = [] := by rw [State.nextAnswer, h, List.headD_nil]
  have htail : s.dspAnswers.tail = s.dspAnswers := by rw [h, List.tail_nil]
  rw [dspCall, hnext]
  exact congrArg (fun as => Res.ok () { s with trace := call :: s.trace, dspAnswers := as, inCall := none }) htail

theorem AfterCalls.dspAnswers {s t : State} {cs : List Call} (h : AfterCalls s cs t) : t.dspAnswers = s.dspAnswers := by
  rw [h.frame]

theorem AfterCalls.rst {s t : State} {cs : List Call} (h : AfterCalls s cs t) (c : Coproc) : t.rst c = s.rst c := by
  rw [h.frame]
  cases c <;> rfl

theorem AfterCalls.cfg {s t : State} {cs : List Call} (h : AfterCalls s cs t) : t.cfg = s.cfg := by
  rw [h.frame]

/-- The calls of the GP kick, as GPRST says (rule R269). -/
def State.gpKickCalls (s : State) : List Call :=
  if s.cfg.rstRunning (s.rst .gp) then [.dspStartFrame .gp, .dspRun .gp s.cfg.gpRunCycles] else []

/-- The calls of the EP kick, as EPRST says (rule R270). -/
def State.epKickCalls (s : State) : List Call := if s.cfg.rstRunning (s.rst .ep) then [.dspStartFrame .ep] else []

theorem State.kickCalls_eq (s : State) : s.kickCalls = s.gpKickCalls ++ s.epKickCalls := rfl

theorem kickGp_noRequests {s : State} (h : s.dspAnswers = [] ∨ s.gpKickCalls = []) :
    ∃ t, kickGp s = .ok () t ∧ AfterCalls s s.gpKickCalls t := by
  unfold kickGp
  unfold State.gpKickCalls at h ⊢
  split
  · next hr =>
    have hans := h.resolve_right (by simp [hr])
    obtain ⟨t, hstart, ht⟩ := dspCall_noRequests hans .gp (.dspStartFrame .gp)
    obtain ⟨u, hrun, hu⟩ := dspCall_noRequests (ht.dspAnswers.trans hans) .gp (.dspRun .gp t.cfg.gpRunCycles)
    rw [hstart, Res.bind]
    refine ⟨u, hrun, ?_⟩
    rw [← ht.cfg]
    exact ht.trans hu
  · exact ⟨s, rfl, .refl s⟩

theorem kickEp_noRequests {s : State} (h : s.dspAnswers = [] ∨ s.epKickCalls = []) :
    ∃ t, kickEp s = .ok () t ∧ AfterCalls s s.epKickCalls t := by
  unfold kickEp
  unfold State.epKickCalls at h ⊢
  split
  · next hr => exact dspCall_noRequests (h.resolve_right (by simp [hr])) .ep _
  · exact ⟨s, rfl, .refl s⟩

/-- Kicks during which no request runs make their calls and end the tick Scheduled (rules R269 to R271). -/
theorem kicks_noRequests {s : State} (h : s.dspAnswers = [] ∨ s.kickCalls = []) :
    ∃ t, kicks s = .ok () t ∧ t.calls = s.calls ++ s.kickCalls ∧ (s.inCall = none → t.inCall = none) ∧
      t = { s with trace := t.trace, inCall := t.inCall, mix := none, sched := .scheduled } := by
  rw [State.kickCalls_eq, List.append_eq_nil_iff] at h
  obtain ⟨g, hg, hgc⟩ := kickGp_noRequests (h.imp_right And.left)
  have hep : g.epKickCalls = s.epKickCalls := by rw [State.epKickCalls, State.epKickCalls, hgc.cfg, hgc.rst]
  obtain ⟨e, he, hec⟩ := kickEp_noRequests (h.imp hgc.dspAnswers.trans fun h => hep.trans h.2)
  have hall := hgc.trans hec
  rw [hep] at hall
  refine ⟨(discardMix e).setSched .scheduled, ?_, hall.calls, hall.inCall, ?_⟩
  · rw [kicks, hg, Res.bind, he]
    rfl
  · exact congrArg (fun u : State => (discardMix u).setSched .scheduled) hall.frame

/-! ## The publication -/

theorem range_mul (n m : Nat) :
    List.range (n * m) = (List.range n).flatMap fun b => (List.range m).map (b * m + ·) := by
  induction n with
  | zero => simp
  | succ n ih => rw [Nat.succ_mul, List.range_add, ih, List.range_succ, List.flatMap_append, List.flatMap_singleton]

/-- An empty mix buffer is published as 1024 zero words, in order of their addresses (rule R268). -/
theorem publishCalls_zero (cfg : Config) : publishCalls cfg MixBuffer.zero =
    (List.range 1024).map fun i => .dspWriteMemory .gp .x (cfg.mixbufBase + i) 0#32 := by
  have hword (b i : Fin 32) : MixBuffer.zero[b][i] &&& mixPublishMask = 0#32 := by simp [MixBuffer.zero]
  rw [publishCalls, show 1024 = 32 * 32 from rfl, range_mul, ← List.map_coe_finRange_eq_range, List.flatMap_map,
    List.map_flatMap]
  simp only [hword, List.map_map, Function.comp_def, Nat.add_assoc]

theorem publish_topReg (s : State) (r : TopReg) : (publish s).topReg r = s.topReg r :=
  State.logAll_topReg s _ r

/-- The publication adds its calls to a tour (rule R268). -/
theorem Toured.publish {s t : State} {rs : List TopReg} {hs : List Word} {cs : List Call} (h : Toured s rs hs cs t) :
    Toured s rs hs (cs ++ publishCalls s.cfg (s.mixed hs)) (publish t) := by
  have hpub : Machine.publish t = t.logAll (publishCalls s.cfg (s.mixed hs)) := by
    rw [Machine.publish, h.cfg, h.mix]
    rfl
  rw [hpub]
  exact h.logAll _

/-! ## A tick after its walks -/

section
variable {s u : State} {rs : List TopReg} {hs : List Word} {cs : List Call} (h : Toured s rs hs cs u)
  (hl : s.live = true) (ha : s.timerArmed = true) (hf : frameTick s = kicks u)
include h hl ha hf

/-- After its publication a tick ends where its kicks end (rules R271, R273, R302). -/
theorem Toured.tick_of_kicks : ∀ g, gpKickEnds u g →
    (g.live = false → exec .tick s = .next g) ∧
      (g.live = true → ∀ e, epKickEnds g e → (e.live = false → exec .tick s = .next e) ∧
        (e.live = true → exec .tick s = .next { e with mix := none, sched := .scheduled })) := by
  intro g hg
  rw [exec_tick hl ha, hf]
  obtain ⟨hdead, hlive⟩ := kicks_of_ends (h.live.trans hl) hg
  refine ⟨fun hd => congrArg Res.outcome (hdead hd), fun hg e he => ?_⟩
  obtain ⟨hdead', hlive'⟩ := hlive hg e he
  exact ⟨fun hd => congrArg Res.outcome (hdead' hd), fun hd => congrArg Res.outcome (hlive' hd)⟩

/-- Without requests the kicks' calls are the tick's last, and it ends Scheduled (rules R269 to R271). -/
theorem Toured.tick_noRequests (hreq : s.dspAnswers = [] ∨ s.kickCalls = []) : ∃ t, exec .tick s = .next t ∧
    t.calls = s.calls ++ [.timerArm 10] ++ cs ++ s.kickCalls ∧ (s.inCall = none → t.inCall = none) ∧
    t = { u with trace := t.trace, inCall := t.inCall, mix := none, sched := .scheduled } := by
  have hans : u.dspAnswers = s.dspAnswers := (congrArg State.dspAnswers h.beside :)
  have hin : u.inCall = s.inCall := (congrArg State.inCall h.beside :)
  have hkicks : u.kickCalls = s.kickCalls := by rw [State.kickCalls, State.kickCalls, h.cfg, h.rst, h.rst]
  rw [← hans, ← hkicks] at hreq
  obtain ⟨t, ht, hcalls, hcall, hframe⟩ := kicks_noRequests hreq
  refine ⟨t, ?_, ?_, fun hs => hcall (hin.trans hs), hframe⟩
  · rw [exec_tick hl ha, hf, ht]
    rfl
  · rw [hcalls, h.calls, hkicks]

end

/-- The walk of one list leaves the list registers of the others (rule R37). -/
theorem traverse_listCurrent {l l' : ListId} {s t : State} (hw : s.cfg.wf = true) (h : traverse l s = .ok () t)
    (hn : l' ≠ l) : t.topReg (.listCurrent l') = s.topReg (.listCurrent l') := by
  have hsteps := traverse_does l s hw
  rw [h] at hsteps
  refine Steps.topReg hsteps hw (TopReg.mem_all _ nofun) fun e he hst => ?_
  cases e with
  | top r v =>
    obtain rfl : r = .listCurrent l' := hst
    exact hn he
  | trap => simp [Effect.stores] at hst
  | entry | ists | reset => exact he
  | _ => exact hst

theorem frameTick_of_traverses {s t u v : State}
    (h2d : traverse .l2d (startMix (s.armTimer.setSched .running)) = .ok () t) (h3d : traverse .l3d t = .ok () u)
    (hmp : traverse .mp u = .ok () v) : frameTick s = kicks (publish v) := by
  rw [frameTick, h2d, Res.bind, h3d, Res.bind, hmp]
  rfl

/-- After the three walks each CVL_L is as its own walk left it. -/
theorem listCurrent_of_traverses {t u v : State} {x : Word} (hwt : t.cfg.wf = true)
    (hwu : u.cfg.wf = true) (h3d : traverse .l3d t = .ok () u) (hmp : traverse .mp u = .ok () v)
    (ht : t.topReg (.listCurrent .l2d) = x) (hu : u.topReg (.listCurrent .l3d) = x)
    (hv : v.topReg (.listCurrent .mp) = x) : ∀ l, v.topReg (.listCurrent l) = x := by
  intro l
  cases l with
  | l2d => rw [traverse_listCurrent (l' := .l2d) hwu hmp nofun, traverse_listCurrent (l' := .l2d) hwt h3d nofun, ht]
  | l3d => rw [traverse_listCurrent (l' := .l3d) hwu hmp nofun, hu]
  | mp => exact hv

/-- Settles O57: the three walks end at once, and the buffer that is published is empty. -/
theorem emptyTickPublishesAndKicks : Obligations.EmptyTickPublishesAndKicks := by
  intro s hw hl ha hcall htop
  have hsub : [TopReg.listCurrent .l2d, .listCurrent .l3d, .listCurrent .mp] ⊆ tourRegs := by decide
  obtain ⟨ht, tour2⟩ := (Toured.start s hsub).traverse_empty hw (l := .l2d) (by simp) (htop .l2d)
  obtain ⟨hu, tour3⟩ := tour2.traverse_empty hw (l := .l3d) (by simp) (htop .l3d)
  obtain ⟨hv, tourm⟩ := tour3.traverse_empty hw (l := .mp) (by simp) (htop .mp)
  have hcur := listCurrent_of_traverses (tour2.wf hw) (tour3.wf hw) hu hv (State.topReg_setTopReg_self ..)
    (State.topReg_setTopReg_self ..) (State.topReg_setTopReg_self ..)
  have hf := frameTick_of_traverses ht hu hv
  have hcur' (l : ListId) := (publish_topReg _ _).trans (hcur l)
  have tour := tourm.publish
  generalize publish _ = u at hf hcur' tour
  rw [List.nil_append, show s.mixed [] = MixBuffer.zero from rfl, publishCalls_zero] at tour
  have hframe := tour.frame ha
  have hline : u.irqLine = s.irqLine := tour.irqLine
  rw [hline] at hframe
  refine ⟨fun hans => ?_, u, Config.nowMs s.draws, tour.calls, hcur', tour.regs, hframe, tour.tick_of_kicks hl ha hf⟩
  obtain ⟨t, ht, htcalls, htin, htframe⟩ := tour.tick_noRequests hl ha hf (.inl hans)
  have hbank : t.topBank = u.topBank := (congrArg State.topBank htframe :)
  have hregs (r : TopReg) : t.topReg r = u.topReg r := (congrArg (State.topReg · r) htframe :)
  refine ⟨t, Config.nowMs s.draws, ht, ?_, fun l => (hregs _).trans (hcur' l), ?_, ?_⟩
  · rw [htcalls, State.kickCalls_eq, ← List.append_assoc]
    rfl
  · rw [htframe]
    exact tour.regs
  · rw [(htin hcall).trans hcall.symm, hframe] at htframe
    rw [hbank]
    exact htframe

/-- The calls of the visits hold a P_MIX call for each active voice, in order (rules R266, R267). -/
theorem filterMap_mixed_visitCalls (s : State) (hs : List Word) :
    (hs.flatMap s.visitCalls).filterMap Call.mixed = hs.filter s.isActive := by
  induction hs with
  | nil => rfl
  | cons h hs ih =>
    rw [List.flatMap_cons, List.filterMap_append, ih, State.visitCalls, List.filter_cons]
    split
    · rfl
    · split <;> rfl

theorem filterMap_mixed_publishCalls (cfg : Config) (m : MixBuffer) :
    (publishCalls cfg m).filterMap Call.mixed = [] := by
  refine List.filterMap_eq_nil_iff.mpr fun c hc => ?_
  obtain ⟨b, -, hc⟩ := List.mem_flatMap.mp hc
  obtain ⟨i, -, rfl⟩ := List.mem_map.mp hc
  rfl

/-- Settles O58: each walk carries the tour to the end of its list, and the kicks follow the publication. -/
theorem tickVisitsEveryVoiceOnce : Obligations.TickVisitsEveryVoiceOnce := by
  intro s h2d h3d hmp hs hw hl ha hc2 hc3 hcm hd2 hd3 hdm hhs hn hvis
  subst hhs
  have hall := visitable_of_all hvis
  obtain ⟨hv23, hvm⟩ := List.forall_mem_append.mp hall
  obtain ⟨hv2, hv3⟩ := List.forall_mem_append.mp hv23
  obtain ⟨t2, ht, tour2, hcur2⟩ := (Toured.start s listRegs_subset).traverse_chain hw hn
    (listRegs_mem .l2d).1 (listRegs_mem .l2d).2 hd2 hv2 hc2
  obtain ⟨t3, hu, tour3, hcur3⟩ := tour2.traverse_chain hw hn (listRegs_mem .l3d).1 (listRegs_mem .l3d).2
    hd3 hv3 hc3
  obtain ⟨tm, hv, tourm, hcurm⟩ := tour3.traverse_chain hw hn (listRegs_mem .mp).1 (listRegs_mem .mp).2 hdm hvm hcm
  have hcur := listCurrent_of_traverses (tour2.wf hw) (tour3.wf hw) hu hv hcur2 hcur3 hcurm
  have hf := frameTick_of_traverses ht hu hv
  rw [List.nil_append, List.nil_append, ← List.flatMap_append, ← List.flatMap_append] at tourm
  have hcur' (l : ListId) := (publish_topReg tm _).trans (hcur l)
  have tour := tourm.publish
  generalize publish tm = u at hf hcur' tour
  refine ⟨u, Config.nowMs s.draws, _, s.mixed (h2d ++ h3d ++ hmp), ?_, ?_, rfl, rfl, hcur', tour.fectl, tour.ists,
    tour.irqLine, tour.regs.mono (State.touched_subset listRegs_subset _).2, tour.frame ha, fun hreq => ?_,
    tour.tick_of_kicks hl ha hf⟩
  · rw [tour.calls, List.append_assoc s.calls, ← List.append_assoc [Call.timerArm 10]]
  · rw [List.filterMap_append, List.filterMap_append, filterMap_mixed_visitCalls, filterMap_mixed_publishCalls,
      List.append_nil]
    rfl
  · obtain ⟨t, ht, htcalls, -, htframe⟩ := tour.tick_noRequests hl ha hf hreq
    refine ⟨t, ht, ?_, ?_, ?_, ?_, ?_, fun w a => ?_, htframe⟩
    · exact (congrArg State.live htframe :).trans (tour.live.trans hl)
    · exact (congrArg State.sched htframe :)
    · exact (congrArg State.timerArmed htframe :).trans (congrArg State.timerArmed tour.beside :)
    · exact (congrArg State.mem htframe :).trans tour.mem
    · rw [htcalls, List.append_assoc s.calls, ← List.append_assoc [Call.timerArm 10]]
    · rw [htframe]
      cases w <;> rfl

end Sys2Proof.Machine
end

section
/-! The two commands that do nothing but store their argument (rules R231, R232, R236). -/

namespace Sys2Proof.Machine

/-- Settles O18: each of the two commands is the host method that latches its pair and stores the argument in its
register. -/
theorem argumentCommandsStoreTheWholeArgument : Obligations.ArgumentCommandsStoreTheWholeArgument := by
  intro s arg hw hl ha
  constructor
  · simp only [exec, execSetAntecedentVoice, setAntecedentVoice]
    exact hostMethod_storeArgument hw hl ha _ arg nofun nofun
  · simp only [exec, execSetCurrentVoice, setCurrentVoice]
    exact hostMethod_storeArgument hw hl ha _ arg nofun nofun

end Sys2Proof.Machine
end

section
/-! When a tick has a step, and the buffer it mixes into (rules R261, R264). -/

namespace Sys2Proof.Machine

/-! ## The timer enables a tick -/

/-- Settles O55: a live device's tick is its operation, and that refuses while the timer is disarmed. -/
theorem disarmedTickHasNoStep : Obligations.DisarmedTickHasNoStep := by
  intro s hl ha
  calc exec .tick s = (if s.timerArmed then frameTick s else .refused .tickNotEnabled).outcome := event_live hl _
    _ = .refused .tickNotEnabled := by rw [ha]; rfl

/-! ## The mix buffer is fresh -/

theorem MixBuffer.zero_cell (b i : Fin 32) : MixBuffer.zero[b][i] = 0#32 := by
  simp [MixBuffer.zero]

/-- The buffer of an earlier tick is overwritten (rule R264). -/
theorem startMix_setMix (s : State) (m : Option MixBuffer) : startMix { s with mix := m } = startMix s := rfl

/-- A tick makes its buffer before anything of it reads one (rules R263, R264). -/
theorem frameTick_setMix (s : State) (m : Option MixBuffer) : frameTick { s with mix := m } = frameTick s := by
  have hstart : startMix (({ s with mix := m } : State).armTimer.setSched .running) =
      startMix (s.armTimer.setSched .running) := startMix_setMix (s.armTimer.setSched .running) m
  rw [frameTick, hstart, ← frameTick]

/-- Neither what enables an event nor what refuses it looks at the mix buffer (rules R302, R305). -/
theorem event_setMix {α : Type} (s : State) (m : Option MixBuffer) (r : Res α) :
    event { s with mix := m } r = event s r := rfl

/-- Settles O56: the tick's first use of the buffer is to make it, with every cell 0. -/
theorem tickStartsFromAFreshMixBuffer : Obligations.TickStartsFromAFreshMixBuffer := by
  intro s m
  refine ⟨⟨.zero, State.startMix_mix s, MixBuffer.zero_cell⟩, ?_⟩
  simp only [exec, execTick, event_setMix, frameTick_setMix]

end Sys2Proof.Machine
end

section
/-! Device status and benign accesses: a Faulted or Hung device refuses every event but device reset (rules R272, R302,
R305), and the benign accesses of rule R304 change no status. -/

namespace Sys2Proof.Machine

/-! ## A dead device -/

theorem event_faulted {α : Type} {s : State} (h : s.fault ≠ none) (r : Res α) :
    event s r = .refused .deviceFaulted :=
  if_pos (Option.isSome_iff_ne_none.mpr h)

theorem event_hung {α : Type} {s : State} (hf : s.fault = none) (hh : s.hung = true) (r : Res α) :
    event s r = .refused .deviceHung := by
  rw [event, if_neg (by simp [hf]), if_pos hh]

/-- Settles O4: every other instruction is an event, and an event looks at the fault first and then at the hang. -/
theorem deadDeviceRefusesEveryEvent : Obligations.DeadDeviceRefusesEveryEvent := by
  intro i s hi
  obtain ⟨r, hr⟩ := exec_eq_event hi s
  rw [hr]
  exact ⟨fun hf => event_faulted hf r, fun hf hh => event_hung hf hh r⟩

/-! ## Benign accesses -/

/-- An entry that is not listed holds 0, in canonical form or not (rule R51). -/
theorem Cells.get_of_notMem {n : Nat} {m : List (Nat × BitVec n)} {a : Nat} (h : ∀ u, (a, u) ∉ m) :
    Cells.get m a = 0#n := by
  induction m with
  | nil => rfl
  | cons c m ih =>
    have hne : a ≠ c.1 := fun he => h c.2 (he ▸ List.mem_cons_self)
    rw [Cells.get, if_neg hne]
    exact ih fun u hu => h u (List.mem_cons_of_mem c hu)

/-- A register that was never written reads 0 (rules R51, R304). -/
theorem State.reg_of_notMem {s : State} {w : Window} {a : Nat} (h : ∀ u, (a, u) ∉ s.bank w) : s.reg w a = 0#32 :=
  Cells.get_of_notMem h

/-- A live device's access of the TOP window beyond its size: a read delivers 0, a write does nothing (rule R21). -/
theorem topAccess_outOfRange {s : State} (hl : s.live = true) {off : Word} (h : Window.top.outOfRange off = true) :
    topAccess off .read s = .next (s.deliver 0#32) ∧ ∀ v, topAccess off (.write v) s = .next s := by
  obtain ⟨ha, hle⟩ := Window.outOfRange_iff.mp h
  simp [topAccess, event_live hl, ha, hostReadTop, hostWriteTop, hle, Res.outcome]

/-- A live device's access of the GP or EP window beyond its size: a read delivers 0, a write does nothing (rule
R21). -/
theorem coprocAccess_outOfRange {s : State} (hl : s.live = true) {c : Coproc} {off : Word}
    (h : c.window.outOfRange off = true) :
    coprocAccess c off .read s = .next (s.deliver 0#32) ∧ ∀ v, coprocAccess c off (.write v) s = .next s := by
  obtain ⟨ha, hle⟩ := Window.outOfRange_iff.mp h
  refine ⟨?_, fun v => ?_⟩
  · rw [coprocAccess_read hl ha, hostReadCoproc_outOfRange hle]
  · rw [coprocAccess_write hl ha, hostWriteCoproc_outOfRange hle, Res.outcome]

/-- Settles O33: beyond the window's size the value read is 0, and inside it that of an entry that is not listed. -/
theorem benignAccessesNeverFault : Obligations.BenignAccessesNeverFault := by
  intro s c off v hl
  refine ⟨fun h => ?_, fun h => ?_, fun h hn => ?_, fun h hn => ?_⟩
  · exact (topAccess_outOfRange hl h).imp_right (· v)
  · exact (coprocAccess_outOfRange hl h).imp_right (· v)
  · rw [exec_rTopPlain hl h, State.reg_of_notMem hn]
    rfl
  · obtain ⟨ha, hlt, hp⟩ := Config.coprocPlain_read_iff.mp h
    have hread : exec (.gpepPlain c off .read) s = .next (hostReadCoproc c off.toNat s) := coprocAccess_read hl ha
    rw [hread, hostReadCoproc_plain hlt hp, State.reg_of_notMem hn]
    rfl

end Sys2Proof.Machine
end

section
/-! What may become pending in ISTS, and what drives the interrupt line (rules R125, R306, R307, R340): both follow from
the effects that an instruction may have. -/

namespace Sys2Proof.Machine

/-! ## Pending sources -/

/-- No ISTS bit but G and FET is set (rule R306). -/
def State.OnlyFePending (s : State) : Prop :=
  s.topReg .ists &&& ~~~(s.cfg.field.istsGlobal ||| s.cfg.field.istsFe) = 0#32

/-- An evaluation right after a store of ISTS sets no bit outside G and the stored word (rule R125). -/
theorem updateIrq_setIsts_onlyFePending {s : State} (hw : s.cfg.wf = true) {x : Word}
    (h : x &&& ~~~(s.cfg.field.istsGlobal ||| s.cfg.field.istsFe) = 0#32) :
    (updateIrq (s.setTopReg .ists x)).OnlyFePending := by
  have hg : s.cfg.field.istsGlobal &&& ~~~(s.cfg.field.istsGlobal ||| s.cfg.field.istsFe) = 0#32 := by grind
  have hists : (updateIrq (s.setTopReg .ists x)).topReg .ists &&&
      ~~~(s.cfg.field.istsGlobal ||| s.cfg.field.istsFe) = 0#32 := by
    rw [updateIrq_setIsts_ists hw, Config.istsAfterIrq_and hg, h]
  exact hists

/-- Clearing ISTS bits sets none (rule R124). -/
theorem istsWrite_onlyFePending {s : State} (hw : s.cfg.wf = true) (h : s.OnlyFePending) (v : Word) :
    (istsWrite v s).OnlyFePending := by
  refine updateIrq_setIsts_onlyFePending hw ?_
  unfold State.OnlyFePending at h
  unfold writeOneToClear
  grind

/-- The trap raises FET alone (rule R238). -/
theorem enterTrap_onlyFePending {s : State} (hw : s.cfg.wf = true) (h : s.OnlyFePending) :
    (enterTrap s).OnlyFePending := by
  rw [enterTrap_eq hw]
  refine updateIrq_setIsts_onlyFePending (by exact hw) ?_
  unfold State.OnlyFePending at h
  simp only [State.setTopReg_cfg]
  grind

theorem deviceReset_onlyFePending (s : State) : (deviceReset s).OnlyFePending := BitVec.zero_and

/-- An instruction stores ISTS by an ISTS write, by the trap or by device reset alone (rules R122, R124, R238). -/
theorem mayDo_stores_ists {cfg : Config} {i : Instr} {e : Effect} (he : Effect.mayDo cfg i e)
    (hs : e.stores cfg .ists) : (∃ v, e = .ists v) ∨ e = .trap ∨ e = .reset := by
  cases e with
  | ists v => exact .inl ⟨v, rfl⟩
  | trap => exact .inr (.inl rfl)
  | reset => exact .inr (.inr rfl)
  | top r v => exact absurd hs (mayDo_top he).1
  | entry w a v =>
    obtain ⟨rfl, rfl⟩ := hs
    exact absurd rfl (mayDo_entry he).1
  | _ => exact hs.elim

/-- No effect of an instruction makes another source pending. -/
theorem Effect.apply_onlyFePending {i : Instr} {s : State} {e : Effect} (hw : s.cfg.wf = true)
    (he : Effect.mayDo s.cfg i e) (ha : e.admitted s) (h : s.OnlyFePending) : (e.apply s).OnlyFePending := by
  by_cases hs : e.stores s.cfg .ists
  · obtain ⟨v, rfl⟩ | rfl | rfl := mayDo_stores_ists he hs
    · exact istsWrite_onlyFePending hw h v
    · exact enterTrap_onlyFePending hw h
    · exact deviceReset_onlyFePending s
  · rw [State.OnlyFePending, Effect.apply_topReg hw (by decide) ha hs, Effect.apply_cfg]
    exact h

theorem exec_onlyFePending {i : Instr} {s t : State} (hw : s.cfg.wf = true) (h : exec i s = .next t)
    (hs : s.OnlyFePending) : t.OnlyFePending := by
  suffices t.cfg = s.cfg ∧ t.OnlyFePending from this.2
  refine (exec_effects hw h).rec_inv (P := fun u => u.cfg = s.cfg ∧ u.OnlyFePending) (fun e u he ha ⟨hc, hu⟩ => ?_)
    ⟨rfl, hs⟩
  rw [← hc] at hw he
  exact ⟨(e.apply_cfg u).trans hc, Effect.apply_onlyFePending hw he ha hu⟩

/-- A store of the guest CPU changes guest memory alone (rule R67). -/
theorem guestStore_next {a : Nat} {v : Word} {s t : State} (h : guestStore a v s = .next t) :
    t = { s with mem := s.mem.store a (wordBytes v) } := by
  unfold guestStore at h
  split at h
  · cases h
    rfl
  · cases h

theorem step_cfg {s t : State} (hw : s.cfg.wf = true) (h : step s = .next t) : t.cfg = s.cfg := by
  obtain ⟨rest, ⟨a, v, hg⟩ | ⟨i, hi⟩⟩ := step_next h
  · rw [guestStore_next hg]
  · exact (exec_effects (by exact hw) hi).cfg

/-- A store of the guest CPU leaves the registers, and no instruction makes another source pending. -/
theorem step_onlyFePending {s t : State} (hw : s.cfg.wf = true) (h : step s = .next t) (hs : s.OnlyFePending) :
    t.OnlyFePending := by
  obtain ⟨rest, ⟨a, v, hg⟩ | ⟨i, hi⟩⟩ := step_next h
  · rw [guestStore_next hg]
    exact hs
  · exact exec_onlyFePending (by exact hw) hi hs

/-- Settles O9: a step keeps the other sources clear, and the masks are those of the one configuration. -/
theorem onlyTheFrontEndBitBecomesPending : Obligations.OnlyTheFrontEndBitBecomesPending := by
  intro s t hw h hs
  rw [← step_cfg hw h]
  exact step_onlyFePending hw h hs

/-! ## What drives the line -/

/-- The kind holds no effect that drives the interrupt line (rule R307). -/
structure Effect.SparesLine (K : Effect → Prop) : Prop where
  ists : ∀ v, ¬K (.ists v)
  trap : ¬K .trap
  reset : ¬K .reset

theorem Effect.SparesLine.mono {K K' : Effect → Prop} (h : Effect.SparesLine K') (hK : ∀ e, K e → K' e) :
    Effect.SparesLine K :=
  ⟨fun v he => h.ists v (hK _ he), fun he => h.trap (hK _ he), fun he => h.reset (hK _ he)⟩

theorem drivesNoIrq_nil : drivesNoIrq [] := ⟨List.not_mem_nil, List.not_mem_nil⟩

theorem drivesNoIrq.append {cs cs' : List Call} (h : drivesNoIrq cs) (h' : drivesNoIrq cs') :
    drivesNoIrq (cs ++ cs') := by
  simp only [drivesNoIrq, List.mem_append, not_or]
  exact ⟨⟨h.1, h'.1⟩, h.2, h'.2⟩

theorem drivesNoIrq_of_plain {c : Call} (h : c.plain = true) : drivesNoIrq [c] := by
  cases c with
  | irqAssert | irqDeassert => cases h
  | _ => simp [drivesNoIrq]

/-- An admitted effect that is no evaluation and no device reset leaves the line, and its calls do not drive it. -/
theorem Effect.apply_line {K : Effect → Prop} (hK : Effect.SparesLine K) {s : State} {e : Effect} (he : K e)
    (ha : e.admitted s) : (e.apply s).irqLine = s.irqLine ∧ drivesNoIrq (e.calls s) := by
  cases e with
  | ists v => exact (hK.ists v he).elim
  | trap => exact (hK.trap he).elim
  | reset => exact (hK.reset he).elim
  | log c => exact ⟨rfl, drivesNoIrq_of_plain ha⟩
  | entry w a v => exact ⟨State.setReg_irqLine .., drivesNoIrq_nil⟩
  | store | run | arm | disarm | mix => exact ⟨rfl, by simp [Effect.calls, drivesNoIrq]⟩
  | _ => exact ⟨rfl, drivesNoIrq_nil⟩

/-- A sequence of such effects leaves the line, and drives it by no call. -/
theorem Steps.line {K : Effect → Prop} {s t : State} (h : Steps K s t) (hK : Effect.SparesLine K) :
    t.irqLine = s.irqLine ∧ ∃ cs, t.calls = s.calls ++ cs ∧ drivesNoIrq cs := by
  induction h with
  | refl => exact ⟨rfl, [], (List.append_nil _).symm, drivesNoIrq_nil⟩
  | @step u e _ he ha ih =>
    obtain ⟨hline, cs, hcs, hno⟩ := ih
    obtain ⟨hline', hno'⟩ := Effect.apply_line hK he ha
    exact ⟨hline'.trans hline, cs ++ e.calls u, by rw [Effect.apply_calls, hcs, List.append_assoc], hno.append hno'⟩

/-! ## Which instructions drive the line -/

theorem command_sparesLine : Effect.SparesLine Effect.command := ⟨fun _ => id, id, id⟩

theorem hostRead_sparesLine : Effect.SparesLine Effect.hostRead := ⟨fun _ => id, id, id⟩

/-- Of the writes of TOP, only ISTS's evaluates the line (rules R122, R124). -/
theorem topWrite_sparesLine {cfg : Config} {a : Nat} (h : a ≠ cfg.addrOf .ists) (v : Word) :
    Effect.SparesLine (Effect.topWrite cfg a v) := by
  refine .mono (K' := fun e => e.sectl v ∨ e.notify v ∨ e = .entry .top a v) ?_ fun e he => ?_
  · constructor <;> simp [Effect.sectl, Effect.notify]
  · rw [Effect.topWrite, if_neg h] at he
    split_ifs at he
    · exact .inl he
    · exact .inr (.inl he)
    · exact .inr (.inr he)

theorem rstWrite_sparesLine (cfg : Config) (c : Coproc) (v : Word) : Effect.SparesLine (Effect.rstWrite cfg c v) := by
  constructor <;> simp [Effect.rstWrite, Effect.call]

theorem coprocAccess_sparesLine (cfg : Config) (c : Coproc) (off : Word) (acc : Access) :
    Effect.SparesLine (Effect.coprocAccess cfg c off acc) := by
  cases acc with
  | read => exact hostRead_sparesLine
  | write v => constructor <;> simp [Effect.coprocAccess, Effect.coprocWrite, Effect.rstWrite, Effect.call]

/-- Well-formed instructions other than an ISTS write, an idle notification, a tick and device reset have no effect on
the line: their offsets are not that of ISTS (rules R307, R340). -/
theorem mayDo_sparesLine {cfg : Config} {i : Instr} (hw : cfg.wf = true) (hi : i.wf cfg = true)
    (hists : ∀ v, i ≠ .wIsts v) (hidle : ∀ h, i ≠ .idleVoiceNotify h) (htick : i ≠ .tick) (hreset : i ≠ .reset) :
    Effect.SparesLine (Effect.mayDo cfg i) := by
  cases i with
  | wIsts v => exact absurd rfl (hists v)
  | idleVoiceNotify h => exact absurd rfl (hidle h)
  | tick => exact absurd rfl htick
  | reset => exact absurd rfl hreset
  | setAntecedentVoice | setCurrentVoice =>
    exact command_sparesLine.mono fun e he => he.elim e.command_of_latches (by rintro ⟨v, rfl⟩; trivial)
  | voiceOn | voiceOff | voicePause => exact command_sparesLine.mono Effect.command_of_voiceCommand
  | unknownMethod => exact command_sparesLine
  | methodSubmit acc => cases acc with
    | submit => exact command_sparesLine
    | read => exact hostRead_sparesLine
  | rXgscnt | rTopPlain | rSubwindow => exact hostRead_sparesLine
  | wTopPlain off v =>
    obtain ⟨-, -, hne, -⟩ := Config.topPlainWrite_iff.mp hi
    exact topWrite_sparesLine hne v
  | topOutOfRange off acc => cases acc with
    | read => exact hostRead_sparesLine
    | write v =>
      have hout := (Window.outOfRange_iff.mp hi).2
      have hin := (Config.addrOf_ok hw (r := .ists) (by decide)).2
      exact topWrite_sparesLine (by omega) v
  | wRst c v => exact rstWrite_sparesLine ..
  | wSubwindow c off v => exact coprocAccess_sparesLine cfg c off (.write v)
  | gpepPlain | gpepOutOfRange => exact coprocAccess_sparesLine ..
  | wSectl | wFememdata | scratchReq | fifoReq => exact ⟨fun _ => id, id, id⟩

/-- Settles O11: no other instruction has an effect that drives the line. -/
theorem onlyEvaluationsDriveTheLine : Obligations.OnlyEvaluationsDriveTheLine := by
  intro i s t hw hi h hists hidle htick hreset
  exact (exec_effects hw h).line (mayDo_sparesLine hw hi hists hidle htick hreset)

end Sys2Proof.Machine
end

section
/-! Device reset, from every state (rules R51, R330). -/

namespace Sys2Proof.Machine

theorem exec_reset (s : State) : exec .reset s = .next (deviceReset s) := rfl

/-- Every window is empty after device reset, and an entry that is not listed holds 0 (rule R51). -/
@[simp] theorem State.deviceReset_bank (s : State) (w : Window) : (deviceReset s).bank w = [] := by
  cases w with
  | top => exact s.deviceReset_topBank
  | gp => exact s.deviceReset_gpBank
  | ep => exact s.deviceReset_epBank

@[simp] theorem State.deviceReset_reg (s : State) (w : Window) (a : Nat) : (deviceReset s).reg w a = 0#32 :=
  State.reg_of_notMem (by simp)

/-- Settles O2: device reset checks neither the fault nor the hang, so the state it leaves is the same update of every
state; the windows read 0 because they are empty. -/
theorem deviceResetClearsTheDevice : Obligations.DeviceResetClearsTheDevice := fun s =>
  ⟨deviceReset s, exec_reset s, s.deviceReset_reg, s.deviceReset_timerArmed, s.deviceReset_sched,
    s.deviceReset_irqLine, s.deviceReset_fault, s.deviceReset_hung, s.deviceReset_mix, s.deviceReset_calls, rfl⟩

end Sys2Proof.Machine
end
